-- ==== Sys2Proof/Word.lean ====
section
/-! DEFINITION. The words and byte sequences of PS-CODEC (00_scope.md R15, R16) and the three fault
kinds (60_exceptions.md R144). -/

namespace Sys2Proof

/-- A byte: 8 bits, unsigned (R15). -/
abbrev Byte := BitVec 8

/-- A 32-bit unsigned word: `outSize`, `decompressedSize`, `fileCount`, an offset, a tag (R12, R14). -/
abbrev Word := BitVec 32

/-- A byte sequence, first byte first (R15). -/
abbrev Bytes := List Byte

/-- A file or entry name: a string, held as its characters (R35, R138). -/
abbrev Name := List Char

/-- The three fault kinds of R144; a fault carries its kind and nothing else. -/
inductive FaultKind where
  | unsupportedCompressionType
  | corruptDataError
  | truncatedInputError
  deriving DecidableEq, Repr

/-- What a codec, or an external deflate function (R17, R131), returns: bytes, or a fault kind. -/
inductive CodecResult where
  | ok (b : Bytes)
  | fault (k : FaultKind)
  deriving DecidableEq, Repr, Inhabited

end Sys2Proof
end

