-- ==== Sys2Proof/Syntax.lean ====
section
/-! DEFINITION. The instructions of PS-CODEC: one constructor for each row of the opcode table (30_encoding.md):
10 stream tokens, the container index, 8 entry headers and 15 host commands; and the container's records
(10_state.md R34 to R38), which the entry headers speak of. -/

namespace Sys2Proof

/-- `compressionType` (R36): the seven kinds of the source, and `unknown t` for a tag that no kind has. -/
inductive Kind where
  | none
  | lzss
  | slide
  | flideVariantA
  | flideVariantB
  | rle
  | inflate
  | unknown (t : Word)
  deriving DecidableEq, Repr

/-- The two Flide variants, which the suffixes `.fs` and `.fsa` choose between (R138). -/
inductive FlideVariant where
  | a
  | b
  deriving DecidableEq, Repr

/-- The state of an entry (R38). -/
inductive EntryState where
  | unloaded
  | decoded
  | reEncoded
  deriving DecidableEq, Repr

/-- An entry of the held container (R35). `data` is absent exactly while the entry is `unloaded` (R38). -/
structure Entry where
  name : Name
  kind : Kind
  size : Word
  raw : Bytes
  data : Option Bytes
  st : EntryState
  deriving DecidableEq, Repr

/-- The instructions (00_scope.md R19: a token is an instruction, a host command a system instruction). The fields
are those of the row's encoding; what a row reads besides (the literals of `RL.COPY`, the offsets after the index's
count, a command's operand buffers) it reads from the state when it runs. -/
inductive Instr where
  /-- `LZ.FLAG` (R67, R95): a flag byte. -/
  | lzFlag (f : Byte)
  /-- `LZ.LIT` (R68, R96): a literal byte. -/
  | lzLit (c : Byte)
  /-- `LZ.REF` (R69, R97): a ring offset and the raw length, `L = lraw + 3`. -/
  | lzRef (off : BitVec 10) (lraw : BitVec 6)
  /-- `SL.HDR` (R73, R107): the stream header, skipped. -/
  | slHdr (u : Word)
  /-- `SL.CW` (R74, R108): a codeword. -/
  | slCw (f : Word)
  /-- `SL.LIT` (R75, R109): a literal byte. -/
  | slLit (c : Byte)
  /-- `SL.REF2` (R76, R110): length nibble (not 0) and distance field. -/
  | slRef2 (n : BitVec 4) (d : BitVec 12)
  /-- `SL.REF3` (R77, R111): distance field and escape byte. -/
  | slRef3 (d : BitVec 12) (e : Byte)
  /-- `RL.COPY` (R81, R120): a count; the literals follow in the stream. -/
  | rlCopy (k : BitVec 7)
  /-- `RL.FILL` (R82, R121): a count and the byte to repeat. -/
  | rlFill (k : BitVec 7) (v : Byte)
  /-- `ARC.INDEX` (R84, R125): the file count; the offsets follow in the buffer. -/
  | arcIndex (count : Word)
  /-- `ENTRY.None` (R85, R129, R134). -/
  | entryNone (size : Word)
  /-- `ENTRY.LZSS` (R85, R129, R134). -/
  | entryLzss (size : Word)
  /-- `ENTRY.Slide` (R85, R129, R134). -/
  | entrySlide (size : Word)
  /-- `ENTRY.FlideVariantA` (R85, R129, R134). -/
  | entryFlideA (size : Word)
  /-- `ENTRY.FlideVariantB` (R85, R129, R134). -/
  | entryFlideB (size : Word)
  /-- `ENTRY.RLE` (R85, R129, R134). -/
  | entryRle (size : Word)
  /-- `ENTRY.Inflate` (R85, R129, R131, R134). -/
  | entryInflate (size : Word)
  /-- `ENTRY.Unknown` (R86, R129, R137). -/
  | entryUnknown (size : Word) (tag : Word)
  /-- `LZSS.DEC` (R94). -/
  | lzssDec
  /-- `LZSS.ENC` (R101). -/
  | lzssEnc
  /-- `SLIDE.DEC` (R106). -/
  | slideDec
  /-- `SLIDE.ENC` (R114). -/
  | slideEnc
  /-- `RLE.DEC` (R119). -/
  | rleDec
  /-- `RLE.ENC` (R123). -/
  | rleEnc
  /-- `ARC.LOAD` (R125). -/
  | arcLoad
  /-- `ARC.DECODE` (R128). -/
  | arcDecode
  /-- `ARC.READ` (R132). -/
  | arcRead
  /-- `ARC.UNPACK` (R133). -/
  | arcUnpack
  /-- `ARC.SAVE` (R135). -/
  | arcSave
  /-- `ARC.ADD` (R138). -/
  | arcAdd
  /-- `ARC.DEL` (R139). -/
  | arcDel
  /-- `ARC.REPLACE` (R140). -/
  | arcReplace
  /-- `ARC2.LOAD` (R141). -/
  | arc2Load
  deriving DecidableEq, Repr

end Sys2Proof
end

