-- ==== Sys2Proof/Config.lean ====
section
/-! DEFINITION. What the spec fixes as constants (00_scope.md R9 to R12, R14), the parameters it leaves open (R13)
as plain data with the spec's defaults, and the external functions as constants without a body (R17, R37, R131). -/

namespace Sys2Proof

/-! ## Constants -/

/-- `N`: the LZSS window (R9). -/
abbrev Config.lzWindow : Nat := 1024

/-- `F`: the longest LZSS match (R9). -/
abbrev Config.lzMaxMatch : Nat := 66

/-- `THRESHOLD`: the shortest LZSS match that is coded (R9). -/
abbrev Config.lzThreshold : Nat := 3

/-- `R0 = N - F`: where the ring cursor starts (R9, R25). -/
abbrev Config.lzStart : BitVec 10 := 0x3BE

/-- `NIL = N`: the null link of the encoder's trees (R28). -/
abbrev Config.nil : BitVec 11 := 1024

/-- `W`: the Slide lookback window (R10). -/
abbrev Config.slWindow : Nat := 4096

/-- `SL_MAX`: the longest Slide match (R10). -/
abbrev Config.slMaxMatch : Nat := 273

/-- Every buffer is shorter than this (R14). -/
abbrev Config.bufferLimit : Nat := 4294967296

/-! ## Parameters (R13) -/

/-- `TAG`: the tag of each of the seven kinds (R13). -/
structure Tags where
  none : Word
  lzss : Word
  slide : Word
  flideVariantA : Word
  flideVariantB : Word
  rle : Word
  inflate : Word
  deriving DecidableEq, Repr

/-- `LZSS_PAIR`: where the sixteen bits of an LZSS back-reference stand in its two bytes, given as a rearrangement of
the layout of R70: bit `j` of R70's 16-bit word (`b1` its high byte) is bit `perm[j]` of the stored word. -/
structure PairLayout where
  perm : List Nat
  deriving DecidableEq, Repr

/-- `SLIDE_TIE` (R118). -/
inductive SlideTie where
  | nearest
  | farthest
  deriving DecidableEq, Repr

/-- `LzssEncRef`, `SlideEncRef`: which deterministic function an encoder is (R13): the spec's reference encoder, or
another one, of which nothing is known but that it is a function of the input (R101, R114). -/
inductive EncoderFunction where
  | reference
  | other
  deriving DecidableEq, Repr

/-- The tag numbers R85 gives as the default. PRESUMED: the spec takes them from general knowledge (R13, D17). -/
def Tags.default : Tags :=
  { none := 0, lzss := 1, slide := 2, flideVariantA := 3, flideVariantB := 4, rle := 5, inflate := 7 }

/-- No rearrangement: the layout of R70 itself. PRESUMED: the spec takes it from general knowledge (R70, D4). -/
def PairLayout.default : PairLayout := { perm := [0, 1, 2, 3, 4, 5, 6, 7, 8, 9, 10, 11, 12, 13, 14, 15] }

/-- The parameters of R13 that are plain data, with the spec's defaults. They are fixed before the first command and
do not change (R166), so they stand in `State` and no step writes them. -/
structure Params where
  tags : Tags := Tags.default
  pair : PairLayout := PairLayout.default
  flideIsSlide : Bool := true
  entryAlign : Nat := 1
  slideTie : SlideTie := .nearest
  suffixFs : FlideVariant := .a
  suffixFsa : FlideVariant := .b
  lzssEncRef : EncoderFunction := .reference
  slideEncRef : EncoderFunction := .reference
  deriving DecidableEq, Repr

/-- The parameters at the spec's defaults (R13). -/
def Params.default : Params := {}

/-! ## External functions, uninterpreted -/

/-- `ZDecode(raw, size)`: the external deflate decompressor, a total function of its arguments of which nothing is
assumed (R17, R131, D20). -/
opaque Config.zDecode : Bytes → Word → CodecResult

/-- `ZEncode(data)`: the external deflate compressor (R17, R131, D20). -/
opaque Config.zEncode : Bytes → CodecResult

/-- `LzssEncRef(raw)` where the parameter is not the reference encoder: some function of the input. The spec asks that
its value lies in `EncLZSS(raw)` (R102); nothing of it is assumed here. -/
opaque Config.lzssEncOther : Bytes → Bytes

/-- `SlideEncRef(raw)` where the parameter is not the reference encoder (R115): likewise. -/
opaque Config.slideEncOther : Bytes → Bytes

/-- `NameInfer(fname, entries)`, one name for each index: a free value (R37, R143, D27). -/
opaque Config.nameInfer : Option Name → List Entry → Nat → Name

end Sys2Proof
end

