-- ==== Sys2Proof/WellFormed.lean ====
section
/-! DEFINITION. Which parameters are admissible (00_scope.md R13) and which instructions an encoding can stand for
(30_encoding.md R76, R86). -/

namespace Sys2Proof

/-- The seven tags, in the order of the kinds. -/
def Tags.toList (t : Tags) : List Word :=
  [t.none, t.lzss, t.slide, t.flideVariantA, t.flideVariantB, t.rle, t.inflate]

/-- `TAG` is injective (R13). -/
def Tags.wf (t : Tags) : Bool :=
  decide t.toList.Nodup

/-- A layout of the pair names each of the sixteen bits once (R69). -/
def PairLayout.wf (l : PairLayout) : Bool :=
  decide (l.perm.length = 16) && decide l.perm.Nodup && l.perm.all (fun i => decide (i < 16))

/-- The admissible parameters: `TAG` injective, `LZSS_PAIR` a layout of the sixteen bits, `ENTRY_ALIGN` not 0. -/
def Params.wf (p : Params) : Bool :=
  p.tags.wf && p.pair.wf && decide (0 < p.entryAlign)

/-- An instruction that some encoding stands for: `SL.REF2` has a length nibble of 1 to 15 (R76), and the tag of
`ENTRY.Unknown` is one that `TAG` maps no kind to (R86). Every other row admits every value of its fields (R71, R79,
R83). -/
def Instr.wf (p : Params) : Instr → Bool
  | .slRef2 n _ => decide (n ≠ 0)
  | .entryUnknown _ tag => !p.tags.toList.contains tag
  | .lzFlag _ | .lzLit _ | .lzRef _ _ | .slHdr _ | .slCw _ | .slLit _ | .slRef3 _ _ | .rlCopy _ | .rlFill _ _
  | .arcIndex _ | .entryNone _ | .entryLzss _ | .entrySlide _ | .entryFlideA _ | .entryFlideB _ | .entryRle _
  | .entryInflate _ | .lzssDec | .lzssEnc | .slideDec | .slideEnc | .rleDec | .rleEnc | .arcLoad | .arcDecode
  | .arcRead | .arcUnpack | .arcSave | .arcAdd | .arcDel | .arcReplace | .arc2Load => true

end Sys2Proof
end

