-- ==== Sys2Proof/Decode.lean ====
section
/-! DEFINITION. The decoder and the encoder, written from 30_encoding.md. A stream token's kind is not in its own bits
(R65): a context `Ctx` says what selects it (the flag, the address, the command port). -/

namespace Sys2Proof

/-! ## Byte order (R16, R51) -/

/-- Four bytes as a big-endian word (R16). -/
def be32 (a b c d : Byte) : Word := a ++ b ++ c ++ d

/-- `BE32(v)`: a word as four bytes, most significant first (R16). -/
def beBytes (w : Word) : Bytes :=
  [w.extractLsb' 24 8, w.extractLsb' 16 8, w.extractLsb' 8 8, w.extractLsb' 0 8]

/-! ## The LZSS pair (R69, R70) -/

/-- The stored word in the order of R70: bit `j` is the stored word's bit `perm[j]`. -/
def PairLayout.arrange (l : PairLayout) (w : BitVec 16) : BitVec 16 :=
  (BitVec.ofBoolListLE (l.perm.map (fun i => w.getLsbD i))).setWidth 16

/-- The stored word of a word in the order of R70: the inverse of `arrange`. -/
def PairLayout.store (l : PairLayout) (w : BitVec 16) : BitVec 16 :=
  (BitVec.ofBoolListLE ((List.range 16).map (fun i => w.getLsbD (l.perm.idxOf i)))).setWidth 16

/-- `off = b1 | ((b2 & 0xC0) << 2)` (R70), after the rearrangement of `LZSS_PAIR`. -/
def pairOffset (l : PairLayout) (b1 b2 : Byte) : BitVec 10 :=
  let w := l.arrange (b1 ++ b2)
  let x1 : BitVec 10 := (w.extractLsb' 8 8).setWidth 10
  let x2 : BitVec 10 := (w.extractLsb' 0 8).setWidth 10
  x1 ||| ((x2 &&& 0xC0) <<< 2)

/-- `lraw = b2 & 0x3F` (R70), after the rearrangement of `LZSS_PAIR`. -/
def pairLength (l : PairLayout) (b1 b2 : Byte) : BitVec 6 :=
  let w := l.arrange (b1 ++ b2)
  ((w.extractLsb' 0 8) &&& (0x3F : Byte)).setWidth 6

/-- The stored word of an offset and a raw length: `b1 = off & 0xFF`, `b2 = ((off >> 2) & 0xC0) | lraw` (R70). -/
def pairWord (l : PairLayout) (off : BitVec 10) (lraw : BitVec 6) : BitVec 16 :=
  let b1 : Byte := off.setWidth 8
  let b2 : Byte := ((off >>> 2).setWidth 8 &&& 0xC0) ||| lraw.setWidth 8
  l.store (b1 ++ b2)

/-- The first byte of a coded pair. -/
def pairByte1 (l : PairLayout) (off : BitVec 10) (lraw : BitVec 6) : Byte := (pairWord l off lraw).extractLsb' 8 8

/-- The second byte of a coded pair. -/
def pairByte2 (l : PairLayout) (off : BitVec 10) (lraw : BitVec 6) : Byte := (pairWord l off lraw).extractLsb' 0 8

/-! ## Tags and kinds (R36, R85, R86) -/

/-- `KindOf(t)`: the kind whose tag is `t`, or `unknown t` (R125). -/
def kindOf (t : Tags) (w : Word) : Kind :=
  if w = t.none then .none
  else if w = t.lzss then .lzss
  else if w = t.slide then .slide
  else if w = t.flideVariantA then .flideVariantA
  else if w = t.flideVariantB then .flideVariantB
  else if w = t.rle then .rle
  else if w = t.inflate then .inflate
  else .unknown w

/-- `TAG(kind)`; `TAG(Unknown(t)) = t` (R36). -/
def tagOf (t : Tags) : Kind → Word
  | .none => t.none
  | .lzss => t.lzss
  | .slide => t.slide
  | .flideVariantA => t.flideVariantA
  | .flideVariantB => t.flideVariantB
  | .rle => t.rle
  | .inflate => t.inflate
  | .unknown w => w

/-- The entry-header row of a kind, with the size it carries (R85, R86). -/
def entryInstr (size : Word) : Kind → Instr
  | .none => .entryNone size
  | .lzss => .entryLzss size
  | .slide => .entrySlide size
  | .flideVariantA => .entryFlideA size
  | .flideVariantB => .entryFlideB size
  | .rle => .entryRle size
  | .inflate => .entryInflate size
  | .unknown t => .entryUnknown size t

/-! ## The command codes (R92) -/

/-- The codes written to `CMD` (R92). -/
def commandTable : List (Byte × Instr) :=
  [(0x01, .lzssDec), (0x02, .lzssEnc), (0x03, .slideDec), (0x04, .slideEnc), (0x05, .rleDec), (0x06, .rleEnc),
   (0x10, .arcLoad), (0x11, .arcDecode), (0x12, .arcRead), (0x13, .arcUnpack), (0x14, .arcSave), (0x15, .arcAdd),
   (0x16, .arcDel), (0x17, .arcReplace), (0x18, .arc2Load)]

/-- The command of a code, if R92 gives it one. -/
def commandOf (code : Byte) : Option Instr :=
  (commandTable.find? (fun row => row.1 == code)).map (fun row => row.2)

/-! ## The decoder -/

/-- What selects a row besides its own bits (the table's `select`). -/
inductive Ctx where
  /-- The command port. -/
  | command
  /-- A flag is needed and the LZSS flag word is empty. -/
  | lzFlag
  /-- An LZSS token under this flag. -/
  | lzToken (flag : Bool)
  /-- Addresses 0 to 3 of a Slide stream. -/
  | slHeader
  /-- A flag is needed and the Slide codeword is empty. -/
  | slCodeword
  /-- A Slide token under this flag. -/
  | slToken (flag : Bool)
  /-- An RLE token. -/
  | rlToken
  /-- Address 0 of a container. -/
  | arcIndex
  /-- An entry header of a container. -/
  | arcEntry
  deriving DecidableEq, Repr

/-- What decoding answers: an instruction, or why there is none. -/
inductive Decoded where
  | instr (i : Instr)
  /-- Too few bytes are left: the read of the missing one raises `TruncatedInputError` (R17). -/
  | truncated
  /-- The code has no command (R92: refused). -/
  | unknownCommand (code : Byte)
  deriving DecidableEq, Repr

/-- The Slide header word. The decoder of a stream never reads it (R107) and an input shorter than four bytes is no
fault; a byte that is not there counts as 0 in an operand that no meaning uses. -/
def headerWord (bs : Bytes) : Word := be32 (bs.getD 0 0) (bs.getD 1 0) (bs.getD 2 0) (bs.getD 3 0)

def decodeCommand : Bytes → Decoded
  | code :: _ => match commandOf code with
    | some i => .instr i
    | none => .unknownCommand code
  | [] => .truncated

/-- R67. -/
def decodeLzFlag : Bytes → Decoded
  | f :: _ => .instr (.lzFlag f)
  | [] => .truncated

/-- R68. -/
def decodeLzLit : Bytes → Decoded
  | c :: _ => .instr (.lzLit c)
  | [] => .truncated

/-- R69, R70. -/
def decodeLzRef (l : PairLayout) : Bytes → Decoded
  | b1 :: b2 :: _ => .instr (.lzRef (pairOffset l b1 b2) (pairLength l b1 b2))
  | _ => .truncated

/-- R74. -/
def decodeSlCw : Bytes → Decoded
  | a :: b :: c :: d :: _ => .instr (.slCw (be32 a b c d))
  | _ => .truncated

/-- R75. -/
def decodeSlLit : Bytes → Decoded
  | c :: _ => .instr (.slLit c)
  | [] => .truncated

/-- R76 to R78: `b1` and `b2`, and a third byte when the high nibble of `b1` is 0. -/
def decodeSlRef : Bytes → Decoded
  | b1 :: b2 :: rest =>
    let nib := b1.extractLsb' 4 4
    let d : BitVec 12 := b1.extractLsb' 0 4 ++ b2
    if nib = 0 then
      match rest with
      | b3 :: _ => .instr (.slRef3 d b3)
      | [] => .truncated
    else .instr (.slRef2 nib d)
  | _ => .truncated

/-- R80 to R82. -/
def decodeRl : Bytes → Decoded
  | c :: rest =>
    if c.getLsbD 7 then .instr (.rlCopy (c.extractLsb' 0 7))
    else match rest with
      | v :: _ => .instr (.rlFill (c.extractLsb' 0 7) v)
      | [] => .truncated
  | [] => .truncated

/-- R84: the count. -/
def decodeArcIndex : Bytes → Decoded
  | a :: b :: c :: d :: _ => .instr (.arcIndex (be32 a b c d))
  | _ => .truncated

/-- R85, R86: size, then tag; the tag selects the kind. -/
def decodeArcEntry (t : Tags) : Bytes → Decoded
  | a :: b :: c :: d :: e :: f :: g :: h :: _ => .instr (entryInstr (be32 a b c d) (kindOf t (be32 e f g h)))
  | _ => .truncated

/-- The decoder, total on any bytes. -/
def decode (p : Params) (c : Ctx) (bs : Bytes) : Decoded :=
  match c with
  | .command => decodeCommand bs
  | .lzFlag => decodeLzFlag bs
  | .lzToken true => decodeLzLit bs
  | .lzToken false => decodeLzRef p.pair bs
  | .slHeader => .instr (.slHdr (headerWord bs))
  | .slCodeword => decodeSlCw bs
  | .slToken true => decodeSlLit bs
  | .slToken false => decodeSlRef bs
  | .rlToken => decodeRl bs
  | .arcIndex => decodeArcIndex bs
  | .arcEntry => decodeArcEntry p.tags bs

/-! ## The encoder -/

/-- The context in which a row is read (the table's `select`). -/
def Instr.ctx : Instr → Ctx
  | .lzFlag _ => .lzFlag
  | .lzLit _ => .lzToken true
  | .lzRef _ _ => .lzToken false
  | .slHdr _ => .slHeader
  | .slCw _ => .slCodeword
  | .slLit _ => .slToken true
  | .slRef2 _ _ | .slRef3 _ _ => .slToken false
  | .rlCopy _ | .rlFill _ _ => .rlToken
  | .arcIndex _ => .arcIndex
  | .entryNone _ | .entryLzss _ | .entrySlide _ | .entryFlideA _ | .entryFlideB _ | .entryRle _ | .entryInflate _
  | .entryUnknown _ _ => .arcEntry
  | .lzssDec | .lzssEnc | .slideDec | .slideEnc | .rleDec | .rleEnc | .arcLoad | .arcDecode | .arcRead | .arcUnpack
  | .arcSave | .arcAdd | .arcDel | .arcReplace | .arc2Load => .command

/-- The entry header `BE32(size) ++ BE32(tag)` (R85). -/
def entryHeader (size tag : Word) : Bytes := beBytes size ++ beBytes tag

/-- The bytes of an instruction, from the encodings of 30_encoding.md. -/
def encode (p : Params) : Instr → Bytes
  | .lzFlag f => [f]
  | .lzLit c => [c]
  | .lzRef off lraw => [pairByte1 p.pair off lraw, pairByte2 p.pair off lraw]
  | .slHdr u => beBytes u
  | .slCw f => beBytes f
  | .slLit c => [c]
  | .slRef2 n d => [n ++ d.extractLsb' 8 4, d.extractLsb' 0 8]
  | .slRef3 d e => [(0 : BitVec 4) ++ d.extractLsb' 8 4, d.extractLsb' 0 8, e]
  | .rlCopy k => [(1 : BitVec 1) ++ k]
  | .rlFill k v => [(0 : BitVec 1) ++ k, v]
  | .arcIndex count => beBytes count
  | .entryNone size => entryHeader size p.tags.none
  | .entryLzss size => entryHeader size p.tags.lzss
  | .entrySlide size => entryHeader size p.tags.slide
  | .entryFlideA size => entryHeader size p.tags.flideVariantA
  | .entryFlideB size => entryHeader size p.tags.flideVariantB
  | .entryRle size => entryHeader size p.tags.rle
  | .entryInflate size => entryHeader size p.tags.inflate
  | .entryUnknown size tag => entryHeader size tag
  | .lzssDec => [0x01]
  | .lzssEnc => [0x02]
  | .slideDec => [0x03]
  | .slideEnc => [0x04]
  | .rleDec => [0x05]
  | .rleEnc => [0x06]
  | .arcLoad => [0x10]
  | .arcDecode => [0x11]
  | .arcRead => [0x12]
  | .arcUnpack => [0x13]
  | .arcSave => [0x14]
  | .arcAdd => [0x15]
  | .arcDel => [0x16]
  | .arcReplace => [0x17]
  | .arc2Load => [0x18]

/-- How many bytes a row's own fields take (R88; a command is its code, an index its count). -/
def Instr.length : Instr → Nat
  | .lzFlag _ | .lzLit _ | .slLit _ | .rlCopy _ => 1
  | .lzRef _ _ | .slRef2 _ _ | .rlFill _ _ => 2
  | .slRef3 _ _ => 3
  | .slHdr _ | .slCw _ | .arcIndex _ => 4
  | .entryNone _ | .entryLzss _ | .entrySlide _ | .entryFlideA _ | .entryFlideB _ | .entryRle _ | .entryInflate _
  | .entryUnknown _ _ => 8
  | .lzssDec | .lzssEnc | .slideDec | .slideEnc | .rleDec | .rleEnc | .arcLoad | .arcDecode | .arcRead | .arcUnpack
  | .arcSave | .arcAdd | .arcDel | .arcReplace | .arc2Load => 1

/-! ## Words of the opcode table -/

/-- The low `8 * k` bits of `w`, most significant byte first (R51: the table writes a row as one big-endian number). -/
def tableBytes (k w : Nat) : Bytes := (List.range k).map (fun j => BitVec.ofNat 8 (w >>> (8 * (k - 1 - j))))

/-- The context a table word is read in, and its bytes. A row's selector lies outside its bits (R65), so where several
rows admit a word the one whose own bits say most is taken: bit 7 set in one byte is `RL.COPY`, a code of R92 is that
command, any other byte `LZ.FLAG`; two bytes are `RL.FILL` when bit 15 is clear, else `SL.REF2`; three bytes are
`SL.REF3`; four bytes are `SL.CW`; anything longer is an entry header, whose size stands above the tag. -/
def tableForm (nbits w : Nat) : Ctx × Bytes :=
  if nbits = 8 then
    let b := tableBytes 1 w
    if w.testBit 7 then (.rlToken, b)
    else if (commandOf (BitVec.ofNat 8 w)).isSome then (.command, b)
    else (.lzFlag, b)
  else if nbits = 16 then
    (if w.testBit 15 then .slToken false else .rlToken, tableBytes 2 w)
  else if nbits = 24 then (.slToken false, tableBytes 3 w)
  else if nbits = 32 then (.slCodeword, tableBytes 4 w)
  else (.arcEntry, tableBytes 8 w)

/-- The instruction the decoder reads from a word of the opcode table, with the parameters at their defaults. -/
def decodeTableWord (nbits w : Nat) : Option Instr :=
  match decode .default (tableForm nbits w).1 (tableForm nbits w).2 with
  | .instr i => some i
  | .truncated => none
  | .unknownCommand _ => none

end Sys2Proof
end

