-- ==== Sys2Proof/Machine/State.lean ====
section
/-! DEFINITION. The state of PS-CODEC as plain data (10_state.md): what persists, the registers of every engine, the
result port, the host's pending requests, and the reasons a step of the MODEL can stop. -/

namespace Sys2Proof.Machine

/-! ## Memories -/

/-- A byte memory (R48): cells by rising address, none equal to `0x00`, which an unlisted address reads as. -/
abbrev Mem := List Host.Cell

/-- An array of tree links (R28): cells by rising index, none equal to `NIL`, which an unlisted index reads as. -/
abbrev Links := List (Nat × BitVec 11)

/-! ## The host's side -/

/-- The operand buffers of a command (R40, R91): the input bytes, `n` or `outSize`, an entry index, the name and bytes of
`ARC.ADD` and `ARC.REPLACE`, and the optional target file name. A command reads only those it has. -/
structure Operands where
  inp : Bytes := []
  n : Word := 0
  index : Nat := 0
  name : Name := []
  bytes : Bytes := []
  fname : Option Name := none
  deriving DecidableEq, Repr

/-- A command the host presents: the code it writes to `CMD`, and the operand buffers (R3, R39). -/
structure Request where
  code : Byte
  operands : Operands := {}
  deriving DecidableEq, Repr

/-- A `(name, compressionType, decodedBytes)` tuple (R132). -/
structure Item where
  name : Name
  kind : Kind
  data : Bytes
  deriving DecidableEq, Repr

/-- The payload of an `Ok` (R91). -/
inductive Payload where
  | empty
  | bytes (b : Bytes)
  | item (x : Item)
  | items (xs : List Item)
  deriving DecidableEq, Repr

/-- What a command returns (R18). -/
inductive CommandResult where
  | ok (p : Payload)
  | fault (k : FaultKind)
  deriving DecidableEq, Repr

/-! ## Registers of the engines -/

/-- The LZSS decoder (R24 to R27). `len` is the rules' `L`. -/
structure LzDec where
  ring : Mem := []
  r : BitVec 10 := 0
  flags : BitVec 9 := 0
  b1 : Byte := 0
  b2 : Byte := 0
  off : BitVec 10 := 0
  len : BitVec 7 := 0
  k : BitVec 7 := 0
  c : Byte := 0
  deriving DecidableEq, Repr

/-- The Slide decoder (R30, R31). `len` is the rules' `L`. -/
structure SlDec where
  cw : Word := 0
  nb : BitVec 6 := 0
  b1 : Byte := 0
  b2 : Byte := 0
  b3 : Byte := 0
  nib : BitVec 4 := 0
  dist : BitVec 13 := 0
  len : BitVec 9 := 0
  k : BitVec 9 := 0
  c : Byte := 0
  deriving DecidableEq, Repr

/-- The RLE decoder (R33). -/
structure RlDec where
  c : Byte := 0
  k : BitVec 7 := 0
  v : Byte := 0
  j : BitVec 7 := 0
  deriving DecidableEq, Repr

/-- The LZSS encoder (R28, R29). -/
structure LzEnc where
  text : Mem := []
  lson : Links := []
  rson : Links := []
  dad : Links := []
  s : BitVec 10 := 0
  r : BitVec 10 := 0
  len : BitVec 7 := 0
  matchPosition : BitVec 10 := 0
  matchLength : BitVec 7 := 0
  codeBuf : Mem := []
  codeBufPtr : BitVec 5 := 0
  mask : Byte := 0
  deriving DecidableEq, Repr

/-- The Slide encoder (R32). `deferred` is a pair (length, position) or nothing. -/
structure SlEnc where
  pos : Nat := 0
  cw : Word := 0
  nb : BitVec 6 := 0
  buf : Bytes := []
  deferred : Option (Nat × Nat) := none
  deriving DecidableEq, Repr

/-- The container engine's working values (R125, R133, R135): the file count and offsets a load has read, the entry
the loop stands at, the copy of the entries the command works on (R153), and a save's decoded payloads `d` and coded
payloads `c`. -/
structure Arc where
  count : Word := 0
  offsets : List Word := []
  i : Nat := 0
  work : List Entry := []
  d : List Bytes := []
  c : List Bytes := []
  deriving DecidableEq, Repr

/-- Which loop of the pseudocode is running: what the next step fetches. -/
inductive Engine where
  /-- No command is running. -/
  | idle
  /-- The token loop of `LZSS.DEC` (R94). -/
  | lzssDec
  /-- `SLIDE.DEC` before its header (R106, R107). -/
  | slideHdr
  /-- The token loop of `SLIDE.DEC` (R106). -/
  | slideDec
  /-- The token loop of `RLE.DEC` (R119). -/
  | rleDec
  /-- `LZSS.ENC` before its first token: filling the lookahead (R104). -/
  | lzssEncPrime
  /-- The `repeat` loop of `LZSS.ENC` (R104). -/
  | lzssEnc
  /-- The loop of `SLIDE.ENC` (R117). -/
  | slideEnc
  /-- `ARC.LOAD` or `ARC.UNPACK` before the index (R125). -/
  | arcIndex
  /-- A loop over entries (R125, R128, R133, R135). -/
  | arcEntries
  deriving DecidableEq, Repr

/-- For whom an engine works (R176): for the host, or inside a container command, at which point of it. -/
inductive Task where
  /-- A codec command of the host's own. -/
  | host
  /-- `ARC.LOAD`: reading entry headers. -/
  | load
  /-- The load that begins `ARC.UNPACK`. -/
  | loadUnpack
  /-- `ARC.DECODE`. -/
  | decode
  /-- `ARC.READ`. -/
  | read
  /-- The decodes of `ARC.UNPACK`. -/
  | unpack
  /-- `ARC.SAVE` pass 2, the decode of an entry. -/
  | saveDecode
  /-- `ARC.SAVE` pass 2, the encode of an entry. -/
  | saveEncode
  deriving DecidableEq, Repr

/-! ## The state -/

/-- The whole machine. `store` and `status` persist (R20); `cmd` is the command register (R39); `params` are the
parameters of R13. `result`, `requests` and `resetPending` are the model's own: the result last handed to the host
(R18), the commands the host has presented and the block has not yet taken, and the host's reset event (R163).
Everything from `operands` on exists for one command only (R20). `op`, the output cursor, is the length of `out` (R23)
and has no field of its own. -/
structure State where
  params : Params := {}
  store : List Entry := []
  status : BitVec 8 := 0
  cmd : BitVec 8 := 0
  result : Option CommandResult := none
  requests : List Request := []
  resetPending : Bool := false
  operands : Operands := {}
  engine : Engine := .idle
  task : Task := .host
  inp : Bytes := []
  out : Bytes := []
  n : Word := 0
  ip : Nat := 0
  lz : LzDec := {}
  sl : SlDec := {}
  rl : RlDec := {}
  le : LzEnc := {}
  se : SlEnc := {}
  arc : Arc := {}
  deriving DecidableEq, Repr

/-- The machine right after reset (R42, R163): an empty container, `STATUS` 0, no command running. The parameters are at
the spec's defaults (R13). `CMD` and the scratch registers have no value then (R42, R43); the model gives them 0
(DESIGN CHOICE). -/
def State.reset : State := {}

/-- `op`, the output cursor (R23). -/
def State.op (s : State) : Nat := s.out.length

/-- Reasons for which the model stops where the spec gives no rule. The three faults of the spec are NOT among them: they
are taken as the spec describes (R152), as a next state. -/
inductive Fault where
  /-- A write to `OUT[op]` with `op >= n`: the space has `n` bytes (R47) and no rule makes the access (R64). Raised by
  `LZ.LIT` and `SL.LIT` when they are run with the output complete; the fetch never does so. Safe. -/
  | outOfSpace
  /-- An entry header, or a codec's result, where no container command waits for one, or a container loop whose cursor
  names no entry. Raised by the `ENTRY` rows and by a codec's return; no command leads there. Safe. -/
  | strayEntry
  deriving DecidableEq, Repr

/-- Commands and operands the spec gives no meaning to (R162), and an instruction without a meaning in this model. -/
inductive Refusal where
  /-- Raised by `exec` for an instruction that has no meaning yet: none is left. Safe. -/
  | notModelled (mnemonic : String)
  /-- A command code that R92 does not list. Raised by the fetch of a command. Safe. -/
  | unknownCommand (code : Byte)
  /-- `ARC2.LOAD` (R141). Safe. -/
  | secondContainerShape
  /-- An entry index that names no entry (R127). Raised by `ARC.DECODE`, `ARC.READ`, `ARC.DEL`, `ARC.REPLACE`. Safe. -/
  | indexOutOfRange
  /-- `SLIDE.ENC` with `outSize != len(raw)` (R114). Safe. -/
  | sizeOperandMismatch
  /-- A buffer of 2^32 bytes or more, as an operand or as the result of a save (R14, R135). Raised by every command that
  takes a buffer, and by the end of `ARC.SAVE`. Safe. -/
  | bufferTooLong
  deriving DecidableEq, Repr

/-- What a step or an instruction answers. -/
abbrev Answer := Host.Outcome State Fault Refusal

end Sys2Proof.Machine
end

