-- ==== Sys2Proof/Machine/Ops.lean ====
section
/-! DEFINITION. The named operations over memory and registers, and taking a fault (60_exceptions.md R152). -/

namespace Sys2Proof.Machine

/-! ## Canonical tables: the byte memories and the link arrays -/

/-- The cell at `a`, or what an unlisted address reads as. -/
def Table.read {α : Type} (dflt : α) : List (Nat × α) → Nat → α
  | [], _ => dflt
  | (b, w) :: m, a => if a = b then w else Table.read dflt m a

/-- Writing keeps the addresses rising and lists no cell equal to the default. -/
def Table.write {α : Type} [DecidableEq α] (dflt : α) : List (Nat × α) → Nat → α → List (Nat × α)
  | [], a, v => if v = dflt then [] else [(a, v)]
  | (b, w) :: m, a, v =>
    if a < b then (if v = dflt then (b, w) :: m else (a, v) :: (b, w) :: m)
    else if a = b then (if v = dflt then m else (a, v) :: m)
    else (b, w) :: Table.write dflt m a v

/-- The canonical form: addresses strictly rising, no cell equal to the default. -/
def Table.wf {α : Type} [DecidableEq α] (dflt : α) : List (Nat × α) → Bool
  | [] => true
  | (a, v) :: m => decide (v ≠ dflt) && m.all (fun c => decide (a < c.1)) && Table.wf dflt m

/-- A byte of a memory; an unlisted address reads as `0x00` (R24, R28). -/
def Mem.read (m : Mem) (a : Nat) : Byte := Table.read 0 m a

/-- A byte written to a memory. -/
def Mem.write (m : Mem) (a : Nat) (v : Byte) : Mem := Table.write 0 m a v

/-- A memory is in its one canonical form. -/
def Memory.wf (m : Mem) : Bool := Table.wf (0 : Byte) m

/-- A link of an array; an unlisted index reads as `NIL` (R28, R43). -/
def Links.read (m : Links) (a : Nat) : BitVec 11 := Table.read Config.nil m a

/-- A link written to an array. -/
def Links.write (m : Links) (a : Nat) (v : BitVec 11) : Links := Table.write Config.nil m a v

/-- A link array is in its one canonical form. -/
def Links.wf (m : Links) : Bool := Table.wf Config.nil m

/-! ## The end of a command, and taking a fault -/

/-- The code of a fault kind in `STATUS` (R145). -/
def faultCode : FaultKind → BitVec 8
  | .unsupportedCompressionType => 1
  | .corruptDataError => 2
  | .truncatedInputError => 3

/-- All scratch state, the partial output and the operand buffers are dropped (R17, R20, R40, R152). -/
def dropScratch (s : State) : State :=
  { s with
    operands := {}, engine := .idle, task := .host, inp := [], out := [], n := 0, ip := 0,
    lz := {}, sl := {}, rl := {}, le := {}, se := {}, arc := {} }

/-- TAKING A FAULT: `raise K` (R17, R152, R153). The command ends with result `Fault(K)` and `STATUS` becomes the code of
`K`; scratch state and partial output are discarded; `STORE` is as before the command, which has written only its own
copy. There is no handler, no saved state and no return from a fault (R154): the next command is accepted as after an
`Ok`. -/
def raise (k : FaultKind) (s : State) : State :=
  { dropScratch s with status := faultCode k, result := some (.fault k) }

/-- A command ends with `Ok(p)`: `STATUS` becomes 0 (R39), the payload goes to the host, scratch state is dropped. -/
def finish (p : Payload) (s : State) : State :=
  { dropScratch s with status := 0, result := some (.ok p) }

/-- The reset event (R163): the persistent state takes its reset values and a running command is discarded with no
result. The parameters stay (R166), and so do the commands the host has yet to present. -/
def resetEvent (s : State) : State :=
  { State.reset with params := s.params, requests := s.requests }

/-! ## Output -/

/-- `Emit(v)` (R17): `OUT[op] <- v`, `op <- op + 1`. Executed only with `op < n`, which the callers check. -/
def emit (v : Byte) (s : State) : State := { s with out := s.out ++ [v] }

/-- A token of `len` bytes would carry the output past `n` (R174(e): natural numbers, no wrap). -/
def overruns (s : State) (len : Nat) : Bool := decide (s.n.toNat < s.op + len)

/-- A command that takes a buffer is refused when the buffer has 2^32 bytes or more (R14, R162). -/
def withinLimit (b : Bytes) (k : Answer) : Answer :=
  if b.length < Config.bufferLimit then k else .refused .bufferTooLong

/-! ## Starting an engine (R43) -/

/-- The scratch state of the LZSS decoder at its start (R43, R94): ring all `0x00`, `r = 0x3BE`, `flags = 0x001`. -/
def LzDec.start : LzDec := { r := Config.lzStart, flags := 1 }

/-- `LZSS.DEC(inp, n)` begins (R94). -/
def startLzssDec (inp : Bytes) (n : Word) (s : State) : State :=
  { s with engine := .lzssDec, inp := inp, n := n, ip := 0, out := [], lz := LzDec.start }

/-- `SLIDE.DEC(inp, n)` begins (R43, R106): `ip = 4`, `op = 0`, `nb = 0`, `cw = 0`. -/
def startSlideDec (inp : Bytes) (n : Word) (s : State) : State :=
  { s with engine := .slideHdr, inp := inp, n := n, ip := 4, out := [], sl := {} }

/-- `RLE.DEC(inp, n)` begins (R43, R119). -/
def startRleDec (inp : Bytes) (n : Word) (s : State) : State :=
  { s with engine := .rleDec, inp := inp, n := n, ip := 0, out := [], rl := {} }

/-- The scratch state of the LZSS encoder at its start (R43, R104): `text` zero, `dad` and the roots `NIL`, `s = 0`,
`r = 958`, `mask = 1`, `code_buf[0] = 0`, `code_buf_ptr = 1`. -/
def LzEnc.start : LzEnc := { r := Config.lzStart, codeBufPtr := 1, mask := 1 }

/-- `LZSS.ENC(raw)` begins (R104). `ip` is where `next()` reads. -/
def startLzssEnc (raw : Bytes) (s : State) : State :=
  { s with engine := .lzssEncPrime, inp := raw, ip := 0, out := [], le := LzEnc.start }

/-- `SLIDE.ENC(raw)` begins (R32, R117): the output starts with `BE32(len(raw))`. -/
def startSlideEnc (raw : Bytes) (s : State) : State :=
  { s with engine := .slideEnc, inp := raw, ip := 0, out := beBytes (BitVec.ofNat 32 raw.length), se := {} }

end Sys2Proof.Machine
end

