-- ==== Sys2Proof/Machine/Operands.lean ====
section
/-! DEFINITION. The addressing forms of 44_common.md R177. -/

namespace Sys2Proof.Machine

/-- Input, sequential: the bytes from `IN[ip]` on. A fetch of more than are left is `TruncatedInputError` (R17, R22). -/
def inputAtCursor (s : State) : Bytes := s.inp.drop s.ip

/-- Input, one byte at the cursor, `none` at the end of `IN` (R17 `Fetch8`, R104 `next()`). -/
def inputByte (s : State) : Option Byte := s.inp[s.ip]?

/-- `MemRead(IN, a, 4)`: a big-endian word at an absolute address, `none` when it passes `len(IN)` (R17, R56, R174(h)). -/
def inputWord (inp : Bytes) (a : Nat) : Option Word :=
  match inp.drop a with
  | b0 :: b1 :: b2 :: b3 :: _ => some (be32 b0 b1 b2 b3)
  | _ => none

/-- Ring, absolute with wrap: `RING[(off + k) mod 1024]` (R48, R97). -/
def ringAt (s : State) (a : Nat) : Byte := Mem.read s.lz.ring (a % Config.lzWindow)

/-- Ring, cursor: `RING[r] <- c`, then `r <- (r + 1) mod 1024` (R96, R97). -/
def ringPut (c : Byte) (s : State) : State :=
  { s with lz := { s.lz with ring := Mem.write s.lz.ring s.lz.r.toNat c, r := s.lz.r + 1 } }

/-- Output, backward relative: `OUT[op - dist]`, and `0x00` before the start of the output (R112). -/
def outBack (s : State) (dist : Nat) : Byte :=
  if s.op < dist then 0 else s.out.getD (s.op - dist) 0

/-- Container, absolute: `B[a : e]` (R125). -/
def inputSlice (inp : Bytes) (a e : Nat) : Bytes := (inp.drop a).take (e - a)

end Sys2Proof.Machine
end

