-- ==== Sys2Proof/Machine/Flags.lean ====
section
/-! DEFINITION. The flag words (10_state.md R26, R30; 44_common.md R174(g)). The block has no condition codes. -/

namespace Sys2Proof.Machine

/-- The LZSS flag word holds its sentinel alone: no flag bit is left (R26). -/
def lzFlagsEmpty (s : State) : Bool := decide (s.lz.flags = 1)

/-- `flags <- 0x100 | byte` (R26, R95). -/
def lzRefill (b : Byte) (s : State) : State :=
  { s with lz := { s.lz with flags := 0x100 ||| b.setWidth 9 } }

/-- The next LZSS flag: `flags[0]` (R26, R94). -/
def lzFlag (s : State) : Bool := s.lz.flags.getLsbD 0

/-- Taking an LZSS flag: `flags <- flags >> 1` (R26, R94). -/
def lzTake (s : State) : State := { s with lz := { s.lz with flags := s.lz.flags >>> 1 } }

/-- No flag of the Slide codeword is left (R30). -/
def slFlagsEmpty (s : State) : Bool := decide (s.sl.nb = 0)

/-- `cw <- word ; nb <- 32` (R30, R108). -/
def slReload (w : Word) (s : State) : State := { s with sl := { s.sl with cw := w, nb := 32 } }

/-- The next Slide flag: `cw[31]` (R30, R106). -/
def slFlag (s : State) : Bool := s.sl.cw.getLsbD 31

/-- Taking a Slide flag: `cw <- (cw << 1) mod 2^32 ; nb <- nb - 1` (R30, R106). -/
def slTake (s : State) : State := { s with sl := { s.sl with cw := s.sl.cw <<< 1, nb := s.sl.nb - 1 } }

end Sys2Proof.Machine
end

