-- ==== Sys2Proof/Machine/Lzss.lean ====
section
/-! DEFINITION. The LZSS decoder's instructions and the command `LZSS.ENC` (40_lzss.md R93 to R101). -/

namespace Sys2Proof.Machine

/-- `LZSS.DEC` (R94): the decoder starts on the operands; its tokens are the steps that follow. -/
def execLzssDec (s : State) : Answer :=
  withinLimit s.operands.inp (.next (startLzssDec s.operands.inp s.operands.n { s with task := .host }))

/-- `LZ.FLAG` (R95). -/
def execLzFlag (f : Byte) (s : State) : Answer :=
  .next (lzRefill f { s with ip := s.ip + 1 })

/-- `LZ.LIT` (R96): to the output and to the ring. It runs only with `op < n`. -/
def execLzLit (c : Byte) (s : State) : Answer :=
  if s.op < s.n.toNat then
    .next (ringPut c (emit c { s with ip := s.ip + 1, lz := { s.lz with c := c } }))
  else .fault .outOfSpace

/-- One round of the copy loop of `LZ.REF` (R97): read the ring, then write output and ring (R58). -/
def lzCopyByte (s : State) : State :=
  let c := ringAt s (s.lz.off.toNat + s.lz.k.toNat)
  ringPut c (emit c { s with lz := { s.lz with c := c, k := s.lz.k + 1 } })

/-- That many rounds of the copy loop. -/
def lzCopy : Nat → State → State
  | 0, s => s
  | m + 1, s => lzCopy m (lzCopyByte s)

/-- The operands of an `LZ.REF` in its registers, both control bytes fetched (R27, R97). -/
def lzRefOperands (off : BitVec 10) (lraw : BitVec 6) (s : State) : State :=
  { s with
    ip := s.ip + 2
    lz := { s.lz with
      b1 := pairByte1 s.params.pair off lraw, b2 := pairByte2 s.params.pair off lraw,
      off := off, len := lraw.setWidth 7 + 3, k := 0 } }

/-- `LZ.REF` (R97): `CorruptDataError` when `op + L > n`, before any byte is copied. -/
def execLzRef (off : BitVec 10) (lraw : BitVec 6) (s : State) : Answer :=
  let t := lzRefOperands off lraw s
  if overruns t t.lz.len.toNat then .next (raise .corruptDataError t)
  else .next (lzCopy t.lz.len.toNat t)

/-- `LZSS.ENC` (R101): the encoder starts on the operand; the rounds of the reference encoder (R104) are the steps that
follow. -/
def execLzssEnc (s : State) : Answer :=
  withinLimit s.operands.inp (.next (startLzssEnc s.operands.inp { s with task := .host }))

end Sys2Proof.Machine
end

