-- ==== Sys2Proof/Machine/LzssEncoder.lean ====
section
/-! DEFINITION. The reference LZSS encoder `LzssEncRef` (40_lzss.md R104, R105): the tree procedures, and one round of
the encoder as a step of its engine. -/

namespace Sys2Proof.Machine

/-! ## The trees (R105) -/

/-- `text[a]`. -/
def LzEnc.textAt (e : LzEnc) (a : Nat) : Byte := Mem.read e.text a

/-- `lson[a]`, `rson[a]`, `dad[a]`. -/
def LzEnc.lsonAt (e : LzEnc) (a : Nat) : Nat := (Links.read e.lson a).toNat
def LzEnc.rsonAt (e : LzEnc) (a : Nat) : Nat := (Links.read e.rson a).toNat
def LzEnc.dadAt (e : LzEnc) (a : Nat) : Nat := (Links.read e.dad a).toNat

/-- `lson[a] <- v`, `rson[a] <- v`, `dad[a] <- v`. -/
def LzEnc.setLson (e : LzEnc) (a v : Nat) : LzEnc := { e with lson := Links.write e.lson a (BitVec.ofNat 11 v) }
def LzEnc.setRson (e : LzEnc) (a v : Nat) : LzEnc := { e with rson := Links.write e.rson a (BitVec.ofNat 11 v) }
def LzEnc.setDad (e : LzEnc) (a v : Nat) : LzEnc := { e with dad := Links.write e.dad a (BitVec.ofNat 11 v) }

/-- `NIL` as an index. -/
abbrev nilIndex : Nat := 1024

/-- A path of a tree visits each of the 1024 positions at most once, so this many rounds end every walk. -/
abbrev treeFuel : Nat := 1026

/-- The comparison loop of `InsertNode`: from index `i`, at most `m` more; answers the first index that differs and the
signed difference there (R174(i)), or the index after the last and the difference 0. -/
def firstDifference (e : LzEnc) (r p : Nat) : Nat → Nat → Nat × Int
  | 0, i => (i, 0)
  | m + 1, i =>
    let d : Int := (e.textAt (r + i)).toNat - (e.textAt (p + i)).toNat
    if d = 0 then firstDifference e r p m (i + 1) else (i, d)

/-- A full-length match: string `r` takes the place of string `p` (R105). -/
def replaceNode (r p : Nat) (e : LzEnc) : LzEnc :=
  let e := e.setDad r (e.dadAt p)
  let e := e.setLson r (e.lsonAt p)
  let e := e.setRson r (e.rsonAt p)
  let e := e.setDad (e.lsonAt p) r
  let e := e.setDad (e.rsonAt p) r
  let e := if e.rsonAt (e.dadAt p) = p then e.setRson (e.dadAt p) r else e.setLson (e.dadAt p) r
  e.setDad p nilIndex

/-- The descent of `InsertNode` from node `p` with the last comparison `cmp` (R105). -/
def insertFrom (r : Nat) : Nat → Int → Nat → LzEnc → LzEnc
  | 0, _, _, e => e
  | fuel + 1, cmp, p, e =>
    let q := if 0 ≤ cmp then e.rsonAt p else e.lsonAt p
    if q = nilIndex then
      (if 0 ≤ cmp then e.setRson p r else e.setLson p r).setDad r p
    else
      let found := firstDifference e r q (Config.lzMaxMatch - 1) 1
      if e.matchLength.toNat < found.1 then
        let e := { e with matchPosition := BitVec.ofNat 10 q, matchLength := BitVec.ofNat 7 found.1 }
        if Config.lzMaxMatch ≤ found.1 then replaceNode r q e else insertFrom r fuel found.2 q e
      else insertFrom r fuel found.2 q e

/-- `InsertNode(r)` (R105). -/
def insertNode (r : Nat) (e : LzEnc) : LzEnc :=
  let e := (e.setRson r nilIndex).setLson r nilIndex
  insertFrom r treeFuel 1 (nilIndex + 1 + (e.textAt r).toNat) { e with matchLength := 0 }

/-- `repeat: q <- rson[q] until rson[q] = NIL` (R105), from a node with a right son. -/
def rightmost (e : LzEnc) : Nat → Nat → Nat
  | 0, q => q
  | fuel + 1, q => if e.rsonAt q = nilIndex then q else rightmost e fuel (e.rsonAt q)

/-- The node that takes the place of `p`, and the trees with it detached from where it was (R105). -/
def successor (p : Nat) (e : LzEnc) : Nat × LzEnc :=
  if e.rsonAt p = nilIndex then (e.lsonAt p, e)
  else if e.lsonAt p = nilIndex then (e.rsonAt p, e)
  else
    let q0 := e.lsonAt p
    if e.rsonAt q0 = nilIndex then
      (q0, (e.setRson q0 (e.rsonAt p)).setDad (e.rsonAt p) q0)
    else
      let q := rightmost e treeFuel q0
      let e := e.setRson (e.dadAt q) (e.lsonAt q)
      let e := e.setDad (e.lsonAt q) (e.dadAt q)
      let e := e.setLson q (e.lsonAt p)
      let e := e.setDad (e.lsonAt p) q
      (q, (e.setRson q (e.rsonAt p)).setDad (e.rsonAt p) q)

/-- `DeleteNode(p)` (R105). -/
def deleteNode (p : Nat) (e : LzEnc) : LzEnc :=
  if e.dadAt p = nilIndex then e
  else
    let q := (successor p e).1
    let e := (successor p e).2
    let e := e.setDad q (e.dadAt p)
    let e := if e.rsonAt (e.dadAt p) = p then e.setRson (e.dadAt p) q else e.setLson (e.dadAt p) q
    e.setDad p nilIndex

/-! ## The encoder's engine (R104) -/

/-- `while len < F and (c <- next()) != EOF: text[r + len] <- c ; len <- len + 1`, at most `m` rounds. -/
def lzFill : Nat → State → State
  | 0, s => s
  | m + 1, s =>
    match inputByte s with
    | none => s
    | some c => lzFill m { s with
        ip := s.ip + 1
        le := { s.le with text := Mem.write s.le.text (s.le.r.toNat + s.le.len.toNat) c, len := s.le.len + 1 } }

/-- `for i in 1 .. F: InsertNode(r - i)`, then `InsertNode(r)`. -/
def lzInsertFirst (e : LzEnc) : LzEnc :=
  insertNode e.r.toNat
    ((List.range Config.lzMaxMatch).foldl (fun e j => insertNode (e.r.toNat - (j + 1)) e) e)

/-- The coded bytes gathered: `code_buf[0 .. code_buf_ptr-1]`. -/
def codeBytes (e : LzEnc) : Bytes := (List.range e.codeBufPtr.toNat).map (fun a => Mem.read e.codeBuf a)

/-- The match length the round codes: `match_length` cut to `len`, and 1 when below the threshold. -/
def lzTokenLength (e : LzEnc) : BitVec 7 :=
  let m := if e.len.toNat < e.matchLength.toNat then e.len else e.matchLength
  if m.toNat < Config.lzThreshold then 1 else m

/-- The token of a round goes to `code_buf`: a literal with flag 1, or a pair with flag 0 (R70). `match_length` becomes
the length coded. -/
def lzPutToken (l : PairLayout) (e : LzEnc) : LzEnc :=
  let m := lzTokenLength e
  let ptr := e.codeBufPtr.toNat
  if m.toNat < Config.lzThreshold then
    let buf := Mem.write e.codeBuf 0 (Mem.read e.codeBuf 0 ||| e.mask)
    { e with
      matchLength := m, codeBuf := Mem.write buf ptr (e.textAt e.r.toNat), codeBufPtr := e.codeBufPtr + 1 }
  else
    let lraw : BitVec 6 := (m - 3).setWidth 6
    let buf := Mem.write e.codeBuf ptr (pairByte1 l e.matchPosition lraw)
    { e with
      matchLength := m, codeBuf := Mem.write buf (ptr + 1) (pairByte2 l e.matchPosition lraw),
      codeBufPtr := e.codeBufPtr + 2 }

/-- `mask <- mask << 1`, and after eight tokens the gathered bytes go to `OUT`. -/
def lzPutMask (s : State) : State :=
  let mask := s.le.mask <<< 1
  if mask = 0 then
    { s with
      out := s.out ++ codeBytes s.le
      le := { s.le with codeBuf := Mem.write s.le.codeBuf 0 0, codeBufPtr := 1, mask := 1 } }
  else { s with le := { s.le with mask := mask } }

/-- One position on: the oldest string leaves the trees; while input is left its byte is replaced by the next one, then
the lookahead shrinks. -/
def lzAdvance (s : State) : State :=
  let e := deleteNode s.le.s.toNat s.le
  match inputByte s with
  | some c =>
    let a := e.s.toNat
    let text := Mem.write e.text a c
    let text := if a < Config.lzMaxMatch - 1 then Mem.write text (a + Config.lzWindow) c else text
    let e := { e with text := text, s := e.s + 1, r := e.r + 1 }
    { s with ip := s.ip + 1, le := insertNode e.r.toNat e }
  | none =>
    let e := { e with s := e.s + 1, r := e.r + 1, len := e.len - 1 }
    { s with le := if e.len = 0 then e else insertNode e.r.toNat e }

/-- That many positions on. -/
def lzAdvanceBy : Nat → State → State
  | 0, s => s
  | m + 1, s => lzAdvanceBy m (lzAdvance s)

/-- One round of the `repeat` loop (R104). -/
def lzRound (s : State) : State :=
  let t := { s with le := lzPutToken s.params.pair s.le }
  lzAdvanceBy t.le.matchLength.toNat (lzPutMask t)

/-- The bytes the encoder returns once the lookahead is empty. -/
def lzEncoded (s : State) : Bytes :=
  if 1 < s.le.codeBufPtr.toNat then s.out ++ codeBytes s.le else s.out

end Sys2Proof.Machine
end

