-- ==== Sys2Proof/Machine/Rle.lean ====
section
/-! DEFINITION. The RLE decoder's instructions and `RLE.ENC`, which always faults (42_rle.md R119 to R123). -/

namespace Sys2Proof.Machine

/-- `RLE.DEC` (R119): the decoder starts on the operands; its tokens are the steps that follow. -/
def execRleDec (s : State) : Answer :=
  withinLimit s.operands.inp (.next (startRleDec s.operands.inp s.operands.n { s with task := .host }))

/-- The copy loop of `RL.COPY` (R120): that many literals, `TruncatedInputError` at the first missing one. -/
def rlCopyLoop : Nat → State → State
  | 0, s => s
  | m + 1, s =>
    match inputByte s with
    | none => raise .truncatedInputError s
    | some v => rlCopyLoop m (emit v { s with ip := s.ip + 1, rl := { s.rl with v := v, j := s.rl.j + 1 } })

/-- `RL.COPY` (R120): `CorruptDataError` when the run would pass `n`, before any literal is fetched. -/
def execRlCopy (k : BitVec 7) (s : State) : Answer :=
  let t := { s with ip := s.ip + 1, rl := { s.rl with c := (1 : BitVec 1) ++ k, k := k, j := 0 } }
  if overruns t k.toNat then .next (raise .corruptDataError t)
  else .next (rlCopyLoop k.toNat t)

/-- The loop of `RL.FILL` (R121): that many times the byte `v`. -/
def rlFillLoop : Nat → State → State
  | 0, s => s
  | m + 1, s => rlFillLoop m (emit s.rl.v { s with rl := { s.rl with j := s.rl.j + 1 } })

/-- `RL.FILL` (R121): the value byte has been fetched; then `CorruptDataError` when the run would pass `n`. -/
def execRlFill (k : BitVec 7) (v : Byte) (s : State) : Answer :=
  let t := { s with ip := s.ip + 2, rl := { s.rl with c := (0 : BitVec 1) ++ k, k := k, v := v, j := 0 } }
  if overruns t k.toNat then .next (raise .corruptDataError t)
  else .next (rlFillLoop k.toNat t)

/-- `RLE.ENC` (R123): for every input `UnsupportedCompressionType`. -/
def execRleEnc (s : State) : Answer :=
  withinLimit s.operands.inp (.next (raise .unsupportedCompressionType s))

end Sys2Proof.Machine
end

