-- ==== Sys2Proof/Machine/Slide.lean ====
section
/-! DEFINITION. The Slide decoder's instructions, the command `SLIDE.ENC` and the reference Slide encoder
(41_slide.md R106 to R118). -/

namespace Sys2Proof.Machine

/-! ## Decoder -/

/-- `SLIDE.DEC` (R106): the decoder starts on the operands; its header and tokens are the steps that follow. -/
def execSlideDec (s : State) : Answer :=
  withinLimit s.operands.inp (.next (startSlideDec s.operands.inp s.operands.n { s with task := .host }))

/-- `SL.HDR` (R107): skipped without being read; the token loop begins at `ip = 4`. -/
def execSlHdr (_u : Word) (s : State) : Answer :=
  .next { s with ip := 4, engine := .slideDec }

/-- `SL.CW` (R108). -/
def execSlCw (f : Word) (s : State) : Answer :=
  .next (slReload f { s with ip := s.ip + 4 })

/-- `SL.LIT` (R109). It runs only with `op < n`. -/
def execSlLit (c : Byte) (s : State) : Answer :=
  if s.op < s.n.toNat then .next (emit c { s with ip := s.ip + 1, sl := { s.sl with c := c } })
  else .fault .outOfSpace

/-- One round of the loop of `SlideCopy` (R112): `0x00` while `dist > op`, else the byte `dist` back. -/
def slCopyByte (s : State) : State :=
  let c := outBack s s.sl.dist.toNat
  emit c { s with sl := { s.sl with c := c, k := s.sl.k + 1 } }

/-- That many rounds of the loop. -/
def slCopy : Nat → State → State
  | 0, s => s
  | m + 1, s => slCopy m (slCopyByte s)

/-- `SlideCopy(dist, L)` (R112): `CorruptDataError` when `op + L > n`, before any byte is copied. -/
def slideCopy (s : State) : Answer :=
  if overruns s s.sl.len.toNat then .next (raise .corruptDataError s)
  else .next (slCopy s.sl.len.toNat s)

/-- The operands of an `SL.REF2` in its registers (R78, R110): `dist = d + 1`, `L = n + 2`. -/
def slRef2Operands (n : BitVec 4) (d : BitVec 12) (s : State) : State :=
  { s with
    ip := s.ip + 2
    sl := { s.sl with
      b1 := n ++ d.extractLsb' 8 4, b2 := d.extractLsb' 0 8, nib := n,
      dist := d.setWidth 13 + 1, len := n.setWidth 9 + 2, k := 0 } }

/-- `SL.REF2` (R110). -/
def execSlRef2 (n : BitVec 4) (d : BitVec 12) (s : State) : Answer :=
  slideCopy (slRef2Operands n d s)

/-- The operands of an `SL.REF3` in its registers (R78, R111): `dist = d + 1`, `L = b3 + 18`. -/
def slRef3Operands (d : BitVec 12) (e : Byte) (s : State) : State :=
  { s with
    ip := s.ip + 3
    sl := { s.sl with
      b1 := (0 : BitVec 4) ++ d.extractLsb' 8 4, b2 := d.extractLsb' 0 8, b3 := e, nib := 0,
      dist := d.setWidth 13 + 1, len := e.setWidth 9 + 18, k := 0 } }

/-- `SL.REF3` (R111). -/
def execSlRef3 (d : BitVec 12) (e : Byte) (s : State) : Answer :=
  slideCopy (slRef3Operands d e s)

/-! ## Encoder -/

/-- `SLIDE.ENC` (R114): refused unless `outSize = len(raw)`; the reference encoder (R117) starts on the operand, and its
rounds are the steps that follow. -/
def execSlideEnc (s : State) : Answer :=
  withinLimit s.operands.inp
    (if s.operands.n.toNat = s.operands.inp.length then
      .next (startSlideEnc s.operands.inp { s with task := .host })
    else .refused .sizeOperandMismatch)

/-- How many bytes the two sequences have in common from their starts, at most `m` (R118, the loop over `j`). -/
def commonLength : Nat → Bytes → Bytes → Nat
  | m + 1, a :: x, b :: y => if a = b then commonLength m x y + 1 else 0
  | _, _, _ => 0

/-- The candidate positions of a search in the order they are tried (R118, `SLIDE_TIE`). -/
def candidates (tie : SlideTie) (pos : Nat) : List Nat :=
  let lo := pos - Config.slWindow
  match tie with
  | .nearest => (List.range (pos - lo)).map (fun t => pos - 1 - t)
  | .farthest => (List.range (pos - lo)).map (fun t => lo + t)

/-- `Longest(raw, pos)` (R118): the longest match and its position; only a strictly longer one replaces the best. -/
def longest (tie : SlideTie) (raw : Bytes) (pos : Nat) : Nat × Nat :=
  if raw.length ≤ pos then (0, 0)
  else
    let maxl := min Config.slMaxMatch (raw.length - pos)
    (candidates tie pos).foldl
      (fun best p =>
        let j := commonLength maxl (raw.drop p) (raw.drop pos)
        if best.1 < j then (j, p) else best)
      (0, 0)

/-- What a round of the encoder codes: (length, position), length 1 for a literal, and the pair kept for the next round
(R117). -/
def slChoose (tie : SlideTie) (raw : Bytes) (e : SlEnc) : (Nat × Nat) × Option (Nat × Nat) :=
  match e.deferred with
  | some m => (m, none)
  | none =>
    let m := longest tie raw e.pos
    if m.1 < 3 then ((1, m.2), none)
    else
      let m1 := longest tie raw (e.pos + 1)
      if m.1 + 2 ≤ m1.1 then ((1, m.2), some m1) else (m, none)

/-- The coded bytes of a back-reference with distance field `d` (R117, R174(j)). -/
def slRefBytes (len d : Nat) : Bytes :=
  if 18 ≤ len then [BitVec.ofNat 8 (d >>> 8), BitVec.ofNat 8 d, BitVec.ofNat 8 (len - 18)]
  else [BitVec.ofNat 8 ((len - 2) <<< 4) ||| BitVec.ofNat 8 (d >>> 8), BitVec.ofNat 8 d]

/-- The token of a round goes to `cw` and `buf`, and `pos` moves past it (R117). -/
def slPutToken (tie : SlideTie) (raw : Bytes) (e : SlEnc) : SlEnc :=
  let choice := slChoose tie raw e
  let len := choice.1.1
  if len = 1 then
    { e with
      cw := (e.cw <<< 1) ||| 1, nb := e.nb + 1, buf := e.buf ++ [raw.getD e.pos 0], pos := e.pos + 1,
      deferred := choice.2 }
  else
    { e with
      cw := e.cw <<< 1, nb := e.nb + 1, buf := e.buf ++ slRefBytes len (e.pos - choice.1.2 - 1),
      pos := e.pos + len, deferred := choice.2 }

/-- One round of the encoder (R117); after 32 tokens the codeword and the coded bytes go to `OUT`. -/
def slRound (s : State) : State :=
  let e := slPutToken s.params.slideTie s.inp s.se
  if e.nb = 32 then
    { s with out := s.out ++ beBytes e.cw ++ e.buf, se := { e with cw := 0, nb := 0, buf := [] } }
  else { s with se := e }

/-- The bytes the encoder returns once the input is coded: a last codeword is filled with 0 bits (R117). -/
def slEncoded (s : State) : Bytes :=
  if s.se.nb = 0 then s.out
  else s.out ++ beBytes (s.se.cw <<< (32 - s.se.nb.toNat)) ++ s.se.buf

end Sys2Proof.Machine
end

