-- ==== Sys2Proof/Machine/Container.lean ====
section
/-! DEFINITION. The container's instructions (43_container.md R124 to R143): the index and the entry headers, the `ARC`
commands, and the return of a codec into the command that runs it (44_common.md R176). A container command works on a
copy of the entries and commits it when it ends with `Ok` (R153). -/

namespace Sys2Proof.Machine

/-! ## Names, kinds, layout -/

/-- `names <- NameInfer(fname, entries)` (R37, R143): every entry gets the name the inference returns for it. -/
def inferNames (fname : Option Name) (es : List Entry) : List Entry :=
  es.mapIdx (fun j e => { e with name := Config.nameInfer fname es j })

/-- The kind a Flide variant stands for. -/
def variantKind : FlideVariant → Kind
  | .a => .flideVariantA
  | .b => .flideVariantB

/-- `SuffixKind(name)` (R138): the exact characters at the name's end. -/
def suffixKind (p : Params) (name : Name) : Kind :=
  if ['.', 'l', 'z'].isSuffixOf name then .lzss
  else if ['.', 's'].isSuffixOf name then .slide
  else if ['.', 'f', 's'].isSuffixOf name then variantKind p.suffixFs
  else if ['.', 'f', 's', 'a'].isSuffixOf name then variantKind p.suffixFsa
  else if ['.', 'z'].isSuffixOf name then .inflate
  else .none

/-- `HasEncoder(kind)` (R134). -/
def hasEncoder (p : Params) : Kind → Bool
  | .none | .lzss | .slide | .inflate => true
  | .flideVariantA | .flideVariantB => p.flideIsSlide
  | .rle | .unknown _ => false

/-- `Up(x)`: the least multiple of `ENTRY_ALIGN` not below `x` (R136, R174(h)). -/
def alignUp (align x : Nat) : Nat := x + (align - x % align) % align

/-- The entry offsets of a save, the first entry not below address `a` (R136). -/
def layoutOffsets (align : Nat) : Nat → List Bytes → List Nat
  | _, [] => []
  | a, c :: cs => alignUp align a :: layoutOffsets align (alignUp align a + 8 + c.length) cs

/-- The entries of a save from address `a` on: zero bytes up to the entry's offset, its header, its coded bytes (R136). -/
def layoutBody (p : Params) : Nat → List (Kind × Bytes × Bytes) → Bytes
  | _, [] => []
  | a, (kind, d, c) :: rest =>
    List.replicate (alignUp p.entryAlign a - a) 0
      ++ entryHeader (BitVec.ofNat 32 d.length) (tagOf p.tags kind) ++ c
      ++ layoutBody p (alignUp p.entryAlign a + 8 + c.length) rest

/-- `Layout(m, d, c)` (R136): count, offsets, entries. -/
def layout (p : Params) (es : List Entry) (d c : List Bytes) : Bytes :=
  let start := 4 + 4 * es.length
  beBytes (BitVec.ofNat 32 es.length)
    ++ (layoutOffsets p.entryAlign start c).flatMap (fun a => beBytes (BitVec.ofNat 32 a))
    ++ layoutBody p start ((es.map Entry.kind).zip (d.zip c))

/-! ## The return of a decode or an encode into its command -/

/-- The entry with its data cached (R128). -/
def decodedEntry (b : Bytes) (e : Entry) : Entry := { e with data := some b, st := .decoded }

/-- `DecodeBy` of the entry the command stands at has returned `Ok(b)`: what the command does with it (R128, R132, R133,
R135). -/
def decodeReturn (b : Bytes) (s : State) : Answer :=
  match s.arc.work[s.arc.i]? with
  | none => .fault .strayEntry
  | some e =>
    let work := s.arc.work.set s.arc.i (decodedEntry b e)
    match s.task with
    | .decode => .next (finish .empty { s with store := work })
    | .read => .next (finish (.item { name := e.name, kind := e.kind, data := b }) { s with store := work })
    | .unpack => .next { s with engine := .arcEntries, arc := { s.arc with work := work, i := s.arc.i + 1 } }
    | .saveDecode =>
      .next { s with engine := .arcEntries, task := .saveEncode, arc := { s.arc with d := s.arc.d ++ [b] } }
    | .host | .load | .loadUnpack | .saveEncode => .fault .strayEntry

/-- `EncodeBy` of the entry the save stands at has returned `Ok(b)`: on to the next entry (R135). -/
def encodeReturn (b : Bytes) (s : State) : Answer :=
  .next { s with
    engine := .arcEntries, task := .saveDecode, arc := { s.arc with c := s.arc.c ++ [b], i := s.arc.i + 1 } }

/-- A codec has returned `Ok(b)`: to the host, or to the container command that runs it (R176). -/
def codecReturn (b : Bytes) (s : State) : Answer :=
  match s.task with
  | .host => .next (finish (.bytes b) s)
  | .decode | .read | .unpack | .saveDecode => decodeReturn b s
  | .saveEncode => encodeReturn b s
  | .load | .loadUnpack => .fault .strayEntry

/-! ## The index and the entry headers -/

/-- The offsets of an index: that many big-endian words from address `a`, `none` when one passes the end (R125). -/
def readOffsets (inp : Bytes) : Nat → Nat → Option (List Word)
  | 0, _ => some []
  | m + 1, a =>
    match inputWord inp a with
    | none => none
    | some w => (readOffsets inp m (a + 4)).map (fun ws => w :: ws)

/-- `ARC.INDEX` (R84, R125): the offsets after the count, `TruncatedInputError` at the first missing one. -/
def execArcIndex (count : Word) (s : State) : Answer :=
  match readOffsets s.inp count.toNat 4 with
  | none => .next (raise .truncatedInputError s)
  | some ws =>
    .next { s with
      engine := .arcEntries, arc := { s.arc with count := count, offsets := ws, i := 0, work := [] } }

/-- Where the entry the load stands at ends: at the next offset in index order, or at the end of the buffer (R84). -/
def entryEnd (s : State) : Nat :=
  match s.arc.offsets[s.arc.i + 1]? with
  | some e => e.toNat
  | none => s.inp.length

/-- An entry header met by a load (R125, R126): its end is checked, and the entry joins the new container, `Unloaded`.
The entry has no name before the inference. -/
def loadEntry (kind : Kind) (size : Word) (s : State) : Answer :=
  match s.arc.offsets[s.arc.i]? with
  | none => .fault .strayEntry
  | some off =>
    if s.inp.length < entryEnd s then .next (raise .truncatedInputError s)
    else if entryEnd s < off.toNat + 8 then .next (raise .corruptDataError s)
    else
      let e : Entry :=
        { name := [], kind := kind, size := size, raw := inputSlice s.inp (off.toNat + 8) (entryEnd s),
          data := none, st := .unloaded }
      .next { s with arc := { s.arc with work := s.arc.work ++ [e], i := s.arc.i + 1 } }

/-- What an entry header does depends on the pass that meets it: a load takes the entry in (R125), a decode runs
`DecodeBy` on its raw bytes (R129), a save's encode runs `EncodeBy` on its data (R134). -/
def entryPass (s : State) (load : Answer) (decodeBy : Bytes → Answer) (encodeBy : Bytes → Answer) : Answer :=
  match s.task with
  | .load | .loadUnpack => load
  | .decode | .read | .unpack | .saveDecode =>
    match s.arc.work[s.arc.i]? with
    | none => .fault .strayEntry
    | some e => decodeBy e.raw
  | .saveEncode =>
    match s.arc.d[s.arc.i]? with
    | none => .fault .strayEntry
    | some d => encodeBy d
  | .host => .fault .strayEntry

/-- `UnsupportedCompressionType`, for a kind with no codec (R129, R134, R146). -/
def unsupported (s : State) : Answer := .next (raise .unsupportedCompressionType s)

/-- `ENTRY.None` (R129, R134): the first `size` raw bytes; encoded as it stands. -/
def execEntryNone (size : Word) (s : State) : Answer :=
  entryPass s (loadEntry .none size s)
    (fun raw =>
      if raw.length < size.toNat then .next (raise .truncatedInputError s)
      else decodeReturn (raw.take size.toNat) s)
    (fun d => encodeReturn d s)

/-- `ENTRY.LZSS` (R129, R134): `LZSS.DEC` and `LZSS.ENC`. -/
def execEntryLzss (size : Word) (s : State) : Answer :=
  entryPass s (loadEntry .lzss size s)
    (fun raw => .next (startLzssDec raw size s))
    (fun d => .next (startLzssEnc d s))

/-- `ENTRY.Slide` (R129, R134): `SLIDE.DEC` and `SLIDE.ENC`. -/
def execEntrySlide (size : Word) (s : State) : Answer :=
  entryPass s (loadEntry .slide size s)
    (fun raw => .next (startSlideDec raw size s))
    (fun d => .next (startSlideEnc d s))

/-- A Flide variant (R129, R134): the Slide codec under `FLIDE_IS_SLIDE`, else no codec. -/
def flideEntry (kind : Kind) (size : Word) (s : State) : Answer :=
  entryPass s (loadEntry kind size s)
    (fun raw => if s.params.flideIsSlide then .next (startSlideDec raw size s) else unsupported s)
    (fun d => if s.params.flideIsSlide then .next (startSlideEnc d s) else unsupported s)

/-- `ENTRY.FlideVariantA` (R129, R134). -/
def execEntryFlideA (size : Word) (s : State) : Answer := flideEntry .flideVariantA size s

/-- `ENTRY.FlideVariantB` (R129, R134). -/
def execEntryFlideB (size : Word) (s : State) : Answer := flideEntry .flideVariantB size s

/-- `ENTRY.RLE` (R85, R129, R134): `RLE.DEC`; there is no encoder. -/
def execEntryRle (size : Word) (s : State) : Answer :=
  entryPass s (loadEntry .rle size s)
    (fun raw => .next (startRleDec raw size s))
    (fun _ => unsupported s)

/-- `ENTRY.Inflate` (R129, R131, R134): the external functions; their faults propagate, and a decode of another length
is `CorruptDataError`. -/
def execEntryInflate (size : Word) (s : State) : Answer :=
  entryPass s (loadEntry .inflate size s)
    (fun raw =>
      match Config.zDecode raw size with
      | .ok d => if d.length = size.toNat then decodeReturn d s else .next (raise .corruptDataError s)
      | .fault k => .next (raise k s))
    (fun d =>
      match Config.zEncode d with
      | .ok c => encodeReturn c s
      | .fault k => .next (raise k s))

/-- `ENTRY.Unknown` (R86, R129): it loads; it has neither decoder nor encoder. -/
def execEntryUnknown (size tag : Word) (s : State) : Answer :=
  entryPass s (loadEntry (.unknown tag) size s) (fun _ => unsupported s) (fun _ => unsupported s)

/-! ## The loops over entries -/

/-- The entry a container loop stands at, as the header row it is met under. -/
def storedEntryInstr (e : Entry) : Instr := entryInstr e.size e.kind

/-- The tuples of R133. -/
def entryItems (es : List Entry) : List Item :=
  es.map (fun e => { name := e.name, kind := e.kind, data := e.data.getD [] })

/-- The end of `ARC.LOAD` (R125): the new container replaces the old one, and names are inferred. -/
def loadEnd (s : State) : State :=
  finish .empty { s with store := inferNames s.operands.fname s.arc.work }

/-- The load of `ARC.UNPACK` is complete: names are inferred and the decodes begin (R133). -/
def unpackBegin (s : State) : State :=
  { s with task := .unpack, arc := { s.arc with work := inferNames s.operands.fname s.arc.work, i := 0 } }

/-- The end of `ARC.UNPACK` (R133). -/
def unpackEnd (s : State) : State :=
  let es := inferNames s.operands.fname s.arc.work
  finish (.items (entryItems es)) { s with store := es }

/-- An entry as a save commits it (R135). -/
def savedEntry (e : Entry) (d c : Bytes) : Entry :=
  { e with data := some d, size := BitVec.ofNat 32 d.length, raw := c, st := .reEncoded }

/-- All entries as a save commits them. -/
def savedEntries (es : List Entry) (d c : List Bytes) : List Entry :=
  es.zipWith (fun e x => savedEntry e x.1 x.2) (d.zip c)

/-- The end of `ARC.SAVE` (R135): the bytes are laid out and every entry is committed. -/
def saveEnd (s : State) : Answer :=
  let b := layout s.params s.arc.work s.arc.d s.arc.c
  withinLimit b (.next (finish (.bytes b) { s with store := savedEntries s.arc.work s.arc.d s.arc.c }))

/-! ## The commands -/

/-- `ARC.LOAD` (R125). -/
def execArcLoad (s : State) : Answer :=
  withinLimit s.operands.inp
    (.next { s with engine := .arcIndex, task := .load, inp := s.operands.inp, arc := {} })

/-- `ARC.UNPACK` (R133): it begins with a load. -/
def execArcUnpack (s : State) : Answer :=
  withinLimit s.operands.inp
    (.next { s with engine := .arcIndex, task := .loadUnpack, inp := s.operands.inp, arc := {} })

/-- A container command begins its loop over entries at entry `i`, on a copy of the store (R153). -/
def startEntries (task : Task) (i : Nat) (s : State) : State :=
  { s with engine := .arcEntries, task := task, arc := { work := s.store, i := i } }

/-- `ARC.DECODE` (R127, R128): nothing to do on an entry that is not `Unloaded`. -/
def execArcDecode (s : State) : Answer :=
  match s.store[s.operands.index]? with
  | none => .refused .indexOutOfRange
  | some e =>
    if e.st = .unloaded then .next (startEntries .decode s.operands.index s)
    else .next (finish .empty s)

/-- `ARC.READ` (R127, R132). -/
def execArcRead (s : State) : Answer :=
  match s.store[s.operands.index]? with
  | none => .refused .indexOutOfRange
  | some e =>
    if e.st = .unloaded then .next (startEntries .read s.operands.index s)
    else .next (finish (.item { name := e.name, kind := e.kind, data := e.data.getD [] }) s)

/-- `ARC.SAVE` (R135): pass 1, every kind has an encoder; then pass 2 begins. -/
def execArcSave (s : State) : Answer :=
  if s.store.all (fun e => hasEncoder s.params e.kind) then .next (startEntries .saveDecode 0 s)
  else .next (raise .unsupportedCompressionType s)

/-- `ARC.ADD` (R138). DESIGN CHOICE (notes/assumptions/21.md): the entry is appended however many the store holds, so that
`len(entries)` may reach 2^32 although `fileCount` has 32 bits (R14, R34); no rule bounds the entries of the store. -/
def execArcAdd (s : State) : Answer :=
  let e : Entry :=
    { name := s.operands.name, kind := suffixKind s.params s.operands.name,
      size := BitVec.ofNat 32 s.operands.bytes.length, raw := [], data := some s.operands.bytes, st := .decoded }
  withinLimit s.operands.bytes
    (.next (finish .empty { s with store := inferNames none (s.store ++ [e]) }))

/-- `ARC.DEL` (R127, R139). -/
def execArcDel (s : State) : Answer :=
  if s.operands.index < s.store.length then
    .next (finish .empty { s with store := inferNames none (s.store.eraseIdx s.operands.index) })
  else .refused .indexOutOfRange

/-- `ARC.REPLACE` (R127, R140): no decoder runs; kind, name, raw bytes and position are kept. -/
def execArcReplace (s : State) : Answer :=
  match s.store[s.operands.index]? with
  | none => .refused .indexOutOfRange
  | some e =>
    let e' : Entry :=
      { e with data := some s.operands.bytes, size := BitVec.ofNat 32 s.operands.bytes.length, st := .decoded }
    withinLimit s.operands.bytes
      (.next (finish .empty { s with store := s.store.set s.operands.index e' }))

/-- `ARC2.LOAD` (R141): refused for every input. -/
def execArc2Load (_s : State) : Answer := .refused .secondContainerShape

end Sys2Proof.Machine
end

