-- ==== Sys2Proof/Machine/Dispatch.lean ====
section
/-! DEFINITION. The meaning of each instruction: one arm a constructor, each a direct call. -/

namespace Sys2Proof.Machine

def exec (i : Instr) (s : State) : Host.Outcome State Fault Refusal :=
  match i with
  | .lzFlag f => Sys2Proof.Machine.execLzFlag f s
  | .lzLit c => Sys2Proof.Machine.execLzLit c s
  | .lzRef off lraw => Sys2Proof.Machine.execLzRef off lraw s
  | .slHdr u => Sys2Proof.Machine.execSlHdr u s
  | .slCw f => Sys2Proof.Machine.execSlCw f s
  | .slLit c => Sys2Proof.Machine.execSlLit c s
  | .slRef2 n d => Sys2Proof.Machine.execSlRef2 n d s
  | .slRef3 d e => Sys2Proof.Machine.execSlRef3 d e s
  | .rlCopy k => Sys2Proof.Machine.execRlCopy k s
  | .rlFill k v => Sys2Proof.Machine.execRlFill k v s
  | .arcIndex count => Sys2Proof.Machine.execArcIndex count s
  | .entryNone size => Sys2Proof.Machine.execEntryNone size s
  | .entryLzss size => Sys2Proof.Machine.execEntryLzss size s
  | .entrySlide size => Sys2Proof.Machine.execEntrySlide size s
  | .entryFlideA size => Sys2Proof.Machine.execEntryFlideA size s
  | .entryFlideB size => Sys2Proof.Machine.execEntryFlideB size s
  | .entryRle size => Sys2Proof.Machine.execEntryRle size s
  | .entryInflate size => Sys2Proof.Machine.execEntryInflate size s
  | .entryUnknown size tag => Sys2Proof.Machine.execEntryUnknown size tag s
  | .lzssDec => Sys2Proof.Machine.execLzssDec s
  | .lzssEnc => Sys2Proof.Machine.execLzssEnc s
  | .slideDec => Sys2Proof.Machine.execSlideDec s
  | .slideEnc => Sys2Proof.Machine.execSlideEnc s
  | .rleDec => Sys2Proof.Machine.execRleDec s
  | .rleEnc => Sys2Proof.Machine.execRleEnc s
  | .arcLoad => Sys2Proof.Machine.execArcLoad s
  | .arcDecode => Sys2Proof.Machine.execArcDecode s
  | .arcRead => Sys2Proof.Machine.execArcRead s
  | .arcUnpack => Sys2Proof.Machine.execArcUnpack s
  | .arcSave => Sys2Proof.Machine.execArcSave s
  | .arcAdd => Sys2Proof.Machine.execArcAdd s
  | .arcDel => Sys2Proof.Machine.execArcDel s
  | .arcReplace => Sys2Proof.Machine.execArcReplace s
  | .arc2Load => Sys2Proof.Machine.execArc2Load s

end Sys2Proof.Machine
end

