-- ==== Sys2Proof/Machine/Fetch.lean ====
section
/-! DEFINITION. What the next step runs: a command from the host's port, the token at the input cursor, the entry a
container loop stands at; or, where the pseudocode has no token left to fetch, the end of its loop or a round of an
encoder. -/

namespace Sys2Proof.Machine

/-- What a fetch answers: an instruction with the state to run it in, or a step that runs no instruction. -/
inductive Fetched where
  | run (i : Instr) (s : State)
  | auto (a : Answer)

/-- A decoded instruction is run in `s`; a missing byte raises `TruncatedInputError` (R17, R148); a code that R92 does not
list is refused. -/
def runDecoded (d : Decoded) (s : State) : Fetched :=
  match d with
  | .instr i => .run i s
  | .truncated => .auto (.next (raise .truncatedInputError s))
  | .unknownCommand code => .auto (.refused (.unknownCommand code))

/-- A request is presented (R3, R39): its code is written to `CMD` and its operand buffers are taken. -/
def present (q : Request) (rest : List Request) (s : State) : State :=
  { s with cmd := q.code, operands := q.operands, requests := rest }

/-- Idle (R161): the next request, if the host has presented one. -/
def fetchCommand (s : State) : Fetched :=
  match s.requests with
  | [] => .auto (.next s)
  | q :: rest => runDecoded (decode s.params .command [q.code]) (present q rest s)

/-- The token loop of `LZSS.DEC` (R94): the end test, then a flag byte or a flag and its token. -/
def fetchLzss (s : State) : Fetched :=
  if s.op < s.n.toNat then
    if lzFlagsEmpty s then runDecoded (decode s.params .lzFlag (inputAtCursor s)) s
    else runDecoded (decode s.params (.lzToken (lzFlag s)) (inputAtCursor s)) (lzTake s)
  else .auto (codecReturn s.out s)

/-- The header of `SLIDE.DEC` (R107): the four bytes at address 0, not read. -/
def fetchSlideHeader (s : State) : Fetched :=
  runDecoded (decode s.params .slHeader s.inp) s

/-- The token loop of `SLIDE.DEC` (R106). -/
def fetchSlide (s : State) : Fetched :=
  if s.op < s.n.toNat then
    if slFlagsEmpty s then runDecoded (decode s.params .slCodeword (inputAtCursor s)) s
    else runDecoded (decode s.params (.slToken (slFlag s)) (inputAtCursor s)) (slTake s)
  else .auto (codecReturn s.out s)

/-- The token loop of `RLE.DEC` (R119). -/
def fetchRle (s : State) : Fetched :=
  if s.op < s.n.toNat then runDecoded (decode s.params .rlToken (inputAtCursor s)) s
  else .auto (codecReturn s.out s)

/-- `LZSS.ENC` with the reference encoder fills its lookahead; an empty input gives an empty output; else the first
strings are inserted (R104). Another encoder function answers at once (R13, R101). -/
def primeLzssEnc (s : State) : Answer :=
  match s.params.lzssEncRef with
  | .reference =>
    let t := lzFill Config.lzMaxMatch s
    if t.le.len = 0 then codecReturn [] t
    else .next { t with engine := .lzssEnc, le := lzInsertFirst t.le }
  | .other => codecReturn (Config.lzssEncOther s.inp) s

/-- The `repeat` loop of `LZSS.ENC` (R104): it ends when the lookahead is empty. -/
def stepLzssEnc (s : State) : Answer :=
  if s.le.len = 0 then codecReturn (lzEncoded s) s else .next (lzRound s)

/-- The loop of `SLIDE.ENC` with the reference encoder (R117): it ends when the input is coded. Another encoder function
answers at once (R13, R114). -/
def stepSlideEnc (s : State) : Answer :=
  match s.params.slideEncRef with
  | .reference => if s.se.pos < s.inp.length then .next (slRound s) else codecReturn (slEncoded s) s
  | .other => codecReturn (Config.slideEncOther s.inp) s

/-- `ARC.LOAD` and the load of `ARC.UNPACK` begin with the index at address 0 (R125). -/
def fetchIndex (s : State) : Fetched :=
  runDecoded (decode s.params .arcIndex s.inp) s

/-- A load's loop (R125): the header at the entry's offset, or `done` after the last entry. -/
def fetchHeader (s : State) (done : State) : Fetched :=
  if s.arc.i < s.arc.count.toNat then
    match s.arc.offsets[s.arc.i]? with
    | none => .auto (.fault .strayEntry)
    | some off => runDecoded (decode s.params .arcEntry (s.inp.drop off.toNat)) s
  else .auto (.next done)

/-- The loops over entries. `ARC.DECODE` and `ARC.READ` stand at their one entry (R128); `ARC.UNPACK` decodes every entry
(R133); `ARC.SAVE` decodes those still `Unloaded`, takes the data of the others, and encodes (R135). -/
def fetchEntries (s : State) : Fetched :=
  match s.task with
  | .host => .auto (.fault .strayEntry)
  | .load => fetchHeader s (loadEnd s)
  | .loadUnpack => fetchHeader s (unpackBegin s)
  | .decode | .read | .saveEncode =>
    match s.arc.work[s.arc.i]? with
    | none => .auto (.fault .strayEntry)
    | some e => .run (storedEntryInstr e) s
  | .unpack =>
    match s.arc.work[s.arc.i]? with
    | none => .auto (.next (unpackEnd s))
    | some e =>
      if e.st = .unloaded then .run (storedEntryInstr e) s
      else .auto (.next { s with arc := { s.arc with i := s.arc.i + 1 } })
  | .saveDecode =>
    match s.arc.work[s.arc.i]? with
    | none => .auto (saveEnd s)
    | some e =>
      if e.st = .unloaded then .run (storedEntryInstr e) s
      else match e.data with
        | none => .auto (.fault .strayEntry)
        | some d => .auto (.next { s with task := .saveEncode, arc := { s.arc with d := s.arc.d ++ [d] } })

/-- What the next step runs. -/
def fetch (s : State) : Fetched :=
  match s.engine with
  | .idle => fetchCommand s
  | .lzssDec => fetchLzss s
  | .slideHdr => fetchSlideHeader s
  | .slideDec => fetchSlide s
  | .rleDec => fetchRle s
  | .lzssEncPrime => .auto (primeLzssEnc s)
  | .lzssEnc => .auto (stepLzssEnc s)
  | .slideEnc => .auto (stepSlideEnc s)
  | .arcIndex => fetchIndex s
  | .arcEntries => fetchEntries s

/-- Where a word of the opcode table is fetched: the state in which `fetch` reads `bytes` in context `c`. A command is a
request with empty operands; a token stands at the cursor of its running decoder, with output still wanted and the flag
it needs; an entry header is the one entry of a load. After an RLE control byte the literals are zeros. -/
def placeWord (c : Ctx) (bytes : Bytes) (s : State) : State :=
  match c with
  | .command => { s with resetPending := false, engine := .idle, requests := [{ code := bytes.getD 0 0 }] }
  | .lzFlag =>
    { s with resetPending := false, engine := .lzssDec, inp := bytes, ip := 0, out := [], n := -1, lz := LzDec.start }
  | .lzToken flag =>
    { s with
      resetPending := false, engine := .lzssDec, inp := bytes, ip := 0, out := [], n := -1
      lz := { LzDec.start with flags := if flag then 3 else 2 } }
  | .slHeader => { s with resetPending := false, engine := .slideHdr, inp := bytes, ip := 4, out := [], n := -1, sl := {} }
  | .slCodeword =>
    { s with resetPending := false, engine := .slideDec, inp := bytes, ip := 0, out := [], n := -1, sl := {} }
  | .slToken flag =>
    { s with
      resetPending := false, engine := .slideDec, inp := bytes, ip := 0, out := [], n := -1
      sl := { cw := if flag then 0x80000000 else 0, nb := 1 } }
  | .rlToken =>
    { s with
      resetPending := false, engine := .rleDec, inp := bytes ++ List.replicate 127 0, ip := 0, out := [], n := -1
      rl := {} }
  | .arcIndex => { s with resetPending := false, engine := .arcIndex, task := .load, inp := bytes, arc := {} }
  | .arcEntry =>
    { s with
      resetPending := false, engine := .arcEntries, task := .load, inp := bytes
      arc := { count := 1, offsets := [0] } }

end Sys2Proof.Machine
end

