-- ==== Sys2Proof/Machine/Step.lean ====
section
/-! DEFINITION. One step of the machine. -/

namespace Sys2Proof.Machine

/-- One step: the host's reset event if it is asserted (R163), else what the fetch finds, run. -/
def step (s : State) : Host.Outcome State Fault Refusal :=
  if s.resetPending then .next (resetEvent s)
  else match fetch s with
    | .run i t => exec i t
    | .auto a => a

/-- `s` with a word of the opcode table stored where `step` fetches its next instruction. -/
def State.withFetchWord (s : State) (nbits w : Nat) : State :=
  placeWord (tableForm nbits w).1 (tableForm nbits w).2 s

end Sys2Proof.Machine
end

