-- ==== Sys2Proof/Safety.lean ====
section
/-! DEFINITION. What a claim about this machine speaks of: the read of one byte, the flag words after several
takes, the invariants, the sets of streams an encoder may return (40_lzss.md R102, 41_slide.md R115), and the external
functions' named property (43_container.md R131). -/

namespace Sys2Proof.Machine

/-! ## Reading one byte -/

/-- The byte spaces of R45 that are addressed by byte: `IN`, `OUT`, `RING`, and the encoder's `text` (R49). -/
inductive Space where
  | input
  | output
  | ring
  | text
  deriving DecidableEq, Repr

/-- The byte at an address of a space, `none` outside the space (R46 to R49). -/
def State.readByte (s : State) (sp : Space) (a : Nat) : Option Byte :=
  match sp with
  | .input => s.inp[a]?
  | .output => s.out[a]?
  | .ring => if a < 1024 then some (Mem.read s.lz.ring a) else none
  | .text => if a < 1089 then some (Mem.read s.le.text a) else none

/-- The flag word of the LZSS decoder after `i` flags have been taken from it. -/
def lzTakeMany : Nat → State → State
  | 0, s => s
  | i + 1, s => lzTake (lzTakeMany i s)

/-- The codeword of the Slide decoder after `i` flags have been taken from it. -/
def slTakeMany : Nat → State → State
  | 0, s => s
  | i + 1, s => slTake (slTakeMany i s)

/-! ## Engines -/

/-- The engine is a decoder. -/
def Engine.isDecoder : Engine → Bool
  | .lzssDec | .slideHdr | .slideDec | .rleDec => true
  | .idle | .lzssEncPrime | .lzssEnc | .slideEnc | .arcIndex | .arcEntries => false

/-- The engine is an encoder. -/
def Engine.isEncoder : Engine → Bool
  | .lzssEncPrime | .lzssEnc | .slideEnc => true
  | .idle | .lzssDec | .slideHdr | .slideDec | .rleDec | .arcIndex | .arcEntries => false

/-- The task is a container command's decode of one entry (R129). -/
def Task.isDecode : Task → Bool
  | .decode | .read | .unpack | .saveDecode => true
  | .host | .load | .loadUnpack | .saveEncode => false

/-! ## Invariants -/

/-- Every byte memory and every link array is in its one canonical form. -/
abbrev memoriesCanonical (s : State) : Prop :=
  Memory.wf s.lz.ring = true ∧ Memory.wf s.le.text = true ∧ Memory.wf s.le.codeBuf = true ∧
  Links.wf s.le.lson = true ∧ Links.wf s.le.rson = true ∧ Links.wf s.le.dad = true

/-- The LZSS ring cursor follows the output (R25). -/
abbrev ringFollowsOutput (s : State) : Prop :=
  s.engine = .lzssDec → s.lz.r.toNat = (0x3BE + s.op) % 1024

/-- Between commands no scratch state is left (R20, R161). -/
abbrev idleHoldsNoScratch (s : State) : Prop :=
  s.engine = .idle → dropScratch s = s

/-- `STATUS` is the code of the result last returned (R39, R145). -/
def statusTellsResult (s : State) : Bool :=
  match s.result with
  | none => decide (s.status = 0)
  | some (.ok _) => decide (s.status = 0)
  | some (.fault k) => decide (s.status = faultCode k)

/-- An entry as R35 and R38 have it: `data` is absent exactly while the entry is `Unloaded`, and is `size` bytes long. -/
def entryWf (e : Entry) : Bool :=
  match e.st, e.data with
  | .unloaded, none => true
  | .decoded, some d => decide (d.length = e.size.toNat)
  | .reEncoded, some d => decide (d.length = e.size.toNat)
  | .unloaded, some _ => false
  | .decoded, none => false
  | .reEncoded, none => false

/-- Every entry, held or worked on, is as R35 has it; and what makes this so: a decoder is never past its `n` bytes; a
decoder that works for an entry makes that entry's `size` bytes; an encoder works for the host or a save; the payloads a
save has gathered are shorter than 2^32. -/
abbrev entriesSound (s : State) : Prop :=
  (∀ e ∈ s.store, entryWf e = true) ∧ (∀ e ∈ s.arc.work, entryWf e = true) ∧
  (∀ d ∈ s.arc.d, d.length < Config.bufferLimit) ∧
  (s.engine.isDecoder = true → s.op ≤ s.n.toNat) ∧
  (s.engine.isDecoder = true → s.task.isDecode = true → (s.arc.work[s.arc.i]?).map Entry.size = some s.n) ∧
  (s.engine.isEncoder = true → s.task.isDecode = false)

/-! ## Streams as groups of tokens, and what an encoder may return (R89, R102, R115) -/

/-- An LZSS token. -/
def isLzToken : Instr → Bool
  | .lzLit _ | .lzRef _ _ => true
  | _ => false

/-- A Slide token. -/
def isSlToken : Instr → Bool
  | .slLit _ | .slRef3 _ _ => true
  | .slRef2 n _ => decide (n ≠ 0)
  | _ => false

/-- The flag of a token: 1 for a literal (R67, R74). -/
def isLiteral : Instr → Bool
  | .lzLit _ | .slLit _ => true
  | _ => false

/-- An LZSS group: the flag byte, bit `i` the flag of token `i` and unused bits 0, then the tokens (R66, R67, R89). -/
def lzGroupBytes (p : Params) (ts : List Instr) : Bytes :=
  (BitVec.ofBoolListLE (ts.map isLiteral)).setWidth 8 :: ts.flatMap (encode p)

/-- A Slide group: the codeword, bit `31 - i` the flag of token `i` and unused bits 0, then the tokens (R72, R74, R89). -/
def slGroupBytes (p : Params) (ts : List Instr) : Bytes :=
  beBytes ((BitVec.ofBoolListBE (ts.map isLiteral)).setWidth 32 <<< (32 - ts.length)) ++ ts.flatMap (encode p)

/-- A stream is cut into groups of `size` tokens, the last one into 1 to `size` (R66, R72). -/
def groupsFull (size : Nat) (gs : List (List Instr)) : Prop :=
  (∀ g ∈ gs, 1 ≤ g.length ∧ g.length ≤ size) ∧ ∀ g ∈ gs.dropLast, g.length = size

/-- How many bytes a Slide token produces (R76, R77). -/
def slProduces : Instr → Nat
  | .slLit _ => 1
  | .slRef2 n _ => n.toNat + 2
  | .slRef3 _ e => e.toNat + 18
  | _ => 0

/-- No back-reference reaches before the start of the output, `op` bytes having been produced (R115(e)). -/
def refsInside : Nat → List Instr → Prop
  | _, [] => True
  | op, i :: rest =>
    (match i with
     | .slRef2 _ d => d.toNat + 1 ≤ op
     | .slRef3 d _ => d.toNat + 1 ≤ op
     | _ => True) ∧ refsInside (op + slProduces i) rest

/-- A decoder started in `s` comes to the end of its loop with `raw` produced and `ip = stop`. -/
def decodesTo (s : State) (raw : Bytes) (stop : Nat) : Prop :=
  ∃ (k : Nat) (t : State), Host.Core.run Sys2Proof.core k s = .next t ∧ t.engine = s.engine ∧ t.out = raw ∧
    t.op = t.n.toNat ∧ t.ip = stop

/-- `c` is a sequence of LZSS groups, with flag bit 0 where a flag bit has no token (R102(a), (b)). -/
def lzGroups (p : Params) (c : Bytes) : Prop :=
  ∃ gs : List (List Instr), c = gs.flatMap (lzGroupBytes p) ∧ groupsFull 8 gs ∧ ∀ g ∈ gs, g.all isLzToken = true

/-- `c` is in `EncLZSS(raw)` (R102). DESIGN CHOICE (notes/assumptions/18.md): a `c` of 2^32 bytes or more may be a member,
although `LZSS.DEC` is refused on such an operand (R14, R162); the decoder is started without the limit check. -/
def encLzss (p : Params) (raw c : Bytes) : Prop :=
  lzGroups p c ∧
  decodesTo (startLzssDec c (BitVec.ofNat 32 raw.length) { params := p }) raw c.length ∧
  (raw = [] → c = [])

/-- `c` is in `EncSlide(raw)` (R115). The decoder is taken up after its header. DESIGN CHOICE (notes/assumptions/18.md): a
`c` of 2^32 bytes or more may be a member, although `SLIDE.DEC` is refused on such an operand (R14, R162); the decoder is
started without the limit check. -/
def encSlide (p : Params) (raw c : Bytes) : Prop :=
  (∃ gs : List (List Instr), c = beBytes (BitVec.ofNat 32 raw.length) ++ gs.flatMap (slGroupBytes p) ∧
    groupsFull 32 gs ∧ (∀ g ∈ gs, g.all isSlToken = true) ∧ refsInside 0 gs.flatten) ∧
  decodesTo { startSlideDec c (BitVec.ofNat 32 raw.length) { params := p } with engine := .slideDec } raw c.length ∧
  (raw = [] → c = [0, 0, 0, 0])

/-- The encoder functions a device may have in place of the reference ones (R101, R114): a claim that needs their
results in the sets of R102 and R115 may assume this. -/
def EncodersAdmissible (p : Params) : Prop :=
  ∀ raw : Bytes, raw.length < 2 ^ 32 → encLzss p raw (Config.lzssEncOther raw) ∧ encSlide p raw (Config.slideEncOther raw)

/-! ## The match search of the reference LZSS encoder -/

/-- Where `InsertNode(r)` goes from a node `x` whose string is not that at `r` in all of its 66 bytes: to its right son where
the string at `r` has the greater byte at their first difference after the first byte, else to its left one (R105). -/
def goesOnTo (e : LzEnc) (r x y : Nat) : Prop :=
  ∃ d, 1 ≤ d ∧ d < 66 ∧ (∀ j, 1 ≤ j → j < d → e.textAt (x + j) = e.textAt (r + j)) ∧
    e.textAt (x + d) ≠ e.textAt (r + d) ∧
    y = if (e.textAt (x + d)).toNat < (e.textAt (r + d)).toNat then e.rsonAt x else e.lsonAt x

/-- `q 0, …, q k` are the nodes that the descent of `InsertNode(r)` meets first, from the root of the tree of
`text[r]` (R105). -/
def descends (e : LzEnc) (r : Nat) (q : Nat → Nat) (k : Nat) : Prop :=
  q 0 = e.rsonAt (1025 + (e.textAt r).toNat) ∧ (∀ i, i ≤ k → q i ≠ 1024) ∧
  ∀ i, i < k → goesOnTo e r (q i) (q (i + 1))

/-! ## The external functions -/

/-- `ZRoundTrip` (R131): the one property of the external functions that a claim may assume. It speaks of byte buffers,
which are shorter than 2^32 bytes (R14), so `len(data)` is its 32-bit size. -/
def ZRoundTrip : Prop :=
  ∀ data : Bytes, data.length < Config.bufferLimit →
    ∃ c, Config.zEncode data = .ok c ∧
      ∀ t : Bytes, (c ++ t).length < Config.bufferLimit →
        Config.zDecode (c ++ t) (BitVec.ofNat 32 data.length) = .ok data

end Sys2Proof.Machine
end

