-- ==== Sys2Proof/Certificates/Slice0/Obligations.lean ====
section
/-! DEFINITION. The statements for the provers. Each docstring names the rule of the spec it rests on, and says where a
clause is the model's own choice. -/

open Sys2Proof Sys2Proof.Machine

namespace Sys2Proof.Claims

/-- `t` is `s` but for the values `t` has in the LZSS decoder's ring, cursor and temporaries, `ip` and the output. -/
def lzTokenFrame (s t : State) : Prop :=
  t = { s with
    ip := t.ip, out := t.out
    lz := { s.lz with
      ring := t.lz.ring, r := t.lz.r, b1 := t.lz.b1, b2 := t.lz.b2, off := t.lz.off, len := t.lz.len, k := t.lz.k,
      c := t.lz.c } }

/-- `t` is `s` but for the Slide decoder's temporaries, `ip` and the output; `cw` and `nb` are as before. -/
def slTokenFrame (s t : State) : Prop :=
  t = { s with
    ip := t.ip, out := t.out
    sl := { s.sl with
      b1 := t.sl.b1, b2 := t.sl.b2, b3 := t.sl.b3, nib := t.sl.nib, dist := t.sl.dist, len := t.sl.len, k := t.sl.k,
      c := t.sl.c } }

/-- `t` is `s` but for the RLE decoder's registers, `ip` and the output. -/
def rlTokenFrame (s t : State) : Prop := t = { s with ip := t.ip, out := t.out, rl := t.rl }

/-- The output of `t` is that of `s` and `len` bytes more, each `0x00` before the start of the output and else the byte
`dist` before it (R112). -/
def slideCopied (s t : State) (dist len : Nat) : Prop :=
  t.out.length = s.out.length + len ∧ t.out.take s.out.length = s.out ∧
  ∀ k, k < len →
    t.out[s.out.length + k]? = if s.out.length + k < dist then some 0 else t.out[s.out.length + k - dist]?

/-- The command has ended: no scratch state, and the persistent state is that of `s` but for the store, `STATUS` and the
result. -/
def endedWith (s t : State) (store : List Entry) (status : BitVec 8) (r : CommandResult) : Prop :=
  t = { dropScratch s with store := store, status := status, result := some r }

/-- What the return of a decode of entry `e` with the bytes `b` does, in each pass that decodes: `ARC.DECODE` and `ARC.READ`
cache the bytes and end (R128, R132); `ARC.UNPACK` caches them in its copy and goes on to the next entry (R133); `ARC.SAVE`
takes them as the entry's payload and goes on to its encode (R135). -/
def decodeReturned (s t : State) (e : Entry) (b : Bytes) : Prop :=
  let work := s.arc.work.set s.arc.i { e with data := some b, st := .decoded }
  match s.task with
  | .decode => endedWith s t work 0 (.ok .empty)
  | .read => endedWith s t work 0 (.ok (.item { name := e.name, kind := e.kind, data := b }))
  | .unpack => t = { s with engine := .arcEntries, arc := { s.arc with work := work, i := s.arc.i + 1 } }
  | .saveDecode =>
    t = { s with engine := .arcEntries, task := .saveEncode, arc := { s.arc with d := s.arc.d ++ [b] } }
  | .host | .load | .loadUnpack | .saveEncode => False

/-- What the return of an encode with the bytes `b` does in `ARC.SAVE`: they are the entry's coded payload, and the save
goes on to the next entry (R135). -/
def encodeReturned (s t : State) (b : Bytes) : Prop :=
  t = { s with
    engine := .arcEntries, task := .saveDecode, arc := { s.arc with c := s.arc.c ++ [b], i := s.arc.i + 1 } }

/-- The encoder that runs in `s` has coded its input, and `b` is what it returns: the reference encoders at the end of
their loops (R104, R117), another encoder function at once (R13). -/
def encoderReturns (s : State) (b : Bytes) : Prop :=
  (s.engine = .lzssEncPrime ∧ s.params.lzssEncRef = .reference ∧ s.le.len = 0 ∧ s.inp.length ≤ s.ip ∧ b = []) ∨
  (s.engine = .lzssEncPrime ∧ s.params.lzssEncRef = .other ∧ b = Config.lzssEncOther s.inp) ∨
  (s.engine = .lzssEnc ∧ s.le.len = 0 ∧ b = lzEncoded s) ∨
  (s.engine = .slideEnc ∧ s.params.slideEncRef = .reference ∧ s.inp.length ≤ s.se.pos ∧ b = slEncoded s) ∨
  (s.engine = .slideEnc ∧ s.params.slideEncRef = .other ∧ b = Config.slideEncOther s.inp)

/-- The pair (length, position) that a round of the reference Slide encoder codes, length 1 for a literal, and the pair it
keeps for the next round (R117): a kept pair is used and kept no longer; else the longest match here, which is a literal
where it is shorter than 3, and where the longest match at the next position is longer by 2 or more, which is then kept. -/
def slChosen (s : State) (len place : Nat) (kept : Option (Nat × Nat)) : Prop :=
  let here := longest s.params.slideTie s.inp s.se.pos
  let next := longest s.params.slideTie s.inp (s.se.pos + 1)
  (s.se.deferred = some (len, place) ∧ kept = none) ∨
  (s.se.deferred = none ∧ here.1 < 3 ∧ len = 1 ∧ kept = none) ∨
  (s.se.deferred = none ∧ 3 ≤ here.1 ∧ here.1 + 2 ≤ next.1 ∧ len = 1 ∧ kept = some next) ∨
  (s.se.deferred = none ∧ 3 ≤ here.1 ∧ next.1 < here.1 + 2 ∧ here = (len, place) ∧ kept = none)

/-- The entries without their names, of which nothing is known (R37). -/
def dropNames (es : List Entry) : List Entry := es.map (fun e => { e with name := [] })

/-- `s` with other operand buffers. -/
def withOperands (s : State) (inp : Bytes) (n : Word) : State := { s with operands := { inp := inp, n := n } }

/-- The entries after a name inference: every entry has the name the inference gives its index, of which nothing is known
(R37, R143). -/
def inferred (fname : Option Name) (es : List Entry) : List Entry :=
  es.mapIdx (fun j e => { e with name := Config.nameInfer fname es j })

/-- A result without its names. -/
def eraseResultNames : CommandResult → CommandResult
  | .ok (.item x) => .ok (.item { x with name := [] })
  | .ok (.items xs) => .ok (.items (xs.map (fun x => { x with name := [] })))
  | .ok .empty => .ok .empty
  | .ok (.bytes b) => .ok (.bytes b)
  | .fault k => .fault k

/-- The state without the names of its entries, held, worked on or returned. The name a host gives `ARC.ADD` stays: its
suffix selects a kind (R138). -/
def eraseNames (s : State) : State :=
  { s with
    store := dropNames s.store
    arc := { s.arc with work := dropNames s.arc.work }
    result := s.result.map eraseResultNames }

/-- `t` with the task and operand buffers of `s`: what a codec started for the host and one started inside a container
command differ in (R176). -/
def asStartedBy (s t : State) : State := { t with task := s.task, operands := s.operands }

end Sys2Proof.Claims

open Sys2Proof.Claims

/-! ## Encoding -/

/-- Decode and encode agree for every well-formed instruction, every parameter and whatever follows in the stream
(30_encoding.md sections 2 to 5 and 8). -/
def Obligations.DecodeReadsWhatEncodeWrites : Prop :=
  ∀ (p : Params) (i : Instr) (rest : Bytes), p.wf = true → i.wf p = true →
    decode p i.ctx (encode p i ++ rest) = .instr i

/-- Whatever is decoded is a well-formed instruction of the context it was decoded in (R65, R76, R86), and encoding it gives
the bytes it was decoded from. The Slide header is left out of the second part: it decodes from fewer than four bytes too
(R107). -/
def Obligations.EncodeWritesWhatDecodeRead : Prop :=
  ∀ (p : Params) (c : Ctx) (bs : Bytes) (i : Instr), decode p c bs = .instr i →
    i.ctx = c ∧ i.wf p = true ∧ (p.pair.wf = true → c ≠ .slHeader → encode p i = bs.take i.length)

/-- How a decoder tells a token's length (R88), and that no token encoding is illegal (R71, R79, R83): decoding a token
fails only for want of bytes, and of how many the flag and the first byte tell. That `RL.COPY` is the control byte alone, so
that it decodes from one byte, is the model's choice (notes/assumptions/17.md): R88 counts its literals too. -/
def Obligations.TokenLengthIsToldByFlagAndFirstByte : Prop :=
  ∀ (p : Params) (bs : Bytes),
    (decode p .lzFlag bs = .truncated ↔ bs.length < 1) ∧
    (decode p (.lzToken true) bs = .truncated ↔ bs.length < 1) ∧
    (decode p (.lzToken false) bs = .truncated ↔ bs.length < 2) ∧
    (decode p .slCodeword bs = .truncated ↔ bs.length < 4) ∧
    (decode p (.slToken true) bs = .truncated ↔ bs.length < 1) ∧
    (decode p (.slToken false) bs = .truncated ↔
      bs.length < if (bs.getD 0 0).extractLsb' 4 4 = 0 then 3 else 2) ∧
    (decode p .rlToken bs = .truncated ↔ bs.length < if (bs.getD 0 0).getLsbD 7 then 1 else 2) ∧
    ∀ c, c ≠ .command → ∀ code, decode p c bs ≠ .unknownCommand code

/-- A few words written out from the encodings of 30_encoding.md (R70, R76, R77, R81, R82, R85, R92, 95_test_vectors.md). The
`LZ.REF` rests on the default of `LZSS_PAIR` (D4, notes/assumptions/6.md) and the entry header on the default of `TAG` (D17,
notes/assumptions/5.md). -/
def Obligations.SpecWordsDecodeToTheirInstructions : Prop :=
  decode .default (.lzToken false) [0xBE, 0xC6] = .instr (.lzRef 958 6) ∧
  decode .default (.slToken false) [0x2A, 0xBC] = .instr (.slRef2 2 0xABC) ∧
  decode .default (.slToken false) [0x00, 0x00, 0x05] = .instr (.slRef3 0 5) ∧
  decode .default .rlToken [0x83] = .instr (.rlCopy 3) ∧
  decode .default .rlToken [0x03, 0xFF] = .instr (.rlFill 3 0xFF) ∧
  decode .default .arcEntry [0, 0, 0, 10, 0, 0, 0, 1] = .instr (.entryLzss 10) ∧
  decode .default .command [0x14] = .instr .arcSave

/-! ## Steps and fetches -/

/-- A step runs the decoded instruction: in each engine, with the flag taken under a token of a flagged codec and the
request presented under a command (R19, R94, R106, R119, R125, R176, R178). -/
def Obligations.StepRunsTheDecodedInstruction : Prop :=
  ∀ (s : State) (i : Instr), s.resetPending = false →
    (∀ q rest, s.engine = .idle → s.requests = q :: rest → decode s.params .command [q.code] = .instr i →
      step s = exec i { s with cmd := q.code, operands := q.operands, requests := rest }) ∧
    (s.engine = .lzssDec → s.op < s.n.toNat → s.lz.flags = 1 →
      decode s.params .lzFlag (s.inp.drop s.ip) = .instr i → step s = exec i s) ∧
    (s.engine = .lzssDec → s.op < s.n.toNat → s.lz.flags ≠ 1 →
      decode s.params (.lzToken (s.lz.flags.getLsbD 0)) (s.inp.drop s.ip) = .instr i →
      step s = exec i { s with lz := { s.lz with flags := s.lz.flags >>> 1 } }) ∧
    (s.engine = .slideHdr → i = .slHdr (headerWord s.inp) → step s = exec i s) ∧
    (s.engine = .slideDec → s.op < s.n.toNat → s.sl.nb = 0 →
      decode s.params .slCodeword (s.inp.drop s.ip) = .instr i → step s = exec i s) ∧
    (s.engine = .slideDec → s.op < s.n.toNat → s.sl.nb ≠ 0 →
      decode s.params (.slToken (s.sl.cw.getLsbD 31)) (s.inp.drop s.ip) = .instr i →
      step s = exec i { s with sl := { s.sl with cw := s.sl.cw <<< 1, nb := s.sl.nb - 1 } }) ∧
    (s.engine = .rleDec → s.op < s.n.toNat → decode s.params .rlToken (s.inp.drop s.ip) = .instr i →
      step s = exec i s) ∧
    (s.engine = .arcIndex → decode s.params .arcIndex s.inp = .instr i → step s = exec i s) ∧
    (∀ off, s.engine = .arcEntries → s.task = .load ∨ s.task = .loadUnpack → s.arc.i < s.arc.count.toNat →
      s.arc.offsets[s.arc.i]? = some off → decode s.params .arcEntry (s.inp.drop off.toNat) = .instr i →
      step s = exec i s) ∧
    (∀ e, s.engine = .arcEntries → s.arc.work[s.arc.i]? = some e → i = entryInstr e.size e.kind →
      (s.task = .decode ∨ s.task = .read ∨ s.task = .saveEncode ∨
        (s.task = .unpack ∧ e.st = .unloaded) ∨ (s.task = .saveDecode ∧ e.st = .unloaded)) →
      step s = exec i s)

/-- Where the bytes of the next token, flag byte, codeword, index or header run out, the step takes
`TruncatedInputError` (R17, R148). -/
def Obligations.StepFaultsWhereTheInputEnds : Prop :=
  ∀ (s : State), s.resetPending = false →
    (s.engine = .lzssDec → s.op < s.n.toNat → s.lz.flags = 1 → s.inp.length ≤ s.ip →
      step s = .next (raise .truncatedInputError s)) ∧
    (s.engine = .lzssDec → s.op < s.n.toNat → s.lz.flags ≠ 1 → s.inp.length ≤ s.ip →
      step s = .next (raise .truncatedInputError s)) ∧
    (s.engine = .lzssDec → s.op < s.n.toNat → s.lz.flags ≠ 1 → s.lz.flags.getLsbD 0 = false →
      s.inp.length ≤ s.ip + 1 → step s = .next (raise .truncatedInputError s)) ∧
    (s.engine = .slideDec → s.op < s.n.toNat → s.sl.nb = 0 → s.inp.length < s.ip + 4 →
      step s = .next (raise .truncatedInputError s)) ∧
    (s.engine = .slideDec → s.op < s.n.toNat → s.sl.nb ≠ 0 → s.inp.length ≤ s.ip →
      step s = .next (raise .truncatedInputError s)) ∧
    (s.engine = .slideDec → s.op < s.n.toNat → s.sl.nb ≠ 0 → s.sl.cw.getLsbD 31 = false →
      s.inp.length ≤ s.ip + 1 → step s = .next (raise .truncatedInputError s)) ∧
    (s.engine = .slideDec → s.op < s.n.toNat → s.sl.nb ≠ 0 → s.sl.cw.getLsbD 31 = false →
      (∃ b1 b2, s.inp.drop s.ip = [b1, b2] ∧ b1.extractLsb' 4 4 = 0) →
      step s = .next (raise .truncatedInputError s)) ∧
    (s.engine = .rleDec → s.op < s.n.toNat → s.inp.length ≤ s.ip →
      step s = .next (raise .truncatedInputError s)) ∧
    (s.engine = .rleDec → s.op < s.n.toNat → (∃ c, s.inp.drop s.ip = [c] ∧ c.getLsbD 7 = false) →
      step s = .next (raise .truncatedInputError s)) ∧
    (s.engine = .arcIndex → s.inp.length < 4 → step s = .next (raise .truncatedInputError s)) ∧
    (∀ off, s.engine = .arcEntries → s.task = .load ∨ s.task = .loadUnpack → s.arc.i < s.arc.count.toNat →
      s.arc.offsets[s.arc.i]? = some off → s.inp.length < off.toNat + 8 →
      step s = .next (raise .truncatedInputError s))

/-- The command port: the codes of R92, and the refusal of every other code (R162). Between commands the block is idle: a
step with no request changes nothing (R161). The list of requests is the model's (notes/assumptions/4.md). -/
def Obligations.CommandsAreTakenByTheirCodes : Prop :=
  (commandOf 0x01 = some .lzssDec ∧ commandOf 0x02 = some .lzssEnc ∧ commandOf 0x03 = some .slideDec ∧
   commandOf 0x04 = some .slideEnc ∧ commandOf 0x05 = some .rleDec ∧ commandOf 0x06 = some .rleEnc ∧
   commandOf 0x10 = some .arcLoad ∧ commandOf 0x11 = some .arcDecode ∧ commandOf 0x12 = some .arcRead ∧
   commandOf 0x13 = some .arcUnpack ∧ commandOf 0x14 = some .arcSave ∧ commandOf 0x15 = some .arcAdd ∧
   commandOf 0x16 = some .arcDel ∧ commandOf 0x17 = some .arcReplace ∧ commandOf 0x18 = some .arc2Load) ∧
  ∀ s : State, s.resetPending = false → s.engine = .idle →
    (∀ q rest i, s.requests = q :: rest → commandOf q.code = some i →
      step s = exec i { s with cmd := q.code, operands := q.operands, requests := rest }) ∧
    (∀ q rest, s.requests = q :: rest →
      q.code ∉ ([0x01, 0x02, 0x03, 0x04, 0x05, 0x06, 0x10, 0x11, 0x12, 0x13, 0x14, 0x15, 0x16, 0x17, 0x18] : Bytes) →
      step s = .refused (.unknownCommand q.code)) ∧
    (s.requests = [] → step s = .next s)

/-! ## Reset -/

/-- After reset the store is empty, `STATUS` is 0 and no command runs (R42, R163). The values of `CMD` and of the scratch
registers are the model's (notes/assumptions/3.md) and are not stated. -/
def Obligations.ResetHoldsAnEmptyContainer : Prop :=
  State.reset.store = [] ∧ State.reset.status = 0 ∧ State.reset.engine = .idle ∧ State.reset.result = none

/-- The reset event empties the store, clears `STATUS` and discards a running command with no result, in every state; the
parameters stay (R163, R166). That no earlier result outlives it and that the requests not yet taken do is the model's
choice (notes/assumptions/16.md). -/
def Obligations.ResetEventDiscardsTheCommand : Prop :=
  ∀ s : State, s.resetPending = true →
    ∃ t, step s = .next t ∧ t.store = [] ∧ t.status = 0 ∧ t.engine = .idle ∧ t.result = none ∧ dropScratch t = t ∧
      t.params = s.params ∧ t.requests = s.requests ∧ t.resetPending = false

/-! ## Faults -/

/-- Taking a fault (R152, R153): the step of a running command that ends it with a fault changes nothing but `STATUS` and
the result; all scratch state is dropped and the store is as before the step. -/
def Obligations.FaultedCommandChangesNothing : Prop :=
  ∀ (s t : State) (k : FaultKind), s.resetPending = false → s.engine ≠ .idle → step s = .next t → t.engine = .idle →
    t.result = some (.fault k) → endedWith s t s.store (faultCode k) (.fault k)

/-- Outside the reset event the store changes only in a step that ends a command with `Ok`, so a command that faults, at
whatever step, leaves it as it was before the command; `STATUS` and the result change only in a step that ends a command
(R20, R39, R153). The parameters never change (R166). -/
def Obligations.PersistentStateChangesOnlyWhereACommandEnds : Prop :=
  ∀ s t : State, step s = .next t →
    t.params = s.params ∧
    (s.resetPending = false →
      (t.store ≠ s.store → t.engine = .idle ∧ t.status = 0 ∧ ∃ p, t.result = some (.ok p)) ∧
      (t.status ≠ s.status ∨ t.result ≠ s.result → t.engine = .idle))

/-- A token whose length would carry the output past `n` takes `CorruptDataError` before any byte (R97, R112, R120, R121,
R147). A literal run with the output complete stops the model instead: `OUT[n]` does not exist (R47, R64), no fetch leads
there, and the fault is the model's own guard (notes/assumptions/11.md). -/
def Obligations.TokensNeedRoom : Prop :=
  ∀ s : State,
    (∀ off lraw, s.n.toNat < s.op + (lraw.toNat + 3) →
      exec (.lzRef off lraw) s = .next (raise .corruptDataError s)) ∧
    (∀ n d, s.n.toNat < s.op + (n.toNat + 2) → exec (.slRef2 n d) s = .next (raise .corruptDataError s)) ∧
    (∀ d e, s.n.toNat < s.op + (e.toNat + 18) → exec (.slRef3 d e) s = .next (raise .corruptDataError s)) ∧
    (∀ k, s.n.toNat < s.op + k.toNat → exec (.rlCopy k) s = .next (raise .corruptDataError s)) ∧
    (∀ k v, s.n.toNat < s.op + k.toNat → exec (.rlFill k v) s = .next (raise .corruptDataError s)) ∧
    (∀ c, s.n.toNat ≤ s.op → exec (.lzLit c) s = .fault .outOfSpace ∧ exec (.slLit c) s = .fault .outOfSpace)

/-! ## LZSS decoder -/

/-- `LZ.FLAG` (R95): it fetches a byte when a flag is needed and none is left, sets `flags` and writes nothing else. -/
def Obligations.LzFlagFetchesAFlagByte : Prop :=
  ∀ s : State,
    (∀ b, exec (.lzFlag b) s =
      .next { s with ip := s.ip + 1, lz := { s.lz with flags := 0x100 ||| b.setWidth 9 } }) ∧
    (s.resetPending = false → s.engine = .lzssDec → s.op < s.n.toNat → s.lz.flags = 1 →
      (s.inp.length ≤ s.ip → step s = .next (raise .truncatedInputError s)) ∧
      ∀ b, s.inp[s.ip]? = some b → step s = exec (.lzFlag b) s)

/-- The flag word (R26): 0x001 when the decoder starts; a refill sets `0x100 | byte`, then eight takes hand out the byte's
bits from bit 0 up, the word not empty before the eighth take and the sentinel alone after it. -/
def Obligations.LzFlagsComeLowBitFirst : Prop :=
  (∀ (inp : Bytes) (n : Word) (s : State), (startLzssDec inp n s).lz.flags = 0x001) ∧
  ∀ (s : State) (b : Byte),
    (lzRefill b s).lz.flags = 0x100 ||| b.setWidth 9 ∧
    (∀ i, i < 8 →
      (lzTakeMany i (lzRefill b s)).lz.flags.getLsbD 0 = b.getLsbD i ∧
      (lzTakeMany i (lzRefill b s)).lz.flags ≠ 1 ∧
      (lzTakeMany (i + 1) (lzRefill b s)).lz.flags = (lzTakeMany i (lzRefill b s)).lz.flags >>> 1) ∧
    (lzTakeMany 8 (lzRefill b s)).lz.flags = 1

/-- `LZ.LIT` (R96): under flag 1, the byte at the input cursor, or `TruncatedInputError` where there is none. It goes to the
output and to the ring at the cursor, which moves on by one and wraps. -/
def Obligations.LzLitGoesToOutputAndRing : Prop :=
  ∀ s : State, s.op < s.n.toNat →
    (∀ c, ∃ t, exec (.lzLit c) s = .next t ∧ t.out = s.out ++ [c] ∧ t.ip = s.ip + 1 ∧
      t.lz.r.toNat = (s.lz.r.toNat + 1) % 1024 ∧
      (Memory.wf s.lz.ring = true → t.readByte .ring s.lz.r.toNat = some c) ∧
      (∀ a, a ≠ s.lz.r.toNat → t.readByte .ring a = s.readByte .ring a) ∧
      t = { s with
        ip := t.ip, out := t.out, lz := { s.lz with ring := t.lz.ring, r := t.lz.r, c := t.lz.c } }) ∧
    (s.resetPending = false → s.engine = .lzssDec → s.lz.flags ≠ 1 → s.lz.flags.getLsbD 0 = true →
      (s.inp.length ≤ s.ip → step s = .next (raise .truncatedInputError s)) ∧
      ∀ c, s.inp[s.ip]? = some c → step s = exec (.lzLit c) { s with lz := { s.lz with flags := s.lz.flags >>> 1 } })

/-- `LZ.REF` (R97): under flag 0, two control bytes, or `TruncatedInputError` where one is missing; they hold `off` and
`L - 3`, at the default `LZSS_PAIR` as the rule has them. A run past `n` is `CorruptDataError`. Else `L` bytes are copied
from the ring at `off` on, each read before the next is written, to the output and to the ring at the cursor: a byte read
from an address this token has already written is the byte written there; any other is the ring's old byte. -/
def Obligations.LzRefCopiesFromTheRing : Prop :=
  (∀ s : State, s.resetPending = false → s.engine = .lzssDec → s.op < s.n.toNat → s.lz.flags ≠ 1 →
    s.lz.flags.getLsbD 0 = false →
    (s.inp.length ≤ s.ip + 1 → step s = .next (raise .truncatedInputError s)) ∧
    ∀ b1 b2 rest, s.inp.drop s.ip = b1 :: b2 :: rest → s.params.pair = PairLayout.default →
      ∃ off lraw, step s = exec (.lzRef off lraw) { s with lz := { s.lz with flags := s.lz.flags >>> 1 } } ∧
        off.toNat = b1.toNat ||| ((b2.toNat &&& 0xC0) <<< 2) ∧ lraw.toNat = b2.toNat &&& 0x3F) ∧
  ∀ (s : State) (off : BitVec 10) (lraw : BitVec 6),
    (s.n.toNat < s.op + (lraw.toNat + 3) → exec (.lzRef off lraw) s = .next (raise .corruptDataError s)) ∧
    (s.op + (lraw.toNat + 3) ≤ s.n.toNat → Memory.wf s.lz.ring = true →
      ∃ (t : State) (bs : Bytes), exec (.lzRef off lraw) s = .next t ∧ bs.length = lraw.toNat + 3 ∧
        t.out = s.out ++ bs ∧ t.ip = s.ip + 2 ∧ t.lz.r.toNat = (s.lz.r.toNat + (lraw.toNat + 3)) % 1024 ∧
        (∀ k, k < lraw.toNat + 3 →
          (∀ j, j < k → (s.lz.r.toNat + j) % 1024 ≠ (off.toNat + k) % 1024) →
          bs[k]? = s.readByte .ring ((off.toNat + k) % 1024)) ∧
        (∀ k j, k < lraw.toNat + 3 → j < k → (s.lz.r.toNat + j) % 1024 = (off.toNat + k) % 1024 → bs[k]? = bs[j]?) ∧
        (∀ j, j < lraw.toNat + 3 → t.readByte .ring ((s.lz.r.toNat + j) % 1024) = bs[j]?) ∧
        (∀ a, (∀ j, j < lraw.toNat + 3 → a ≠ (s.lz.r.toNat + j) % 1024) →
          t.readByte .ring a = s.readByte .ring a) ∧
        lzTokenFrame s t)

/-! ## Slide decoder -/

/-- `SL.HDR` (R107): the header is skipped without being read, whatever it holds and however short the input is. -/
def Obligations.SlHdrIsSkipped : Prop :=
  ∀ (s : State) (u : Word),
    exec (.slHdr u) s = .next { s with ip := 4, engine := .slideDec } ∧
    (s.resetPending = false → s.engine = .slideHdr → step s = .next { s with ip := 4, engine := .slideDec })

/-- `SL.CW` (R108): it fetches four bytes when a flag is needed and none is left, or faults with fewer; `cw` and `nb` are
set and nothing else. -/
def Obligations.SlCwFetchesACodeword : Prop :=
  ∀ s : State,
    (∀ w, exec (.slCw w) s = .next { s with ip := s.ip + 4, sl := { s.sl with cw := w, nb := 32 } }) ∧
    (s.resetPending = false → s.engine = .slideDec → s.op < s.n.toNat → s.sl.nb = 0 →
      (s.inp.length < s.ip + 4 → step s = .next (raise .truncatedInputError s)) ∧
      ∀ a b c d rest, s.inp.drop s.ip = a :: b :: c :: d :: rest →
        step s = exec (.slCw (be32 a b c d)) s)

/-- The codeword (R30): none is loaded at the start; a reload gives 32 flags; taking one shifts the word left by one and
counts down, so that the flags come from bit 31 downward. -/
def Obligations.SlFlagsComeHighBitFirst : Prop :=
  ∀ (s : State) (w : Word),
    (∀ inp n, (startSlideDec inp n s).sl.nb = 0 ∧ (startSlideDec inp n s).sl.cw = 0) ∧
    (slReload w s).sl.cw = w ∧ (slReload w s).sl.nb = 32 ∧
    (slTake s).sl.cw.toNat = (2 * s.sl.cw.toNat) % 2 ^ 32 ∧ (slTake s).sl.nb = s.sl.nb - 1 ∧
    (∀ i, i < 32 →
      (slTakeMany i (slReload w s)).sl.cw.getLsbD 31 = w.getLsbD (31 - i) ∧
      (slTakeMany i (slReload w s)).sl.nb.toNat = 32 - i) ∧
    (slTakeMany 32 (slReload w s)).sl.nb = 0

/-- `SL.LIT` (R109): under flag 1, the byte at the input cursor, or `TruncatedInputError` where there is none; it goes to
the output. -/
def Obligations.SlLitGoesToTheOutput : Prop :=
  ∀ s : State, s.op < s.n.toNat →
    (∀ c, ∃ t, exec (.slLit c) s = .next t ∧ t.out = s.out ++ [c] ∧ t.ip = s.ip + 1 ∧
      (∀ a, t.readByte .ring a = s.readByte .ring a) ∧
      t = { s with ip := t.ip, out := t.out, sl := { s.sl with c := t.sl.c } }) ∧
    (s.resetPending = false → s.engine = .slideDec → s.sl.nb ≠ 0 → s.sl.cw.getLsbD 31 = true →
      (s.inp.length ≤ s.ip → step s = .next (raise .truncatedInputError s)) ∧
      ∀ c, s.inp[s.ip]? = some c →
        step s = exec (.slLit c) { s with sl := { s.sl with cw := s.sl.cw <<< 1, nb := s.sl.nb - 1 } })

/-- `SL.REF2` and `SL.REF3` (R110 to R112): under flag 0, the two bytes and, where the high nibble of the first is 0, a
third, or `TruncatedInputError` where one is missing. `dist` is `(((b1 & 0x0F) << 8) | b2) + 1`; `L` is the nibble and 2,
or the third byte and 18. A run past `n` is `CorruptDataError`; else `L` bytes are read back from the output, one at a
time, with `0x00` before its start. -/
def Obligations.SlideReferencesReadBackTheOutput : Prop :=
  (∀ s : State, s.resetPending = false → s.engine = .slideDec → s.op < s.n.toNat → s.sl.nb ≠ 0 →
    s.sl.cw.getLsbD 31 = false →
    (s.inp.length ≤ s.ip + 1 → step s = .next (raise .truncatedInputError s)) ∧
    ∀ b1 b2 rest, s.inp.drop s.ip = b1 :: b2 :: rest →
      ((b1.toNat &&& 0xF0) >>> 4 = 0 → rest = [] → step s = .next (raise .truncatedInputError s)) ∧
      ((b1.toNat &&& 0xF0) >>> 4 = 0 → ∀ b3 more, rest = b3 :: more →
        ∃ d, step s = exec (.slRef3 d b3) { s with sl := { s.sl with cw := s.sl.cw <<< 1, nb := s.sl.nb - 1 } } ∧
          d.toNat = ((b1.toNat &&& 0x0F) <<< 8) ||| b2.toNat) ∧
      ((b1.toNat &&& 0xF0) >>> 4 ≠ 0 →
        ∃ n d, step s = exec (.slRef2 n d) { s with sl := { s.sl with cw := s.sl.cw <<< 1, nb := s.sl.nb - 1 } } ∧
          n.toNat = (b1.toNat &&& 0xF0) >>> 4 ∧ d.toNat = ((b1.toNat &&& 0x0F) <<< 8) ||| b2.toNat)) ∧
  ∀ s : State,
    (∀ n d, s.n.toNat < s.op + (n.toNat + 2) → exec (.slRef2 n d) s = .next (raise .corruptDataError s)) ∧
    (∀ d e, s.n.toNat < s.op + (e.toNat + 18) → exec (.slRef3 d e) s = .next (raise .corruptDataError s)) ∧
    (∀ n d, s.op + (n.toNat + 2) ≤ s.n.toNat →
      ∃ t, exec (.slRef2 n d) s = .next t ∧ t.ip = s.ip + 2 ∧ slideCopied s t (d.toNat + 1) (n.toNat + 2) ∧
        (∀ a, t.readByte .ring a = s.readByte .ring a) ∧ slTokenFrame s t) ∧
    (∀ d e, s.op + (e.toNat + 18) ≤ s.n.toNat →
      ∃ t, exec (.slRef3 d e) s = .next t ∧ t.ip = s.ip + 3 ∧ slideCopied s t (d.toNat + 1) (e.toNat + 18) ∧
        (∀ a, t.readByte .ring a = s.readByte .ring a) ∧ slTokenFrame s t)

/-! ## RLE -/

/-- `RL.COPY` (R120): a control byte with bit 7 set. The length check first, then that many literals from the input,
`TruncatedInputError` at the first missing one; a count of 0 copies nothing. -/
def Obligations.RlCopyTakesLiterals : Prop :=
  ∀ (s : State) (k : BitVec 7),
    (s.n.toNat < s.op + k.toNat → exec (.rlCopy k) s = .next (raise .corruptDataError s)) ∧
    (s.op + k.toNat ≤ s.n.toNat → k ≠ 0 → s.inp.length < s.ip + 1 + k.toNat →
      exec (.rlCopy k) s = .next (raise .truncatedInputError s)) ∧
    (s.op + k.toNat ≤ s.n.toNat → k = 0 ∨ s.ip + 1 + k.toNat ≤ s.inp.length →
      ∃ t, exec (.rlCopy k) s = .next t ∧ t.out = s.out ++ (s.inp.drop (s.ip + 1)).take k.toNat ∧
        t.ip = s.ip + 1 + k.toNat ∧ (∀ a, t.readByte .ring a = s.readByte .ring a) ∧ rlTokenFrame s t) ∧
    (s.resetPending = false → s.engine = .rleDec → s.op < s.n.toNat →
      ∀ rest, s.inp.drop s.ip = ((1 : BitVec 1) ++ k) :: rest → step s = exec (.rlCopy k) s)

/-- `RL.FILL` (R121): a control byte with bit 7 clear. The value byte is fetched first, or the input ends; then the length
check; then the value that many times; a count of 0 fetches the value and emits nothing. -/
def Obligations.RlFillRepeatsItsByte : Prop :=
  ∀ (s : State) (k : BitVec 7),
    (∀ v, s.n.toNat < s.op + k.toNat → exec (.rlFill k v) s = .next (raise .corruptDataError s)) ∧
    (∀ v, s.op + k.toNat ≤ s.n.toNat →
      ∃ t, exec (.rlFill k v) s = .next t ∧ t.out = s.out ++ List.replicate k.toNat v ∧ t.ip = s.ip + 2 ∧
        (∀ a, t.readByte .ring a = s.readByte .ring a) ∧ rlTokenFrame s t) ∧
    (s.resetPending = false → s.engine = .rleDec → s.op < s.n.toNat →
      (s.inp.drop s.ip = [(0 : BitVec 1) ++ k] → step s = .next (raise .truncatedInputError s)) ∧
      ∀ v rest, s.inp.drop s.ip = ((0 : BitVec 1) ++ k) :: v :: rest → step s = exec (.rlFill k v) s)

/-- `RLE.ENC` (R123): for every input `Fault(UnsupportedCompressionType)`, and nothing is written. -/
def Obligations.RleEncAlwaysFaults : Prop :=
  ∀ s : State, s.operands.inp.length < 2 ^ 32 →
    ∃ t, exec .rleEnc s = .next t ∧
      endedWith s t s.store 1 (.fault .unsupportedCompressionType)

/-! ## Starting the codecs -/

/-- The decoders start on their operands with fresh scratch state (R22 to R26, R30, R43, R94, R106, R119). The Slide
decoder's first step is its header. -/
def Obligations.DecodersStartFresh : Prop :=
  ∀ s : State, s.operands.inp.length < 2 ^ 32 →
    (∃ t, exec .lzssDec s = .next t ∧ t.engine = .lzssDec ∧ t.task = .host ∧ t.inp = s.operands.inp ∧
      t.n = s.operands.n ∧ t.ip = 0 ∧ t.op = 0 ∧ t.lz.r = 0x3BE ∧ t.lz.flags = 0x001 ∧
      (∀ a, a < 1024 → t.readByte .ring a = some 0) ∧
      t = { s with
        engine := t.engine, task := t.task, inp := t.inp, n := t.n, ip := t.ip, out := t.out, lz := t.lz }) ∧
    (∃ t, exec .slideDec s = .next t ∧ t.engine = .slideHdr ∧ t.task = .host ∧ t.inp = s.operands.inp ∧
      t.n = s.operands.n ∧ t.ip = 4 ∧ t.op = 0 ∧ t.sl.nb = 0 ∧ t.sl.cw = 0 ∧
      t = { s with
        engine := t.engine, task := t.task, inp := t.inp, n := t.n, ip := t.ip, out := t.out, sl := t.sl }) ∧
    (∃ t, exec .rleDec s = .next t ∧ t.engine = .rleDec ∧ t.task = .host ∧ t.inp = s.operands.inp ∧
      t.n = s.operands.n ∧ t.ip = 0 ∧ t.op = 0 ∧
      t = { s with
        engine := t.engine, task := t.task, inp := t.inp, n := t.n, ip := t.ip, out := t.out, rl := t.rl })

/-- The encoders start on their operand with the scratch state of their reference encoder (R32, R43, R104, R115(a)): the
statement rests on `LzssEncRef` and `SlideEncRef`. -/
def Obligations.EncodersStartFresh : Prop :=
  ∀ s : State, s.operands.inp.length < 2 ^ 32 →
    (∃ t, exec .lzssEnc s = .next t ∧ t.engine = .lzssEncPrime ∧ t.task = .host ∧ t.inp = s.operands.inp ∧
      t.ip = 0 ∧ t.out = [] ∧ (∀ a, a < 1089 → t.readByte .text a = some 0) ∧
      (∀ i, i < 1024 → t.le.dadAt i = 1024) ∧ (∀ b, b < 256 → t.le.rsonAt (1025 + b) = 1024) ∧
      t.le.s = 0 ∧ t.le.r = 958 ∧ t.le.mask = 1 ∧ Mem.read t.le.codeBuf 0 = 0 ∧ t.le.codeBufPtr = 1 ∧
      t = { s with engine := t.engine, task := t.task, inp := t.inp, ip := t.ip, out := t.out, le := t.le }) ∧
    (s.operands.n.toNat = s.operands.inp.length →
      ∃ t, exec .slideEnc s = .next t ∧ t.engine = .slideEnc ∧ t.task = .host ∧ t.inp = s.operands.inp ∧
        t.out = beBytes s.operands.n ∧ t.se.pos = 0 ∧ t.se.cw = 0 ∧ t.se.nb = 0 ∧ t.se.buf = [] ∧
        t.se.deferred = none ∧
        t = { s with engine := t.engine, task := t.task, inp := t.inp, ip := t.ip, out := t.out, se := t.se })

/-- Operands that the spec gives no meaning to are refused (R162): a buffer of 2^32 bytes or more (R14), a size for
`SLIDE.ENC` that is not the input's (R114), an index that names no entry (R127). Which check comes first, and that `RLE.ENC`
makes one, is the model's choice (notes/assumptions/18.md). -/
def Obligations.OperandsWithoutMeaningAreRefused : Prop :=
  ∀ s : State,
    (2 ^ 32 ≤ s.operands.inp.length →
      exec .lzssDec s = .refused .bufferTooLong ∧ exec .lzssEnc s = .refused .bufferTooLong ∧
      exec .slideDec s = .refused .bufferTooLong ∧ exec .slideEnc s = .refused .bufferTooLong ∧
      exec .rleDec s = .refused .bufferTooLong ∧ exec .rleEnc s = .refused .bufferTooLong ∧
      exec .arcLoad s = .refused .bufferTooLong ∧ exec .arcUnpack s = .refused .bufferTooLong) ∧
    (2 ^ 32 ≤ s.operands.bytes.length →
      exec .arcAdd s = .refused .bufferTooLong ∧
      (s.operands.index < s.store.length → exec .arcReplace s = .refused .bufferTooLong)) ∧
    (s.operands.inp.length < 2 ^ 32 → s.operands.n.toNat ≠ s.operands.inp.length →
      exec .slideEnc s = .refused .sizeOperandMismatch) ∧
    (s.store.length ≤ s.operands.index →
      exec .arcDecode s = .refused .indexOutOfRange ∧ exec .arcRead s = .refused .indexOutOfRange ∧
      exec .arcDel s = .refused .indexOutOfRange ∧ exec .arcReplace s = .refused .indexOutOfRange)

/-! ## Loops of the codecs -/

/-- A decoder's result has exactly `n` bytes (R98, R113, R122): the step that ends the loop for the host returns the
output, and the output is `n` bytes long. -/
def Obligations.DecodersReturnExactlyNBytes : Prop :=
  ∀ s : State, s.resetPending = false → s.task = .host → s.op ≤ s.n.toNat → ¬ s.op < s.n.toNat →
    s.engine = .lzssDec ∨ s.engine = .slideDec ∨ s.engine = .rleDec →
    ∃ t, step s = .next t ∧ endedWith s t s.store 0 (.ok (.bytes s.out)) ∧ s.out.length = s.n.toNat

/-- Every step of a decoder's loop either ends the command or fetches at least one input byte that is there, and the output
never shrinks (R98, R113, R122, R175). -/
def Obligations.DecoderStepsConsumeInput : Prop :=
  ∀ s t : State, s.resetPending = false → s.engine = .lzssDec ∨ s.engine = .slideDec ∨ s.engine = .rleDec →
    step s = .next t → t.engine = s.engine →
    s.ip < t.ip ∧ t.ip ≤ s.inp.length ∧ t.inp = s.inp ∧ t.n = s.n ∧ t.op ≤ s.n.toNat ∧
      ∃ bs, t.out = s.out ++ bs

/-- Every decode command ends (R173): from any state of a decoder's loop, for the host and not past its output, the block
is idle after at most one step for each input byte left and one more. -/
def Obligations.DecodersTerminate : Prop :=
  ∀ s : State, s.resetPending = false → s.task = .host → s.op ≤ s.n.toNat →
    s.engine = .lzssDec ∨ s.engine = .slideDec ∨ s.engine = .rleDec →
    ∃ k t, k ≤ (s.inp.length - s.ip) + 1 ∧ Host.Core.run Sys2Proof.core k s = .next t ∧ t.engine = .idle

/-- Bytes after those a step fetches have no effect on it (R99, R113, R122): a step that stays in its loop is the same with
any bytes appended to the input. -/
def Obligations.TrailingInputIsIgnored : Prop :=
  ∀ (s t : State) (more : Bytes), s.resetPending = false →
    s.engine = .lzssDec ∨ s.engine = .slideDec ∨ s.engine = .rleDec →
    step s = .next t → t.engine = s.engine →
    step { s with inp := s.inp ++ more } = .next { t with inp := t.inp ++ more }

/-- `LZSS.ENC` and `SLIDE.ENC` never fault, and end (R101, R114, R149, R173): from any state of an encoder that works for
the host, some number of steps on the command has ended with `Ok` and some bytes. What `LZSS.ENC` returns on any input is a
member of `EncLZSS(raw)` (R101, R102): with the reference encoder (R104), for every admissible layout of the pair; with
another encoder function, wherever it is assumed to be admissible. And `LZSS.DEC` gives `raw` back from every member of
`EncLZSS(raw)`, whatever bytes follow (R102(c), R99, R142(a)). -/
def Obligations.EncodersEndWithOk : Prop :=
  (∀ s : State, s.resetPending = false → s.task = .host →
    s.engine = .lzssEncPrime ∨ s.engine = .lzssEnc ∨ s.engine = .slideEnc →
    ∃ (k : Nat) (t : State) (b : Bytes), Host.Core.run Sys2Proof.core k s = .next t ∧
      endedWith s t s.store 0 (.ok (.bytes b))) ∧
  (∀ (s : State) (raw : Bytes), s.resetPending = false → raw.length < 2 ^ 32 →
    ∃ (u : State) (k : Nat) (t : State) (b : Bytes), exec .lzssEnc (withOperands s raw 0) = .next u ∧
      Host.Core.run Sys2Proof.core k u = .next t ∧ endedWith s t s.store 0 (.ok (.bytes b)) ∧
      (s.params.lzssEncRef = .reference →
        lzGroups s.params b ∧ (raw = [] → b = []) ∧ (s.params.pair.wf = true → encLzss s.params raw b)) ∧
      (s.params.lzssEncRef = .other → EncodersAdmissible s.params → encLzss s.params raw b)) ∧
  ∀ (s : State) (raw c more : Bytes), s.resetPending = false → encLzss s.params raw c → (c ++ more).length < 2 ^ 32 →
    ∃ (u : State) (k : Nat) (t : State),
      exec .lzssDec (withOperands s (c ++ more) (BitVec.ofNat 32 raw.length)) = .next u ∧
      Host.Core.run Sys2Proof.core k u = .next t ∧ endedWith s t s.store 0 (.ok (.bytes raw))

/-- What the Slide encoder codes the Slide decoder gives back (R115(d), R117): `SLIDE.ENC` on any input runs to its end
with a member of `EncSlide(raw)` (R115), and `SLIDE.DEC` on the bytes it returned, with any bytes after them, runs to its end
and returns the input. This rests on the reference encoder and holds for both values of `SLIDE_TIE`; another encoder function
returns a member of the set wherever it is assumed to be admissible (R114). And `SLIDE.DEC` gives `raw` back from every
member of `EncSlide(raw)`, whatever bytes follow (R115(d), R113, R142(a)). The step of a round of the reference encoder
(R116, R117): it codes the pair that `slChosen` gives; its flag bit and the bytes of its token, `SL.LIT`, `SL.REF2` or `SL.REF3`,
join the codeword and the gathered bytes, `pos` moves past it, and after the thirty-second token both go to the output. At the
input's end the last codeword is filled with 0 bits and the output is returned. -/
def Obligations.SlideDecodesWhatItEncodes : Prop :=
  (∀ (s : State) (raw : Bytes), s.resetPending = false → s.params.slideEncRef = .reference → raw.length < 2 ^ 32 →
    ∃ b : Bytes,
      (∃ u k t, exec .slideEnc (withOperands s raw (BitVec.ofNat 32 raw.length)) = .next u ∧
        Host.Core.run Sys2Proof.core k u = .next t ∧ endedWith s t s.store 0 (.ok (.bytes b))) ∧
      encSlide s.params raw b ∧
      ∀ more : Bytes, (b ++ more).length < 2 ^ 32 →
        ∃ u k t, exec .slideDec (withOperands s (b ++ more) (BitVec.ofNat 32 raw.length)) = .next u ∧
          Host.Core.run Sys2Proof.core k u = .next t ∧ endedWith s t s.store 0 (.ok (.bytes raw))) ∧
  (∀ (s : State) (raw : Bytes), s.resetPending = false → s.params.slideEncRef = .other → raw.length < 2 ^ 32 →
    ∃ (u : State) (k : Nat) (t : State) (b : Bytes),
      exec .slideEnc (withOperands s raw (BitVec.ofNat 32 raw.length)) = .next u ∧
      Host.Core.run Sys2Proof.core k u = .next t ∧ endedWith s t s.store 0 (.ok (.bytes b)) ∧
      (EncodersAdmissible s.params → encSlide s.params raw b)) ∧
  (∀ (s : State) (raw c more : Bytes), s.resetPending = false → encSlide s.params raw c → (c ++ more).length < 2 ^ 32 →
    ∃ (u : State) (k : Nat) (t : State),
      exec .slideDec (withOperands s (c ++ more) (BitVec.ofNat 32 raw.length)) = .next u ∧
      Host.Core.run Sys2Proof.core k u = .next t ∧ endedWith s t s.store 0 (.ok (.bytes raw))) ∧
  (∀ s : State, s.resetPending = false → s.engine = .slideEnc → s.params.slideEncRef = .reference →
    s.se.pos < s.inp.length →
    ∀ (L P : Nat) (kept : Option (Nat × Nat)), slChosen s L P kept →
    ∃ (t : State) (w : Word) (b : Bytes), step s = .next t ∧ t.se.pos = s.se.pos + L ∧ t.se.deferred = kept ∧
      (L = 1 → w = (s.se.cw <<< 1) ||| 1 ∧ ∃ c, s.inp[s.se.pos]? = some c ∧ b = encode s.params (.slLit c)) ∧
      (L ≠ 1 → w = s.se.cw <<< 1) ∧
      (P < s.se.pos → s.se.pos ≤ P + 4096 → ∃ d : BitVec 12, d.toNat = s.se.pos - P - 1 ∧
        (3 ≤ L → L < 18 → ∃ n : BitVec 4, n.toNat + 2 = L ∧ b = encode s.params (.slRef2 n d)) ∧
        (18 ≤ L → L ≤ 273 → ∃ e : Byte, e.toNat + 18 = L ∧ b = encode s.params (.slRef3 d e))) ∧
      (s.se.nb.toNat + 1 = 32 →
        t.out = s.out ++ encode s.params (.slCw w) ++ s.se.buf ++ b ∧ t.se.cw = 0 ∧ t.se.nb = 0 ∧ t.se.buf = []) ∧
      (s.se.nb.toNat + 1 < 32 →
        t.out = s.out ∧ t.se.cw = w ∧ t.se.nb.toNat = s.se.nb.toNat + 1 ∧ t.se.buf = s.se.buf ++ b) ∧
      t = { s with out := t.out, se := t.se }) ∧
  ∀ s : State, s.resetPending = false → s.engine = .slideEnc → s.params.slideEncRef = .reference → s.task = .host →
    s.inp.length ≤ s.se.pos → s.se.nb.toNat < 32 →
    ∃ t, step s = .next t ∧ endedWith s t s.store 0 (.ok (.bytes
      (if s.se.nb = 0 then s.out
       else s.out ++ encode s.params (.slCw (s.se.cw <<< (32 - s.se.nb.toNat))) ++ s.se.buf)))

/-- The search of the Slide encoder (R118): nothing past the input; else the match it answers lies in the window of 4096
positions, is a match, is at most 273 bytes long and within the input, no candidate of the window has a longer one, and
among equally long ones it is the nearest or the farthest, as `SLIDE_TIE` says. -/
def Obligations.LongestFindsALongestMatch : Prop :=
  ∀ (tie : SlideTie) (raw : Bytes) (pos : Nat),
    (raw.length ≤ pos → longest tie raw pos = (0, 0)) ∧
    ((longest tie raw pos).1 = 0 → longest tie raw pos = (0, 0)) ∧
    (pos < raw.length →
      (longest tie raw pos).1 ≤ 273 ∧ pos + (longest tie raw pos).1 ≤ raw.length ∧
      (0 < (longest tie raw pos).1 →
        (longest tie raw pos).2 < pos ∧ pos ≤ (longest tie raw pos).2 + 4096 ∧
        ∀ j, j < (longest tie raw pos).1 → raw[(longest tie raw pos).2 + j]? = raw[pos + j]?) ∧
      ∀ p len, p < pos → pos ≤ p + 4096 → len ≤ 273 → pos + len ≤ raw.length →
        (∀ j, j < len → raw[p + j]? = raw[pos + j]?) →
        len ≤ (longest tie raw pos).1 ∧
        (0 < len → len = (longest tie raw pos).1 →
          (tie = .nearest → p ≤ (longest tie raw pos).2) ∧ (tie = .farthest → (longest tie raw pos).2 ≤ p)))

/-- The reference LZSS encoder (R103 to R105), part by part and then as steps. An insertion finds a match of at most 66 bytes,
and where links name positions or nothing, the strings compared are the same from their second byte to the match's last. No
string met on the way down agrees for longer, and the first to agree as long is the match; the new string is hung where the
way ends, and a string that agrees in full leaves its tree (the way is followed for the 1025 nodes that fit in the model's
bound on the walk, notes/assumptions/9.md). A deletion leaves a position in no tree. An advance deletes at `s` and inserts
at the new `r`. A match of length 1 or 2 is never coded and a coded match has length 3 to 66. The token goes to `code_buf` at `code_buf_ptr`: a
literal, with its flag set, or the two bytes of the `LZ.REF` of `match_position` and the length, with its flag left 0. The
mask moves on by one bit, and after the eighth token the gathered bytes go to the output. The first step puts up to 66 input
bytes into `text` from 958 on and inserts the first strings. A round's step codes a token so, then advances by its length: while
input is left the next input byte takes the place of the oldest byte of `text`, and of its copy past the ring where it has one;
after that the lookahead shrinks. -/
def Obligations.LzEncoderCodesLengthsThreeToSixtySix : Prop :=
  (∀ (r : Nat) (e : LzEnc), (insertNode r e).matchLength.toNat ≤ 66 ∧
    (Links.wf e.lson = true → Links.wf e.rson = true → (∀ a, e.lsonAt a ≤ 1024 ∧ e.rsonAt a ≤ 1024) →
      ∀ j, 1 ≤ j → j < (insertNode r e).matchLength.toNat →
        e.textAt ((insertNode r e).matchPosition.toNat + j) = e.textAt (r + j))) ∧
  (∀ (r : Nat) (e : LzEnc), r < 1024 → Links.wf e.lson = true → Links.wf e.rson = true → Links.wf e.dad = true →
    (∀ a, e.lsonAt a ≤ 1024 ∧ e.rsonAt a ≤ 1024) →
    ∃ t, insertNode r e = t ∧
      (e.rsonAt (1025 + (e.textAt r).toNat) = 1024 →
        t.matchLength = 0 ∧ t.rsonAt (1025 + (e.textAt r).toNat) = r ∧ t.dadAt r = 1025 + (e.textAt r).toNat) ∧
      ∀ (q : Nat → Nat) (k : Nat), k < 1025 → descends e r q k →
        (∀ n, 1 ≤ n → n ≤ 66 → (∀ j, 1 ≤ j → j < n → e.textAt (q k + j) = e.textAt (r + j)) →
          n ≤ t.matchLength.toNat) ∧
        ((∀ j, 1 ≤ j → j < t.matchLength.toNat → e.textAt (q k + j) = e.textAt (r + j)) →
          (∀ i, i < k → ∃ j, 1 ≤ j ∧ j < t.matchLength.toNat ∧ e.textAt (q i + j) ≠ e.textAt (r + j)) →
          t.matchPosition.toNat = q k) ∧
        (goesOnTo e r (q k) 1024 → t.dadAt r = q k ∧ goesOnTo t r (q k) r) ∧
        ((∀ j, 1 ≤ j → j < 66 → e.textAt (q k + j) = e.textAt (r + j)) → t.dadAt (q k) = 1024)) ∧
  (∀ (p : Nat) (e : LzEnc), Links.wf e.dad = true →
    (deleteNode p e).dadAt p = 1024 ∧ (e.dadAt p = 1024 → deleteNode p e = e)) ∧
  (∀ s : State, s.le.len ≠ 0 →
    ∃ t u, lzAdvance s = t ∧
      u = { deleteNode s.le.s.toNat s.le with text := t.le.text, s := t.le.s, r := t.le.r, len := t.le.len } ∧
      t.le = if t.le.len = 0 then u else insertNode t.le.r.toNat u) ∧
  (∀ e : LzEnc, e.matchLength.toNat ≤ 66 →
    lzTokenLength e = 1 ∨ (3 ≤ (lzTokenLength e).toNat ∧ (lzTokenLength e).toNat ≤ 66 ∧
      (lzTokenLength e).toNat ≤ e.len.toNat)) ∧
  (∀ (p : Params) (e : LzEnc), Memory.wf e.codeBuf = true → e.matchLength.toNat ≤ 66 →
    1 ≤ e.codeBufPtr.toNat → e.codeBufPtr.toNat ≤ 15 →
    ∃ t, lzPutToken p.pair e = t ∧ t.matchLength = lzTokenLength e ∧
      (lzTokenLength e = 1 →
        t.codeBufPtr.toNat = e.codeBufPtr.toNat + 1 ∧ Mem.read t.codeBuf 0 = Mem.read e.codeBuf 0 ||| e.mask ∧
        Mem.read t.codeBuf e.codeBufPtr.toNat = e.textAt e.r.toNat ∧
        ∀ a, a ≠ 0 → a ≠ e.codeBufPtr.toNat → Mem.read t.codeBuf a = Mem.read e.codeBuf a) ∧
      (3 ≤ (lzTokenLength e).toNat →
        t.codeBufPtr.toNat = e.codeBufPtr.toNat + 2 ∧
        (∃ lraw : BitVec 6, lraw.toNat + 3 = (lzTokenLength e).toNat ∧
          [Mem.read t.codeBuf e.codeBufPtr.toNat, Mem.read t.codeBuf (e.codeBufPtr.toNat + 1)] =
            encode p (.lzRef e.matchPosition lraw)) ∧
        ∀ a, a ≠ e.codeBufPtr.toNat → a ≠ e.codeBufPtr.toNat + 1 → Mem.read t.codeBuf a = Mem.read e.codeBuf a) ∧
      t = { e with matchLength := t.matchLength, codeBuf := t.codeBuf, codeBufPtr := t.codeBufPtr }) ∧
  (∀ s : State,
    (∀ i : Nat, i < 7 → s.le.mask = (1 : Byte) <<< i →
      lzPutMask s = { s with le := { s.le with mask := (1 : Byte) <<< (i + 1) } }) ∧
    (s.le.mask = 0x80 → Memory.wf s.le.codeBuf = true →
      ∃ t, lzPutMask s = t ∧
        t.out = s.out ++ (List.range s.le.codeBufPtr.toNat).map (fun a => Mem.read s.le.codeBuf a) ∧
        t.le.mask = 1 ∧ t.le.codeBufPtr = 1 ∧ Mem.read t.le.codeBuf 0 = 0 ∧
        t = { s with
          out := t.out
          le := { s.le with codeBuf := t.le.codeBuf, codeBufPtr := t.le.codeBufPtr, mask := t.le.mask } })) ∧
  (∀ s : State, s.resetPending = false → s.engine = .lzssEncPrime → s.params.lzssEncRef = .reference → s.inp ≠ [] →
    s.ip = 0 → s.le.len = 0 → s.le.r = 958 → Memory.wf s.le.text = true →
    ∃ t, step s = .next t ∧ t.engine = .lzssEnc ∧ t.ip = min 66 s.inp.length ∧ t.le.len.toNat = min 66 s.inp.length ∧
      (∀ j, j < min 66 s.inp.length → t.readByte .text (958 + j) = s.inp[j]?) ∧
      (∀ a, (∀ j, j < min 66 s.inp.length → a ≠ 958 + j) → t.readByte .text a = s.readByte .text a) ∧
      t.le = lzInsertFirst { s.le with text := t.le.text, len := t.le.len } ∧
      t = { s with
        engine := t.engine, ip := t.ip
        le := { s.le with
          text := t.le.text, len := t.le.len, lson := t.le.lson, rson := t.le.rson, dad := t.le.dad,
          matchPosition := t.le.matchPosition, matchLength := t.le.matchLength } }) ∧
  ∀ s : State, s.resetPending = false → s.engine = .lzssEnc → s.le.len ≠ 0 → Memory.wf s.le.text = true →
    ∀ m j : Nat, m = (lzTokenLength s.le).toNat → j = min m (s.inp.length - s.ip) →
    ∃ t, step s = .next t ∧ t.ip = s.ip + j ∧ t.le.len.toNat + (m - j) = s.le.len.toNat ∧
      t.le.s.toNat = (s.le.s.toNat + m) % 1024 ∧ t.le.r.toNat = (s.le.r.toNat + m) % 1024 ∧
      (∀ i, i < j → t.readByte .text ((s.le.s.toNat + i) % 1024) = s.inp[s.ip + i]? ∧
        ((s.le.s.toNat + i) % 1024 < 65 → t.readByte .text ((s.le.s.toNat + i) % 1024 + 1024) = s.inp[s.ip + i]?)) ∧
      (∀ a, (∀ i, i < j → a ≠ (s.le.s.toNat + i) % 1024 ∧ a ≠ (s.le.s.toNat + i) % 1024 + 1024) →
        t.readByte .text a = s.readByte .text a) ∧
      (∃ u, lzPutMask { s with le := lzPutToken s.params.pair s.le } = u ∧ t.out = u.out ∧ t.le.codeBuf = u.le.codeBuf ∧
        t.le.codeBufPtr = u.le.codeBufPtr ∧ t.le.mask = u.le.mask ∧ t = lzAdvanceBy m u) ∧
      t = { s with ip := t.ip, out := t.out, le := t.le }

/-! ## Container: load -/

/-- `ARC.INDEX` (R84, R125): the offsets at `4 + 4 * i`, or `TruncatedInputError` when the buffer ends before the last. -/
def Obligations.ArcIndexReadsTheOffsets : Prop :=
  ∀ (s : State) (count : Word),
    (count ≠ 0 → s.inp.length < 4 + 4 * count.toNat →
      exec (.arcIndex count) s = .next (raise .truncatedInputError s)) ∧
    (count = 0 ∨ 4 + 4 * count.toNat ≤ s.inp.length →
      ∃ t, exec (.arcIndex count) s = .next t ∧ t.engine = .arcEntries ∧ t.arc.count = count ∧
        t.arc.offsets.length = count.toNat ∧
        (∀ i, i < count.toNat → t.arc.offsets[i]? = inputWord s.inp (4 + 4 * i)) ∧
        t.arc.i = 0 ∧ t.arc.work = [] ∧
        t = { s with
          engine := t.engine
          arc := { s.arc with count := t.arc.count, offsets := t.arc.offsets, i := t.arc.i, work := t.arc.work } })

/-- An entry header met by a load (R125, R126), for the header of every kind, `Unknown` among them: an end beyond the buffer
is `TruncatedInputError`, an end before the header's end is `CorruptDataError`, else the entry joins the new container
`Unloaded`, with the raw bytes up to its end. That it has no name before the inference is the model's choice
(notes/assumptions/13.md). -/
def Obligations.EntryHeadersAreTakenIn : Prop :=
  ∀ (s : State) (kind : Kind) (size off : Word), s.task = .load ∨ s.task = .loadUnpack →
    s.arc.offsets[s.arc.i]? = some off →
    ∀ stop : Nat, stop = ((s.arc.offsets[s.arc.i + 1]?).map BitVec.toNat).getD s.inp.length →
      (s.inp.length < stop → exec (entryInstr size kind) s = .next (raise .truncatedInputError s)) ∧
      (stop ≤ s.inp.length → stop < off.toNat + 8 →
        exec (entryInstr size kind) s = .next (raise .corruptDataError s)) ∧
      (stop ≤ s.inp.length → off.toNat + 8 ≤ stop →
        exec (entryInstr size kind) s = .next { s with
          arc := { s.arc with
            i := s.arc.i + 1
            work := s.arc.work ++ [{
              name := [], kind := kind, size := size
              raw := (s.inp.drop (off.toNat + 8)).take (stop - (off.toNat + 8)), data := none, st := .unloaded }] } })

/-- `ARC.LOAD` (R125): it begins by reading the operand buffer as a container, the store not touched yet; at its end the
container read replaces the one held, names are inferred, and the command ends with `Ok`. -/
def Obligations.LoadReplacesTheContainer : Prop :=
  ∀ s : State,
    (s.operands.inp.length < 2 ^ 32 →
      ∃ t, exec .arcLoad s = .next t ∧ t.engine = .arcIndex ∧ t.task = .load ∧ t.inp = s.operands.inp ∧
        t = { s with engine := t.engine, task := t.task, inp := t.inp, arc := t.arc }) ∧
    (s.resetPending = false → s.engine = .arcEntries → s.task = .load → ¬ s.arc.i < s.arc.count.toNat →
      ∃ t, step s = .next t ∧ endedWith s t (inferred s.operands.fname s.arc.work) 0 (.ok .empty))

/-- `ARC.UNPACK` (R133): it begins as a load; when the load is complete, names are inferred and the decodes begin at entry
0; an `Unloaded` entry is met as the header of its kind and size, and when its decoder has made its bytes the entry holds
them and is `Decoded`, and the next one's turn comes; an entry that has been decoded is passed over; after the last, names
are inferred again, the container read replaces the one held, and the tuples of its entries are returned in order. -/
def Obligations.UnpackLoadsThenDecodesEveryEntry : Prop :=
  ∀ s : State,
    (s.operands.inp.length < 2 ^ 32 →
      ∃ t, exec .arcUnpack s = .next t ∧ t.engine = .arcIndex ∧ t.task = .loadUnpack ∧ t.inp = s.operands.inp ∧
        t = { s with engine := t.engine, task := t.task, inp := t.inp, arc := t.arc }) ∧
    (s.resetPending = false → s.engine = .arcEntries →
      (s.task = .loadUnpack → ¬ s.arc.i < s.arc.count.toNat →
        step s = .next { s with
          task := .unpack, arc := { s.arc with work := inferred s.operands.fname s.arc.work, i := 0 } }) ∧
      (∀ e, s.task = .unpack → s.arc.work[s.arc.i]? = some e → e.st = .unloaded →
        step s = exec (entryInstr e.size e.kind) s) ∧
      (∀ e, s.task = .unpack → s.arc.work[s.arc.i]? = some e → e.st ≠ .unloaded →
        step s = .next { s with arc := { s.arc with i := s.arc.i + 1 } }) ∧
      (s.task = .unpack → s.arc.work.length ≤ s.arc.i →
        ∃ t, step s = .next t ∧
          endedWith s t (inferred s.operands.fname s.arc.work) 0
            (.ok (.items ((inferred s.operands.fname s.arc.work).map
              (fun e => { name := e.name, kind := e.kind, data := e.data.getD [] })))))) ∧
    (∀ e, s.resetPending = false → s.engine = .lzssDec ∨ s.engine = .slideDec ∨ s.engine = .rleDec →
      s.task = .unpack → ¬ s.op < s.n.toNat → s.arc.work[s.arc.i]? = some e →
      step s = .next { s with
        engine := .arcEntries
        arc := { s.arc with
          work := s.arc.work.set s.arc.i { e with data := some s.out, st := .decoded }, i := s.arc.i + 1 } })

/-! ## Container: decode -/

/-- `DecodeBy` runs the codec of the kind exactly as the stand-alone command on the same operands, with its own fresh
scratch state (R129, R130, R176): the state is that of the command, but for the task that its result returns to. A Flide
variant is Slide under `FLIDE_IS_SLIDE`. -/
def Obligations.DecodeDispatchRunsTheCodec : Prop :=
  ∀ (s : State) (e : Entry) (size : Word), s.task.isDecode = true → s.arc.work[s.arc.i]? = some e →
    e.raw.length < 2 ^ 32 →
    (∃ t, exec .lzssDec (withOperands s e.raw size) = .next t ∧
      exec (.entryLzss size) s = .next (asStartedBy s t)) ∧
    (∃ t, exec .slideDec (withOperands s e.raw size) = .next t ∧
      exec (.entrySlide size) s = .next (asStartedBy s t) ∧
      (s.params.flideIsSlide = true →
        exec (.entryFlideA size) s = .next (asStartedBy s t) ∧
        exec (.entryFlideB size) s = .next (asStartedBy s t))) ∧
    (∃ t, exec .rleDec (withOperands s e.raw size) = .next t ∧
      exec (.entryRle size) s = .next (asStartedBy s t))

/-- `DecodeBy` of a kind without a decoder is `UnsupportedCompressionType` (R129, R146); so is `EncodeBy` of a kind without
an encoder (R85, R134). `ENTRY.Unknown` has neither. -/
def Obligations.KindsWithoutACodecFault : Prop :=
  ∀ (s : State) (size tag : Word),
    (∀ e, s.task.isDecode = true → s.arc.work[s.arc.i]? = some e →
      exec (.entryUnknown size tag) s = .next (raise .unsupportedCompressionType s) ∧
      (s.params.flideIsSlide = false →
        exec (.entryFlideA size) s = .next (raise .unsupportedCompressionType s) ∧
        exec (.entryFlideB size) s = .next (raise .unsupportedCompressionType s))) ∧
    (∀ d, s.task = .saveEncode → s.arc.d[s.arc.i]? = some d →
      exec (.entryUnknown size tag) s = .next (raise .unsupportedCompressionType s) ∧
      exec (.entryRle size) s = .next (raise .unsupportedCompressionType s) ∧
      (s.params.flideIsSlide = false →
        exec (.entryFlideA size) s = .next (raise .unsupportedCompressionType s) ∧
        exec (.entryFlideB size) s = .next (raise .unsupportedCompressionType s)))

/-- `DecodeBy` of the kind None returns the first `size` raw bytes, or takes `TruncatedInputError` with fewer (R129), in
every pass that decodes. -/
def Obligations.NoneEntryDecodesToItsFirstBytes : Prop :=
  ∀ (s : State) (e : Entry) (size : Word), s.task.isDecode = true → s.arc.work[s.arc.i]? = some e →
    (e.raw.length < size.toNat → exec (.entryNone size) s = .next (raise .truncatedInputError s)) ∧
    (size.toNat ≤ e.raw.length →
      ∃ t, exec (.entryNone size) s = .next t ∧ decodeReturned s t e (e.raw.take size.toNat))

/-- `DecodeBy` and `EncodeBy` of Inflate are the external functions (R129, R131, R134), for every value they return and in
every pass that decodes or encodes: their faults propagate, and decoded bytes of another length than `size` are
`CorruptDataError`. -/
def Obligations.InflateGoesToTheExternalFunctions : Prop :=
  ∀ (s : State) (size : Word),
    (∀ e, s.task.isDecode = true → s.arc.work[s.arc.i]? = some e →
      (∀ k, Config.zDecode e.raw size = .fault k → exec (.entryInflate size) s = .next (raise k s)) ∧
      (∀ d, Config.zDecode e.raw size = .ok d → d.length ≠ size.toNat →
        exec (.entryInflate size) s = .next (raise .corruptDataError s)) ∧
      (∀ d, Config.zDecode e.raw size = .ok d → d.length = size.toNat →
        ∃ t, exec (.entryInflate size) s = .next t ∧ decodeReturned s t e d)) ∧
    (∀ d, s.task = .saveEncode → s.arc.d[s.arc.i]? = some d →
      (∀ k, Config.zEncode d = .fault k → exec (.entryInflate size) s = .next (raise k s)) ∧
      (∀ c, Config.zEncode d = .ok c → ∃ t, exec (.entryInflate size) s = .next t ∧ encodeReturned s t c))

/-- `ARC.DECODE` and `ARC.READ` (R128, R132): an `Unloaded` entry begins its decode on a copy of the store; any other entry
is returned as it is cached, and nothing changes. -/
def Obligations.DecodeCommandsUseTheCache : Prop :=
  ∀ (s : State) (e : Entry), s.store[s.operands.index]? = some e →
    (e.st = .unloaded →
      ∃ t u, exec .arcDecode s = .next t ∧ t.task = .decode ∧ exec .arcRead s = .next u ∧ u.task = .read ∧
        t.engine = .arcEntries ∧ t.arc.work = s.store ∧ t.arc.i = s.operands.index ∧
        t = { s with engine := t.engine, task := t.task, arc := t.arc } ∧
        u = { t with task := .read }) ∧
    (∀ d, e.st ≠ .unloaded → e.data = some d →
      ∃ t u, exec .arcDecode s = .next t ∧ endedWith s t s.store 0 (.ok .empty) ∧
        exec .arcRead s = .next u ∧
        endedWith s u s.store 0 (.ok (.item { name := e.name, kind := e.kind, data := d })))

/-- When a decoder that works for a container command has made its `n` bytes, they are what the decode of its entry returns
(R128, R132, R133, R135, R176): `ARC.DECODE` and `ARC.READ` end with the entry holding them, `ARC.UNPACK` caches them in its
copy and goes on, `ARC.SAVE` takes them as the payload to encode. -/
def Obligations.DecodedBytesAreCached : Prop :=
  ∀ (s : State) (e : Entry), s.resetPending = false →
    s.engine = .lzssDec ∨ s.engine = .slideDec ∨ s.engine = .rleDec → ¬ s.op < s.n.toNat →
    s.task.isDecode = true → s.arc.work[s.arc.i]? = some e →
    ∃ t, step s = .next t ∧ decodeReturned s t e s.out

/-! ## Container: save -/

/-- `ARC.SAVE` pass 1 (R134, R135, R137): an entry of kind RLE, of an unknown kind, or of a Flide kind without
`FLIDE_IS_SLIDE`, ends the save with `UnsupportedCompressionType` before any decode or encode; else pass 2 begins on a copy
of the store. -/
def Obligations.SaveChecksTheKindsFirst : Prop :=
  ∀ s : State,
    ((∃ e ∈ s.store, e.kind = .rle ∨ (∃ t, e.kind = .unknown t) ∨
        (s.params.flideIsSlide = false ∧ (e.kind = .flideVariantA ∨ e.kind = .flideVariantB))) →
      exec .arcSave s = .next (raise .unsupportedCompressionType s)) ∧
    ((∀ e ∈ s.store, e.kind ≠ .rle ∧ (∀ t, e.kind ≠ .unknown t) ∧
        (s.params.flideIsSlide = true ∨ (e.kind ≠ .flideVariantA ∧ e.kind ≠ .flideVariantB))) →
      ∃ t, exec .arcSave s = .next t ∧ t.engine = .arcEntries ∧ t.task = .saveDecode ∧ t.arc.work = s.store ∧
        t.arc.i = 0 ∧ t.arc.d = [] ∧ t.arc.c = [] ∧
        t = { s with engine := t.engine, task := t.task, arc := t.arc })

/-- `EncodeBy` (R134, R135, R176): None is the identity; the others run the encoder of the kind exactly as the stand-alone
command on the same bytes. When an encoder has coded its input, what it returns to the host as the result of its command it
returns to a save as the entry's coded payload. -/
def Obligations.EncodeDispatchRunsTheCodec : Prop :=
  (∀ (s : State) (d : Bytes) (size : Word), s.task = .saveEncode → s.arc.d[s.arc.i]? = some d → d.length < 2 ^ 32 →
    (∃ t, exec (.entryNone size) s = .next t ∧ encodeReturned s t d) ∧
    (∃ t, exec .lzssEnc (withOperands s d 0) = .next t ∧ exec (.entryLzss size) s = .next (asStartedBy s t)) ∧
    (∃ t, exec .slideEnc (withOperands s d (BitVec.ofNat 32 d.length)) = .next t ∧
      exec (.entrySlide size) s = .next (asStartedBy s t) ∧
      (s.params.flideIsSlide = true →
        exec (.entryFlideA size) s = .next (asStartedBy s t) ∧
        exec (.entryFlideB size) s = .next (asStartedBy s t)))) ∧
  ∀ (s : State) (b : Bytes), s.resetPending = false → encoderReturns s b →
    (s.task = .saveEncode → ∃ t, step s = .next t ∧ encodeReturned s t b) ∧
    (s.task = .host → ∃ t, step s = .next t ∧ endedWith s t s.store 0 (.ok (.bytes b)))

/-- Pass 2 of a save takes the data of an entry that is not `Unloaded` as its payload, no decoder run, and meets an
`Unloaded` one as the header of its kind and size. The commit (R135): when every entry is coded and the laid-out bytes are
fewer than 2^32, each entry gets its payload, size and coded bytes and is `ReEncoded`, its name and kind kept, and the bytes
are the payload; with 2^32 bytes or more the save is refused. -/
def Obligations.SaveCommitsEveryEntry : Prop :=
  ∀ s : State, s.resetPending = false → s.engine = .arcEntries → s.task = .saveDecode →
    (∀ e, s.arc.work[s.arc.i]? = some e →
      (e.st = .unloaded → step s = exec (entryInstr e.size e.kind) s) ∧
      (∀ d, e.st ≠ .unloaded → e.data = some d →
        step s = .next { s with task := .saveEncode, arc := { s.arc with d := s.arc.d ++ [d] } })) ∧
    (s.arc.i = s.arc.work.length → s.arc.d.length = s.arc.work.length → s.arc.c.length = s.arc.work.length →
      ((layout s.params s.arc.work s.arc.d s.arc.c).length < 2 ^ 32 →
        ∃ t, step s = .next t ∧ endedWith s t t.store 0 (.ok (.bytes (layout s.params s.arc.work s.arc.d s.arc.c))) ∧
          t.store.length = s.arc.work.length ∧
          ∀ (j : Nat) (e : Entry) (d x : Bytes), s.arc.work[j]? = some e → s.arc.d[j]? = some d →
            (s.arc.c)[j]? = some x →
            t.store[j]? = some { e with
              data := some d, size := BitVec.ofNat 32 d.length, raw := x, st := .reEncoded }) ∧
      (2 ^ 32 ≤ (layout s.params s.arc.work s.arc.d s.arc.c).length → step s = .refused .bufferTooLong))

/-- A saved container passes the checks of a load (R84, R136, R142): in the bytes a save lays out, the count is read back, each entry's
header is at a multiple of `ENTRY_ALIGN` and holds the size of its payload and the tag of its kind, its raw bytes begin
with the coded bytes and go on with zeros only, fewer than `ENTRY_ALIGN` of them, and each entry ends where the next
one's offset is or at the end of the buffer, not before its own header's end. -/
def Obligations.SavedContainerLoadsAgain : Prop :=
  ∀ (p : Params) (es : List Entry) (ds cs : List Bytes), 0 < p.entryAlign → ds.length = es.length →
    cs.length = es.length → (layout p es ds cs).length < 2 ^ 32 →
    inputWord (layout p es ds cs) 0 = some (BitVec.ofNat 32 es.length) ∧
    ∃ offs : List Word, readOffsets (layout p es ds cs) es.length 4 = some offs ∧ offs.length = es.length ∧
      ∀ (j : Nat) (e : Entry) (dj cj : Bytes) (off : Word),
        es[j]? = some e → ds[j]? = some dj → cs[j]? = some cj → offs[j]? = some off →
        off.toNat % p.entryAlign = 0 ∧
        inputWord (layout p es ds cs) off.toNat = some (BitVec.ofNat 32 dj.length) ∧
        inputWord (layout p es ds cs) (off.toNat + 4) = some (tagOf p.tags e.kind) ∧
        ∀ stop : Nat, stop = ((offs[j + 1]?).map BitVec.toNat).getD (layout p es ds cs).length →
          off.toNat + 8 ≤ stop ∧ stop ≤ (layout p es ds cs).length ∧
          ∃ z, z < p.entryAlign ∧
            inputSlice (layout p es ds cs) (off.toNat + 8) stop = cj ++ List.replicate z 0

/-! ## Container: add, delete, replace -/

/-- `ARC.ADD` (R138): one entry is appended, `Decoded`, of the kind its suffix selects, with empty raw bytes; then names are
inferred. `SuffixKind`: the five suffixes, on any name, and None for a name that ends with none of them. That the new
entry stands in the inference's argument under the host's name is the model's reading of R143 (notes/assumptions/13.md). That
a store of 2^32 - 1 entries or more takes one more and the command ends with `Ok` is the model's choice
(notes/assumptions/21.md). -/
def Obligations.AddAppendsADecodedEntry : Prop :=
  (∀ s : State, s.operands.bytes.length < 2 ^ 32 →
    ∃ t, exec .arcAdd s = .next t ∧
      endedWith s t
        (inferred none (s.store ++
          [{ name := s.operands.name, kind := suffixKind s.params s.operands.name,
             size := BitVec.ofNat 32 s.operands.bytes.length, raw := [], data := some s.operands.bytes,
             st := .decoded }])) 0 (.ok .empty)) ∧
  ∀ (p : Params) (base : Name),
    suffixKind p (base ++ ['.', 'l', 'z']) = .lzss ∧
    suffixKind p (base ++ ['.', 's']) = .slide ∧
    (suffixKind p (base ++ ['.', 'f', 's']) = match p.suffixFs with | .a => .flideVariantA | .b => .flideVariantB) ∧
    (suffixKind p (base ++ ['.', 'f', 's', 'a']) =
      match p.suffixFsa with | .a => .flideVariantA | .b => .flideVariantB) ∧
    suffixKind p (base ++ ['.', 'z']) = .inflate ∧
    ((∀ x, base ≠ x ++ ['.', 'l', 'z'] ∧ base ≠ x ++ ['.', 's'] ∧ base ≠ x ++ ['.', 'f', 's'] ∧
        base ≠ x ++ ['.', 'f', 's', 'a'] ∧ base ≠ x ++ ['.', 'z']) →
      suffixKind p base = .none)

/-- `ARC.DEL` (R139): the entry is removed, later ones move down by one in order; then names are inferred. -/
def Obligations.DelRemovesTheEntry : Prop :=
  ∀ s : State, s.operands.index < s.store.length →
    ∃ t, exec .arcDel s = .next t ∧
      endedWith s t (inferred none (s.store.take s.operands.index ++ s.store.drop (s.operands.index + 1))) 0
        (.ok .empty)

/-- `ARC.REPLACE` (R140): data and size are the new bytes', the entry is `Decoded` whatever it was, its kind, name, raw
bytes and position are kept, and no other entry changes. -/
def Obligations.ReplaceSetsTheData : Prop :=
  ∀ (s : State) (e : Entry), s.operands.bytes.length < 2 ^ 32 → s.store[s.operands.index]? = some e →
    ∃ t, exec .arcReplace s = .next t ∧
      endedWith s t
        (s.store.set s.operands.index { e with
          data := some s.operands.bytes, size := BitVec.ofNat 32 s.operands.bytes.length, st := .decoded })
        0 (.ok .empty)

/-- `ARC2.LOAD` (R141): refused for every input. -/
def Obligations.SecondShapeIsRefused : Prop :=
  ∀ s : State, exec .arc2Load s = .refused .secondContainerShape

/-! ## Invariants -/

/-- The reset state meets every invariant stated below. -/
def Obligations.ResetMeetsTheInvariants : Prop :=
  memoriesCanonical State.reset ∧ ringFollowsOutput State.reset ∧ idleHoldsNoScratch State.reset ∧
  statusTellsResult State.reset = true ∧ entriesSound State.reset ∧ State.reset.params.wf = true

/-- Every step keeps every byte memory and link array in its canonical form. -/
def Obligations.StepsKeepMemoriesCanonical : Prop :=
  ∀ s t : State, memoriesCanonical s → step s = .next t → memoriesCanonical t

/-- The ring cursor starts at `0x3BE` and every byte written to the ring advances it by one modulo 1024 (R25); and the
spec's own inference from R96 and R97, which R25 marks as derived: `r = (0x3BE + op) mod 1024` at every token boundary of the
LZSS decoder: every step keeps it. -/
def Obligations.RingCursorFollowsTheOutput : Prop :=
  (∀ (inp : Bytes) (n : Word) (s : State), (startLzssDec inp n s).lz.r = 0x3BE) ∧
  (∀ (c : Byte) (s : State), (ringPut c s).lz.r.toNat = (s.lz.r.toNat + 1) % 1024) ∧
  ∀ s t : State, ringFollowsOutput s → step s = .next t → ringFollowsOutput t

/-- No scratch state survives a command (R20, R161, R165): every step keeps it. -/
def Obligations.ScratchDiesWithItsCommand : Prop :=
  ∀ s t : State, idleHoldsNoScratch s → step s = .next t → idleHoldsNoScratch t

/-- The codes `STATUS` takes (R145), and that it is always the code of the result last returned (R39, R154): every step
keeps it. -/
def Obligations.StatusFollowsTheResult : Prop :=
  (∀ (s : State) (p : Payload),
    (finish p s).status = 0 ∧ (raise .unsupportedCompressionType s).status = 1 ∧
    (raise .corruptDataError s).status = 2 ∧ (raise .truncatedInputError s).status = 3) ∧
  ∀ s t : State, statusTellsResult s = true → step s = .next t → statusTellsResult t = true

/-- `decompressedSize` equals the length of the data of every entry that has data, and data is absent exactly while the
entry is `Unloaded` (R35, R38), together with what the running command has worked on: every step keeps it. -/
def Obligations.EntriesStaySound : Prop :=
  ∀ s t : State, entriesSound s → step s = .next t → entriesSound t

/-- No payload, kind, size, state or fault depends on a name (R143): a step from the state without its entries' names ends
as the step from the state itself, and in the same state but for names. -/
def Obligations.NamesChangeNothingElse : Prop :=
  ∀ s : State,
    (∀ t, step s = .next t → ∃ t', step (eraseNames s) = .next t' ∧ eraseNames t' = eraseNames t) ∧
    (∀ f, step s = .fault f → step (eraseNames s) = .fault f) ∧
    (∀ r, step s = .refused r → step (eraseNames s) = .refused r)
end

