-- ==== Sys2Proof/Laws/Decode.lean ====
section
/-! SUPPORT. The laws of the decoder's parts: byte order, the LZSS pair, tags. -/

namespace Sys2Proof

/-- Reading `BE32(w)` gives `w` (R16). -/
theorem be32_beBytes (w : Word) :
    be32 (w.extractLsb' 24 8) (w.extractLsb' 16 8) (w.extractLsb' 8 8) (w.extractLsb' 0 8) = w := by
  unfold be32
  ext i hi
  simp only [BitVec.getElem_append, BitVec.getElem_extractLsb']
  split_ifs <;> (rw [← BitVec.getLsbD_eq_getElem]; congr 1; omega)

/-- `BE32` of a word read from four bytes gives the four bytes (R16). -/
theorem beBytes_be32 (a b c d : Byte) : beBytes (be32 a b c d) = [a, b, c, d] := by
  simp only [beBytes, be32, List.cons.injEq, and_true]
  refine ⟨?_, ?_, ?_, ?_⟩ <;> ext i hi <;>
    simp only [BitVec.getElem_extractLsb', BitVec.getLsbD_append] <;>
    split_ifs <;> first | omega | (rw [← BitVec.getLsbD_eq_getElem]; congr 1; omega)

@[simp] theorem beBytes_length (w : Word) : (beBytes w).length = 4 := rfl

@[simp] theorem entryHeader_length (size tag : Word) : (entryHeader size tag).length = 8 := rfl

/-- Bit `j` of the rearranged word is the stored word's bit `perm[j]`. -/
theorem PairLayout.getLsbD_arrange (l : PairLayout) (w : BitVec 16) (j : Nat) (hj : j < 16) (hl : j < l.perm.length) :
    (l.arrange w).getLsbD j = w.getLsbD l.perm[j] := by
  rw [PairLayout.arrange, BitVec.getLsbD_setWidth, BitVec.getLsbD_ofBoolListLE]
  simp [hj, hl, List.getD]

/-- Bit `i` of the stored word is the rearranged word's bit at `i`'s place in `perm`. -/
theorem PairLayout.getLsbD_store (l : PairLayout) (w : BitVec 16) (i : Nat) (hi : i < 16) :
    (l.store w).getLsbD i = w.getLsbD (l.perm.idxOf i) := by
  rw [PairLayout.store, BitVec.getLsbD_setWidth, BitVec.getLsbD_ofBoolListLE]
  simp [hi, List.getD]

theorem PairLayout.wf_iff (l : PairLayout) :
    l.wf = true ↔ l.perm.length = 16 ∧ l.perm.Nodup ∧ ∀ i ∈ l.perm, i < 16 := by
  simp [PairLayout.wf, and_assoc]

/-- Rearranging a stored word gives the word back. -/
theorem PairLayout.arrange_store (l : PairLayout) (h : l.wf = true) (w : BitVec 16) : l.arrange (l.store w) = w := by
  obtain ⟨h1, h2, h3⟩ := l.wf_iff.mp h
  apply BitVec.eq_of_getLsbD_eq
  intro j hj
  have hjl : j < l.perm.length := by omega
  rw [l.getLsbD_arrange _ j hj hjl, l.getLsbD_store _ _ (h3 _ (List.getElem_mem hjl)), List.Nodup.idxOf_getElem h2 j hjl]

/-- A layout that names sixteen bits once each names every one of them. -/
theorem PairLayout.mem_perm (l : PairLayout) (h : l.wf = true) (i : Nat) (hi : i < 16) : i ∈ l.perm := by
  obtain ⟨h1, h2, h3⟩ := l.wf_iff.mp h
  have hsub : l.perm.toFinset ⊆ Finset.range 16 := by
    intro x hx
    simpa using h3 x (by simpa using hx)
  have hcard : l.perm.toFinset.card = 16 := by rw [List.toFinset_card_of_nodup h2, h1]
  have heq : l.perm.toFinset = Finset.range 16 := Finset.eq_of_subset_of_card_le hsub (by simp [hcard])
  have : i ∈ l.perm.toFinset := by rw [heq]; simpa using hi
  simpa using this

/-- Storing a rearranged word gives the word back. -/
theorem PairLayout.store_arrange (l : PairLayout) (h : l.wf = true) (w : BitVec 16) : l.store (l.arrange w) = w := by
  obtain ⟨h1, h2, h3⟩ := l.wf_iff.mp h
  apply BitVec.eq_of_getLsbD_eq
  intro i hi
  have hm := l.mem_perm h i hi
  have hlt : l.perm.idxOf i < l.perm.length := List.idxOf_lt_length_iff.mpr hm
  rw [l.getLsbD_store _ _ hi, l.getLsbD_arrange _ _ (by omega) hlt, List.getElem_idxOf hlt]

/-- The default layout rearranges nothing (R70). -/
theorem PairLayout.default_wf : PairLayout.default.wf = true := by decide

/-- A tag that no kind has is no kind's (R36, R86). -/
theorem kindOf_unknown (t : Tags) (w : Word) (h : t.toList.contains w = false) : kindOf t w = .unknown w := by
  simp only [Tags.toList, List.contains_eq_mem, List.mem_cons, List.not_mem_nil, or_false, decide_eq_false_iff_not,
    not_or] at h
  obtain ⟨h1, h2, h3, h4, h5, h6, h7⟩ := h
  simp [kindOf, h1, h2, h3, h4, h5, h6, h7]

/-- The kind of a tag has that tag (R36). -/
theorem tagOf_kindOf (t : Tags) (w : Word) : tagOf t (kindOf t w) = w := by
  unfold kindOf
  split_ifs <;> simp_all [tagOf]

/-- The pair's two bytes hold the offset and the raw length they were written from (R70). -/
theorem pair_read (l : PairLayout) (h : l.wf = true) (off : BitVec 10) (lraw : BitVec 6) :
    pairOffset l (pairByte1 l off lraw) (pairByte2 l off lraw) = off ∧
    pairLength l (pairByte1 l off lraw) (pairByte2 l off lraw) = lraw := by
  have e : pairByte1 l off lraw ++ pairByte2 l off lraw = pairWord l off lraw := by
    unfold pairByte1 pairByte2
    ext i hi
    simp only [BitVec.getElem_append, BitVec.getElem_extractLsb']
    split_ifs <;> (rw [← BitVec.getLsbD_eq_getElem]; congr 1; omega)
  unfold pairOffset pairLength
  simp only [e, pairWord, PairLayout.arrange_store l h]
  have hw : ∀ (a b : Byte) (j : Nat) (hj : j < 16), (a ++ b : BitVec 16)[j] = if j < 8 then b.getLsbD j else a.getLsbD (j - 8) := by
    intro a b j hj; rw [← BitVec.getLsbD_eq_getElem]; exact BitVec.getLsbD_append
  have hw := hw (off.setWidth 8) ((off >>> 2).setWidth 8 &&& 0xC0 ||| lraw.setWidth 8)
  generalize (off.setWidth 8 ++ ((off >>> 2).setWidth 8 &&& 0xC0 ||| lraw.setWidth 8) : BitVec 16) = w at hw ⊢
  constructor <;> apply BitVec.eq_of_getLsbD_eq <;> intro i hi <;> interval_cases i <;> simp [hw]

end Sys2Proof
end

