-- ==== Sys2Proof/Laws/Memory.lean ====
section
/-! SUPPORT. The laws of the canonical tables: what a read after a write gives, and that writing keeps the form. -/

namespace Sys2Proof.Machine

/-- An address below every listed one reads as the default. -/
theorem Table.read_of_lt {α : Type} {dflt : α} (m : List (Nat × α)) (a : Nat) (h : ∀ c ∈ m, a < c.1) : Table.read dflt m a = dflt := by
  induction m with
  | nil => rfl
  | cons c m ih =>
    obtain ⟨b, w⟩ := c
    have hb : a < b := h (b, w) (by simp)
    have : a ≠ b := by omega
    simp only [Table.read, this, if_false]
    exact ih fun c hc => h c (by simp [hc])

section
variable {α : Type} [DecidableEq α] {dflt : α}

theorem Table.wf_cons {a : Nat} {v : α} {m : List (Nat × α)} :
    Table.wf dflt ((a, v) :: m) = true ↔ v ≠ dflt ∧ (∀ c ∈ m, a < c.1) ∧ Table.wf dflt m = true := by
  simp [Table.wf, and_assoc]

/-- A write leaves every other address alone, in any table. -/
theorem Table.read_write_ne (m : List (Nat × α)) {a b : Nat} (v : α) (h : b ≠ a) :
    Table.read dflt (Table.write dflt m a v) b = Table.read dflt m b := by
  induction m with
  | nil => by_cases hv : v = dflt <;> simp [Table.write, Table.read, hv, h]
  | cons c m ih =>
    obtain ⟨x, w⟩ := c
    unfold Table.write
    split_ifs with h1 h2 h3 h4
    · rfl
    · simp [Table.read, h]
    · subst h3; simp [Table.read, h]
    · subst h3; simp [Table.read, h]
    · simp only [Table.read, ih]

/-- In a canonical table, the address written reads as the value written. -/
theorem Table.read_write_self (m : List (Nat × α)) (a : Nat) (v : α) (h : Table.wf dflt m = true) :
    Table.read dflt (Table.write dflt m a v) a = v := by
  induction m with
  | nil => by_cases hv : v = dflt <;> simp [Table.write, Table.read, hv]
  | cons c m ih =>
    obtain ⟨x, w⟩ := c
    obtain ⟨hw, hlt, hm⟩ := Table.wf_cons.mp h
    unfold Table.write
    split_ifs with h1 h2 h3 h4
    · subst h2
      exact Table.read_of_lt _ _ (by
        intro c hc
        rcases List.mem_cons.mp hc with rfl | hc
        · exact h1
        · exact lt_trans h1 (hlt c hc))
    · simp [Table.read]
    · subst h3; subst h4; exact Table.read_of_lt _ _ hlt
    · simp [Table.read]
    · simp only [Table.read, h3, if_false]; exact ih hm

theorem Table.mem_write {m : List (Nat × α)} {a : Nat} {v : α} {c : Nat × α}
    (h : c ∈ Table.write dflt m a v) : c = (a, v) ∨ c ∈ m := by
  induction m with
  | nil => by_cases hv : v = dflt <;> simp_all [Table.write]
  | cons d m ih =>
    obtain ⟨x, w⟩ := d
    unfold Table.write at h
    split_ifs at h with h1 h2 h3 h4
    · exact .inr h
    · rcases List.mem_cons.mp h with h | h
      · exact .inl h
      · exact .inr h
    · exact .inr (List.mem_cons_of_mem _ h)
    · rcases List.mem_cons.mp h with h | h
      · exact .inl h
      · exact .inr (List.mem_cons_of_mem _ h)
    · rcases List.mem_cons.mp h with h | h
      · exact .inr (h ▸ List.mem_cons_self)
      · exact (ih h).imp id (List.mem_cons_of_mem _)

/-- A write keeps the canonical form. -/
theorem Table.write_wf (m : List (Nat × α)) (a : Nat) (v : α) (h : Table.wf dflt m = true) :
    Table.wf dflt (Table.write dflt m a v) = true := by
  induction m with
  | nil => by_cases hv : v = dflt <;> simp [Table.write, Table.wf, hv]
  | cons c m ih =>
    obtain ⟨x, w⟩ := c
    obtain ⟨hw, hlt, hm⟩ := Table.wf_cons.mp h
    unfold Table.write
    split_ifs with h1 h2 h3 h4
    · exact h
    · refine Table.wf_cons.mpr ⟨h2, ?_, h⟩
      intro c hc
      rcases List.mem_cons.mp hc with rfl | hc
      · exact h1
      · exact lt_trans h1 (hlt c hc)
    · exact hm
    · subst h3; exact Table.wf_cons.mpr ⟨h4, hlt, hm⟩
    · refine Table.wf_cons.mpr ⟨hw, ?_, ih hm⟩
      intro c hc
      rcases Table.mem_write hc with rfl | hc
      · exact lt_of_le_of_ne (not_lt.mp h1) (fun e => h3 e.symm)
      · exact hlt c hc

end

theorem Mem.read_write_ne (m : Mem) {a b : Nat} (v : Byte) (h : b ≠ a) : Mem.read (Mem.write m a v) b = Mem.read m b :=
  Table.read_write_ne m v h

theorem Mem.read_write_self (m : Mem) (a : Nat) (v : Byte) (h : Memory.wf m = true) :
    Mem.read (Mem.write m a v) a = v :=
  Table.read_write_self m a v h

/-- Every write to a byte memory keeps its canonical form. -/
theorem Mem.write_wf (m : Mem) (a : Nat) (v : Byte) (h : Memory.wf m = true) : Memory.wf (Mem.write m a v) = true :=
  Table.write_wf m a v h

theorem Links.read_write_ne (m : Links) {a b : Nat} (v : BitVec 11) (h : b ≠ a) :
    Links.read (Links.write m a v) b = Links.read m b :=
  Table.read_write_ne m v h

theorem Links.read_write_self (m : Links) (a : Nat) (v : BitVec 11) (h : Links.wf m = true) :
    Links.read (Links.write m a v) a = v :=
  Table.read_write_self m a v h

/-- Every write to a link array keeps its canonical form. -/
theorem Links.write_wf (m : Links) (a : Nat) (v : BitVec 11) (h : Links.wf m = true) :
    Links.wf (Links.write m a v) = true :=
  Table.write_wf m a v h

@[simp] theorem Memory.wf_nil : Memory.wf [] = true := rfl
@[simp] theorem Links.wf_nil : Links.wf [] = true := rfl
@[simp] theorem Mem.read_nil (a : Nat) : Mem.read [] a = 0 := rfl
@[simp] theorem Links.read_nil (a : Nat) : Links.read [] a = Config.nil := rfl

end Sys2Proof.Machine
end

