-- ==== Sys2Proof/Laws/State.lean ====
section
/-! SUPPORT. One lemma for each field after each update of the state, all true by unfolding. -/

namespace Sys2Proof.Machine

section
variable (s : State)

/-! `dropScratch` -/
@[simp] theorem dropScratch_params : (dropScratch s).params = s.params := rfl
@[simp] theorem dropScratch_store : (dropScratch s).store = s.store := rfl
@[simp] theorem dropScratch_status : (dropScratch s).status = s.status := rfl
@[simp] theorem dropScratch_cmd : (dropScratch s).cmd = s.cmd := rfl
@[simp] theorem dropScratch_result : (dropScratch s).result = s.result := rfl
@[simp] theorem dropScratch_requests : (dropScratch s).requests = s.requests := rfl
@[simp] theorem dropScratch_resetPending : (dropScratch s).resetPending = s.resetPending := rfl
@[simp] theorem dropScratch_operands : (dropScratch s).operands = {} := rfl
@[simp] theorem dropScratch_engine : (dropScratch s).engine = .idle := rfl
@[simp] theorem dropScratch_task : (dropScratch s).task = .host := rfl
@[simp] theorem dropScratch_inp : (dropScratch s).inp = [] := rfl
@[simp] theorem dropScratch_out : (dropScratch s).out = [] := rfl
@[simp] theorem dropScratch_n : (dropScratch s).n = 0 := rfl
@[simp] theorem dropScratch_ip : (dropScratch s).ip = 0 := rfl
@[simp] theorem dropScratch_lz : (dropScratch s).lz = {} := rfl
@[simp] theorem dropScratch_sl : (dropScratch s).sl = {} := rfl
@[simp] theorem dropScratch_rl : (dropScratch s).rl = {} := rfl
@[simp] theorem dropScratch_le : (dropScratch s).le = {} := rfl
@[simp] theorem dropScratch_se : (dropScratch s).se = {} := rfl
@[simp] theorem dropScratch_arc : (dropScratch s).arc = {} := rfl

/-! `raise` -/
@[simp] theorem raise_params (k : FaultKind) : (raise k s).params = s.params := rfl
@[simp] theorem raise_store (k : FaultKind) : (raise k s).store = s.store := rfl
@[simp] theorem raise_status (k : FaultKind) : (raise k s).status = faultCode k := rfl
@[simp] theorem raise_cmd (k : FaultKind) : (raise k s).cmd = s.cmd := rfl
@[simp] theorem raise_result (k : FaultKind) : (raise k s).result = some (.fault k) := rfl
@[simp] theorem raise_requests (k : FaultKind) : (raise k s).requests = s.requests := rfl
@[simp] theorem raise_resetPending (k : FaultKind) : (raise k s).resetPending = s.resetPending := rfl
@[simp] theorem raise_operands (k : FaultKind) : (raise k s).operands = {} := rfl
@[simp] theorem raise_engine (k : FaultKind) : (raise k s).engine = .idle := rfl
@[simp] theorem raise_task (k : FaultKind) : (raise k s).task = .host := rfl
@[simp] theorem raise_inp (k : FaultKind) : (raise k s).inp = [] := rfl
@[simp] theorem raise_out (k : FaultKind) : (raise k s).out = [] := rfl
@[simp] theorem raise_n (k : FaultKind) : (raise k s).n = 0 := rfl
@[simp] theorem raise_ip (k : FaultKind) : (raise k s).ip = 0 := rfl
@[simp] theorem raise_lz (k : FaultKind) : (raise k s).lz = {} := rfl
@[simp] theorem raise_sl (k : FaultKind) : (raise k s).sl = {} := rfl
@[simp] theorem raise_rl (k : FaultKind) : (raise k s).rl = {} := rfl
@[simp] theorem raise_le (k : FaultKind) : (raise k s).le = {} := rfl
@[simp] theorem raise_se (k : FaultKind) : (raise k s).se = {} := rfl
@[simp] theorem raise_arc (k : FaultKind) : (raise k s).arc = {} := rfl

/-! `finish` -/
@[simp] theorem finish_params (p : Payload) : (finish p s).params = s.params := rfl
@[simp] theorem finish_store (p : Payload) : (finish p s).store = s.store := rfl
@[simp] theorem finish_status (p : Payload) : (finish p s).status = 0 := rfl
@[simp] theorem finish_cmd (p : Payload) : (finish p s).cmd = s.cmd := rfl
@[simp] theorem finish_result (p : Payload) : (finish p s).result = some (.ok p) := rfl
@[simp] theorem finish_requests (p : Payload) : (finish p s).requests = s.requests := rfl
@[simp] theorem finish_resetPending (p : Payload) : (finish p s).resetPending = s.resetPending := rfl
@[simp] theorem finish_operands (p : Payload) : (finish p s).operands = {} := rfl
@[simp] theorem finish_engine (p : Payload) : (finish p s).engine = .idle := rfl
@[simp] theorem finish_task (p : Payload) : (finish p s).task = .host := rfl
@[simp] theorem finish_inp (p : Payload) : (finish p s).inp = [] := rfl
@[simp] theorem finish_out (p : Payload) : (finish p s).out = [] := rfl
@[simp] theorem finish_n (p : Payload) : (finish p s).n = 0 := rfl
@[simp] theorem finish_ip (p : Payload) : (finish p s).ip = 0 := rfl
@[simp] theorem finish_lz (p : Payload) : (finish p s).lz = {} := rfl
@[simp] theorem finish_sl (p : Payload) : (finish p s).sl = {} := rfl
@[simp] theorem finish_rl (p : Payload) : (finish p s).rl = {} := rfl
@[simp] theorem finish_le (p : Payload) : (finish p s).le = {} := rfl
@[simp] theorem finish_se (p : Payload) : (finish p s).se = {} := rfl
@[simp] theorem finish_arc (p : Payload) : (finish p s).arc = {} := rfl

/-! `emit` -/
@[simp] theorem emit_params (v : Byte) : (emit v s).params = s.params := rfl
@[simp] theorem emit_store (v : Byte) : (emit v s).store = s.store := rfl
@[simp] theorem emit_status (v : Byte) : (emit v s).status = s.status := rfl
@[simp] theorem emit_cmd (v : Byte) : (emit v s).cmd = s.cmd := rfl
@[simp] theorem emit_result (v : Byte) : (emit v s).result = s.result := rfl
@[simp] theorem emit_requests (v : Byte) : (emit v s).requests = s.requests := rfl
@[simp] theorem emit_resetPending (v : Byte) : (emit v s).resetPending = s.resetPending := rfl
@[simp] theorem emit_operands (v : Byte) : (emit v s).operands = s.operands := rfl
@[simp] theorem emit_engine (v : Byte) : (emit v s).engine = s.engine := rfl
@[simp] theorem emit_task (v : Byte) : (emit v s).task = s.task := rfl
@[simp] theorem emit_inp (v : Byte) : (emit v s).inp = s.inp := rfl
@[simp] theorem emit_out (v : Byte) : (emit v s).out = s.out ++ [v] := rfl
@[simp] theorem emit_n (v : Byte) : (emit v s).n = s.n := rfl
@[simp] theorem emit_ip (v : Byte) : (emit v s).ip = s.ip := rfl
@[simp] theorem emit_lz (v : Byte) : (emit v s).lz = s.lz := rfl
@[simp] theorem emit_sl (v : Byte) : (emit v s).sl = s.sl := rfl
@[simp] theorem emit_rl (v : Byte) : (emit v s).rl = s.rl := rfl
@[simp] theorem emit_le (v : Byte) : (emit v s).le = s.le := rfl
@[simp] theorem emit_se (v : Byte) : (emit v s).se = s.se := rfl
@[simp] theorem emit_arc (v : Byte) : (emit v s).arc = s.arc := rfl

/-! `ringPut` -/
@[simp] theorem ringPut_params (c : Byte) : (ringPut c s).params = s.params := rfl
@[simp] theorem ringPut_store (c : Byte) : (ringPut c s).store = s.store := rfl
@[simp] theorem ringPut_status (c : Byte) : (ringPut c s).status = s.status := rfl
@[simp] theorem ringPut_cmd (c : Byte) : (ringPut c s).cmd = s.cmd := rfl
@[simp] theorem ringPut_result (c : Byte) : (ringPut c s).result = s.result := rfl
@[simp] theorem ringPut_requests (c : Byte) : (ringPut c s).requests = s.requests := rfl
@[simp] theorem ringPut_resetPending (c : Byte) : (ringPut c s).resetPending = s.resetPending := rfl
@[simp] theorem ringPut_operands (c : Byte) : (ringPut c s).operands = s.operands := rfl
@[simp] theorem ringPut_engine (c : Byte) : (ringPut c s).engine = s.engine := rfl
@[simp] theorem ringPut_task (c : Byte) : (ringPut c s).task = s.task := rfl
@[simp] theorem ringPut_inp (c : Byte) : (ringPut c s).inp = s.inp := rfl
@[simp] theorem ringPut_out (c : Byte) : (ringPut c s).out = s.out := rfl
@[simp] theorem ringPut_n (c : Byte) : (ringPut c s).n = s.n := rfl
@[simp] theorem ringPut_ip (c : Byte) : (ringPut c s).ip = s.ip := rfl
@[simp] theorem ringPut_lz (c : Byte) : (ringPut c s).lz = { s.lz with ring := Mem.write s.lz.ring s.lz.r.toNat c, r := s.lz.r + 1 } := rfl
@[simp] theorem ringPut_sl (c : Byte) : (ringPut c s).sl = s.sl := rfl
@[simp] theorem ringPut_rl (c : Byte) : (ringPut c s).rl = s.rl := rfl
@[simp] theorem ringPut_le (c : Byte) : (ringPut c s).le = s.le := rfl
@[simp] theorem ringPut_se (c : Byte) : (ringPut c s).se = s.se := rfl
@[simp] theorem ringPut_arc (c : Byte) : (ringPut c s).arc = s.arc := rfl

/-! `lzRefill` -/
@[simp] theorem lzRefill_params (b : Byte) : (lzRefill b s).params = s.params := rfl
@[simp] theorem lzRefill_store (b : Byte) : (lzRefill b s).store = s.store := rfl
@[simp] theorem lzRefill_status (b : Byte) : (lzRefill b s).status = s.status := rfl
@[simp] theorem lzRefill_cmd (b : Byte) : (lzRefill b s).cmd = s.cmd := rfl
@[simp] theorem lzRefill_result (b : Byte) : (lzRefill b s).result = s.result := rfl
@[simp] theorem lzRefill_requests (b : Byte) : (lzRefill b s).requests = s.requests := rfl
@[simp] theorem lzRefill_resetPending (b : Byte) : (lzRefill b s).resetPending = s.resetPending := rfl
@[simp] theorem lzRefill_operands (b : Byte) : (lzRefill b s).operands = s.operands := rfl
@[simp] theorem lzRefill_engine (b : Byte) : (lzRefill b s).engine = s.engine := rfl
@[simp] theorem lzRefill_task (b : Byte) : (lzRefill b s).task = s.task := rfl
@[simp] theorem lzRefill_inp (b : Byte) : (lzRefill b s).inp = s.inp := rfl
@[simp] theorem lzRefill_out (b : Byte) : (lzRefill b s).out = s.out := rfl
@[simp] theorem lzRefill_n (b : Byte) : (lzRefill b s).n = s.n := rfl
@[simp] theorem lzRefill_ip (b : Byte) : (lzRefill b s).ip = s.ip := rfl
@[simp] theorem lzRefill_lz (b : Byte) : (lzRefill b s).lz = { s.lz with flags := 0x100 ||| b.setWidth 9 } := rfl
@[simp] theorem lzRefill_sl (b : Byte) : (lzRefill b s).sl = s.sl := rfl
@[simp] theorem lzRefill_rl (b : Byte) : (lzRefill b s).rl = s.rl := rfl
@[simp] theorem lzRefill_le (b : Byte) : (lzRefill b s).le = s.le := rfl
@[simp] theorem lzRefill_se (b : Byte) : (lzRefill b s).se = s.se := rfl
@[simp] theorem lzRefill_arc (b : Byte) : (lzRefill b s).arc = s.arc := rfl

/-! `lzTake` -/
@[simp] theorem lzTake_params : (lzTake s).params = s.params := rfl
@[simp] theorem lzTake_store : (lzTake s).store = s.store := rfl
@[simp] theorem lzTake_status : (lzTake s).status = s.status := rfl
@[simp] theorem lzTake_cmd : (lzTake s).cmd = s.cmd := rfl
@[simp] theorem lzTake_result : (lzTake s).result = s.result := rfl
@[simp] theorem lzTake_requests : (lzTake s).requests = s.requests := rfl
@[simp] theorem lzTake_resetPending : (lzTake s).resetPending = s.resetPending := rfl
@[simp] theorem lzTake_operands : (lzTake s).operands = s.operands := rfl
@[simp] theorem lzTake_engine : (lzTake s).engine = s.engine := rfl
@[simp] theorem lzTake_task : (lzTake s).task = s.task := rfl
@[simp] theorem lzTake_inp : (lzTake s).inp = s.inp := rfl
@[simp] theorem lzTake_out : (lzTake s).out = s.out := rfl
@[simp] theorem lzTake_n : (lzTake s).n = s.n := rfl
@[simp] theorem lzTake_ip : (lzTake s).ip = s.ip := rfl
@[simp] theorem lzTake_lz : (lzTake s).lz = { s.lz with flags := s.lz.flags >>> 1 } := rfl
@[simp] theorem lzTake_sl : (lzTake s).sl = s.sl := rfl
@[simp] theorem lzTake_rl : (lzTake s).rl = s.rl := rfl
@[simp] theorem lzTake_le : (lzTake s).le = s.le := rfl
@[simp] theorem lzTake_se : (lzTake s).se = s.se := rfl
@[simp] theorem lzTake_arc : (lzTake s).arc = s.arc := rfl

/-! `slReload` -/
@[simp] theorem slReload_params (w : Word) : (slReload w s).params = s.params := rfl
@[simp] theorem slReload_store (w : Word) : (slReload w s).store = s.store := rfl
@[simp] theorem slReload_status (w : Word) : (slReload w s).status = s.status := rfl
@[simp] theorem slReload_cmd (w : Word) : (slReload w s).cmd = s.cmd := rfl
@[simp] theorem slReload_result (w : Word) : (slReload w s).result = s.result := rfl
@[simp] theorem slReload_requests (w : Word) : (slReload w s).requests = s.requests := rfl
@[simp] theorem slReload_resetPending (w : Word) : (slReload w s).resetPending = s.resetPending := rfl
@[simp] theorem slReload_operands (w : Word) : (slReload w s).operands = s.operands := rfl
@[simp] theorem slReload_engine (w : Word) : (slReload w s).engine = s.engine := rfl
@[simp] theorem slReload_task (w : Word) : (slReload w s).task = s.task := rfl
@[simp] theorem slReload_inp (w : Word) : (slReload w s).inp = s.inp := rfl
@[simp] theorem slReload_out (w : Word) : (slReload w s).out = s.out := rfl
@[simp] theorem slReload_n (w : Word) : (slReload w s).n = s.n := rfl
@[simp] theorem slReload_ip (w : Word) : (slReload w s).ip = s.ip := rfl
@[simp] theorem slReload_lz (w : Word) : (slReload w s).lz = s.lz := rfl
@[simp] theorem slReload_sl (w : Word) : (slReload w s).sl = { s.sl with cw := w, nb := 32 } := rfl
@[simp] theorem slReload_rl (w : Word) : (slReload w s).rl = s.rl := rfl
@[simp] theorem slReload_le (w : Word) : (slReload w s).le = s.le := rfl
@[simp] theorem slReload_se (w : Word) : (slReload w s).se = s.se := rfl
@[simp] theorem slReload_arc (w : Word) : (slReload w s).arc = s.arc := rfl

/-! `slTake` -/
@[simp] theorem slTake_params : (slTake s).params = s.params := rfl
@[simp] theorem slTake_store : (slTake s).store = s.store := rfl
@[simp] theorem slTake_status : (slTake s).status = s.status := rfl
@[simp] theorem slTake_cmd : (slTake s).cmd = s.cmd := rfl
@[simp] theorem slTake_result : (slTake s).result = s.result := rfl
@[simp] theorem slTake_requests : (slTake s).requests = s.requests := rfl
@[simp] theorem slTake_resetPending : (slTake s).resetPending = s.resetPending := rfl
@[simp] theorem slTake_operands : (slTake s).operands = s.operands := rfl
@[simp] theorem slTake_engine : (slTake s).engine = s.engine := rfl
@[simp] theorem slTake_task : (slTake s).task = s.task := rfl
@[simp] theorem slTake_inp : (slTake s).inp = s.inp := rfl
@[simp] theorem slTake_out : (slTake s).out = s.out := rfl
@[simp] theorem slTake_n : (slTake s).n = s.n := rfl
@[simp] theorem slTake_ip : (slTake s).ip = s.ip := rfl
@[simp] theorem slTake_lz : (slTake s).lz = s.lz := rfl
@[simp] theorem slTake_sl : (slTake s).sl = { s.sl with cw := s.sl.cw <<< 1, nb := s.sl.nb - 1 } := rfl
@[simp] theorem slTake_rl : (slTake s).rl = s.rl := rfl
@[simp] theorem slTake_le : (slTake s).le = s.le := rfl
@[simp] theorem slTake_se : (slTake s).se = s.se := rfl
@[simp] theorem slTake_arc : (slTake s).arc = s.arc := rfl

/-! `startLzssDec` -/
@[simp] theorem startLzssDec_params (i : Bytes) (n : Word) : (startLzssDec i n s).params = s.params := rfl
@[simp] theorem startLzssDec_store (i : Bytes) (n : Word) : (startLzssDec i n s).store = s.store := rfl
@[simp] theorem startLzssDec_status (i : Bytes) (n : Word) : (startLzssDec i n s).status = s.status := rfl
@[simp] theorem startLzssDec_cmd (i : Bytes) (n : Word) : (startLzssDec i n s).cmd = s.cmd := rfl
@[simp] theorem startLzssDec_result (i : Bytes) (n : Word) : (startLzssDec i n s).result = s.result := rfl
@[simp] theorem startLzssDec_requests (i : Bytes) (n : Word) : (startLzssDec i n s).requests = s.requests := rfl
@[simp] theorem startLzssDec_resetPending (i : Bytes) (n : Word) : (startLzssDec i n s).resetPending = s.resetPending := rfl
@[simp] theorem startLzssDec_operands (i : Bytes) (n : Word) : (startLzssDec i n s).operands = s.operands := rfl
@[simp] theorem startLzssDec_engine (i : Bytes) (n : Word) : (startLzssDec i n s).engine = .lzssDec := rfl
@[simp] theorem startLzssDec_task (i : Bytes) (n : Word) : (startLzssDec i n s).task = s.task := rfl
@[simp] theorem startLzssDec_inp (i : Bytes) (n : Word) : (startLzssDec i n s).inp = i := rfl
@[simp] theorem startLzssDec_out (i : Bytes) (n : Word) : (startLzssDec i n s).out = [] := rfl
@[simp] theorem startLzssDec_n (i : Bytes) (n : Word) : (startLzssDec i n s).n = n := rfl
@[simp] theorem startLzssDec_ip (i : Bytes) (n : Word) : (startLzssDec i n s).ip = 0 := rfl
@[simp] theorem startLzssDec_lz (i : Bytes) (n : Word) : (startLzssDec i n s).lz = LzDec.start := rfl
@[simp] theorem startLzssDec_sl (i : Bytes) (n : Word) : (startLzssDec i n s).sl = s.sl := rfl
@[simp] theorem startLzssDec_rl (i : Bytes) (n : Word) : (startLzssDec i n s).rl = s.rl := rfl
@[simp] theorem startLzssDec_le (i : Bytes) (n : Word) : (startLzssDec i n s).le = s.le := rfl
@[simp] theorem startLzssDec_se (i : Bytes) (n : Word) : (startLzssDec i n s).se = s.se := rfl
@[simp] theorem startLzssDec_arc (i : Bytes) (n : Word) : (startLzssDec i n s).arc = s.arc := rfl

/-! `startSlideDec` -/
@[simp] theorem startSlideDec_params (i : Bytes) (n : Word) : (startSlideDec i n s).params = s.params := rfl
@[simp] theorem startSlideDec_store (i : Bytes) (n : Word) : (startSlideDec i n s).store = s.store := rfl
@[simp] theorem startSlideDec_status (i : Bytes) (n : Word) : (startSlideDec i n s).status = s.status := rfl
@[simp] theorem startSlideDec_cmd (i : Bytes) (n : Word) : (startSlideDec i n s).cmd = s.cmd := rfl
@[simp] theorem startSlideDec_result (i : Bytes) (n : Word) : (startSlideDec i n s).result = s.result := rfl
@[simp] theorem startSlideDec_requests (i : Bytes) (n : Word) : (startSlideDec i n s).requests = s.requests := rfl
@[simp] theorem startSlideDec_resetPending (i : Bytes) (n : Word) : (startSlideDec i n s).resetPending = s.resetPending := rfl
@[simp] theorem startSlideDec_operands (i : Bytes) (n : Word) : (startSlideDec i n s).operands = s.operands := rfl
@[simp] theorem startSlideDec_engine (i : Bytes) (n : Word) : (startSlideDec i n s).engine = .slideHdr := rfl
@[simp] theorem startSlideDec_task (i : Bytes) (n : Word) : (startSlideDec i n s).task = s.task := rfl
@[simp] theorem startSlideDec_inp (i : Bytes) (n : Word) : (startSlideDec i n s).inp = i := rfl
@[simp] theorem startSlideDec_out (i : Bytes) (n : Word) : (startSlideDec i n s).out = [] := rfl
@[simp] theorem startSlideDec_n (i : Bytes) (n : Word) : (startSlideDec i n s).n = n := rfl
@[simp] theorem startSlideDec_ip (i : Bytes) (n : Word) : (startSlideDec i n s).ip = 4 := rfl
@[simp] theorem startSlideDec_lz (i : Bytes) (n : Word) : (startSlideDec i n s).lz = s.lz := rfl
@[simp] theorem startSlideDec_sl (i : Bytes) (n : Word) : (startSlideDec i n s).sl = {} := rfl
@[simp] theorem startSlideDec_rl (i : Bytes) (n : Word) : (startSlideDec i n s).rl = s.rl := rfl
@[simp] theorem startSlideDec_le (i : Bytes) (n : Word) : (startSlideDec i n s).le = s.le := rfl
@[simp] theorem startSlideDec_se (i : Bytes) (n : Word) : (startSlideDec i n s).se = s.se := rfl
@[simp] theorem startSlideDec_arc (i : Bytes) (n : Word) : (startSlideDec i n s).arc = s.arc := rfl

/-! `startRleDec` -/
@[simp] theorem startRleDec_params (i : Bytes) (n : Word) : (startRleDec i n s).params = s.params := rfl
@[simp] theorem startRleDec_store (i : Bytes) (n : Word) : (startRleDec i n s).store = s.store := rfl
@[simp] theorem startRleDec_status (i : Bytes) (n : Word) : (startRleDec i n s).status = s.status := rfl
@[simp] theorem startRleDec_cmd (i : Bytes) (n : Word) : (startRleDec i n s).cmd = s.cmd := rfl
@[simp] theorem startRleDec_result (i : Bytes) (n : Word) : (startRleDec i n s).result = s.result := rfl
@[simp] theorem startRleDec_requests (i : Bytes) (n : Word) : (startRleDec i n s).requests = s.requests := rfl
@[simp] theorem startRleDec_resetPending (i : Bytes) (n : Word) : (startRleDec i n s).resetPending = s.resetPending := rfl
@[simp] theorem startRleDec_operands (i : Bytes) (n : Word) : (startRleDec i n s).operands = s.operands := rfl
@[simp] theorem startRleDec_engine (i : Bytes) (n : Word) : (startRleDec i n s).engine = .rleDec := rfl
@[simp] theorem startRleDec_task (i : Bytes) (n : Word) : (startRleDec i n s).task = s.task := rfl
@[simp] theorem startRleDec_inp (i : Bytes) (n : Word) : (startRleDec i n s).inp = i := rfl
@[simp] theorem startRleDec_out (i : Bytes) (n : Word) : (startRleDec i n s).out = [] := rfl
@[simp] theorem startRleDec_n (i : Bytes) (n : Word) : (startRleDec i n s).n = n := rfl
@[simp] theorem startRleDec_ip (i : Bytes) (n : Word) : (startRleDec i n s).ip = 0 := rfl
@[simp] theorem startRleDec_lz (i : Bytes) (n : Word) : (startRleDec i n s).lz = s.lz := rfl
@[simp] theorem startRleDec_sl (i : Bytes) (n : Word) : (startRleDec i n s).sl = s.sl := rfl
@[simp] theorem startRleDec_rl (i : Bytes) (n : Word) : (startRleDec i n s).rl = {} := rfl
@[simp] theorem startRleDec_le (i : Bytes) (n : Word) : (startRleDec i n s).le = s.le := rfl
@[simp] theorem startRleDec_se (i : Bytes) (n : Word) : (startRleDec i n s).se = s.se := rfl
@[simp] theorem startRleDec_arc (i : Bytes) (n : Word) : (startRleDec i n s).arc = s.arc := rfl

/-! `startLzssEnc` -/
@[simp] theorem startLzssEnc_params (i : Bytes) : (startLzssEnc i s).params = s.params := rfl
@[simp] theorem startLzssEnc_store (i : Bytes) : (startLzssEnc i s).store = s.store := rfl
@[simp] theorem startLzssEnc_status (i : Bytes) : (startLzssEnc i s).status = s.status := rfl
@[simp] theorem startLzssEnc_cmd (i : Bytes) : (startLzssEnc i s).cmd = s.cmd := rfl
@[simp] theorem startLzssEnc_result (i : Bytes) : (startLzssEnc i s).result = s.result := rfl
@[simp] theorem startLzssEnc_requests (i : Bytes) : (startLzssEnc i s).requests = s.requests := rfl
@[simp] theorem startLzssEnc_resetPending (i : Bytes) : (startLzssEnc i s).resetPending = s.resetPending := rfl
@[simp] theorem startLzssEnc_operands (i : Bytes) : (startLzssEnc i s).operands = s.operands := rfl
@[simp] theorem startLzssEnc_engine (i : Bytes) : (startLzssEnc i s).engine = .lzssEncPrime := rfl
@[simp] theorem startLzssEnc_task (i : Bytes) : (startLzssEnc i s).task = s.task := rfl
@[simp] theorem startLzssEnc_inp (i : Bytes) : (startLzssEnc i s).inp = i := rfl
@[simp] theorem startLzssEnc_out (i : Bytes) : (startLzssEnc i s).out = [] := rfl
@[simp] theorem startLzssEnc_n (i : Bytes) : (startLzssEnc i s).n = s.n := rfl
@[simp] theorem startLzssEnc_ip (i : Bytes) : (startLzssEnc i s).ip = 0 := rfl
@[simp] theorem startLzssEnc_lz (i : Bytes) : (startLzssEnc i s).lz = s.lz := rfl
@[simp] theorem startLzssEnc_sl (i : Bytes) : (startLzssEnc i s).sl = s.sl := rfl
@[simp] theorem startLzssEnc_rl (i : Bytes) : (startLzssEnc i s).rl = s.rl := rfl
@[simp] theorem startLzssEnc_le (i : Bytes) : (startLzssEnc i s).le = LzEnc.start := rfl
@[simp] theorem startLzssEnc_se (i : Bytes) : (startLzssEnc i s).se = s.se := rfl
@[simp] theorem startLzssEnc_arc (i : Bytes) : (startLzssEnc i s).arc = s.arc := rfl

/-! `startSlideEnc` -/
@[simp] theorem startSlideEnc_params (i : Bytes) : (startSlideEnc i s).params = s.params := rfl
@[simp] theorem startSlideEnc_store (i : Bytes) : (startSlideEnc i s).store = s.store := rfl
@[simp] theorem startSlideEnc_status (i : Bytes) : (startSlideEnc i s).status = s.status := rfl
@[simp] theorem startSlideEnc_cmd (i : Bytes) : (startSlideEnc i s).cmd = s.cmd := rfl
@[simp] theorem startSlideEnc_result (i : Bytes) : (startSlideEnc i s).result = s.result := rfl
@[simp] theorem startSlideEnc_requests (i : Bytes) : (startSlideEnc i s).requests = s.requests := rfl
@[simp] theorem startSlideEnc_resetPending (i : Bytes) : (startSlideEnc i s).resetPending = s.resetPending := rfl
@[simp] theorem startSlideEnc_operands (i : Bytes) : (startSlideEnc i s).operands = s.operands := rfl
@[simp] theorem startSlideEnc_engine (i : Bytes) : (startSlideEnc i s).engine = .slideEnc := rfl
@[simp] theorem startSlideEnc_task (i : Bytes) : (startSlideEnc i s).task = s.task := rfl
@[simp] theorem startSlideEnc_inp (i : Bytes) : (startSlideEnc i s).inp = i := rfl
@[simp] theorem startSlideEnc_out (i : Bytes) : (startSlideEnc i s).out = beBytes (BitVec.ofNat 32 i.length) := rfl
@[simp] theorem startSlideEnc_n (i : Bytes) : (startSlideEnc i s).n = s.n := rfl
@[simp] theorem startSlideEnc_ip (i : Bytes) : (startSlideEnc i s).ip = 0 := rfl
@[simp] theorem startSlideEnc_lz (i : Bytes) : (startSlideEnc i s).lz = s.lz := rfl
@[simp] theorem startSlideEnc_sl (i : Bytes) : (startSlideEnc i s).sl = s.sl := rfl
@[simp] theorem startSlideEnc_rl (i : Bytes) : (startSlideEnc i s).rl = s.rl := rfl
@[simp] theorem startSlideEnc_le (i : Bytes) : (startSlideEnc i s).le = s.le := rfl
@[simp] theorem startSlideEnc_se (i : Bytes) : (startSlideEnc i s).se = {} := rfl
@[simp] theorem startSlideEnc_arc (i : Bytes) : (startSlideEnc i s).arc = s.arc := rfl

/-! `startEntries` -/
@[simp] theorem startEntries_params (k : Task) (i : Nat) : (startEntries k i s).params = s.params := rfl
@[simp] theorem startEntries_store (k : Task) (i : Nat) : (startEntries k i s).store = s.store := rfl
@[simp] theorem startEntries_status (k : Task) (i : Nat) : (startEntries k i s).status = s.status := rfl
@[simp] theorem startEntries_cmd (k : Task) (i : Nat) : (startEntries k i s).cmd = s.cmd := rfl
@[simp] theorem startEntries_result (k : Task) (i : Nat) : (startEntries k i s).result = s.result := rfl
@[simp] theorem startEntries_requests (k : Task) (i : Nat) : (startEntries k i s).requests = s.requests := rfl
@[simp] theorem startEntries_resetPending (k : Task) (i : Nat) : (startEntries k i s).resetPending = s.resetPending := rfl
@[simp] theorem startEntries_operands (k : Task) (i : Nat) : (startEntries k i s).operands = s.operands := rfl
@[simp] theorem startEntries_engine (k : Task) (i : Nat) : (startEntries k i s).engine = .arcEntries := rfl
@[simp] theorem startEntries_task (k : Task) (i : Nat) : (startEntries k i s).task = k := rfl
@[simp] theorem startEntries_inp (k : Task) (i : Nat) : (startEntries k i s).inp = s.inp := rfl
@[simp] theorem startEntries_out (k : Task) (i : Nat) : (startEntries k i s).out = s.out := rfl
@[simp] theorem startEntries_n (k : Task) (i : Nat) : (startEntries k i s).n = s.n := rfl
@[simp] theorem startEntries_ip (k : Task) (i : Nat) : (startEntries k i s).ip = s.ip := rfl
@[simp] theorem startEntries_lz (k : Task) (i : Nat) : (startEntries k i s).lz = s.lz := rfl
@[simp] theorem startEntries_sl (k : Task) (i : Nat) : (startEntries k i s).sl = s.sl := rfl
@[simp] theorem startEntries_rl (k : Task) (i : Nat) : (startEntries k i s).rl = s.rl := rfl
@[simp] theorem startEntries_le (k : Task) (i : Nat) : (startEntries k i s).le = s.le := rfl
@[simp] theorem startEntries_se (k : Task) (i : Nat) : (startEntries k i s).se = s.se := rfl
@[simp] theorem startEntries_arc (k : Task) (i : Nat) : (startEntries k i s).arc = { work := s.store, i := i } := rfl

/-! `present` -/
@[simp] theorem present_params (q : Request) (rest : List Request) : (present q rest s).params = s.params := rfl
@[simp] theorem present_store (q : Request) (rest : List Request) : (present q rest s).store = s.store := rfl
@[simp] theorem present_status (q : Request) (rest : List Request) : (present q rest s).status = s.status := rfl
@[simp] theorem present_cmd (q : Request) (rest : List Request) : (present q rest s).cmd = q.code := rfl
@[simp] theorem present_result (q : Request) (rest : List Request) : (present q rest s).result = s.result := rfl
@[simp] theorem present_requests (q : Request) (rest : List Request) : (present q rest s).requests = rest := rfl
@[simp] theorem present_resetPending (q : Request) (rest : List Request) : (present q rest s).resetPending = s.resetPending := rfl
@[simp] theorem present_operands (q : Request) (rest : List Request) : (present q rest s).operands = q.operands := rfl
@[simp] theorem present_engine (q : Request) (rest : List Request) : (present q rest s).engine = s.engine := rfl
@[simp] theorem present_task (q : Request) (rest : List Request) : (present q rest s).task = s.task := rfl
@[simp] theorem present_inp (q : Request) (rest : List Request) : (present q rest s).inp = s.inp := rfl
@[simp] theorem present_out (q : Request) (rest : List Request) : (present q rest s).out = s.out := rfl
@[simp] theorem present_n (q : Request) (rest : List Request) : (present q rest s).n = s.n := rfl
@[simp] theorem present_ip (q : Request) (rest : List Request) : (present q rest s).ip = s.ip := rfl
@[simp] theorem present_lz (q : Request) (rest : List Request) : (present q rest s).lz = s.lz := rfl
@[simp] theorem present_sl (q : Request) (rest : List Request) : (present q rest s).sl = s.sl := rfl
@[simp] theorem present_rl (q : Request) (rest : List Request) : (present q rest s).rl = s.rl := rfl
@[simp] theorem present_le (q : Request) (rest : List Request) : (present q rest s).le = s.le := rfl
@[simp] theorem present_se (q : Request) (rest : List Request) : (present q rest s).se = s.se := rfl
@[simp] theorem present_arc (q : Request) (rest : List Request) : (present q rest s).arc = s.arc := rfl

@[simp] theorem emit_op (v : Byte) : (emit v s).op = s.op + 1 := by simp [State.op]
@[simp] theorem ringPut_op (c : Byte) : (ringPut c s).op = s.op := rfl

end

end Sys2Proof.Machine
end

