-- ==== Sys2Proof/Laws/Ops.lean ====
section
/-! SUPPORT. One lemma for each shared operation that says what it can do: the loops of the tokens, the return of a codec,
the entry headers, the limits. Later proofs cite these and do not unfold the operations. -/

namespace Sys2Proof.Machine

/-! ## Limits and overruns -/

/-- A command with a buffer goes on exactly when the buffer is within the limit (R14). -/
theorem withinLimit_next {b : Bytes} {k : Answer} {t : State} :
    withinLimit b k = .next t ↔ b.length < Config.bufferLimit ∧ k = .next t := by
  unfold withinLimit
  split_ifs with h <;> simp [h]

theorem overruns_iff (s : State) (len : Nat) : overruns s len = true ↔ s.n.toNat < s.op + len := by
  simp [overruns]

/-! ## Dropping scratch state -/

@[simp] theorem dropScratch_dropScratch (s : State) : dropScratch (dropScratch s) = dropScratch s := rfl
@[simp] theorem dropScratch_raise (k : FaultKind) (s : State) : dropScratch (raise k s) = raise k s := rfl
@[simp] theorem dropScratch_finish (p : Payload) (s : State) : dropScratch (finish p s) = finish p s := rfl

/-- Taking a fault depends on nothing but the persistent state (R152). -/
theorem raise_dropScratch (k : FaultKind) (s : State) : raise k (dropScratch s) = raise k s := rfl

/-! ## The copy loop of `LZ.REF` -/

/-- The loop writes output, ring, cursor, `k` and `c`, and nothing else. -/
theorem lzCopy_frame (m : Nat) (s : State) :
    lzCopy m s = { s with
      out := (lzCopy m s).out
      lz := { s.lz with
        ring := (lzCopy m s).lz.ring, r := (lzCopy m s).lz.r, k := (lzCopy m s).lz.k, c := (lzCopy m s).lz.c } } := by
  induction m generalizing s with
  | zero => rfl
  | succ m ih => rw [lzCopy, ih (lzCopyByte s)]; rfl

theorem lzCopy_succ (m : Nat) (s : State) : lzCopy (m + 1) s = lzCopy m (lzCopyByte s) := rfl

/-- Each round produces one byte. -/
@[simp] theorem lzCopy_op (m : Nat) (s : State) : (lzCopy m s).op = s.op + m := by
  induction m generalizing s with
  | zero => rfl
  | succ m ih => rw [lzCopy_succ, ih]; simp [lzCopyByte, State.op]; omega

/-- Each round moves the cursor by one. -/
theorem lzCopy_r (m : Nat) (s : State) : (lzCopy m s).lz.r = s.lz.r + BitVec.ofNat 10 m := by
  induction m generalizing s with
  | zero => simp [lzCopy]
  | succ m ih =>
    rw [lzCopy_succ, ih]
    simp only [lzCopyByte, ringPut_lz, emit_lz]
    have h1 : (1 : BitVec 10).toNat = 1 := rfl
    apply BitVec.eq_of_toNat_eq
    simp only [BitVec.toNat_add, BitVec.toNat_ofNat, h1]
    omega

/-- The loop keeps the ring's canonical form. -/
theorem lzCopy_ring_wf (m : Nat) (s : State) (h : Memory.wf s.lz.ring = true) :
    Memory.wf (lzCopy m s).lz.ring = true := by
  induction m generalizing s with
  | zero => exact h
  | succ m ih => exact ih _ (Mem.write_wf _ _ _ h)

/-- What is already produced stays. -/
theorem lzCopy_out_prefix (m : Nat) (s : State) : ∃ bs, (lzCopy m s).out = s.out ++ bs ∧ bs.length = m := by
  induction m generalizing s with
  | zero => exact ⟨[], by simp [lzCopy]⟩
  | succ m ih =>
    obtain ⟨bs, h1, h2⟩ := ih (lzCopyByte s)
    exact ⟨_ :: bs, by rw [lzCopy_succ, h1]; simp [lzCopyByte]; rfl, by simp [h2]⟩

/-! ## The copy loop of the Slide references -/

/-- The loop writes output, `k` and `c`, and nothing else. -/
theorem slCopy_frame (m : Nat) (s : State) :
    slCopy m s = { s with
      out := (slCopy m s).out, sl := { s.sl with k := (slCopy m s).sl.k, c := (slCopy m s).sl.c } } := by
  induction m generalizing s with
  | zero => rfl
  | succ m ih => rw [slCopy, ih (slCopyByte s)]; rfl

theorem slCopy_succ (m : Nat) (s : State) : slCopy (m + 1) s = slCopy m (slCopyByte s) := rfl

/-- Each round produces one byte. -/
@[simp] theorem slCopy_op (m : Nat) (s : State) : (slCopy m s).op = s.op + m := by
  induction m generalizing s with
  | zero => rfl
  | succ m ih => rw [slCopy_succ, ih]; simp [slCopyByte, State.op]; omega

/-- What is already produced stays. -/
theorem slCopy_out_prefix (m : Nat) (s : State) : ∃ bs, (slCopy m s).out = s.out ++ bs ∧ bs.length = m := by
  induction m generalizing s with
  | zero => exact ⟨[], by simp [slCopy]⟩
  | succ m ih =>
    obtain ⟨bs, h1, h2⟩ := ih (slCopyByte s)
    exact ⟨_ :: bs, by rw [slCopy_succ, h1]; simp [slCopyByte]; rfl, by simp [h2]⟩

/-- Everything `SlideCopy` can do: fault before any byte, or copy. -/
theorem slideCopy_cases (s : State) :
    (s.n.toNat < s.op + s.sl.len.toNat ∧ slideCopy s = .next (raise .corruptDataError s)) ∨
    (s.op + s.sl.len.toNat ≤ s.n.toNat ∧ slideCopy s = .next (slCopy s.sl.len.toNat s)) := by
  unfold slideCopy
  by_cases h : s.n.toNat < s.op + s.sl.len.toNat
  · exact .inl ⟨h, by rw [if_pos ((overruns_iff _ _).mpr h)]⟩
  · exact .inr ⟨by omega, by rw [if_neg (fun e => h ((overruns_iff _ _).mp e))]⟩

/-! ## The loops of the RLE runs -/

/-- The copy loop either takes that many literals from the input, or raises `TruncatedInputError` at the first missing
one (R120). -/
theorem rlCopyLoop_cases (m : Nat) (s : State) :
    ((m = 0 ∨ s.ip + m ≤ s.inp.length) ∧
      rlCopyLoop m s = { s with
        ip := s.ip + m, out := s.out ++ (s.inp.drop s.ip).take m,
        rl := { s.rl with v := (rlCopyLoop m s).rl.v, j := (rlCopyLoop m s).rl.j } }) ∨
    (m ≠ 0 ∧ s.inp.length < s.ip + m ∧ rlCopyLoop m s = raise .truncatedInputError s) := by
  induction m generalizing s with
  | zero => exact .inl ⟨.inl rfl, by simp [rlCopyLoop]⟩
  | succ m ih =>
    by_cases hlt : s.ip < s.inp.length
    · have hb : inputByte s = some s.inp[s.ip] := by simp [inputByte, hlt]
      set u : State := emit s.inp[s.ip]
        { s with ip := s.ip + 1, rl := { s.rl with v := s.inp[s.ip], j := s.rl.j + 1 } } with hu
      have hstep : rlCopyLoop (m + 1) s = rlCopyLoop m u := by simp [rlCopyLoop, hb, hu]
      have hdrop : (s.inp.drop s.ip).take (m + 1) = s.inp[s.ip] :: (s.inp.drop (s.ip + 1)).take m := by
        rw [List.drop_eq_getElem_cons hlt, List.take_succ_cons]
      rcases ih u with ⟨h1, h2⟩ | ⟨h1, h2, h3⟩
      · refine .inl ⟨.inr (by simp only [hu, emit_ip, emit_inp] at h1; omega), ?_⟩
        rw [hstep, h2, hdrop]
        simp [hu, emit, Nat.add_assoc, Nat.add_comm 1 m]
      · refine .inr ⟨by omega, by simp only [hu, emit_ip, emit_inp] at h2; omega, ?_⟩
        rw [hstep, h3]; rfl
    · have hb : inputByte s = none := by simp [inputByte]; omega
      exact .inr ⟨by omega, by omega, by simp [rlCopyLoop, hb]⟩

/-- The fill loop produces the value that many times (R121). -/
theorem rlFillLoop_eq (m : Nat) (s : State) :
    rlFillLoop m s = { s with
      out := s.out ++ List.replicate m s.rl.v, rl := { s.rl with j := (rlFillLoop m s).rl.j } } := by
  induction m generalizing s with
  | zero => simp [rlFillLoop]
  | succ m ih =>
    rw [rlFillLoop, ih]
    simp [emit, List.replicate_succ]

/-! ## The return of a codec -/

/-- Everything the return of a decode into its command can do. -/
theorem decodeReturn_next {b : Bytes} {s t : State} (h : decodeReturn b s = .next t) :
    ∃ e, s.arc.work[s.arc.i]? = some e ∧
      ((s.task = .decode ∧
          t = finish .empty { s with store := s.arc.work.set s.arc.i (decodedEntry b e) }) ∨
       (s.task = .read ∧
          t = finish (.item { name := e.name, kind := e.kind, data := b })
            { s with store := s.arc.work.set s.arc.i (decodedEntry b e) }) ∨
       (s.task = .unpack ∧
          t = { s with
            engine := .arcEntries
            arc := { s.arc with work := s.arc.work.set s.arc.i (decodedEntry b e), i := s.arc.i + 1 } }) ∨
       (s.task = .saveDecode ∧
          t = { s with engine := .arcEntries, task := .saveEncode, arc := { s.arc with d := s.arc.d ++ [b] } })) := by
  unfold decodeReturn at h
  split at h
  · cases h
  · rename_i e he
    refine ⟨e, he, ?_⟩
    cases htask : s.task <;> simp only [htask] at h <;> simp_all

/-- Everything a codec's return can do. -/
theorem codecReturn_next {b : Bytes} {s t : State} (h : codecReturn b s = .next t) :
    (s.task = .host ∧ t = finish (.bytes b) s) ∨
    (s.task.isDecode = true ∧ decodeReturn b s = .next t) ∨
    (s.task = .saveEncode ∧ encodeReturn b s = .next t) := by
  unfold codecReturn at h
  cases htask : s.task <;> simp only [htask] at h <;> simp_all [Task.isDecode]

/-! ## The entry headers -/

/-- Everything an entry header can do: take an entry in, decode the entry's raw bytes, encode the entry's data. -/
theorem entryPass_next {s t : State} {load : Answer} {dec enc : Bytes → Answer}
    (h : entryPass s load dec enc = .next t) :
    ((s.task = .load ∨ s.task = .loadUnpack) ∧ load = .next t) ∨
    (s.task.isDecode = true ∧ ∃ e, s.arc.work[s.arc.i]? = some e ∧ dec e.raw = .next t) ∨
    (s.task = .saveEncode ∧ ∃ d, s.arc.d[s.arc.i]? = some d ∧ enc d = .next t) := by
  unfold entryPass at h
  cases htask : s.task <;> simp only [htask] at h
  · cases h
  · exact .inl ⟨.inl rfl, h⟩
  · exact .inl ⟨.inr rfl, h⟩
  all_goals split at h
  all_goals first | cases h | rename_i e he
  · exact .inr (.inl ⟨rfl, e, he, h⟩)
  · exact .inr (.inl ⟨rfl, e, he, h⟩)
  · exact .inr (.inl ⟨rfl, e, he, h⟩)
  · exact .inr (.inl ⟨rfl, e, he, h⟩)
  · exact .inr (.inr ⟨rfl, e, he, h⟩)

/-- Everything a load of an entry header can do: fault, or take in an `Unloaded` entry (R125, R126). -/
theorem loadEntry_next {kind : Kind} {size : Word} {s t : State} (h : loadEntry kind size s = .next t) :
    (∃ k, t = raise k s) ∨
    ∃ e : Entry, e.kind = kind ∧ e.size = size ∧ e.data = none ∧ e.st = .unloaded ∧
      t = { s with arc := { s.arc with work := s.arc.work ++ [e], i := s.arc.i + 1 } } := by
  unfold loadEntry at h
  split at h
  · cases h
  · split_ifs at h <;> cases h
    · exact .inl ⟨_, rfl⟩
    · exact .inl ⟨_, rfl⟩
    · exact .inr ⟨_, rfl, rfl, rfl, rfl, rfl⟩

end Sys2Proof.Machine
end

