-- ==== Sys2Proof/Laws/Encoders.lean ====
section
/-! SUPPORT. The laws of the encoders: what a round can write, and that every tree operation keeps the memories and link
arrays in their canonical form. -/

namespace Sys2Proof.Machine

/-! ## Canonical form -/

/-- The encoder's memories and link arrays are in their canonical form. -/
def LzEnc.canonical (e : LzEnc) : Prop :=
  Memory.wf e.text = true ∧ Memory.wf e.codeBuf = true ∧
  Links.wf e.lson = true ∧ Links.wf e.rson = true ∧ Links.wf e.dad = true

theorem LzEnc.setLson_canonical {e : LzEnc} (a v) (h : LzEnc.canonical e) : LzEnc.canonical (e.setLson a v) := ⟨h.1, h.2.1, Links.write_wf _ _ _ h.2.2.1, h.2.2.2.1, h.2.2.2.2⟩

theorem LzEnc.setRson_canonical {e : LzEnc} (a v) (h : LzEnc.canonical e) : LzEnc.canonical (e.setRson a v) := ⟨h.1, h.2.1, h.2.2.1, Links.write_wf _ _ _ h.2.2.2.1, h.2.2.2.2⟩

theorem LzEnc.setDad_canonical {e : LzEnc} (a v) (h : LzEnc.canonical e) : LzEnc.canonical (e.setDad a v) := ⟨h.1, h.2.1, h.2.2.1, h.2.2.2.1, Links.write_wf _ _ _ h.2.2.2.2⟩

/-- A full-length match keeps the canonical form. -/
theorem replaceNode_canonical {e : LzEnc} (r p) (h : LzEnc.canonical e) : LzEnc.canonical (replaceNode r p e) := by
  unfold replaceNode; simp only
  have k := LzEnc.setDad_canonical (r) (e.dadAt p) h
  generalize e.setDad r (e.dadAt p) = e1 at k ⊢
  replace k := LzEnc.setLson_canonical r (e1.lsonAt p) k
  generalize e1.setLson r (e1.lsonAt p) = e2 at k ⊢
  replace k := LzEnc.setRson_canonical r (e2.rsonAt p) k
  generalize e2.setRson r (e2.rsonAt p) = e3 at k ⊢
  replace k := LzEnc.setDad_canonical (e3.lsonAt p) r k
  generalize e3.setDad (e3.lsonAt p) r = e4 at k ⊢
  replace k := LzEnc.setDad_canonical (e4.rsonAt p) r k
  generalize e4.setDad (e4.rsonAt p) r = e5 at k ⊢
  apply LzEnc.setDad_canonical
  split
  · exact LzEnc.setRson_canonical _ _ k
  · exact LzEnc.setLson_canonical _ _ k

/-- The descent of an insertion keeps it. -/
theorem insertFrom_canonical (r fuel cmp p) (e : LzEnc) (h : LzEnc.canonical e) : LzEnc.canonical (insertFrom r fuel cmp p e) := by
  induction fuel generalizing cmp p e with
  | zero => exact h
  | succ fuel ih =>
    unfold insertFrom
    simp only
    generalize (if 0 ≤ cmp then e.rsonAt p else e.lsonAt p) = q
    split
    · split
      · exact LzEnc.setDad_canonical _ _ (LzEnc.setRson_canonical _ _ h)
      · exact LzEnc.setDad_canonical _ _ (LzEnc.setLson_canonical _ _ h)
    · split
      · split
        · exact replaceNode_canonical _ _ h
        · exact ih _ _ _ h
      · exact ih _ _ _ h

/-- `InsertNode` keeps it (R105). -/
theorem insertNode_canonical (r) (e : LzEnc) (h : LzEnc.canonical e) : LzEnc.canonical (insertNode r e) := by
  unfold insertNode; apply insertFrom_canonical; exact LzEnc.setLson_canonical _ _ (LzEnc.setRson_canonical _ _ h)

/-- Detaching a successor keeps it. -/
theorem successor_canonical (p) (e : LzEnc) (h : LzEnc.canonical e) : LzEnc.canonical (successor p e).2 := by
  unfold successor
  simp only
  split
  · exact h
  · split
    · exact h
    · split
      · exact LzEnc.setDad_canonical _ _ (LzEnc.setRson_canonical _ _ h)
      · generalize rightmost e treeFuel (e.lsonAt p) = q
        have k := LzEnc.setRson_canonical (e.dadAt q) (e.lsonAt q) h
        generalize e.setRson (e.dadAt q) (e.lsonAt q) = e1 at k ⊢
        replace k := LzEnc.setDad_canonical (e1.lsonAt q) (e1.dadAt q) k
        generalize e1.setDad (e1.lsonAt q) (e1.dadAt q) = e2 at k ⊢
        replace k := LzEnc.setLson_canonical q (e2.lsonAt p) k
        generalize e2.setLson q (e2.lsonAt p) = e3 at k ⊢
        replace k := LzEnc.setDad_canonical (e3.lsonAt p) q k
        generalize e3.setDad (e3.lsonAt p) q = e4 at k ⊢
        exact LzEnc.setDad_canonical _ _ (LzEnc.setRson_canonical _ _ k)

/-- `DeleteNode` keeps it (R105). -/
theorem deleteNode_canonical (p) (e : LzEnc) (h : LzEnc.canonical e) : LzEnc.canonical (deleteNode p e) := by
  unfold deleteNode; simp only
  split
  · exact h
  · apply LzEnc.setDad_canonical
    split
    · exact LzEnc.setRson_canonical _ _ (LzEnc.setDad_canonical _ _ (successor_canonical _ _ h))
    · exact LzEnc.setLson_canonical _ _ (LzEnc.setDad_canonical _ _ (successor_canonical _ _ h))

/-- Moving one position on keeps it. -/
theorem lzAdvance_canonical (s : State) (h : LzEnc.canonical s.le) : LzEnc.canonical (lzAdvance s).le := by
  unfold lzAdvance; simp only
  have hd := deleteNode_canonical s.le.s.toNat _ h
  split
  · apply insertNode_canonical
    refine ⟨?_, hd.2⟩
    show Memory.wf (if _ then _ else _) = true
    split
    · exact Mem.write_wf _ _ _ (Mem.write_wf _ _ _ hd.1)
    · exact Mem.write_wf _ _ _ hd.1
  · show LzEnc.canonical (if _ then _ else _)
    split
    · exact hd
    · exact insertNode_canonical _ _ hd

/-- Moving on keeps it. -/
theorem lzAdvanceBy_canonical (m) (s : State) (h : LzEnc.canonical s.le) : LzEnc.canonical (lzAdvanceBy m s).le := by
  induction m generalizing s with
  | zero => exact h
  | succ m ih => exact ih _ (lzAdvance_canonical _ h)

/-- Coding a token keeps it. -/
theorem lzPutToken_canonical (l) (e : LzEnc) (h : LzEnc.canonical e) : LzEnc.canonical (lzPutToken l e) := by
  unfold lzPutToken; simp only
  split
  · exact ⟨h.1, Mem.write_wf _ _ _ (Mem.write_wf _ _ _ h.2.1), h.2.2⟩
  · exact ⟨h.1, Mem.write_wf _ _ _ (Mem.write_wf _ _ _ h.2.1), h.2.2⟩

/-- Flushing the gathered bytes keeps it. -/
theorem lzPutMask_canonical (s : State) (h : LzEnc.canonical s.le) : LzEnc.canonical (lzPutMask s).le := by
  unfold lzPutMask; simp only
  split
  · exact ⟨h.1, Mem.write_wf _ _ _ h.2.1, h.2.2⟩
  · exact h

/-- A round of the encoder keeps it (R104). -/
theorem lzRound_canonical (s : State) (h : LzEnc.canonical s.le) : LzEnc.canonical (lzRound s).le := by
  unfold lzRound; exact lzAdvanceBy_canonical _ _ (lzPutMask_canonical _ (lzPutToken_canonical _ _ h))

/-- Filling the lookahead keeps it. -/
theorem lzFill_canonical (m) (s : State) (h : LzEnc.canonical s.le) : LzEnc.canonical (lzFill m s).le := by
  induction m generalizing s with
  | zero => exact h
  | succ m ih =>
    unfold lzFill; split
    · exact h
    · apply ih; exact ⟨Mem.write_wf _ _ _ h.1, h.2⟩

/-- The first insertions keep it. -/
theorem lzInsertFirst_canonical (e) (h : LzEnc.canonical e) : LzEnc.canonical (lzInsertFirst e) := by
  unfold lzInsertFirst; apply insertNode_canonical
  have : ∀ (l : List Nat) (e : LzEnc), LzEnc.canonical e → LzEnc.canonical (l.foldl (fun e j => insertNode (e.r.toNat - (j+1)) e) e) := by
    intro l; induction l with
    | nil => intro e h; exact h
    | cons a l ih => intro e h; exact ih _ (insertNode_canonical _ _ h)
  exact this _ _ h

theorem memoriesCanonical_iff (s : State) :
    memoriesCanonical s ↔ Memory.wf s.lz.ring = true ∧ s.le.canonical := by
  unfold memoriesCanonical LzEnc.canonical; tauto

/-! ## Frames -/

/-- Filling the lookahead writes `ip` and the encoder, and nothing else. -/
theorem lzFill_frame (m : Nat) (s : State) : lzFill m s = { s with ip := (lzFill m s).ip, le := (lzFill m s).le } := by
  induction m generalizing s with
  | zero => rfl
  | succ m ih =>
    unfold lzFill
    split
    · rfl
    · rw [ih]

theorem lzAdvance_frame (s : State) : lzAdvance s = { s with ip := (lzAdvance s).ip, le := (lzAdvance s).le } := by
  unfold lzAdvance
  simp only
  split <;> rfl

theorem lzAdvanceBy_frame (m : Nat) (s : State) :
    lzAdvanceBy m s = { s with ip := (lzAdvanceBy m s).ip, le := (lzAdvanceBy m s).le } := by
  induction m generalizing s with
  | zero => rfl
  | succ m ih => rw [lzAdvanceBy, ih, lzAdvance_frame]

theorem lzPutMask_frame (s : State) : lzPutMask s = { s with out := (lzPutMask s).out, le := (lzPutMask s).le } := by
  unfold lzPutMask
  simp only
  split <;> rfl

/-- A round of the LZSS encoder writes `ip`, the output and the encoder, and nothing else (R104). -/
theorem lzRound_frame (s : State) :
    lzRound s = { s with ip := (lzRound s).ip, out := (lzRound s).out, le := (lzRound s).le } := by
  unfold lzRound
  simp only
  rw [lzAdvanceBy_frame, lzPutMask_frame]

/-- A round of the Slide encoder writes the output and the encoder, and nothing else (R117). -/
theorem slRound_frame (s : State) : slRound s = { s with out := (slRound s).out, se := (slRound s).se } := by
  unfold slRound
  simp only
  split <;> rfl

/-! ## The bytes of a Slide back-reference -/

/-- The upper four bits of a distance field in a byte of their own. -/
theorem distance_high {d : Nat} (hd : d < 4096) :
    BitVec.ofNat 8 (d >>> 8) = (0 : BitVec 4) ++ (BitVec.ofNat 12 d).extractLsb' 8 4 := by
  apply BitVec.eq_of_toNat_eq
  simp only [BitVec.toNat_append, BitVec.extractLsb'_toNat, BitVec.toNat_ofNat, Nat.shiftRight_eq_div_pow]
  simp; omega

/-- The lower byte of a distance field. -/
theorem distance_low (d : Nat) : BitVec.ofNat 8 d = (BitVec.ofNat 12 d).extractLsb' 0 8 := by
  apply BitVec.eq_of_toNat_eq
  simp only [BitVec.extractLsb'_toNat, BitVec.toNat_ofNat, Nat.shiftRight_eq_div_pow]
  omega

/-- The bytes of a match of 3 to 17 are those of an `SL.REF2` (R76, R117). -/
theorem slRefBytes_short (p : Params) {len d : Nat} (hd : d < 4096) (h3 : 3 ≤ len) (h18 : len < 18) :
    ∃ n : BitVec 4, n.toNat + 2 = len ∧ slRefBytes len d = encode p (.slRef2 n (BitVec.ofNat 12 d)) := by
  refine ⟨BitVec.ofNat 4 (len - 2), by rw [BitVec.toNat_ofNat]; omega, ?_⟩
  rw [slRefBytes, if_neg (by omega), distance_high hd, distance_low d]
  simp only [encode, List.cons.injEq, and_true]
  generalize (BitVec.ofNat 12 d).extractLsb' 8 4 = x
  interval_cases len <;> revert x <;> decide

/-- The bytes of a match of 18 to 273 are those of an `SL.REF3` (R77, R117). -/
theorem slRefBytes_long (p : Params) {len d : Nat} (hd : d < 4096) (h18 : 18 ≤ len) (h : len ≤ 273) :
    ∃ e : Byte, e.toNat + 18 = len ∧ slRefBytes len d = encode p (.slRef3 (BitVec.ofNat 12 d) e) := by
  refine ⟨BitVec.ofNat 8 (len - 18), by rw [BitVec.toNat_ofNat]; omega, ?_⟩
  rw [slRefBytes, if_pos h18, distance_high hd, distance_low d]; rfl

end Sys2Proof.Machine
end

