-- ==== Sys2Proof/Laws/LzssTrees.lean ====
section
/-! SUPPORT. The match search of the reference LZSS encoder (R103, R105): its binary trees keep their form, and what
insertion finds is a match of a window position. -/

namespace Sys2Proof.Machine

/-- Links have 11 bits. -/
theorem LzEnc.lsonAt_lt (e : LzEnc) (a : Nat) : e.lsonAt a < 2048 := (Links.read e.lson a).isLt

/-- Links have 11 bits. -/
theorem LzEnc.rsonAt_lt (e : LzEnc) (a : Nat) : e.rsonAt a < 2048 := (Links.read e.rson a).isLt

/-- Links have 11 bits. -/
theorem LzEnc.dadAt_lt (e : LzEnc) (a : Nat) : e.dadAt a < 2048 := (Links.read e.dad a).isLt

/-- What a link reads as after a write, for a value that fits in 11 bits. -/
theorem Links.read_write_toNat (m : Links) (a b v : Nat) (h : Links.wf m = true) (hv : v < 2048) :
    (Links.read (Links.write m a (BitVec.ofNat 11 v)) b).toNat = if b = a then v else (Links.read m b).toNat := by
  split_ifs with hb
  · subst hb; rw [Links.read_write_self _ _ _ h, BitVec.toNat_ofNat]; exact Nat.mod_eq_of_lt hv
  · rw [Links.read_write_ne _ _ hb]

/-- What the trees hold: three link functions. -/
structure LinkView where
  l : Nat → Nat
  r : Nat → Nat
  d : Nat → Nat

/-- The encoder's link arrays as functions. -/
def LzEnc.view (e : LzEnc) : LinkView := ⟨e.lsonAt, e.rsonAt, e.dadAt⟩

/-- A link function with one value replaced. -/
def writeAt (f : Nat → Nat) (a v : Nat) : Nat → Nat := fun b => if b = a then v else f b

/-- Setting a left link, on the view. -/
theorem view_setLson {e : LzEnc} (h : LzEnc.canonical e) {a v : Nat} (hv : v < 2048) :
    (e.setLson a v).view = { e.view with l := writeAt e.lsonAt a v } := by
  simp only [LzEnc.view, LinkView.mk.injEq]
  exact ⟨funext fun b => Links.read_write_toNat _ _ _ _ h.2.2.1 hv, rfl, rfl⟩

/-- Setting a right link or a root, on the view. -/
theorem view_setRson {e : LzEnc} (h : LzEnc.canonical e) {a v : Nat} (hv : v < 2048) :
    (e.setRson a v).view = { e.view with r := writeAt e.rsonAt a v } := by
  simp only [LzEnc.view, LinkView.mk.injEq]
  exact ⟨rfl, funext fun b => Links.read_write_toNat _ _ _ _ h.2.2.2.1 hv, rfl⟩

/-- Setting a parent link, on the view. -/
theorem view_setDad {e : LzEnc} (h : LzEnc.canonical e) {a v : Nat} (hv : v < 2048) :
    (e.setDad a v).view = { e.view with d := writeAt e.dadAt a v } := by
  simp only [LzEnc.view, LinkView.mk.injEq]
  exact ⟨rfl, rfl, funext fun b => Links.read_write_toNat _ _ _ _ h.2.2.2.2 hv⟩

/-- `x` is a position that stands in a tree (R103: its parent is not `NIL`). -/
def isNode (t : LinkView) (x : Nat) : Prop := x < 1024 ∧ t.d x ≠ 1024

/-- `y` may have children: a node, or one of the 256 roots. -/
def isParent (t : LinkView) (y : Nat) : Prop := isNode t y ∨ (1025 ≤ y ∧ y < 1281)

/-- The links form trees: parent and child links agree, all strings of a tree begin with the same byte (`key`), and a
height `h` rises from parent to child, so there is no cycle. -/
structure TreeForm (t : LinkView) (key h : Nat → Nat) : Prop where
  up : ∀ x, isNode t x → isParent t (t.d x) ∧ (t.r (t.d x) = x ∨ (t.d x < 1024 ∧ t.l (t.d x) = x)) ∧
    key x = key (t.d x) ∧ h (t.d x) < h x
  right : ∀ y, isParent t y → t.r y ≠ 1024 → isNode t (t.r y) ∧ t.d (t.r y) = y
  left : ∀ y, isNode t y → t.l y ≠ 1024 → isNode t (t.l y) ∧ t.d (t.l y) = y ∧ t.l y ≠ t.r y

/-- Hanging a free position to the right of a parent without a right child keeps the form. -/
theorem attach_right {t : LinkView} {key h : Nat → Nat} (H : TreeForm t key h) {p r : Nat} (hp : isParent t p)
    (hr : r < 1024)
    (hd : t.d r = 1024) (hl : t.l r = 1024) (hrr : t.r r = 1024) (hk : key r = key p) (hq : t.r p = 1024) :
    TreeForm { t with r := writeAt t.r p r, d := writeAt t.d r p } key (writeAt h r (h p + 1)) := by
  obtain ⟨h1, h2, h3⟩ := H
  constructor <;> simp only [isNode, isParent, writeAt] at * <;> grind

/-- Hanging a free position to the left of a node without a left child keeps the form. -/
theorem attach_left {t : LinkView} {key h : Nat → Nat} (H : TreeForm t key h) {p r : Nat} (hp : isNode t p)
    (hr : r < 1024)
    (hd : t.d r = 1024) (hl : t.l r = 1024) (hrr : t.r r = 1024) (hk : key r = key p) (hq : t.l p = 1024) :
    TreeForm { t with l := writeAt t.l p r, d := writeAt t.d r p } key (writeAt h r (h p + 1)) := by
  obtain ⟨h1, h2, h3⟩ := H
  constructor <;> simp only [isNode, isParent, writeAt] at * <;> grind

/-- Putting a free position in the place of a node keeps the form (R103: the replaced node leaves its tree). -/
theorem replace_tree {t t' : LinkView} {key h : Nat → Nat} (H : TreeForm t key h) {p r : Nat} (hp : isNode t p)
    (hr : r < 1024)
    (hdr : t.d r = 1024) (hk : key r = key p)
    (hl : ∀ x, t'.l x = if x = r then t.l p else if x = t.d p ∧ t.r (t.d p) ≠ p then r else t.l x)
    (hrr : ∀ x, t'.r x = if x = r then t.r p else if x = t.d p ∧ t.r (t.d p) = p then r else t.r x)
    (hd : ∀ x, x < 1024 → t'.d x = if x = p then 1024 else if x = r then t.d p else
      if x = t.l p ∨ x = t.r p then r else t.d x) :
    TreeForm t' key (writeAt h r (h p)) := by
  obtain ⟨h1, h2, h3⟩ := H
  have hne : r ≠ p := by rintro rfl; exact hp.2 hdr
  have hrn : ¬ isNode t r := fun e => e.2 hdr
  have a1 := h1 p hp
  have b2 := h2 p (.inl hp); have b3 := h3 p hp
  have hP : t.d p ≠ 1024 := hp.2
  have hPp : t.d p ≠ p := by intro e; rw [e] at a1; omega
  have hPr : t.d p ≠ r := by rintro e; have := a1.1; rw [e] at this; rcases this with h | h; exacts [hrn h, by omega]
  have hn : ∀ x, isNode t' x ↔ x = r ∨ (x ≠ p ∧ isNode t x) := by
    intro x; unfold isNode
    constructor
    · rintro ⟨u, v⟩; rw [hd x u] at v; unfold isNode at *; grind
    · intro u
      have : x < 1024 := by rcases u with u | u; exacts [u ▸ hr, u.2.1]
      refine ⟨this, ?_⟩; rw [hd x this]; unfold isNode at *; grind
  have hpa : ∀ x, isParent t' x ↔ x = r ∨ (x ≠ p ∧ isParent t x) := by
    intro x; unfold isParent; rw [hn]; have := hp.1
    constructor
    · rintro ((u | ⟨u, v⟩) | u)
      exacts [.inl u, .inr ⟨u, .inl v⟩, .inr ⟨by omega, .inr u⟩]
    · rintro (u | ⟨u, v | v⟩)
      exacts [.inl (.inl u), .inl (.inr ⟨u, v⟩), .inr v]
  have hpn : ∀ x, isNode t x → isParent t x := fun x => .inl
  have hln : ∀ x, isNode t x → x < 1024 := fun x => And.left
  have hpl : ∀ x, isParent t x → x < 1024 → isNode t x := fun x u v => by rcases u with u | u; exacts [u, by omega]
  have hpr : ¬ isParent t r := fun e => hrn (hpl r e hr)
  have hpp := hpn p hp
  clear hpn
  generalize hLe : t.l p = L at *
  generalize hRe : t.r p = R at *
  generalize hPe : t.d p = P at *
  obtain ⟨a1, a2, a3, a4⟩ := a1
  have hd' : ∀ x, isNode t x → t'.d x = if x = p then 1024 else if x = r then P else if x = L ∨ x = R then r else t.d x :=
    fun x u => hd x (hln x u)
  have hdr' : t'.d r = P := by rw [hd r hr]; simp [hne]
  generalize isNode t = N at *
  generalize isParent t = Q at *
  constructor
  · intro x hx
    simp only [writeAt]
    rw [hn] at hx
    rcases hx with rfl | ⟨u, v⟩
    · rw [hdr', hpa, hrr, hl]; simp only [if_neg hPr]; grind
    · have c := h1 x v
      rw [hd' x v]
      by_cases e1 : x = L
      · have e3 : x ≠ r := by rintro rfl; exact hrn v
        rw [if_neg u, if_neg e3, if_pos (.inl e1), hpa, hrr, hl, if_pos rfl, if_pos rfl]; grind
      · by_cases e2 : x = R
        · have e3 : x ≠ r := by rintro rfl; exact hrn v
          rw [if_neg u, if_neg e3, if_pos (.inr e2), hpa, hrr, hl, if_pos rfl, if_pos rfl]; grind
        · have e3 : x ≠ r := by rintro rfl; exact hrn v
          simp only [if_neg u, e1, e2, e3, or_self, if_false]
          have e4 : t.d x ≠ r := by intro e; exact hpr (e ▸ c.1)
          have e5 : t.d x ≠ p := by
            intro e; rw [e, hRe, hLe] at c
            rcases c.2.1 with c | c
            · exact e2 c.symm
            · exact e1 c.2.symm
          rw [hpa, hrr, hl]
          simp only [if_neg e4]
          refine ⟨.inr ⟨e5, c.1⟩, ?_, c.2.2⟩
          by_cases e6 : t.d x = P
          · rw [e6] at c ⊢; clear h1 h2 h3 hd hd' hl hrr hn hpa; grind
          · simp only [e6, false_and, if_false]; exact c.2.1
  · intro x hx e
    rw [hpa] at hx
    rw [hrr] at e ⊢
    rw [hn]
    rcases hx with rfl | ⟨u, v⟩
    · simp only [if_true] at e ⊢; grind
    · by_cases e1 : x = P ∧ t.r P = p
      · have e3 : x ≠ r := by grind
        simp only [if_neg e3, if_pos e1]; grind
      · have e3 : x ≠ r := by grind
        simp only [if_neg e3, if_neg e1] at e ⊢
        have c := h2 x v e
        have f1 : t.r x ≠ p := by intro f; rw [f, hPe] at c; exact e1 ⟨c.2.symm, c.2 ▸ f⟩
        have f2 : t.r x ≠ r := by intro f; exact hrn (f ▸ c.1)
        have f3 : t.r x ≠ L := by intro f; rw [f] at c e; exact u (c.2.symm.trans (b3 e).2.1)
        have f4 : t.r x ≠ R := by intro f; rw [f] at c e; exact u (c.2.symm.trans (b2 e).2)
        rw [hd' _ c.1]; simp only [f1, f2, f3, f4, or_self, if_false]
        exact ⟨.inr ⟨f1, c.1⟩, c.2⟩
  · intro x hx e
    rw [hn] at hx
    rw [hl] at e ⊢
    rw [hn, hrr]
    rcases hx with rfl | ⟨u, v⟩
    · simp only [if_true] at e ⊢; grind
    · have e3 : x ≠ r := by grind
      by_cases e1 : x = P ∧ t.r P ≠ p
      · simp only [if_neg e3, if_pos e1]; grind
      · simp only [if_neg e3, if_neg e1] at e ⊢
        have c := h3 x v e
        have hxp := hPe
        have f1 : t.l x ≠ p := by
          intro f; rw [f, hPe] at c
          exact e1 ⟨c.2.1.symm, fun g => c.2.2 (by rw [← c.2.1, g])⟩
        have f2 : t.l x ≠ r := by intro f; exact hrn (f ▸ c.1)
        have f3 : t.l x ≠ L := by intro f; rw [f] at c e; exact u (c.2.1.symm.trans (b3 e).2.1)
        have f4 : t.l x ≠ R := by intro f; rw [f] at c e; exact u (c.2.1.symm.trans (b2 e).2)
        rw [hd' _ c.1]; simp only [f1, f2, f3, f4, or_self, if_false]
        refine ⟨.inr ⟨f1, c.1⟩, c.2.1, ?_⟩
        split_ifs with g
        · exact f2
        · exact c.2.2

/-- Taking out a node that lacks a child, by putting its other child in its place, keeps the form (R105). -/
theorem splice_tree {t t' : LinkView} {key h : Nat → Nat} (H : TreeForm t key h) {p q : Nat} (hp : isNode t p)
    (hq : (t.r p = 1024 ∧ q = t.l p) ∨ (t.l p = 1024 ∧ q = t.r p))
    (hl : ∀ x, t'.l x = if x = t.d p ∧ t.r (t.d p) ≠ p then q else t.l x)
    (hrr : ∀ x, t'.r x = if x = t.d p ∧ t.r (t.d p) = p then q else t.r x)
    (hd : ∀ x, x < 1024 → t'.d x = if x = p then 1024 else if x = q then t.d p else t.d x) :
    TreeForm t' key h := by
  obtain ⟨h1, h2, h3⟩ := H
  have a1 := h1 p hp
  have b2 := h2 p (.inl hp); have b3 := h3 p hp
  have hP : t.d p ≠ 1024 := hp.2
  have hPp : t.d p ≠ p := by intro e; rw [e] at a1; omega
  have hn : ∀ x, isNode t' x ↔ x ≠ p ∧ isNode t x := by
    intro x; unfold isNode
    constructor
    · rintro ⟨u, v⟩; rw [hd x u] at v; unfold isNode at *; grind
    · intro u
      refine ⟨u.2.1, ?_⟩; rw [hd x u.2.1]; unfold isNode at *; grind
  have hpa : ∀ x, isParent t' x ↔ x ≠ p ∧ isParent t x := by
    intro x; unfold isParent; rw [hn]; have := hp.1
    constructor
    · rintro (⟨u, v⟩ | u)
      exacts [⟨u, .inl v⟩, ⟨by omega, .inr u⟩]
    · rintro ⟨u, v | v⟩
      exacts [.inl ⟨u, v⟩, .inr v]
  have hpn : ∀ x, isNode t x → isParent t x := fun x => .inl
  have hln : ∀ x, isNode t x → x < 1024 := fun x => And.left
  have hpp := hpn p hp
  have bq : q ≠ 1024 → isNode t q ∧ t.d q = p := by
    intro e; rcases hq with ⟨u, v⟩ | ⟨u, v⟩ <;> subst v
    · exact ⟨(b3 e).1, (b3 e).2.1⟩
    · exact b2 e
  have hqo : ∀ x, isNode t x → t.d x = p → x = q := by
    intro x hx e
    have c := h1 x hx; rw [e] at c
    have := hln x hx
    rcases hq with ⟨u, v⟩ | ⟨u, v⟩ <;> rw [u, v.symm] at c <;> rcases c.2.1 with c | c <;> omega
  clear hpn hq b2 b3
  generalize hPe : t.d p = P at *
  obtain ⟨a1, a2, a3, a4⟩ := a1
  have hd' : ∀ x, isNode t x → t'.d x = if x = p then 1024 else if x = q then P else t.d x := fun x u => hd x (hln x u)
  have hqp : q ≠ p := by
    intro e; have := (bq (by have := hln p hp; omega)).2; rw [e, hPe] at this; exact hPp this
  generalize isNode t = N at *
  generalize isParent t = Q at *
  constructor
  · intro x hx
    rw [hn] at hx
    obtain ⟨u, v⟩ := hx
    have c := h1 x v
    rw [hd' x v, if_neg u]
    by_cases e1 : x = q
    · subst e1
      have := bq (by have := hln x v; omega)
      rw [if_pos rfl, hpa, hrr, hl]
      refine ⟨⟨hPp, a1⟩, ?_, by rw [← a3, c.2.2.1, this.2], by have := c.2.2.2; rw [(bq (by have := hln x v; omega)).2] at this; omega⟩
      by_cases g : t.r P = p
      · simp [g]
      · simp only [g, and_false, if_false, ne_eq, not_false_iff, and_true, if_true]; rcases a2 with a2 | a2
        · exact absurd a2 g
        · exact .inr a2.1
    · rw [if_neg e1, hpa, hrr, hl]
      have e5 : t.d x ≠ p := fun e => e1 (hqo x v e)
      refine ⟨⟨e5, c.1⟩, ?_, c.2.2⟩
      by_cases e6 : t.d x = P
      · rw [e6] at c ⊢; clear h1 h2 h3 hd hd' hl hrr hn hpa; grind
      · simp only [e6, false_and, if_false]; exact c.2.1
  · intro x hx e
    rw [hpa] at hx
    rw [hrr] at e ⊢
    rw [hn]
    obtain ⟨u, v⟩ := hx
    by_cases e1 : x = P ∧ t.r P = p
    · simp only [if_pos e1] at e ⊢
      rw [hd' _ (bq e).1, if_neg hqp, if_pos rfl]; exact ⟨⟨hqp, (bq e).1⟩, e1.1.symm⟩
    · simp only [if_neg e1] at e ⊢
      have c := h2 x v e
      have f1 : t.r x ≠ p := by intro f; rw [f, hPe] at c; exact e1 ⟨c.2.symm, c.2 ▸ f⟩
      have f2 : t.r x ≠ q := by intro f; rw [f] at c e; exact u (c.2.symm.trans (bq e).2)
      rw [hd' _ c.1, if_neg f1, if_neg f2]; exact ⟨⟨f1, c.1⟩, c.2⟩
  · intro x hx e
    rw [hn] at hx
    rw [hl] at e ⊢
    rw [hn, hrr]
    obtain ⟨u, v⟩ := hx
    by_cases e1 : x = P ∧ t.r P ≠ p
    · simp only [if_pos e1] at e ⊢
      rw [hd' _ (bq e).1, if_neg hqp, if_pos rfl]
      refine ⟨⟨hqp, (bq e).1⟩, e1.1.symm, ?_⟩
      rw [if_neg (fun g => e1.2 g.2), e1.1]
      intro g
      have c := (bq e).2; rw [g] at c e
      have := (h2 P a1 e).2
      omega
    · simp only [if_neg e1] at e ⊢
      have c := h3 x v e
      have f1 : t.l x ≠ p := by
        intro f; rw [f, hPe] at c
        exact e1 ⟨c.2.1.symm, fun g => c.2.2 (by rw [← c.2.1, g])⟩
      have f2 : t.l x ≠ q := by intro f; rw [f] at c e; exact u (c.2.1.symm.trans (bq e).2)
      rw [hd' _ c.1, if_neg f1, if_neg f2]
      refine ⟨⟨f1, c.1⟩, c.2.1, ?_⟩
      split_ifs with g
      · exact f2
      · exact c.2.2

/-- What a position's string, or a root, belongs to. -/
def LzEnc.key (e : LzEnc) (x : Nat) : Nat := if x < 1024 then (e.textAt x).toNat else x - 1025

/-- All but the link arrays. -/
def sameButLinks (e e' : LzEnc) : Prop :=
  e' = { e with lson := e'.lson, rson := e'.rson, dad := e'.dad }

theorem LzEnc.view_l (e : LzEnc) : e.view.l = e.lsonAt := rfl
theorem LzEnc.view_r (e : LzEnc) : e.view.r = e.rsonAt := rfl
theorem LzEnc.view_d (e : LzEnc) : e.view.d = e.dadAt := rfl

/-- Replacing a node changes links only. -/
theorem replaceNode_same (r p : Nat) (e : LzEnc) : sameButLinks e (replaceNode r p e) := by
  unfold replaceNode sameButLinks; simp only; split <;> rfl

/-- The last write of a replacement, to whichever link of the parent named the old node. -/
theorem view_writeLink {e5 : LzEnc} (k5 : e5.canonical) {l r d : Nat → Nat} (v5 : e5.view = ⟨l, r, d⟩) {p q : Nat}
    (hq : q < 2048) :
    ((if e5.rsonAt (e5.dadAt p) = p then e5.setRson (e5.dadAt p) q else e5.setLson (e5.dadAt p) q).setDad p nilIndex).view =
      ⟨fun x => if x = d p ∧ r (d p) ≠ p then q else l x, fun x => if x = d p ∧
        r (d p) = p then q else r x, writeAt d p 1024⟩ := by
  have hr : e5.rsonAt = r := by rw [← LzEnc.view_r, v5]
  have hd : e5.dadAt = d := by rw [← LzEnc.view_d, v5]
  have hl : e5.lsonAt = l := by rw [← LzEnc.view_l, v5]
  rw [hr, hd]
  split_ifs with g
  · rw [view_setDad (LzEnc.setRson_canonical _ _ k5) (by decide), ← LzEnc.view_d, view_setRson k5 hq, v5, hr]
    simp only [LinkView.mk.injEq]
    refine ⟨?_, ?_, trivial⟩ <;> funext x <;> simp [g, writeAt]
  · rw [view_setDad (LzEnc.setLson_canonical _ _ k5) (by decide), ← LzEnc.view_d, view_setLson k5 hq, v5, hl]
    simp only [LinkView.mk.injEq]
    refine ⟨?_, ?_, trivial⟩ <;> funext x <;> simp [g, writeAt]

/-- The same, for the links as functions. -/
theorem replaceNode_links (l r d : Nat → Nat) {p q : Nat} (hne : q ≠ p) (hlp : l p ≠ p) (hrp : r p ≠ p) (hPr : d p ≠ q) :
    let d' := writeAt (writeAt (writeAt d q (d p)) (l p) q) (r p) q
    let r' := writeAt r q (r p)
    let l' := writeAt l q (l p)
    (∀ x, (if x = d' p ∧ r' (d' p) ≠ p then q else l' x) =
      if x = q then l p else if x = d p ∧ r (d p) ≠ p then q else l x) ∧
    (∀ x, (if x = d' p ∧ r' (d' p) = p then q else r' x) =
      if x = q then r p else if x = d p ∧ r (d p) = p then q else r x) ∧
    (∀ x, x ≠ l p ∨ x ≠ q → x ≠ r p ∨ x ≠ q → writeAt d' p 1024 x = if x = p then 1024 else
      if x = q then d p else if x = l p ∨ x = r p then q else d x) := by
  intro d' r' l'
  have e2 : d' p = d p := by simp only [d', writeAt]; grind
  have e3 : r' (d p) = r (d p) := by simp only [r', writeAt]; grind
  rw [e2, e3]
  refine ⟨fun x => ?_, fun x => ?_, fun x => ?_⟩ <;> simp only [l', r', d', writeAt]
  · by_cases g : x = q
    · subst g; simp [Ne.symm hPr]
    · simp [g]
  · by_cases g : x = q
    · subst g; simp [Ne.symm hPr]
    · simp [g]
  · grind

/-- Replacing a node, on the view: `replace_tree`'s hypotheses. -/
theorem replaceNode_view {e : LzEnc} (H : e.canonical) {r p : Nat} (hr : r < 1024) (hne : r ≠ p)
    (hlp : e.lsonAt p ≠ p) (hrp : e.rsonAt p ≠ p) (hlr : e.lsonAt p ≠ r) (hrr : e.rsonAt p ≠ r) (hPr : e.dadAt p ≠ r) :
    (∀ x, (replaceNode r p e).lsonAt x = if x = r then e.lsonAt p else
      if x = e.dadAt p ∧ e.rsonAt (e.dadAt p) ≠ p then r else e.lsonAt x) ∧
    (∀ x, (replaceNode r p e).rsonAt x = if x = r then e.rsonAt p else
      if x = e.dadAt p ∧ e.rsonAt (e.dadAt p) = p then r else e.rsonAt x) ∧
    (∀ x, (replaceNode r p e).dadAt x = if x = p then 1024 else
      if x = r then e.dadAt p else if x = e.lsonAt p ∨ x = e.rsonAt p then r else e.dadAt x) := by
  unfold replaceNode; simp only
  have k1 := LzEnc.setDad_canonical r (e.dadAt p) H
  have v1 := view_setDad H (a := r) (e.dadAt_lt p)
  generalize e.setDad r (e.dadAt p) = e1 at k1 v1 ⊢
  have k2 := LzEnc.setLson_canonical r (e1.lsonAt p) k1
  have v2 := view_setLson k1 (a := r) (e1.lsonAt_lt p)
  generalize e1.setLson r (e1.lsonAt p) = e2 at k2 v2 ⊢
  have k3 := LzEnc.setRson_canonical r (e2.rsonAt p) k2
  have v3 := view_setRson k2 (a := r) (e2.rsonAt_lt p)
  generalize e2.setRson r (e2.rsonAt p) = e3 at k3 v3 ⊢
  have k4 := LzEnc.setDad_canonical (e3.lsonAt p) r k3
  have v4 := view_setDad k3 (a := e3.lsonAt p) (show r < 2048 by omega)
  generalize e3.setDad (e3.lsonAt p) r = e4 at k4 v4 ⊢
  have k5 := LzEnc.setDad_canonical (e4.rsonAt p) r k4
  have v5 := view_setDad k4 (a := e4.rsonAt p) (show r < 2048 by omega)
  generalize e4.setDad (e4.rsonAt p) r = e5 at k5 v5 ⊢
  have v6 : e5.view = ⟨writeAt e.lsonAt r (e.lsonAt p), writeAt e.rsonAt r (e.rsonAt p),
      writeAt (writeAt (writeAt e.dadAt r (e.dadAt p)) (e.lsonAt p) r) (e.rsonAt p) r⟩ := by
    simp only [← LzEnc.view_l, ← LzEnc.view_r, ← LzEnc.view_d] at *
    rw [v1] at v2; rw [v2] at v3; rw [v3] at v4; rw [v4] at v5
    have e1' : ∀ f : Nat → Nat, ∀ v, writeAt f r v p = f p := fun f v => if_neg (Ne.symm hne)
    simpa only [e1'] using v5
  have w := view_writeLink k5 v6 (p := p) (q := r) (by omega)
  obtain ⟨c1, c2, c3⟩ := replaceNode_links e.lsonAt e.rsonAt e.dadAt hne hlp hrp hPr
  refine ⟨fun x => ?_, fun x => ?_, fun x => ?_⟩
  · rw [← c1 x, ← LzEnc.view_l, w]
  · rw [← c2 x, ← LzEnc.view_r, w]
  · rw [← c3 x, ← LzEnc.view_d, w]
    all_goals omega

/-- All bytes before the first difference are the same, and it lies at most at 66. -/
theorem firstDifference_spec (e : LzEnc) (r p m i : Nat) :
    i ≤ (firstDifference e r p m i).1 ∧ (firstDifference e r p m i).1 ≤ i + m ∧
    ∀ j, i ≤ j → j < (firstDifference e r p m i).1 → e.textAt (p + j) = e.textAt (r + j) := by
  induction m generalizing i with
  | zero => simp [firstDifference]; omega
  | succ m ih =>
    unfold firstDifference
    simp only
    split
    · rename_i h
      obtain ⟨a, b, c⟩ := ih (i + 1)
      refine ⟨by omega, by omega, ?_⟩
      intro j h1 h2
      by_cases hj : j = i
      · subst hj; apply BitVec.eq_of_toNat_eq; omega
      · exact c j (by omega) h2
    · exact ⟨le_refl _, by simp, fun j h1 h2 => by omega⟩

/-- The match found for `r` is nothing, or a position of `S` at which the text is the same. -/
def matchIn (S : Nat → Prop) (r : Nat) (e : LzEnc) : Prop :=
  e.matchLength.toNat ≤ 66 ∧
  (e.matchLength = 0 ∨ (S e.matchPosition.toNat ∧
    ∀ j, j < e.matchLength.toNat → e.textAt (e.matchPosition.toNat + j) = e.textAt (r + j)))

/-- All but the link arrays and the match. -/
def sameButTrees (e e' : LzEnc) : Prop :=
  e' = { e with
    lson := e'.lson, rson := e'.rson, dad := e'.dad, matchPosition := e'.matchPosition, matchLength := e'.matchLength }

theorem sameButTrees.textAt {e e' : LzEnc} (h : sameButTrees e e') : e'.textAt = e.textAt := by
  rw [h]; rfl
theorem sameButTrees.trans {a b c : LzEnc} (h : sameButTrees a b) (k : sameButTrees b c) : sameButTrees a c := by
  unfold sameButTrees at *; rw [k, h]

/-- The first byte of a string depends on the text alone. -/
theorem LzEnc.key_of_text {e e' : LzEnc} (h : e'.textAt = e.textAt) : e'.key = e.key := by
  unfold LzEnc.key; rw [h]
theorem sameButLinks.trees {e e' : LzEnc} (h : sameButLinks e e') : sameButTrees e e' := by
  unfold sameButTrees sameButLinks at *; rw [h]

/-- What the trees are at every step of the encoder. -/
def LzEnc.trees (e : LzEnc) : Prop := e.canonical ∧ ∃ h, TreeForm e.view e.key h

/-- The descent of an insertion (R103): the trees keep their form with the new position in them, nothing else joins, and
the match it answers is one of a position of `S`. -/
theorem insertFrom_trees (r : Nat) (hr : r < 1024) (S : Nat → Prop) (fuel : Nat) (cmp : Int) (p : Nat) (e : LzEnc)
    (H : e.trees) (hp : isParent e.view p) (hc : 0 ≤ cmp ∨ isNode e.view p) (hk : e.key p = e.key r)
    (hd : e.dadAt r = 1024) (hl : e.lsonAt r = 1024) (hrr : e.rsonAt r = 1024)
    (hS : ∀ x, isNode e.view x → S x) (hm : matchIn S r e) :
    (insertFrom r fuel cmp p e).trees ∧ matchIn S r (insertFrom r fuel cmp p e) ∧
    sameButTrees e (insertFrom r fuel cmp p e) ∧
    ∀ x, isNode (insertFrom r fuel cmp p e).view x → x = r ∨ isNode e.view x := by
  induction fuel generalizing cmp p e with
  | zero => exact ⟨H, hm, rfl, fun x => .inr⟩
  | succ fuel ih =>
    obtain ⟨hcan, h, HT⟩ := H
    unfold insertFrom
    simp only
    by_cases hq : (if 0 ≤ cmp then e.rsonAt p else e.lsonAt p) = nilIndex
    · rw [if_pos hq]
      have hp2 : p < 2048 := by rcases hp with h | h; exacts [by have := h.1; omega, by omega]
      split_ifs at hq ⊢ with hc0
      · have v : ((e.setRson p r).setDad r p).view = { e.view with r := writeAt e.view.r p r, d := writeAt e.view.d r p } := by
          rw [view_setDad (LzEnc.setRson_canonical _ _ hcan) hp2, view_setRson hcan (by omega)]; rfl
        refine ⟨⟨LzEnc.setDad_canonical _ _ (LzEnc.setRson_canonical _ _ hcan), writeAt h r (h p + 1), ?_⟩, hm, rfl, ?_⟩
        · rw [v]; exact attach_right HT hp hr hd hl hrr hk.symm hq
        · intro x; rw [v]; simp only [isNode, writeAt]; intro hx
          by_cases e1 : x = r
          · exact .inl e1
          · rw [if_neg e1] at hx; exact .inr hx
      · have hpn : isNode e.view p := by rcases hc with c | c; exacts [absurd c hc0, c]
        have v : ((e.setLson p r).setDad r p).view = { e.view with l := writeAt e.view.l p r, d := writeAt e.view.d r p } := by
          rw [view_setDad (LzEnc.setLson_canonical _ _ hcan) hp2, view_setLson hcan (by omega)]; rfl
        refine ⟨⟨LzEnc.setDad_canonical _ _ (LzEnc.setLson_canonical _ _ hcan), writeAt h r (h p + 1), ?_⟩, hm, rfl, ?_⟩
        · rw [v]; exact attach_left HT hpn hr hd hl hrr hk.symm hq
        · intro x; rw [v]; simp only [isNode, writeAt]; intro hx
          by_cases e1 : x = r
          · exact .inl e1
          · rw [if_neg e1] at hx; exact .inr hx
    · rw [if_neg hq]
      have hqn : isNode e.view (if 0 ≤ cmp then e.rsonAt p else e.lsonAt p) ∧
          e.dadAt (if 0 ≤ cmp then e.rsonAt p else e.lsonAt p) = p := by
        split_ifs at hq ⊢ with hc0
        · exact HT.right p hp hq
        · have hpn : isNode e.view p := by rcases hc with c | c; exacts [absurd c hc0, c]
          exact ⟨(HT.left p hpn hq).1, (HT.left p hpn hq).2.1⟩
      generalize (if 0 ≤ cmp then e.rsonAt p else e.lsonAt p) = q at hq hqn
      obtain ⟨hqn, hqd⟩ := hqn
      have hkq : e.key q = e.key r := by rw [(HT.up q hqn).2.2.1, ← hk]; congr 1
      obtain ⟨f1, f2, f3⟩ := firstDifference_spec e r q (Config.lzMaxMatch - 1) 1
      generalize firstDifference e r q (Config.lzMaxMatch - 1) 1 = f at f1 f2 f3
      have hm66 : f.1 ≤ 66 := by simpa using f2
      have ml : (BitVec.ofNat 7 f.1).toNat = f.1 := by simp; omega
      have mq : (BitVec.ofNat 10 q).toNat = q := by have := hqn.1; simp; omega
      have ht0 : e.textAt q = e.textAt r := by
        have := hqn.1
        simp only [LzEnc.key, if_pos this, if_pos hr] at hkq; exact BitVec.eq_of_toNat_eq hkq
      have hm' : matchIn S r { e with matchPosition := BitVec.ofNat 10 q, matchLength := BitVec.ofNat 7 f.1 } := by
        refine ⟨by simpa only [ml] using hm66, .inr ⟨by simpa only [mq] using hS q hqn, ?_⟩⟩
        intro j hj
        simp only [ml] at hj
        simp only [mq]
        by_cases h0 : j = 0
        · subst h0; exact ht0
        · exact f3 j (by omega) hj
      split
      · split
        · have hrq : r ≠ q := by rintro rfl; exact hqn.2 hd
          have hcan' : LzEnc.canonical { e with matchPosition := BitVec.ofNat 10 q, matchLength := BitVec.ofNat 7 f.1 } := hcan
          have b2 := HT.right q (.inl hqn); have b3 := HT.left q hqn
          have bu := HT.up q hqn
          have hrn : ¬ isNode e.view r := fun h => h.2 hd
          have hrn' : r ≠ 1024 := by omega
          obtain ⟨w1, w2, w3⟩ := replaceNode_view hcan' hr hrq
            (by intro g; have h1 := b3 (by show e.lsonAt q ≠ 1024; have : e.lsonAt q = q := g
                                           rw [this]; have := hqn.1; omega)
                have h2 := h1.2.1; have g' : e.view.l q = q := g; rw [g'] at h2; rw [h2] at bu; omega)
            (by intro g; have h1 := b2 (by show e.rsonAt q ≠ 1024; have : e.rsonAt q = q := g
                                           rw [this]; have := hqn.1; omega)
                have h2 := h1.2; have g' : e.view.r q = q := g; rw [g'] at h2; rw [h2] at bu; omega)
            (by intro g; have g' : e.view.l q = r := g; rw [g'] at b3; exact hrn (b3 hrn').1)
            (by intro g; have g' : e.view.r q = r := g; rw [g'] at b2; exact hrn (b2 hrn').1)
            (by intro g; have g' : e.view.d q = r := g; rw [g'] at bu
                rcases bu.1 with u | u
                · exact hrn u
                · omega)
          have hs := replaceNode_same r q { e with matchPosition := BitVec.ofNat 10 q, matchLength := BitVec.ofNat 7 f.1 }
          have hs1 := hs.trees
          have ht1 := hs1.textAt
          refine ⟨⟨replaceNode_canonical _ _ hcan', writeAt h r (h q), ?_⟩, ?_, ?_, ?_⟩
          · have HT' : TreeForm ({ e with matchPosition := BitVec.ofNat 10 q, matchLength := BitVec.ofNat 7 f.1 } : LzEnc).view
                (replaceNode r q { e with matchPosition := BitVec.ofNat 10 q, matchLength := BitVec.ofNat 7 f.1 }).key h := by
              rw [LzEnc.key_of_text ht1]; exact HT
            exact replace_tree HT' hqn hr hd (by rw [LzEnc.key_of_text ht1]; exact hkq.symm) w1 w2 (fun x _ => w3 x)
          · unfold matchIn at hm' ⊢
            have e1 : (replaceNode r q { e with matchPosition := BitVec.ofNat 10 q, matchLength := BitVec.ofNat 7 f.1 }).matchLength = BitVec.ofNat 7 f.1 := by rw [hs]
            have e2 : (replaceNode r q { e with matchPosition := BitVec.ofNat 10 q, matchLength := BitVec.ofNat 7 f.1 }).matchPosition = BitVec.ofNat 10 q := by rw [hs]
            rw [e1, e2, ht1]; exact hm'
          · exact sameButTrees.trans (b := { e with matchPosition := BitVec.ofNat 10 q, matchLength := BitVec.ofNat 7 f.1 }) rfl hs1
          · intro x hx
            obtain ⟨u, v⟩ := hx
            have v' : (replaceNode r q { e with matchPosition := BitVec.ofNat 10 q, matchLength := BitVec.ofNat 7 f.1 }).dadAt x ≠ 1024 := v
            rw [w3 x] at v'
            by_cases e1 : x = r
            · exact .inl e1
            · right
              split_ifs at v' with g1 g2
              · exact absurd rfl v'
              · rcases g2 with g2 | g2
                · exact g2 ▸ (b3 (by show e.lsonAt q ≠ 1024; rintro g; have : x = e.lsonAt q := g2; omega)).1
                · exact g2 ▸ (b2 (by show e.rsonAt q ≠ 1024; rintro g; have : x = e.rsonAt q := g2; omega)).1
              · exact ⟨u, v'⟩
        · obtain ⟨i1, i2, i3, i4⟩ := ih f.2 q { e with matchPosition := BitVec.ofNat 10 q, matchLength := BitVec.ofNat 7 f.1 }
            ⟨hcan, h, HT⟩ (.inl hqn) (.inr hqn) hkq hd hl hrr hS hm'
          exact ⟨i1, i2, sameButTrees.trans (b := { e with matchPosition := BitVec.ofNat 10 q, matchLength := BitVec.ofNat 7 f.1 }) rfl i3, i4⟩
      · exact ih f.2 q e ⟨hcan, h, HT⟩ (.inl hqn) (.inr hqn) hkq hd hl hrr hS hm

/-- `InsertNode(r)` (R105) on a position that is in no tree: the trees stay trees, `r` joins them, and the match found is
a position of them at which the text is the same. -/
theorem insertNode_trees {r : Nat} (hr : r < 1024) {S : Nat → Prop} {e : LzEnc} (H : e.trees) (hd : e.dadAt r = 1024)
    (hS : ∀ x, isNode e.view x → S x) :
    (insertNode r e).trees ∧ matchIn S r (insertNode r e) ∧ sameButTrees e (insertNode r e) ∧
    ∀ x, isNode (insertNode r e).view x → x = r ∨ isNode e.view x := by
  obtain ⟨hcan, h, HT⟩ := H
  unfold insertNode
  simp only
  have hcan' := LzEnc.setLson_canonical r nilIndex (LzEnc.setRson_canonical r nilIndex hcan)
  have v : ((e.setRson r nilIndex).setLson r nilIndex).view = ⟨writeAt e.lsonAt r 1024, writeAt e.rsonAt r 1024, e.dadAt⟩ := by
    rw [view_setLson (LzEnc.setRson_canonical _ _ hcan) (by decide), view_setRson hcan (by decide)]; rfl
  have hrn : ¬ isNode e.view r := fun g => g.2 hd
  have HT' : TreeForm ((e.setRson r nilIndex).setLson r nilIndex).view e.key h := by
    rw [v]
    obtain ⟨h1, h2, h3⟩ := HT
    have hn : ∀ x, isNode ⟨writeAt e.lsonAt r 1024, writeAt e.rsonAt r 1024, e.dadAt⟩ x ↔ isNode e.view x := fun x => Iff.rfl
    have hpa : ∀ x, isParent ⟨writeAt e.lsonAt r 1024, writeAt e.rsonAt r 1024, e.dadAt⟩ x ↔ isParent e.view x := fun x => Iff.rfl
    have hpr : ¬ isParent e.view r := by rintro (g | g); exacts [hrn g, by omega]
    constructor
    · intro x hx
      have c := h1 x hx
      have hne : e.dadAt x ≠ r := by intro g; have c1 := c.1; rw [LzEnc.view_d, g] at c1; exact hpr c1
      refine ⟨c.1, ?_, c.2.2⟩
      simp only [writeAt, if_neg hne]; exact c.2.1
    · intro x hx e1
      have hne : x ≠ r := by rintro rfl; exact hpr hx
      simp only [writeAt, if_neg hne] at e1 ⊢; exact h2 x hx e1
    · intro x hx e1
      have hne : x ≠ r := by rintro rfl; exact hrn hx
      simp only [writeAt, if_neg hne] at e1 ⊢; exact h3 x hx e1
  have hlt : (e.textAt r).toNat < 256 := (e.textAt r).isLt
  have hkr : e.key (nilIndex + 1 + (e.textAt r).toNat) = e.key r := by
    simp only [LzEnc.key, if_pos hr]; rw [if_neg (by simp only [nilIndex]; omega)]; simp only [nilIndex]; omega
  have key := insertFrom_trees r hr S treeFuel 1 (nilIndex + 1 + (e.textAt r).toNat)
    { (e.setRson r nilIndex).setLson r nilIndex with matchLength := 0 } ⟨hcan', h, HT'⟩
    (.inr (by simp only [nilIndex]; omega)) (.inl (by decide)) hkr (by exact hd)
    (by show ((e.setRson r nilIndex).setLson r nilIndex).view.l r = 1024; rw [v]; simp [writeAt])
    (by show ((e.setRson r nilIndex).setLson r nilIndex).view.r r = 1024; rw [v]; simp [writeAt])
    (by intro x hx; exact hS x hx) ⟨by show (0 : BitVec 7).toNat ≤ 66; decide, .inl rfl⟩
  obtain ⟨k1, k2, k3, k4⟩ := key
  exact ⟨k1, k2, sameButTrees.trans (b := { (e.setRson r nilIndex).setLson r nilIndex with matchLength := 0 }) rfl k3, k4⟩

/-- How many nodes stand at least as deep as `a`. -/
noncomputable def deepNodes (t : LinkView) (h : Nat → Nat) (a : Nat) : Finset Nat :=
  open Classical in (Finset.range 1024).filter (fun x => isNode t x ∧ h a ≤ h x)

/-- The rightmost descendant that a deletion looks for (R105): a node of the same tree without a right child. -/
theorem rightmost_spec {e : LzEnc} {key h : Nat → Nat} (HT : TreeForm e.view key h) (fuel q : Nat) (hq : isNode e.view q)
    (hf : (deepNodes e.view h q).card ≤ fuel) :
    isNode e.view (rightmost e fuel q) ∧ e.rsonAt (rightmost e fuel q) = 1024 ∧ key (rightmost e fuel q) = key q ∧
    h q ≤ h (rightmost e fuel q) ∧
    (rightmost e fuel q = q ∨ (h q ≤ h (e.dadAt (rightmost e fuel q)) ∧
      e.rsonAt (e.dadAt (rightmost e fuel q)) = rightmost e fuel q)) := by
  induction fuel generalizing q with
  | zero =>
    have hmem : q ∈ deepNodes e.view h q := by simp [deepNodes, hq, hq.1]
    have := Finset.card_pos.mpr ⟨q, hmem⟩
    omega
  | succ fuel ih =>
    unfold rightmost
    by_cases hn : e.rsonAt q = nilIndex
    · rw [if_pos hn]; exact ⟨hq, hn, rfl, le_refl _, .inl rfl⟩
    · rw [if_neg hn]
      have c := HT.right q (.inl hq) hn
      have u := HT.up _ c.1
      rw [c.2] at u
      have hlt : (deepNodes e.view h (e.rsonAt q)).card < (deepNodes e.view h q).card := by
        apply Finset.card_lt_card
        rw [Finset.ssubset_iff_of_subset]
        · refine ⟨q, by simp [deepNodes, hq, hq.1], ?_⟩
          have : h q < h (e.rsonAt q) := u.2.2.2
          simp [deepNodes]; omega
        · intro x hx
          have : h q < h (e.rsonAt q) := u.2.2.2
          simp only [deepNodes, Finset.mem_filter] at hx ⊢
          exact ⟨hx.1, hx.2.1, by omega⟩
      obtain ⟨i1, i2, i3, i4, i5⟩ := ih (e.rsonAt q) c.1 (by omega)
      have hh : h q < h (e.rsonAt q) := u.2.2.2
      refine ⟨i1, i2, by rw [i3]; exact u.2.2.1, by omega, .inr ?_⟩
      rcases i5 with i5 | ⟨i5, i6⟩
      · rw [i5]
        have : e.dadAt (e.rsonAt q) = q := c.2
        rw [this]; exact ⟨le_refl _, rfl⟩
      · exact ⟨by omega, i6⟩

/-- There are at most 1024 nodes, which is the fuel of the search. -/
theorem deepNodes_card (t : LinkView) (h : Nat → Nat) (a : Nat) : (deepNodes t h a).card ≤ 1024 := by
  classical
  have := Finset.card_le_card (Finset.filter_subset (fun x => isNode t x ∧ h a ≤ h x) (Finset.range 1024))
  unfold deepNodes
  simpa using this

/-- Finding the node that takes a deleted node's place changes links only. -/
theorem successor_same (p : Nat) (e : LzEnc) : sameButLinks e (successor p e).2 := by
  unfold successor sameButLinks; simp only; split
  · rfl
  · split
    · rfl
    · split <;> rfl

/-- A deletion changes links only. -/
theorem deleteNode_same (p : Nat) (e : LzEnc) : sameButLinks e (deleteNode p e) := by
  have h := successor_same p e
  unfold deleteNode sameButLinks at *; simp only
  split
  · rfl
  · split <;> (simp only [LzEnc.setDad, LzEnc.setRson, LzEnc.setLson]; rw [h])

theorem sameButLinks.textAt {e e' : LzEnc} (h : sameButLinks e e') : e'.textAt = e.textAt := h.trees.textAt

/-- The form depends only on the links of nodes and roots. -/
theorem TreeForm.congr {t t' : LinkView} {key h : Nat → Nat} (H : TreeForm t key h) {p : Nat} (hp : p < 1024)
    (hd : t.d p = 1024)
    (ed : ∀ x, x < 1024 → t'.d x = t.d x) (el : ∀ x, x ≠ p → t'.l x = t.l x) (er : ∀ x, x ≠ p → t'.r x = t.r x) :
    TreeForm t' key h := by
  obtain ⟨h1, h2, h3⟩ := H
  have hn : ∀ x, isNode t' x ↔ isNode t x := fun x =>
    ⟨fun g => ⟨g.1, ed x g.1 ▸ g.2⟩, fun g => ⟨g.1, (ed x g.1).symm ▸ g.2⟩⟩
  have hpa : ∀ x, isParent t' x ↔ isParent t x := fun x => by unfold isParent; rw [hn]
  have hnp : ¬ isNode t p := fun g => g.2 hd
  have hpp : ¬ isParent t p := by rintro (g | g); exacts [hnp g, by omega]
  constructor
  · intro x hx
    rw [hn] at hx
    have c := h1 x hx
    have hne : t.d x ≠ p := fun g => hpp (g ▸ c.1)
    rw [ed x hx.1, hpa, el _ hne, er _ hne]; exact c
  · intro x hx e
    rw [hpa] at hx
    have hne : x ≠ p := fun g => hpp (g ▸ hx)
    rw [er x hne] at e ⊢
    have c := h2 x hx e
    rw [hn, ed _ c.1.1]; exact c
  · intro x hx e
    rw [hn] at hx
    have hne : x ≠ p := fun g => hnp (g ▸ hx)
    rw [el x hne] at e ⊢
    have c := h3 x hx e
    rw [hn, ed _ c.1.1, er x hne]; exact c

/-- The links after the two-son deletion, as functions: `q`, a node without right son below `p`, is taken out of its
place and put into `p`'s. -/
theorem deleteNode_links {t : LinkView} {key h : Nat → Nat} (H : TreeForm t key h) {p q : Nat} (hp : isNode t p)
    (hq : isNode t q) (hqr : t.r q = 1024)
    (hl : t.l p ≠ 1024) (hr : t.r p ≠ 1024) (hk : key q = key p) (hpq : h p < h q)
    (hdq : (q = t.l p) ∨ (h p < h (t.d q) ∧ t.r (t.d q) = q ∧ q ≠ t.l p ∧ q ≠ t.r p))
    {t' : LinkView}
    (el : ∀ x, t'.l x = if x = t.d p ∧ t.r (t.d p) ≠ p then q else if x = q ∧ q ≠ t.l p then t.l p else t.l x)
    (er : ∀ x, t'.r x = if x = t.d p ∧ t.r (t.d p) = p then q else if x = q then t.r p else if x = t.d q ∧
      q ≠ t.l p then t.l q else t.r x)
    (ed : ∀ x, x < 1024 → t'.d x = if x = p then 1024 else if x = q then t.d p else if x = t.r p then q else
      if q ≠ t.l p ∧ x = t.l p then q else if q ≠ t.l p ∧ x = t.l q then t.d q else t.d x) :
    ∃ h', TreeForm t' key h' := by
  have b2 := H.right p (.inl hp) hr
  have b3 := H.left p hp hl
  have bu := H.up p hp
  have bq := H.up q hq
  have bql := H.left q hq
  have hpq' : p ≠ q := by rintro rfl; omega
  have hpl : p ≠ t.l q := by
    intro g; have c := bql (by rw [← g]; have := hp.1; omega)
    rw [← g] at c; have := bu.2.2.2; rw [c.2.1] at this; omega
  have hPq : t.d p ≠ q := by intro g; rw [g] at bu; omega
  have hPp : t.d p ≠ p := by intro g; rw [g] at bu; omega
  have hqlq : t.l q ≠ q := by
    intro g; rw [g] at bql; have := (bql (by have := hq.1; omega)).2.1; rw [this] at bq; omega
  let t1 : LinkView := ⟨fun x => if x = t.d q ∧ t.r (t.d q) ≠ q then t.l q else t.l x,
    fun x => if x = t.d q ∧ t.r (t.d q) = q then t.l q else t.r x,
    fun x => if x = q then 1024 else if x = t.l q then t.d q else t.d x⟩
  have T1 : TreeForm t1 key h := splice_tree H hq (.inl ⟨hqr, rfl⟩) (fun _ => rfl) (fun _ => rfl) (fun _ _ => rfl)
  have d1 : t1.d p = t.d p := by simp only [t1]; rw [if_neg hpq', if_neg hpl]
  have n1 : isNode t1 p := ⟨hp.1, by rw [d1]; exact hp.2⟩
  have dq1 : t1.d q = 1024 := by simp only [t1]; simp
  have case : (q = t.l p ∧ t.d q = p ∧ t.r p ≠ q) ∨
      (q ≠ t.l p ∧ q ≠ t.r p ∧ t.d q ≠ p ∧ t.r (t.d q) = q ∧ t.d p ≠ t.d q ∧ q ≠ t.d q) := by
    rcases hdq with g | ⟨g1, g2, g3, g4⟩
    · have c := b3; rw [← g] at c; exact .inl ⟨g, c.2.1, Ne.symm c.2.2⟩
    · refine .inr ⟨g3, g4, fun g => by rw [g] at g1; omega, g2, fun g => by rw [← g] at g1; omega, fun g => by rw [← g] at bq; omega⟩
  have lq : ∀ x, x < 1024 → x = t.l q → t.d x = q := by
    intro x hx g; rw [g]; exact (bql (by omega)).2.1
  have rp : ∀ x, x < 1024 → x = t.r p → t.d x = p := by
    intro x hx g; rw [g]; exact b2.2
  have lp : ∀ x, x < 1024 → x = t.l p → t.d x = p := by
    intro x hx g; rw [g]; exact b3.2.1
  have r1 : t1.r (t.d p) = t.r (t.d p) := by simp only [t1]; clear ed el er T1; grind
  let t2 : LinkView := ⟨fun x => if x = q then t1.l p else if x = t1.d p ∧ t1.r (t1.d p) ≠ p then q else t1.l x,
    fun x => if x = q then t1.r p else if x = t1.d p ∧ t1.r (t1.d p) = p then q else t1.r x,
    fun x => if x = p then 1024 else if x = q then t1.d p else if x = t1.l p ∨ x = t1.r p then q else t1.d x⟩
  have T2 := replace_tree (t' := t2) T1 n1 hq.1 dq1 hk (fun _ => rfl) (fun _ => rfl) (fun _ _ => rfl)
  refine ⟨_, TreeForm.congr T2 hp.1 (by simp only [t2]; simp) ?_ ?_ ?_⟩
  · intro x hx
    rw [ed x hx]
    simp only [t2, d1]
    have := lq x hx; have := rp x hx; have := lp x hx
    simp only [t1]; clear ed el er T1 T2; grind
  · intro x hx
    rw [el x]
    simp only [t2, d1, r1]
    simp only [t1]; clear ed el er T1 T2; grind
  · intro x hx
    rw [er x]
    simp only [t2, d1, r1]
    simp only [t1]; clear ed el er T1 T2; grind

/-- The view after the two-son detachment of `successor`. -/
theorem successor_view {e : LzEnc} (hcan : e.canonical) {p q : Nat} (hq : q < 2048) (hl : e.lsonAt p ≠ nilIndex)
    (hr : e.rsonAt p ≠ nilIndex)
    (hqe : (e.rsonAt (e.lsonAt p) = nilIndex ∧ q = e.lsonAt p) ∨
      (e.rsonAt (e.lsonAt p) ≠ nilIndex ∧ q = rightmost e treeFuel (e.lsonAt p) ∧ q ≠ e.lsonAt p ∧ q ≠ p ∧
        e.lsonAt q ≠ q ∧
        e.dadAt q ≠ p ∧ e.dadAt q ≠ q)) :
    (successor p e).1 = q ∧ (successor p e).2.canonical ∧
    (∀ x, (successor p e).2.lsonAt x = if x = q ∧ q ≠ e.lsonAt p then e.lsonAt p else e.lsonAt x) ∧
    (∀ x, (successor p e).2.rsonAt x = if x = q then e.rsonAt p else if x = e.dadAt q ∧
      q ≠ e.lsonAt p then e.lsonAt q else e.rsonAt x) ∧
    (∀ x, (successor p e).2.dadAt x = if x = e.rsonAt p then q else if q ≠ e.lsonAt p ∧ x = e.lsonAt p then q else
      if q ≠ e.lsonAt p ∧ x = e.lsonAt q then e.dadAt q else e.dadAt x) := by
  refine ⟨?_, successor_canonical _ _ hcan, ?_⟩
  · unfold successor; simp only [if_neg hr, if_neg hl]
    rcases hqe with ⟨g1, g2⟩ | ⟨g1, g2, -⟩
    · rw [if_pos g1, g2]
    · rw [if_neg g1, g2]
  · unfold successor; simp only [if_neg hr, if_neg hl]
    rcases hqe with ⟨g1, g2⟩ | ⟨g1, g2, g3, g4, g5, g6, g7⟩
    · rw [if_pos g1, ← g2]
      have v : ((e.setRson q (e.rsonAt p)).setDad (e.rsonAt p) q).view = ⟨e.lsonAt, writeAt e.rsonAt q (e.rsonAt p), writeAt e.dadAt (e.rsonAt p) q⟩ := by
        rw [view_setDad (LzEnc.setRson_canonical _ _ hcan) hq, view_setRson hcan (e.rsonAt_lt p)]; rfl
      refine ⟨fun x => ?_, fun x => ?_, fun x => ?_⟩
      · rw [← LzEnc.view_l, v]; simp
      · rw [← LzEnc.view_r, v]; simp [writeAt]
      · rw [← LzEnc.view_d, v]; simp [writeAt]
    · rw [if_neg g1, ← g2]
      have k1 := LzEnc.setRson_canonical (e.dadAt q) (e.lsonAt q) hcan
      have v1 := view_setRson hcan (a := e.dadAt q) (e.lsonAt_lt q)
      generalize e.setRson (e.dadAt q) (e.lsonAt q) = e1 at k1 v1 ⊢
      have k2 := LzEnc.setDad_canonical (e1.lsonAt q) (e1.dadAt q) k1
      have v2 := view_setDad k1 (a := e1.lsonAt q) (e1.dadAt_lt q)
      generalize e1.setDad (e1.lsonAt q) (e1.dadAt q) = e2 at k2 v2 ⊢
      have k3 := LzEnc.setLson_canonical q (e2.lsonAt p) k2
      have v3 := view_setLson k2 (a := q) (e2.lsonAt_lt p)
      generalize e2.setLson q (e2.lsonAt p) = e3 at k3 v3 ⊢
      have k4 := LzEnc.setDad_canonical (e3.lsonAt p) q k3
      have v4 := view_setDad k3 (a := e3.lsonAt p) hq
      generalize e3.setDad (e3.lsonAt p) q = e4 at k4 v4 ⊢
      have k5 := LzEnc.setRson_canonical q (e4.rsonAt p) k4
      have v5 := view_setRson k4 (a := q) (e4.rsonAt_lt p)
      generalize e4.setRson q (e4.rsonAt p) = e5 at k5 v5 ⊢
      have v6 := view_setDad k5 (a := e4.rsonAt p) hq
      simp only [← LzEnc.view_l, ← LzEnc.view_r, ← LzEnc.view_d] at v1 v2 v3 v4 v5 v6 g3 g4 g5 g6 g7 ⊢
      rw [v1] at v2; rw [v2] at v3; rw [v3] at v4; rw [v4] at v5; rw [v5, v4] at v6
      rw [v4] at ⊢
      dsimp only at v6 ⊢
      rw [v6]
      dsimp only
      clear v1 v2 v3 v4 v5 v6 k1 k2 k3 k4 k5 g2
      refine ⟨fun x => ?_, fun x => ?_, fun x => ?_⟩ <;> simp only [writeAt] <;> grind

/-- `DeleteNode(p)` (R105): the trees stay trees, and `p` is in none of them. -/
theorem deleteNode_trees {p : Nat} (hp : p < 1024) {e : LzEnc} (H : e.trees) :
    (deleteNode p e).trees ∧ (deleteNode p e).dadAt p = 1024 ∧
    ∀ x, isNode (deleteNode p e).view x → x ≠ p ∧ isNode e.view x := by
  have hsame := deleteNode_same p e
  have hcan' := deleteNode_canonical p e H.1
  by_cases hd : e.dadAt p = nilIndex
  · have : deleteNode p e = e := by unfold deleteNode; rw [if_pos hd]
    rw [this]
    exact ⟨H, hd, fun x hx => ⟨fun g => hx.2 (g ▸ hd), hx⟩⟩
  obtain ⟨hcan, h, HT⟩ := H
  have hpn : isNode e.view p := ⟨hp, hd⟩
  have bu := HT.up p hpn
  -- what the last three writes leave, for any successor
  have last : ∀ q, q < 2048 → q ≠ p → (successor p e).1 = q → (successor p e).2.canonical →
      (successor p e).2.dadAt p = e.dadAt p →
      (∀ x, (deleteNode p e).lsonAt x = if x = e.dadAt p ∧ (successor p e).2.rsonAt (e.dadAt p) ≠ p then q else (successor p e).2.lsonAt x) ∧
      (∀ x, (deleteNode p e).rsonAt x = if x = e.dadAt p ∧ (successor p e).2.rsonAt (e.dadAt p) = p then q else (successor p e).2.rsonAt x) ∧
      (∀ x, (deleteNode p e).dadAt x = if x = p then 1024 else if x = q then e.dadAt p else (successor p e).2.dadAt x) := by
    intro q hq hqp h1 h2 h3
    have k := LzEnc.setDad_canonical q ((successor p e).2.dadAt p) h2
    have v := view_setDad h2 (a := q) ((successor p e).2.dadAt_lt p)
    have e0 : deleteNode p e = LzEnc.setDad (if ((successor p e).2.setDad q ((successor p e).2.dadAt p)).rsonAt (((successor p e).2.setDad q ((successor p e).2.dadAt p)).dadAt p) = p
        then ((successor p e).2.setDad q ((successor p e).2.dadAt p)).setRson (((successor p e).2.setDad q ((successor p e).2.dadAt p)).dadAt p) q
        else ((successor p e).2.setDad q ((successor p e).2.dadAt p)).setLson (((successor p e).2.setDad q ((successor p e).2.dadAt p)).dadAt p) q) p nilIndex := by
      unfold deleteNode; rw [if_neg hd]; simp only [h1]
    have w := view_writeLink k (l := (successor p e).2.lsonAt) (r := (successor p e).2.rsonAt)
      (d := writeAt (successor p e).2.dadAt q (e.dadAt p)) (by rw [v, h3]; rfl) (p := p) hq
    rw [← e0] at w
    have hd0 : writeAt (successor p e).2.dadAt q (e.dadAt p) p = e.dadAt p := by simp only [writeAt, if_neg (Ne.symm hqp), h3]
    rw [hd0] at w
    refine ⟨fun x => by rw [← LzEnc.view_l, w], fun x => by rw [← LzEnc.view_r, w], fun x => ?_⟩
    rw [← LzEnc.view_d, w]; simp only [writeAt]
  have hkey : (deleteNode p e).key = e.key := LzEnc.key_of_text hsame.textAt
  by_cases hr : e.rsonAt p = nilIndex
  · have s1 : successor p e = (e.lsonAt p, e) := by unfold successor; rw [if_pos hr]
    have b3 := HT.left p hpn
    have hqp : e.lsonAt p ≠ p := by
      intro g; have c := (b3 (by show e.lsonAt p ≠ 1024; omega)).2.1
      have g' : e.view.l p = p := g
      rw [g'] at c; rw [c] at bu; omega
    obtain ⟨w1, w2, w3⟩ := last (e.lsonAt p) (e.lsonAt_lt p) hqp (by rw [s1]) (by rw [s1]; exact hcan) (by rw [s1])
    rw [s1] at w1 w2 w3
    refine ⟨⟨hcan', h, ?_⟩, by rw [w3, if_pos rfl], ?_⟩
    · rw [hkey]; exact splice_tree HT hpn (.inl ⟨hr, rfl⟩) w1 w2 (fun x _ => w3 x)
    · rintro x ⟨u, v⟩
      have v' : (deleteNode p e).dadAt x ≠ 1024 := v
      rw [w3] at v'
      split_ifs at v' with g1 g2
      · exact absurd rfl v'
      · refine ⟨g1, ?_⟩; rw [g2]; exact (b3 (by show e.lsonAt p ≠ 1024; omega)).1
      · exact ⟨g1, u, v'⟩
  by_cases hl : e.lsonAt p = nilIndex
  · have s1 : successor p e = (e.rsonAt p, e) := by unfold successor; rw [if_neg hr, if_pos hl]
    have b2 := HT.right p (.inl hpn)
    have hqp : e.rsonAt p ≠ p := by
      intro g; have c := (b2 (by show e.rsonAt p ≠ 1024; omega)).2
      have g' : e.view.r p = p := g
      rw [g'] at c; rw [c] at bu; omega
    obtain ⟨w1, w2, w3⟩ := last (e.rsonAt p) (e.rsonAt_lt p) hqp (by rw [s1]) (by rw [s1]; exact hcan) (by rw [s1])
    rw [s1] at w1 w2 w3
    refine ⟨⟨hcan', h, ?_⟩, by rw [w3, if_pos rfl], ?_⟩
    · rw [hkey]; exact splice_tree HT hpn (.inr ⟨hl, rfl⟩) w1 w2 (fun x _ => w3 x)
    · rintro x ⟨u, v⟩
      have v' : (deleteNode p e).dadAt x ≠ 1024 := v
      rw [w3] at v'
      split_ifs at v' with g1 g2
      · exact absurd rfl v'
      · refine ⟨g1, ?_⟩; rw [g2]; exact (b2 (by show e.rsonAt p ≠ 1024; omega)).1
      · exact ⟨g1, u, v'⟩
  · have b2 := HT.right p (.inl hpn) hr
    have b3 := HT.left p hpn hl
    have bl := HT.up _ b3.1
    rw [b3.2.1] at bl
    obtain ⟨m1, m2, m3, m4, m5⟩ := rightmost_spec HT treeFuel (e.lsonAt p) b3.1 ((deepNodes_card _ _ _).trans (by decide))
    have sv : ∃ q, isNode e.view q ∧ e.rsonAt q = 1024 ∧ e.key q = e.key p ∧ h p < h q ∧
        (q = e.lsonAt p ∨ (h p < h (e.dadAt q) ∧ e.rsonAt (e.dadAt q) = q ∧ q ≠ e.lsonAt p ∧ q ≠ e.rsonAt p)) ∧
        ((e.rsonAt (e.lsonAt p) = nilIndex ∧ q = e.lsonAt p) ∨
          (e.rsonAt (e.lsonAt p) ≠ nilIndex ∧ q = rightmost e treeFuel (e.lsonAt p) ∧ q ≠ e.lsonAt p ∧ q ≠ p ∧ e.lsonAt q ≠ q ∧
            e.dadAt q ≠ p ∧ e.dadAt q ≠ q)) := by
      by_cases g : e.rsonAt (e.lsonAt p) = nilIndex
      · exact ⟨e.lsonAt p, b3.1, g, bl.2.2.1, bl.2.2.2, .inl rfl, .inl ⟨g, rfl⟩⟩
      · have hne : rightmost e treeFuel (e.lsonAt p) ≠ e.lsonAt p := by intro g'; rw [g'] at m2; exact g m2
        rcases m5 with m5 | ⟨m5, m6⟩
        · exact absurd m5 hne
        have hlt : h p < h (e.lsonAt p) := bl.2.2.2
        have hup := HT.up _ m1
        have hle := HT.left _ m1
        have hd1 : e.dadAt (rightmost e treeFuel (e.lsonAt p)) ≠ p := by intro g'; rw [g'] at m5; omega
        refine ⟨rightmost e treeFuel (e.lsonAt p), m1, m2, m3.trans bl.2.2.1, by omega, .inr ⟨by omega, m6, hne, ?_⟩,
          .inr ⟨g, rfl, hne, ?_, ?_, hd1, ?_⟩⟩
        · intro g'; apply hd1; rw [g']; exact b2.2
        · intro g'; rw [g'] at m4; omega
        · intro g'
          have c := (hle (by show e.lsonAt _ ≠ 1024; rw [g']; have := m1.1; omega)).2.1
          have g'' : e.view.l (rightmost e treeFuel (e.lsonAt p)) = rightmost e treeFuel (e.lsonAt p) := g'
          rw [g''] at c; rw [c] at hup; omega
        · intro g'
          have g'' : e.view.d (rightmost e treeFuel (e.lsonAt p)) = rightmost e treeFuel (e.lsonAt p) := g'
          rw [g''] at hup; omega
    obtain ⟨q, q1, q2, q3, q4, q5, q6⟩ := sv
    have hq2 : q < 2048 := by have := q1.1; omega
    obtain ⟨s1, s2, s3, s4, s5⟩ := successor_view hcan hq2 hl hr q6
    have hqp : q ≠ p := by rintro rfl; omega
    have hrp : e.rsonAt p ≠ p := by
      intro g; have g' : e.view.r p = p := g
      rw [g'] at b2; rw [b2.2] at bu; omega
    have hlp : e.lsonAt p ≠ p := by
      intro g; have g' : e.view.l p = p := g
      rw [g'] at b3; rw [b3.2.1] at bu; omega
    have hlq : e.lsonAt q ≠ p := by
      intro g; have c := (HT.left q q1 (by show e.lsonAt q ≠ 1024; omega)).2.1
      have g' : e.view.l q = p := g
      rw [g'] at c; rw [c] at bu; omega
    have hdp : (successor p e).2.dadAt p = e.dadAt p := by
      rw [s5, if_neg (Ne.symm hrp), if_neg (fun g => hlp g.2.symm), if_neg (fun g => hlq g.2.symm)]
    obtain ⟨w1, w2, w3⟩ := last q hq2 hqp s1 s2 hdp
    have hPq : e.dadAt p ≠ q := by
      intro g; have g' : e.view.d p = q := g
      rw [g'] at bu; omega
    have hPd : ¬ (e.dadAt p = e.dadAt q ∧ q ≠ e.lsonAt p) := by
      rintro ⟨g, g2⟩
      rcases q5 with q5 | q5
      · exact g2 q5
      · rw [← g] at q5; have := bu.2.2.2; have h5 : h p < h (e.view.d p) := q5.1; omega
    have sP : (successor p e).2.rsonAt (e.dadAt p) = e.rsonAt (e.dadAt p) := by rw [s4, if_neg hPq, if_neg hPd]
    rw [sP] at w1 w2
    have key := deleteNode_links HT (t' := (deleteNode p e).view) hpn q1 q2 hl hr q3 q4 q5
      (fun x => by show (deleteNode p e).lsonAt x = _; rw [w1, s3]; rfl)
      (fun x => by show (deleteNode p e).rsonAt x = _; rw [w2, s4]; rfl)
      (fun x hx => by show (deleteNode p e).dadAt x = _; rw [w3, s5]; rfl)
    refine ⟨⟨hcan', by rw [hkey]; exact key⟩, by rw [w3, if_pos rfl], ?_⟩
    rintro x ⟨u, v⟩
    have v' : (deleteNode p e).dadAt x ≠ 1024 := v
    rw [w3, s5] at v'
    split_ifs at v' with g1 g2 g3 g4 g5
    · exact absurd rfl v'
    · exact ⟨g1, g2 ▸ q1⟩
    · exact ⟨g1, g3 ▸ b2.1⟩
    · exact ⟨g1, g4.2 ▸ b3.1⟩
    · refine ⟨g1, ?_⟩
      have := (HT.left q q1 (by show e.lsonAt q ≠ 1024; have := g5.2; omega)).1
      exact g5.2 ▸ this
    · exact ⟨g1, u, v'⟩

/-! ## The descent of an insertion -/

/-- The comparison of two strings that differ: their first difference, and its sign. -/
theorem firstDifference_differs (e : LzEnc) (r p : Nat) {d : Nat} (m i : Nat) (hi : i ≤ d) (hd : d < i + m)
    (hs : ∀ j, i ≤ j → j < d → e.textAt (p + j) = e.textAt (r + j)) (hn : e.textAt (p + d) ≠ e.textAt (r + d)) :
    (firstDifference e r p m i).1 = d ∧
    (0 ≤ (firstDifference e r p m i).2 ↔ (e.textAt (p + d)).toNat < (e.textAt (r + d)).toNat) := by
  induction m generalizing i with
  | zero => omega
  | succ m ih =>
    have hv : (e.textAt (p + d)).toNat ≠ (e.textAt (r + d)).toNat := fun h => hn (BitVec.eq_of_toNat_eq h)
    unfold firstDifference
    rcases Nat.eq_or_lt_of_le hi with rfl | hlt
    · have := hv
      simp only; rw [if_neg (fun h => hv (by omega))]; refine ⟨rfl, ?_⟩; show (0 : Int) ≤ _ - _ ↔ _; omega
    · simp only; rw [if_pos (by rw [hs i le_rfl hlt]; omega)]
      exact ih (i + 1) hlt (by omega) (fun j a b => hs j (by omega) b)

/-- The comparison goes on as long as the strings are the same. -/
theorem firstDifference_same (e : LzEnc) (r p : Nat) (m i n : Nat) (hn : n ≤ i + m) (hin : i ≤ n)
    (hs : ∀ j, i ≤ j → j < n → e.textAt (p + j) = e.textAt (r + j)) : n ≤ (firstDifference e r p m i).1 := by
  induction m generalizing i with
  | zero => simp [firstDifference]; omega
  | succ m ih =>
    unfold firstDifference; simp only
    split
    · by_cases h : i = n
      · have := (firstDifference_spec e r p m (i+1)).1; omega
      · exact ih (i + 1) (by omega) (by omega) (fun j a b => hs j (by omega) b)
    · rename_i h; simp only
      by_contra hlt
      exact h (by rw [hs i le_rfl (by omega)]; omega)

/-- The descent of an insertion never makes the match shorter, and keeps its position unless it finds a longer one. -/
theorem insertFrom_keeps (r fuel : Nat) (cmp : Int) (p : Nat) (e : LzEnc) (h66 : e.matchLength.toNat ≤ 66) :
    e.matchLength.toNat ≤ (insertFrom r fuel cmp p e).matchLength.toNat ∧ (insertFrom r fuel cmp p e).matchLength.toNat ≤ 66 ∧
    ((insertFrom r fuel cmp p e).matchLength.toNat = e.matchLength.toNat →
      (insertFrom r fuel cmp p e).matchPosition = e.matchPosition) := by
  induction fuel generalizing cmp p e with
  | zero => exact ⟨le_rfl, h66, fun _ => rfl⟩
  | succ fuel ih =>
    unfold insertFrom; simp only
    generalize (if 0 ≤ cmp then e.rsonAt p else e.lsonAt p) = q
    have hf := (firstDifference_spec e r q (Config.lzMaxMatch - 1) 1).2.1
    generalize firstDifference e r q (Config.lzMaxMatch - 1) 1 = found at hf ⊢
    have hf : found.1 ≤ 66 := hf
    have hn : (BitVec.ofNat 7 found.1).toNat = found.1 := by rw [BitVec.toNat_ofNat]; omega
    split
    · split <;> exact ⟨le_rfl, h66, fun _ => rfl⟩
    · split
      · rename_i hlt
        split
        · have := replaceNode_same r q { e with matchPosition := BitVec.ofNat 10 q, matchLength := BitVec.ofNat 7 found.1 }
          unfold sameButLinks at this
          rw [this]; simp only [hn]; exact ⟨by omega, hf, fun h => by omega⟩
        · obtain ⟨a, b, c⟩ := ih found.2 q { e with matchPosition := BitVec.ofNat 10 q, matchLength := BitVec.ofNat 7 found.1 } (by simp only [hn]; exact hf)
          simp only [hn] at a b c
          exact ⟨by omega, b, fun h => by omega⟩
      · exact ih _ _ _ h66

/-- What the descent of an insertion does at the nodes `q 0, …, q k` it meets (R105): no string agrees for longer than the
match answered, the first to agree as long is its position, the new string is hung where the descent ends, and a string that
agrees in full leaves its tree. -/
theorem insertFrom_descends {r : Nat} (hr : r < 1024) (fuel : Nat) (cmp : Int) (p : Nat) (e : LzEnc)
    (w1 : Links.wf e.lson = true) (w2 : Links.wf e.rson = true) (w3 : Links.wf e.dad = true) (h66 : e.matchLength.toNat ≤ 66)
    (q : Nat → Nat) (k : Nat) (hk : k + 1 < fuel)
    (h0 : q 0 = if 0 ≤ cmp then e.rsonAt p else e.lsonAt p) (hq : ∀ i, i ≤ k → q i < 1024)
    (hg : ∀ i, i < k → goesOnTo e r (q i) (q (i + 1))) :
    let t := insertFrom r fuel cmp p e
    (∀ n, 1 ≤ n → n ≤ 66 → (∀ j, 1 ≤ j → j < n → e.textAt (q k + j) = e.textAt (r + j)) → n ≤ t.matchLength.toNat) ∧
    (e.matchLength.toNat < t.matchLength.toNat →
      (∀ j, 1 ≤ j → j < t.matchLength.toNat → e.textAt (q k + j) = e.textAt (r + j)) →
      (∀ i, i < k → ∃ j, 1 ≤ j ∧ j < t.matchLength.toNat ∧ e.textAt (q i + j) ≠ e.textAt (r + j)) →
        t.matchPosition.toNat = q k) ∧
    (goesOnTo e r (q k) 1024 → t.dadAt r = q k ∧ goesOnTo t r (q k) r) ∧
    (e.matchLength.toNat < 66 → (∀ j, 1 ≤ j → j < 66 → e.textAt (q k + j) = e.textAt (r + j)) → t.dadAt (q k) = 1024) := by
  induction fuel generalizing cmp p e q k with
  | zero => omega
  | succ fuel ih =>
    simp only
    have hq0 := hq 0 (by omega)
    unfold insertFrom; simp only [← h0]
    rw [if_neg (show q 0 ≠ nilIndex from fun h => by rw [h] at hq0; exact absurd hq0 (by decide))]
    have hsp := firstDifference_spec e r (q 0) (Config.lzMaxMatch - 1) 1
    have hsame := firstDifference_same e r (q 0) (Config.lzMaxMatch - 1) 1
    have hdiff := fun d => firstDifference_differs e r (q 0) (d := d) (Config.lzMaxMatch - 1) 1
    generalize firstDifference e r (q 0) (Config.lzMaxMatch - 1) 1 = found at hsp hsame hdiff ⊢
    have e65 : (1 : Nat) + (Config.lzMaxMatch - 1) = 66 := rfl
    have e66 : Config.lzMaxMatch = 66 := rfl
    rw [e65] at hsp hsame hdiff
    rw [e66]
    obtain ⟨s1, s2, s3⟩ := hsp
    have hn : (BitVec.ofNat 7 found.1).toNat = found.1 := by rw [BitVec.toNat_ofNat]; omega
    -- the state the descent goes on with
    have key : ∀ e' : LzEnc, e'.lson = e.lson → e'.rson = e.rson → e'.dad = e.dad → e'.text = e.text →
        e'.matchLength.toNat = max e.matchLength.toNat found.1 →
        (e.matchLength.toNat < found.1 → e'.matchPosition.toNat = q 0) → found.1 < 66 ∨ 66 ≤ e.matchLength.toNat →
        let t := insertFrom r fuel found.2 (q 0) e'
        (∀ n, 1 ≤ n → n ≤ 66 → (∀ j, 1 ≤ j → j < n → e.textAt (q k + j) = e.textAt (r + j)) → n ≤ t.matchLength.toNat) ∧
        (e.matchLength.toNat < t.matchLength.toNat →
          (∀ j, 1 ≤ j → j < t.matchLength.toNat → e.textAt (q k + j) = e.textAt (r + j)) →
          (∀ i, i < k → ∃ j, 1 ≤ j ∧ j < t.matchLength.toNat ∧ e.textAt (q i + j) ≠ e.textAt (r + j)) →
            t.matchPosition.toNat = q k) ∧
        (goesOnTo e r (q k) 1024 → t.dadAt r = q k ∧ goesOnTo t r (q k) r) ∧
        (e.matchLength.toNat < 66 → (∀ j, 1 ≤ j → j < 66 → e.textAt (q k + j) = e.textAt (r + j)) → t.dadAt (q k) = 1024) := by
      intro e' a1 a2 a3 a4 a5 a6 a7
      have t4 : ∀ a, e'.textAt a = e.textAt a := fun a => by simp only [LzEnc.textAt, a4]
      have l4 : ∀ a, e'.lsonAt a = e.lsonAt a := fun a => by simp only [LzEnc.lsonAt, a1]
      have r4 : ∀ a, e'.rsonAt a = e.rsonAt a := fun a => by simp only [LzEnc.rsonAt, a2]
      have hkeep := insertFrom_keeps r fuel found.2 (q 0) e' (by omega)
      have hnext : ∀ y, goesOnTo e r (q 0) y → (if 0 ≤ found.2 then e'.rsonAt (q 0) else e'.lsonAt (q 0)) = y ∧ found.1 < 66 := by
        rintro y ⟨d, d1, d2, d3, d4, rfl⟩
        obtain ⟨f1, f2⟩ := hdiff d d1 d2 d3 d4
        rw [l4, r4]; simp only [f2]; exact ⟨trivial, by omega⟩
      cases k with
      | zero =>
        refine ⟨fun n n1 n2 n3 => ?_, fun b1 b2 _ => ?_, fun g => ?_, fun c1 c2 => ?_⟩
        · have := hsame n n2 n1 n3; omega
        · have := hsame _ hkeep.2.1 (by omega) b2
          rw [hkeep.2.2 (by omega), a6 (by omega)]
        · obtain ⟨g1, g2⟩ := hnext _ g
          obtain ⟨fuel, rfl⟩ : ∃ f, fuel = f + 1 := ⟨fuel - 1, by omega⟩
          unfold insertFrom; simp only [g1]
          rw [if_pos trivial]
          have hd : ∀ e2 : LzEnc, Links.wf e2.dad = true → (e2.setDad r (q 0)).dadAt r = q 0 := fun e2 h => by
            simp only [LzEnc.setDad, LzEnc.dadAt]; rw [Links.read_write_toNat _ _ _ _ h (by omega), if_pos rfl]
          obtain ⟨d, d1, d2, d3, d4, -⟩ := g
          have hc := (hdiff d d1 d2 d3 d4).2
          split
          · rename_i h
            refine ⟨hd _ (by show Links.wf e'.dad = true; rw [a3]; exact w3), d, d1, d2, ?_⟩
            have tx : ((e'.setRson (q 0) r).setDad r (q 0)).textAt = e.textAt := funext t4
            rw [tx, if_pos (hc.mp h)]
            refine ⟨d3, d4, ?_⟩
            simp only [LzEnc.setDad, LzEnc.setRson, LzEnc.rsonAt]; rw [Links.read_write_toNat _ _ _ _ (a2 ▸ w2) (by omega), if_pos rfl]
          · rename_i h
            refine ⟨hd _ (by show Links.wf e'.dad = true; rw [a3]; exact w3), d, d1, d2, ?_⟩
            have tx : ((e'.setLson (q 0) r).setDad r (q 0)).textAt = e.textAt := funext t4
            rw [tx, if_neg (fun g => h (hc.mpr g))]
            refine ⟨d3, d4, ?_⟩
            simp only [LzEnc.setDad, LzEnc.setLson, LzEnc.lsonAt]; rw [Links.read_write_toNat _ _ _ _ (a1 ▸ w1) (by omega), if_pos rfl]
        · have := hsame 66 le_rfl (by omega) c2; omega
      | succ k =>
        have hne := hnext _ (hg 0 (by omega))
        obtain ⟨i1, i2, i3, i4⟩ := ih found.2 (q 0) e' (a1 ▸ w1) (a2 ▸ w2) (a3 ▸ w3) (by omega) (fun i => q (i + 1)) k (by omega) hne.1.symm
          (fun i h => hq (i + 1) (by omega)) (fun i h => by
            obtain ⟨d, g⟩ := hg (i + 1) (by omega); refine ⟨d, ?_⟩; simp only [t4, l4, r4]; exact g)
        simp only [t4] at i1 i2 i4
        refine ⟨i1, fun b1 b2 b3 => i2 ?_ b2 (fun i h => b3 (i + 1) (by omega)), fun g => i3 ?_, fun c1 c2 => i4 (by omega) c2⟩
        · obtain ⟨j, j1, j2, j3⟩ := b3 0 (by omega)
          have : found.1 < (insertFrom r fuel found.2 (q 0) e').matchLength.toNat := by
            by_contra hle; exact j3 (s3 j j1 (by omega))
          omega
        · obtain ⟨d, g⟩ := g; refine ⟨d, ?_⟩; simp only [t4, l4, r4]; exact g
    split
    · rename_i hlt
      split
      · -- a full match
        rename_i hfull
        have hk0 : k = 0 := by
          by_contra hk0
          obtain ⟨d, d1, d2, d3, d4, -⟩ := hg 0 (by omega)
          have := (hdiff d d1 d2 d3 d4).1; omega
        subst hk0
        have hs := replaceNode_same r (q 0) { e with matchPosition := BitVec.ofNat 10 (q 0), matchLength := BitVec.ofNat 7 found.1 }
        unfold sameButLinks at hs
        have hml : (replaceNode r (q 0) { e with matchPosition := BitVec.ofNat 10 (q 0), matchLength := BitVec.ofNat 7 found.1 }).matchLength.toNat = found.1 := by rw [hs]; exact hn
        have hmp : (replaceNode r (q 0) { e with matchPosition := BitVec.ofNat 10 (q 0), matchLength := BitVec.ofNat 7 found.1 }).matchPosition.toNat = q 0 := by
          rw [hs]; simp only [BitVec.toNat_ofNat]; omega
        refine ⟨fun n _ _ _ => by omega, fun _ _ _ => hmp, fun g => ?_, fun _ _ => ?_⟩
        · obtain ⟨d, d1, d2, d3, d4, -⟩ := g
          have := (hdiff d d1 d2 d3 d4).1; omega
        · unfold replaceNode; simp only
          have hw : ∀ e2 : LzEnc, Links.wf e2.dad = true → (e2.setDad (q 0) nilIndex).dadAt (q 0) = 1024 := fun e2 h => by
            simp only [LzEnc.setDad, LzEnc.dadAt]; rw [Links.read_write_toNat _ _ _ _ h (by decide), if_pos rfl]
          apply hw
          have hk : ∀ (e2 : LzEnc) a v, Links.wf e2.dad = true → Links.wf (e2.setDad a v).dad = true := fun e2 a v h => Links.write_wf _ _ _ h
          split
          · show Links.wf (LzEnc.setDad _ _ _).dad = true; exact hk _ _ _ (hk _ _ _ (hk _ _ _ w3))
          · show Links.wf (LzEnc.setDad _ _ _).dad = true; exact hk _ _ _ (hk _ _ _ (hk _ _ _ w3))
      · exact key _ rfl rfl rfl rfl (by simp only [hn]; omega) (fun _ => by simp only [BitVec.toNat_ofNat]; omega) (by omega)
    · exact key _ rfl rfl rfl rfl (by omega) (fun h => by omega) (by omega)

end Sys2Proof.Machine
end

