-- ==== Sys2Proof/Laws/Step.lean ====
section
/-! SUPPORT. Once, everything a step can do: what it fetches, and where it ends without an instruction. -/

namespace Sys2Proof.Machine

/-- Everything a step can do: the reset event, an instruction, or a step without one. -/
theorem step_next {s t : State} (h : step s = .next t) :
    (s.resetPending = true ∧ t = resetEvent s) ∨
    (s.resetPending = false ∧
      ((∃ i u, fetch s = .run i u ∧ exec i u = .next t) ∨ fetch s = .auto (.next t))) := by
  unfold step at h
  split_ifs at h with hr
  · exact .inl ⟨hr, by cases h; rfl⟩
  · refine .inr ⟨by simpa using hr, ?_⟩
    split at h
    · exact .inl ⟨_, _, by assumption, h⟩
    · subst h; exact .inr (by assumption)

theorem runDecoded_run {d : Decoded} {s u : State} {i : Instr} (h : runDecoded d s = .run i u) :
    d = .instr i ∧ u = s := by
  unfold runDecoded at h
  split at h <;> cases h
  exact ⟨rfl, rfl⟩

theorem runDecoded_auto {d : Decoded} {s t : State} (h : runDecoded d s = .auto (.next t)) :
    d = .truncated ∧ t = raise .truncatedInputError s := by
  unfold runDecoded at h
  split at h <;> cases h
  exact ⟨rfl, rfl⟩

/-- What a decoder or a container loop can run: the state an instruction runs in is the state fetched in, with a flag
taken under a token of a flagged codec, or with a request presented. -/
theorem fetch_run {s u : State} {i : Instr} (h : fetch s = .run i u) :
    (s.engine = .idle ∧ ∃ q rest, s.requests = q :: rest ∧ u = present q rest s ∧
      decode s.params .command [q.code] = .instr i) ∨
    (s.engine = .lzssDec ∧ s.op < s.n.toNat ∧
      ((lzFlagsEmpty s = true ∧ u = s ∧ decode s.params .lzFlag (inputAtCursor s) = .instr i) ∨
       (lzFlagsEmpty s = false ∧ u = lzTake s ∧
        decode s.params (.lzToken (lzFlag s)) (inputAtCursor s) = .instr i))) ∨
    (s.engine = .slideHdr ∧ u = s ∧ i = .slHdr (headerWord s.inp)) ∨
    (s.engine = .slideDec ∧ s.op < s.n.toNat ∧
      ((slFlagsEmpty s = true ∧ u = s ∧ decode s.params .slCodeword (inputAtCursor s) = .instr i) ∨
       (slFlagsEmpty s = false ∧ u = slTake s ∧
        decode s.params (.slToken (slFlag s)) (inputAtCursor s) = .instr i))) ∨
    (s.engine = .rleDec ∧ s.op < s.n.toNat ∧ u = s ∧ decode s.params .rlToken (inputAtCursor s) = .instr i) ∨
    (s.engine = .arcIndex ∧ u = s ∧ decode s.params .arcIndex s.inp = .instr i) ∨
    (s.engine = .arcEntries ∧ u = s ∧
      (((s.task = .load ∨ s.task = .loadUnpack) ∧ ∃ off, s.arc.offsets[s.arc.i]? = some off ∧
          decode s.params .arcEntry (s.inp.drop off.toNat) = .instr i) ∨
       ((s.task.isDecode = true ∨ s.task = .saveEncode) ∧ ∃ e, s.arc.work[s.arc.i]? = some e ∧
          i = storedEntryInstr e))) := by
  unfold fetch at h
  cases he : s.engine <;> simp only [he] at h
  case idle =>
    refine .inl ⟨rfl, ?_⟩
    unfold fetchCommand at h
    split at h
    · cases h
    · obtain ⟨h1, h2⟩ := runDecoded_run h
      exact ⟨_, _, by assumption, h2, h1⟩
  case lzssDec =>
    refine .inr (.inl ⟨rfl, ?_⟩)
    unfold fetchLzss at h
    split_ifs at h with h1 h2
    · obtain ⟨h3, h4⟩ := runDecoded_run h
      exact ⟨h1, .inl ⟨h2, h4, h3⟩⟩
    · obtain ⟨h3, h4⟩ := runDecoded_run h
      exact ⟨h1, .inr ⟨by simpa using h2, h4, h3⟩⟩
  case slideHdr =>
    refine .inr (.inr (.inl ⟨rfl, ?_⟩))
    simp only [fetchSlideHeader, decode, runDecoded] at h
    cases h
    exact ⟨rfl, rfl⟩
  case slideDec =>
    refine .inr (.inr (.inr (.inl ⟨rfl, ?_⟩)))
    unfold fetchSlide at h
    split_ifs at h with h1 h2
    · obtain ⟨h3, h4⟩ := runDecoded_run h
      exact ⟨h1, .inl ⟨h2, h4, h3⟩⟩
    · obtain ⟨h3, h4⟩ := runDecoded_run h
      exact ⟨h1, .inr ⟨by simpa using h2, h4, h3⟩⟩
  case rleDec =>
    refine .inr (.inr (.inr (.inr (.inl ⟨rfl, ?_⟩))))
    unfold fetchRle at h
    split_ifs at h with h1
    obtain ⟨h3, h4⟩ := runDecoded_run h
    exact ⟨h1, h4, h3⟩
  case lzssEncPrime => cases h
  case lzssEnc => cases h
  case slideEnc => cases h
  case arcIndex =>
    obtain ⟨h3, h4⟩ := runDecoded_run h
    exact .inr (.inr (.inr (.inr (.inr (.inl ⟨rfl, h4, h3⟩)))))
  case arcEntries =>
    refine .inr (.inr (.inr (.inr (.inr (.inr ⟨rfl, ?_⟩)))))
    unfold fetchEntries at h
    cases ht : s.task <;> simp only [ht] at h
    case host => cases h
    case load | loadUnpack =>
      unfold fetchHeader at h
      split_ifs at h
      split at h
      · cases h
      · obtain ⟨h3, h4⟩ := runDecoded_run h
        exact ⟨h4, .inl ⟨by simp, _, by assumption, h3⟩⟩
    case decode | read | saveEncode =>
      split at h
      · cases h
      · cases h; exact ⟨rfl, .inr ⟨by simp [Task.isDecode], _, by assumption, rfl⟩⟩
    case unpack =>
      split at h
      · cases h
      · split_ifs at h
        cases h
        exact ⟨rfl, .inr ⟨by simp [Task.isDecode], _, by assumption, rfl⟩⟩
    case saveDecode =>
      split at h
      · cases h
      · split_ifs at h
        · cases h
          exact ⟨rfl, .inr ⟨by simp [Task.isDecode], _, by assumption, rfl⟩⟩
        · split at h <;> cases h

/-- Where a step ends without an instruction: the idle step, a missing byte, the end of a decoder's loop, a step of an
encoder, the ends of the container loops, an entry passed over. -/
theorem fetch_auto {s t : State} (h : fetch s = .auto (.next t)) :
    (s.engine = .idle ∧ s.requests = [] ∧ t = s) ∨
    (s.engine ≠ .idle ∧ t = raise .truncatedInputError s) ∨
    ((s.engine = .lzssDec ∨ s.engine = .slideDec ∨ s.engine = .rleDec) ∧ ¬ s.op < s.n.toNat ∧
      codecReturn s.out s = .next t) ∨
    (s.engine = .lzssEncPrime ∧ primeLzssEnc s = .next t) ∨
    (s.engine = .lzssEnc ∧ stepLzssEnc s = .next t) ∨
    (s.engine = .slideEnc ∧ stepSlideEnc s = .next t) ∨
    (s.engine = .arcEntries ∧ s.task = .load ∧ t = loadEnd s) ∨
    (s.engine = .arcEntries ∧ s.task = .loadUnpack ∧ t = unpackBegin s) ∨
    (s.engine = .arcEntries ∧ s.task = .unpack ∧ s.arc.work[s.arc.i]? = none ∧ t = unpackEnd s) ∨
    (s.engine = .arcEntries ∧ s.task = .unpack ∧ t = { s with arc := { s.arc with i := s.arc.i + 1 } }) ∨
    (s.engine = .arcEntries ∧ s.task = .saveDecode ∧ s.arc.work[s.arc.i]? = none ∧ saveEnd s = .next t) ∨
    (s.engine = .arcEntries ∧ s.task = .saveDecode ∧ ∃ e d, s.arc.work[s.arc.i]? = some e ∧ e.st ≠ .unloaded ∧
      e.data = some d ∧ t = { s with task := .saveEncode, arc := { s.arc with d := s.arc.d ++ [d] } }) := by
  unfold fetch at h
  cases he : s.engine <;> simp only [he] at h
  case idle =>
    unfold fetchCommand at h
    split at h
    · cases h; exact .inl ⟨rfl, by assumption, rfl⟩
    · obtain ⟨h1, -⟩ := runDecoded_auto h
      simp only [decode, decodeCommand] at h1
      split at h1 <;> cases h1
  case lzssDec =>
    unfold fetchLzss at h
    split_ifs at h with h1 h2
    · exact .inr (.inl ⟨by simp, (runDecoded_auto h).2⟩)
    · exact .inr (.inl ⟨by simp, (runDecoded_auto h).2⟩)
    · exact .inr (.inr (.inl ⟨.inl rfl, h1, by injection h⟩))
  case slideHdr => exact .inr (.inl ⟨by simp, (runDecoded_auto h).2⟩)
  case slideDec =>
    unfold fetchSlide at h
    split_ifs at h with h1 h2
    · exact .inr (.inl ⟨by simp, (runDecoded_auto h).2⟩)
    · exact .inr (.inl ⟨by simp, (runDecoded_auto h).2⟩)
    · exact .inr (.inr (.inl ⟨.inr (.inl rfl), h1, by injection h⟩))
  case rleDec =>
    unfold fetchRle at h
    split_ifs at h with h1
    · exact .inr (.inl ⟨by simp, (runDecoded_auto h).2⟩)
    · exact .inr (.inr (.inl ⟨.inr (.inr rfl), h1, by injection h⟩))
  case lzssEncPrime => exact .inr (.inr (.inr (.inl ⟨rfl, by injection h⟩)))
  case lzssEnc => exact .inr (.inr (.inr (.inr (.inl ⟨rfl, by injection h⟩))))
  case slideEnc => exact .inr (.inr (.inr (.inr (.inr (.inl ⟨rfl, by injection h⟩)))))
  case arcIndex => exact .inr (.inl ⟨by simp, (runDecoded_auto h).2⟩)
  case arcEntries =>
    unfold fetchEntries at h
    cases ht : s.task <;> simp only [ht] at h
    case host => cases h
    case load =>
      unfold fetchHeader at h
      split_ifs at h
      · split at h
        · cases h
        · exact .inr (.inl ⟨by simp, (runDecoded_auto h).2⟩)
      · cases h; simp
    case loadUnpack =>
      unfold fetchHeader at h
      split_ifs at h
      · split at h
        · cases h
        · exact .inr (.inl ⟨by simp, (runDecoded_auto h).2⟩)
      · cases h; simp
    case decode | read | saveEncode => split at h <;> cases h
    case unpack =>
      split at h
      · cases h; simp_all
      · split_ifs at h; cases h
        exact .inr (.inr (.inr (.inr (.inr (.inr (.inr (.inr (.inr (.inl ⟨rfl, rfl, by simp [he]⟩)))))))))
    case saveDecode =>
      split at h
      · injection h with h; simp_all
      · split_ifs at h with hst
        split at h
        · cases h
        · cases h; simp_all

end Sys2Proof.Machine
end

