-- ==== Sys2Proof/Laws/LzssCodec.lean ====
section
/-! SUPPORT. The reference LZSS encoder and the LZSS decoder together (R102(c), R104): what the encoder's rounds write, the
decoder reads back. -/

namespace Sys2Proof.Machine

/-- The bytes both ends of the codec see: 958 zeros, then the input. -/
def streamAt (raw : Bytes) (t : Nat) : Byte := if t < 958 then 0 else raw.getD (t - 958) 0

/-- The stream holds the input from 958 on. -/
theorem streamAt_input (raw : Bytes) {i : Nat} (h : i < raw.length) : raw[i]? = some (streamAt raw (i + 958)) := by
  unfold streamAt
  rw [if_neg (by omega), show i + 958 - 958 = i by omega]
  simp [h]

/-- The trees, the window and the cursors of the encoder with `pos` input bytes coded. -/
structure EncoderWindow (raw : Bytes) (ip : Nat) (e : LzEnc) (pos : Nat) : Prop where
  trees : e.trees
  s : e.s.toNat = pos % 1024
  r : e.r.toNat = (pos + 958) % 1024
  ip_eq : ip = pos + e.len.toNat
  ip_le : ip ≤ raw.length
  full : ip = raw.length ∨ e.len.toNat = 66
  len_le : e.len.toNat ≤ 66
  text : ∀ t, pos ≤ t → t < 958 + ip → e.textAt (t % 1024) = streamAt raw t
  mirror : ∀ i, i < 65 → e.textAt (1024 + i) = e.textAt i
  nodes : ∀ x, isNode e.view x → ∃ t, pos ≤ t ∧ t < pos + 959 ∧ x = t % 1024

/-- The positions a match may have with `pos` bytes coded. -/
def pastOf (pos : Nat) (x : Nat) : Prop := ∃ t, pos ≤ t ∧ t < pos + 958 ∧ x = t % 1024

/-- What stays when only the trees and the match change. -/
theorem sameButTrees.fields {e e' : LzEnc} (h : sameButTrees e e') :
    e'.s = e.s ∧ e'.r = e.r ∧ e'.len = e.len ∧ e'.text = e.text ∧ e'.codeBuf = e.codeBuf ∧
      e'.codeBufPtr = e.codeBufPtr ∧ e'.mask = e.mask := by
  rw [h]; exact ⟨rfl, rfl, rfl, rfl, rfl, rfl, rfl⟩

/-- Text of a string of the window. -/
theorem EncoderWindow.string {raw : Bytes} {ip : Nat} {e : LzEnc} {pos : Nat} (W : EncoderWindow raw ip e pos)
    {t k : Nat} (ht : pos ≤ t)
    (hk : k < 66) (h : t + k < 958 + ip) : e.textAt (t % 1024 + k) = streamAt raw (t + k) := by
  rw [← W.text (t + k) (by omega) h]
  by_cases g : t % 1024 + k < 1024
  · rw [show (t + k) % 1024 = t % 1024 + k by omega]
  · have := W.mirror (t % 1024 + k - 1024) (by omega)
    have h1 : 1024 + (t % 1024 + k - 1024) = t % 1024 + k := by omega
    have h2 : (t + k) % 1024 = t % 1024 + k - 1024 := by omega
    rw [h1] at this
    rw [h2]; exact this

/-- The window after an insertion at `r`. -/
theorem EncoderWindow.insert {raw : Bytes} {ip : Nat} {e : LzEnc} {pos : Nat} (W : EncoderWindow raw ip e pos)
    (hn : ∀ x, isNode e.view x → pastOf pos x) :
    EncoderWindow raw ip (insertNode e.r.toNat e) pos ∧ matchIn (pastOf pos) e.r.toNat (insertNode e.r.toNat e) ∧
    sameButTrees e (insertNode e.r.toNat e) := by
  have hr : e.r.toNat < 1024 := e.r.isLt
  have hd : e.dadAt e.r.toNat = 1024 := by
    by_contra g
    obtain ⟨t, h1, h2, h3⟩ := hn _ ⟨hr, g⟩
    rw [W.r] at h3; omega
  obtain ⟨k1, k2, k3, k4⟩ := insertNode_trees hr W.trees hd hn
  have f := k3.fields
  have ft := k3.textAt
  refine ⟨⟨k1, by rw [f.1]; exact W.s, by rw [f.2.1]; exact W.r, by rw [f.2.2.1]; exact W.ip_eq, W.ip_le,
    by rw [f.2.2.1]; exact W.full, by rw [f.2.2.1]; exact W.len_le, by rw [ft]; exact W.text, by rw [ft]; exact W.mirror, ?_⟩, k2, k3⟩
  intro x hx
  rcases k4 x hx with rfl | h
  · exact ⟨pos + 958, by omega, by omega, W.r⟩
  · obtain ⟨t, h1, h2, h3⟩ := hn x h
    exact ⟨t, h1, by omega, h3⟩

/-- A byte written to `text` with its copy past the ring (R28, R104). -/
theorem lzText_write (m : Mem) (a : Nat) (c : Byte) (hw : Memory.wf m = true) :
    Memory.wf (if a < Config.lzMaxMatch - 1 then Mem.write (Mem.write m a c)
      (a + Config.lzWindow) c else Mem.write m a c) = true ∧
    ∀ b, b < 1089 →
      Mem.read (if a < Config.lzMaxMatch - 1 then Mem.write (Mem.write m a c)
        (a + Config.lzWindow) c else Mem.write m a c) b =
        if b = a ∨ b = a + 1024 then c else Mem.read m b := by
  have hw' := Mem.write_wf m a c hw
  split
  · refine ⟨Mem.write_wf _ _ _ hw', fun b _ => ?_⟩
    by_cases g1 : b = a + 1024
    · subst g1; rw [if_pos (.inr rfl)]; exact Mem.read_write_self _ _ _ hw'
    · rw [Mem.read_write_ne _ _ g1]
      by_cases g2 : b = a
      · subst g2; rw [if_pos (.inl rfl)]; exact Mem.read_write_self _ _ _ hw
      · rw [Mem.read_write_ne _ _ g2, if_neg (by omega)]
  · rename_i g
    simp only [Config.lzMaxMatch] at g
    refine ⟨hw', fun b _ => ?_⟩
    by_cases g2 : b = a
    · subst g2; rw [if_pos (.inl rfl)]; exact Mem.read_write_self _ _ _ hw
    · rw [Mem.read_write_ne _ _ g2, if_neg (by omega)]

/-- The encoder's state with `pos` bytes coded: the window, and a match found at its cursor while a byte is left. -/
def encoderReady (s : State) (pos : Nat) : Prop :=
  EncoderWindow s.inp s.ip s.le pos ∧ (s.le.len.toNat ≠ 0 → matchIn (pastOf pos) s.le.r.toNat s.le)

/-- Moving on by one byte keeps the encoder ready, one position further. -/
theorem lzAdvance_ready {s : State} {pos : Nat} (W : EncoderWindow s.inp s.ip s.le pos) (hl : s.le.len.toNat ≠ 0) :
    encoderReady (lzAdvance s) (pos + 1) ∧ s.le.len.toNat ≤ (lzAdvance s).le.len.toNat + 1 ∧
    (lzAdvance s).le.codeBuf = s.le.codeBuf ∧ (lzAdvance s).le.codeBufPtr = s.le.codeBufPtr ∧
    (lzAdvance s).le.mask = s.le.mask ∧ (lzAdvance s).inp = s.inp ∧ (lzAdvance s).out = s.out := by
  have hs : s.le.s.toNat < 1024 := s.le.s.isLt
  obtain ⟨T, hd, hn⟩ := deleteNode_trees hs W.trees
  have same := deleteNode_same s.le.s.toNat s.le
  have f := same.trees.fields
  have ft := same.textAt
  have hn' : ∀ x, isNode (deleteNode s.le.s.toNat s.le).view x → pastOf (pos + 1) x := by
    intro x hx
    obtain ⟨g1, g2⟩ := hn x hx
    obtain ⟨t, h1, h2, h3⟩ := W.nodes x g2
    refine ⟨t, ?_, by omega, h3⟩
    rcases Nat.lt_or_ge t (pos + 1) with g | g
    · have : t = pos := by omega
      subst this; rw [W.s] at g1; exact absurd h3 g1
    · exact g
  have es : (s.le.s + 1).toNat = (pos + 1) % 1024 := by
    rw [BitVec.toNat_add, W.s]; have : (1 : BitVec 10).toNat = 1 := rfl
    rw [this]; omega
  have er : (s.le.r + 1).toNat = (pos + 1 + 958) % 1024 := by
    rw [BitVec.toNat_add, W.r]; have : (1 : BitVec 10).toNat = 1 := rfl
    rw [this]; omega
  generalize hD : deleteNode s.le.s.toNat s.le = D at T hd hn same f ft hn'
  obtain ⟨f1, f2, f3, f4, f5, f6, f7⟩ := f
  have hip := W.ip_eq
  have hle := W.len_le
  unfold lzAdvance
  simp only [hD]
  cases hb : inputByte s with
  | some c =>
    simp only
    have hb' : s.inp[s.ip]? = some c := hb
    have hlt : s.ip < s.inp.length := by
      by_contra g; rw [List.getElem?_eq_none (by omega)] at hb'; cases hb'
    have h66 : s.le.len.toNat = 66 := by rcases W.full with g | g; exacts [by omega, g]
    have hc : c = streamAt s.inp (s.ip + 958) := by
      have := streamAt_input s.inp hlt; rw [hb'] at this; exact Option.some.inj this
    have hwf : Memory.wf D.text = true := T.1.1
    have hsn : D.s.toNat = pos % 1024 := by rw [f1]; exact W.s
    have ht := lzText_write D.text D.s.toNat c hwf
    generalize (if D.s.toNat < Config.lzMaxMatch - 1 then Mem.write (Mem.write D.text D.s.toNat c) (D.s.toNat + Config.lzWindow) c
      else Mem.write D.text D.s.toNat c) = tx at ht ⊢
    obtain ⟨htw, htr⟩ := ht
    have W1 : EncoderWindow s.inp (s.ip + 1) { D with text := tx, s := D.s + 1, r := D.r + 1 } (pos + 1) := by
      refine ⟨⟨⟨htw, T.1.2⟩, ?_⟩, by simp only [f1]; exact es, by simp only [f2]; exact er, by simp only [f3]; omega, hlt,
        .inr (by simp only [f3]; exact h66), by simp only [f3]; exact hle, ?_, ?_, ?_⟩
      · obtain ⟨_, h, HT⟩ := T
        refine ⟨h, ?_⟩
        have HT' : TreeForm D.view D.key h := HT
        show TreeForm D.view _ h
        obtain ⟨h1, h2, h3⟩ := HT'
        refine ⟨fun x hx => ?_, h2, h3⟩
        have c1 := h1 x hx
        have hkx : ∀ y, isParent D.view y → ({ D with text := tx, s := D.s + 1, r := D.r + 1 } : LzEnc).key y = D.key y := by
          intro y hy
          unfold LzEnc.key
          split
          · rename_i hy1
            have hy2 : isNode D.view y := by rcases hy with g | g; exacts [g, by omega]
            have hne : y ≠ D.s.toNat := by rw [f1]; exact (hn y hy2).1
            show (Mem.read tx y).toNat = _
            rw [htr y (by omega), if_neg (by omega)]; rfl
          · rfl
        refine ⟨c1.1, c1.2.1, ?_, c1.2.2.2⟩
        rw [hkx x (.inl hx), hkx _ c1.1]; exact c1.2.2.1
      · intro t h1 h2
        show Mem.read tx (t % 1024) = _
        rw [htr _ (by omega), hsn]
        by_cases g : t % 1024 = pos % 1024
        · rw [if_pos (.inl g), hc]; congr 1; omega
        · rw [if_neg (by omega)]
          have := W.text t (by omega) (by omega)
          rw [← this, ← ft]; rfl
      · intro i hi
        show Mem.read tx (1024 + i) = Mem.read tx i
        rw [htr _ (by omega), htr _ (by omega)]
        have hs' := hsn
        by_cases g : i = D.s.toNat
        · rw [if_pos (.inr (by omega)), if_pos (.inl g)]
        · rw [if_neg (by omega), if_neg (by omega)]
          have := W.mirror i hi
          rw [← ft] at this; exact this
      · intro x hx
        obtain ⟨t, h1, h2, h3⟩ := hn' x hx
        exact ⟨t, h1, by omega, h3⟩
    obtain ⟨I1, I2, I3⟩ := W1.insert hn'
    have fi := I3.fields
    refine ⟨⟨I1, fun _ => ?_⟩, ?_, ?_, ?_, ?_, trivial, trivial⟩
    · rw [fi.2.1]; exact I2
    · rw [fi.2.2.1]; simp only [f3]; omega
    · rw [fi.2.2.2.2.1]; exact f5
    · rw [fi.2.2.2.2.2.1]; exact f6
    · rw [fi.2.2.2.2.2.2]; exact f7
  | none =>
    simp only
    have hb' : s.inp[s.ip]? = none := hb
    have hge : s.inp.length ≤ s.ip := by simpa using hb'
    have hipl := W.ip_le
    have hl1 : (D.len - 1).toNat = s.le.len.toNat - 1 := by
      rw [f3, BitVec.toNat_sub]; have := s.le.len.isLt; have h1 : (1 : BitVec 7).toNat = 1 := rfl
      rw [h1]; omega
    have W1 : EncoderWindow s.inp s.ip { D with s := D.s + 1, r := D.r + 1, len := D.len - 1 } (pos + 1) := by
      refine ⟨T, by simp only [f1]; exact es, by simp only [f2]; exact er, by simp only [hl1]; omega, hipl,
        .inl (by omega), by simp only [hl1]; omega, ?_, ?_, ?_⟩
      · intro t h1 h2
        have := W.text t (by omega) (by omega)
        rw [← this, ← ft]; rfl
      · intro i hi
        have := W.mirror i hi
        rw [← ft] at this; exact this
      · intro x hx
        obtain ⟨t, h1, h2, h3⟩ := hn' x hx
        exact ⟨t, h1, by omega, h3⟩
    by_cases hz : D.len - 1 = 0
    · rw [if_pos hz]
      refine ⟨⟨W1, fun g => absurd (show (D.len - 1).toNat = 0 by rw [hz]; rfl) g⟩, by simp only [hl1]; omega, f5, f6, f7, trivial, trivial⟩
    · rw [if_neg hz]
      obtain ⟨I1, I2, I3⟩ := W1.insert hn'
      have fi := I3.fields
      refine ⟨⟨I1, fun _ => ?_⟩, ?_, ?_, ?_, ?_, trivial, trivial⟩
      · rw [fi.2.1]; exact I2
      · rw [fi.2.2.1]; simp only [hl1]; omega
      · rw [fi.2.2.2.2.1]; exact f5
      · rw [fi.2.2.2.2.2.1]; exact f6
      · rw [fi.2.2.2.2.2.2]; exact f7

/-- Filling the lookahead (R104): one input byte after the other goes to `text` from the cursor on, up to `m` of them or
to the end of the input. -/
theorem lzFill_spec (m : Nat) (s : State) (hw : Memory.wf s.le.text = true) (hi : s.ip ≤ s.inp.length)
    (hm : s.le.len.toNat + m < 128) :
    (lzFill m s).ip = min (s.ip + m) s.inp.length ∧
    (lzFill m s).le.len.toNat = s.le.len.toNat + ((lzFill m s).ip - s.ip) ∧
    Memory.wf (lzFill m s).le.text = true ∧
    (∀ a, Mem.read (lzFill m s).le.text a =
      if s.le.r.toNat + s.le.len.toNat ≤ a ∧ a < s.le.r.toNat + (lzFill m s).le.len.toNat then
        s.inp.getD (s.ip + (a - (s.le.r.toNat + s.le.len.toNat))) 0 else Mem.read s.le.text a) ∧
    lzFill m s = { s with
      ip := (lzFill m s).ip, le := { s.le with text := (lzFill m s).le.text, len := (lzFill m s).le.len } } := by
  induction m generalizing s with
  | zero =>
    refine ⟨by simp [lzFill]; omega, by simp [lzFill], hw, fun a => ?_, rfl⟩
    rw [show lzFill 0 s = s from rfl, if_neg (by omega)]
  | succ m ih =>
    cases hb : inputByte s with
    | none =>
      have hb' : s.inp[s.ip]? = none := hb
      have hge : s.inp.length ≤ s.ip := by simpa using hb'
      have e : lzFill (m + 1) s = s := by unfold lzFill; rw [hb]
      rw [e]
      exact ⟨by omega, by omega, hw, fun a => by rw [if_neg (by omega)], rfl⟩
    | some c =>
      have hb' : s.inp[s.ip]? = some c := hb
      have hlt : s.ip < s.inp.length := by
        by_contra g; rw [List.getElem?_eq_none (by omega)] at hb'; cases hb'
      obtain ⟨u, hu⟩ : ∃ u : State, { s with
        ip := s.ip + 1
        le := { s.le with text := Mem.write s.le.text (s.le.r.toNat + s.le.len.toNat) c, len := s.le.len + 1 } } = u := ⟨_, rfl⟩
      have e : lzFill (m + 1) s = lzFill m u := by rw [lzFill, hb]; simp only [hu]
      rw [e]
      have hl : u.le.len.toNat = s.le.len.toNat + 1 := by
        rw [← hu]; simp only; rw [BitVec.toNat_add]; have h1 : (1 : BitVec 7).toNat = 1 := rfl
        rw [h1]; omega
      have hwf : Memory.wf u.le.text = true := by rw [← hu]; exact Mem.write_wf _ _ _ hw
      have hip : u.ip = s.ip + 1 := by rw [← hu]
      have hin : u.inp = s.inp := by rw [← hu]
      have hr : u.le.r = s.le.r := by rw [← hu]
      obtain ⟨i1, i2, i3, i4, i5⟩ := ih u hwf (by rw [hip, hin]; omega) (by omega)
      refine ⟨by rw [i1, hip, hin]; congr 1; omega, by rw [i2, hl, i1, hip, hin]; omega, i3, ?_, ?_⟩
      · intro a
        rw [i4 a, hr, hl, hin, hip]
        have e0 : Mem.read u.le.text a = if a = s.le.r.toNat + s.le.len.toNat then c else Mem.read s.le.text a := by
          rw [← hu]; simp only
          split_ifs with g
          · subst g; exact Mem.read_write_self _ _ _ hw
          · exact Mem.read_write_ne _ _ g
        rw [e0]
        have hle : u.le.len.toNat ≤ (lzFill m u).le.len.toNat := by rw [i2]; omega
        by_cases g1 : a = s.le.r.toNat + s.le.len.toNat
        · rw [if_neg (by omega), if_pos g1, if_pos (by omega)]
          rw [show s.ip + (a - (s.le.r.toNat + s.le.len.toNat)) = s.ip by omega]
          simp [hb']
        · by_cases g2 : s.le.r.toNat + s.le.len.toNat ≤ a ∧ a < s.le.r.toNat + (lzFill m u).le.len.toNat
          · rw [if_pos (by omega), if_pos g2]; congr 1; omega
          · rw [if_neg (by omega), if_neg g1, if_neg g2]
      · rw [i5]; simp only [← hu]

/-- With no node, the trees are trees. -/
theorem LzEnc.trees_empty {e : LzEnc} (hc : e.canonical) (hd : ∀ x, x < 1024 → e.dadAt x = 1024)
    (hr : ∀ y, 1025 ≤ y → y < 1281 → e.rsonAt y = 1024) : e.trees := by
  refine ⟨hc, fun _ => 0, ⟨fun x hx => absurd (hd x hx.1) hx.2, fun y hy h => ?_, fun y hy => absurd (hd y hy.1) hy.2⟩⟩
  rcases hy with g | g
  · exact absurd (hd y g.1) g.2
  · exact absurd (hr y g.1 g.2) h

/-- The insertions before the first token (R104). -/
theorem lzInsertFirst_ready {raw : Bytes} {ip : Nat} {e : LzEnc} (W : EncoderWindow raw ip e 0)
    (hn : ∀ x, ¬ isNode e.view x) (hr : e.r.toNat = 958) :
    EncoderWindow raw ip (lzInsertFirst e) 0 ∧ matchIn (pastOf 0) (lzInsertFirst e).r.toNat (lzInsertFirst e) ∧
      sameButTrees e (lzInsertFirst e) := by
  have step : ∀ m, m ≤ 66 →
      EncoderWindow raw ip ((List.range m).foldl (fun e j => insertNode (e.r.toNat - (j + 1)) e) e) 0 ∧
      (∀ x, isNode ((List.range m).foldl (fun e j => insertNode (e.r.toNat - (j + 1)) e) e).view x → 958 - m ≤ x ∧ x < 958) ∧
      sameButTrees e ((List.range m).foldl (fun e j => insertNode (e.r.toNat - (j + 1)) e) e) := by
    intro m
    induction m with
    | zero => exact fun _ => ⟨W, fun x hx => absurd hx (hn x), rfl⟩
    | succ m ih =>
      intro hm
      obtain ⟨i1, i2, i3⟩ := ih (by omega)
      rw [List.range_succ, List.foldl_append]
      generalize (List.range m).foldl (fun e j => insertNode (e.r.toNat - (j + 1)) e) e = e1 at i1 i2 i3
      simp only [List.foldl_cons, List.foldl_nil]
      have hr1 : e1.r.toNat = 958 := by rw [i3.fields.2.1]; exact hr
      rw [hr1]
      have hd : e1.dadAt (958 - (m + 1)) = 1024 := by
        by_contra g
        have := i2 _ ⟨by omega, g⟩
        omega
      obtain ⟨k1, k2, k3, k4⟩ := insertNode_trees (S := fun _ => True) (by omega) i1.trees hd (fun _ _ => trivial)
      have f := k3.fields
      have ft := k3.textAt
      refine ⟨⟨k1, by rw [f.1]; exact i1.s, by rw [f.2.1]; exact i1.r, by rw [f.2.2.1]; exact i1.ip_eq, i1.ip_le,
        by rw [f.2.2.1]; exact i1.full, by rw [f.2.2.1]; exact i1.len_le, by rw [ft]; exact i1.text, by rw [ft]; exact i1.mirror, ?_⟩, ?_, i3.trans k3⟩
      · intro x hx
        rcases k4 x hx with rfl | h
        · exact ⟨958 - (m + 1), by omega, by omega, by omega⟩
        · have := i2 x h; exact ⟨x, by omega, by omega, by omega⟩
      · intro x hx
        rcases k4 x hx with rfl | h
        · omega
        · have := i2 x h; omega
  obtain ⟨i1, i2, i3⟩ := step 66 le_rfl
  unfold lzInsertFirst
  rw [show Config.lzMaxMatch = 66 from rfl]
  rw [← i3.fields.2.1]
  generalize (List.range 66).foldl (fun e j => insertNode (e.r.toNat - (j + 1)) e) e = e1 at i1 i2 i3
  obtain ⟨k1, k2, k3⟩ := i1.insert (fun x hx => by have := i2 x hx; exact ⟨x, by omega, by omega, by omega⟩)
  refine ⟨k1, ?_, i3.trans k3⟩
  rw [k3.fields.2.1]; exact k2

/-- The start of `LZSS.ENC` with the lookahead filled and the first strings inserted is ready for its first token. -/
theorem lzPrime_ready (s : State) (hle : s.le = LzEnc.start) (hip : s.ip = 0) :
    encoderReady { lzFill Config.lzMaxMatch s with le := lzInsertFirst (lzFill Config.lzMaxMatch s).le } 0 ∧
    sameButTrees (lzFill Config.lzMaxMatch s).le (lzInsertFirst (lzFill Config.lzMaxMatch s).le) := by
  have h0 : s.le.len.toNat = 0 := by rw [hle]; rfl
  have hr0 : s.le.r.toNat = 958 := by rw [hle]; rfl
  obtain ⟨f1, f2, f3, f4, f5⟩ := lzFill_spec Config.lzMaxMatch s (by rw [hle]; rfl) (by omega) (by rw [h0]; decide)
  have hin : (lzFill Config.lzMaxMatch s).inp = s.inp := by rw [f5]
  generalize lzFill Config.lzMaxMatch s = t at f1 f2 f3 f4 f5 hin ⊢
  rw [hip] at f1 f2 f4
  rw [h0] at f2 f4
  rw [hr0] at f4
  simp only [Config.lzMaxMatch] at f1
  have hte : ∀ a, t.le.textAt a = if 958 ≤ a ∧ a < 958 + t.ip then s.inp.getD (a - 958) 0 else 0 := by
    intro a
    have := f4 a
    rw [hle] at this
    simp only [LzEnc.textAt]; rw [this]; simp only [LzEnc.start, Mem.read_nil]
    rw [f2]
    by_cases g : 958 ≤ a ∧ a < 958 + t.ip
    · rw [if_pos g, if_pos (by omega), show 0 + (a - (958 + 0)) = a - 958 by omega]
    · rw [if_neg g, if_neg (by omega)]
  have hdad : ∀ x, t.le.dadAt x = 1024 := by intro x; rw [f5, hle]; rfl
  have hrs : ∀ x, t.le.rsonAt x = 1024 := by intro x; rw [f5, hle]; rfl
  have hcan : t.le.canonical := ⟨f3, by rw [f5, hle]; rfl, by rw [f5, hle]; rfl, by rw [f5, hle]; rfl, by rw [f5, hle]; rfl⟩
  have hr : t.le.r.toNat = 958 := by rw [f5]; exact hr0
  have W : EncoderWindow t.inp t.ip t.le 0 := by
    refine ⟨LzEnc.trees_empty hcan (fun x _ => hdad x) (fun x _ _ => hrs x), by rw [f5, hle]; rfl, hr, by omega, by rw [hin]; omega,
      by rw [hin]; omega, by omega, ?_, ?_, fun x hx => absurd (hdad x) hx.2⟩
    · intro u _ hu
      rw [hte, Nat.mod_eq_of_lt (by omega)]
      unfold streamAt
      rw [hin]
      by_cases g : u < 958
      · rw [if_pos g, if_neg (by omega)]
      · rw [if_neg g, if_pos (by omega)]
    · intro i hi
      rw [hte, hte, if_neg (by omega), if_neg (by omega)]
  have k := lzInsertFirst_ready W (fun x hx => hx.2 (hdad x)) hr
  clear hte hdad hrs hcan W f1 f2 f3 f4 f5 hin
  generalize lzInsertFirst t.le = d at k ⊢
  obtain ⟨k1, k2, k3⟩ := k
  refine ⟨⟨?_, fun _ => ?_⟩, ?_⟩
  · exact k1
  · exact k2
  · exact k3

/-- How many bytes an LZSS token produces (R68, R69). -/
def lzProduces : Instr → Nat
  | .lzLit _ => 1
  | .lzRef _ lraw => lraw.toNat + 3
  | _ => 0

/-- The token stands for the input bytes from `pos` on: a literal is the next one, a pair names a string of the window
that is the same as the next ones. -/
def lzCodes (raw : Bytes) (pos : Nat) : Instr → Prop
  | .lzLit c => raw[pos]? = some c
  | .lzRef off lraw => pos + (lraw.toNat + 3) ≤ raw.length ∧ ∃ t, pos ≤ t ∧ t < pos + 958 ∧ off.toNat = t % 1024 ∧
      ∀ k, k < lraw.toNat + 3 → streamAt raw (t + k) = streamAt raw (pos + 958 + k)
  | _ => False

/-- The tokens stand for the input bytes from `pos` to `stop`. -/
def lzCodesAll (raw : Bytes) : Nat → List Instr → Nat → Prop
  | pos, [], stop => stop = pos
  | pos, i :: is, stop => lzCodes raw pos i ∧ lzCodesAll raw (pos + lzProduces i) is stop

/-- Two runs of tokens, one after the other. -/
theorem lzCodesAll_append {raw : Bytes} {pos mid stop : Nat} {is js : List Instr} (h : lzCodesAll raw pos is mid)
    (k : lzCodesAll raw mid js stop) : lzCodesAll raw pos (is ++ js) stop := by
  induction is generalizing pos with
  | nil => cases h; exact k
  | cons i is ih => exact ⟨h.1, ih h.2⟩

/-- A run of tokens, cut in two. -/
theorem lzCodesAll_split {raw : Bytes} {pos stop : Nat} {is js : List Instr} (h : lzCodesAll raw pos (is ++ js) stop) :
    ∃ mid, lzCodesAll raw pos is mid ∧ lzCodesAll raw mid js stop := by
  induction is generalizing pos with
  | nil => exact ⟨pos, rfl, h⟩
  | cons i is ih => obtain ⟨mid, h1, h2⟩ := ih h.2; exact ⟨mid, ⟨h.1, h1⟩, h2⟩

theorem lzCodes_isLzToken {raw : Bytes} {pos : Nat} {i : Instr} (h : lzCodes raw pos i) : isLzToken i = true := by
  cases i <;> first | rfl | exact absurd h (by simp [lzCodes])

theorem lzCodesAll_isLzToken {raw : Bytes} {pos stop : Nat} {is : List Instr} (h : lzCodesAll raw pos is stop) :
    ∀ i ∈ is, isLzToken i = true := by
  induction is generalizing pos with
  | nil => simp
  | cons j js ih =>
    intro i hi
    rcases List.mem_cons.mp hi with rfl | hi
    · exact lzCodes_isLzToken h.1
    · exact ih h.2 i hi

/-- The flag byte of a group. -/
def lzGroupFlags (ts : List Instr) : Byte := (BitVec.ofBoolListLE (ts.map isLiteral)).setWidth 8

/-- Flag bit `j` says whether token `j` is a literal. -/
theorem lzGroupFlags_getLsbD (ts : List Instr) (j : Nat) (hj : j < 8) :
    (lzGroupFlags ts).getLsbD j = (ts.map isLiteral).getD j false := by
  rw [lzGroupFlags, BitVec.getLsbD_setWidth, BitVec.getLsbD_ofBoolListLE]; simp [hj]

/-- A group is its flags and then its tokens' bytes. -/
theorem lzGroupBytes_eq (p : Params) (ts : List Instr) : lzGroupBytes p ts = lzGroupFlags ts :: ts.flatMap (encode p) := rfl

/-- One more token sets its flag bit when it is a literal. -/
theorem lzGroupFlags_snoc (ts : List Instr) (i : Instr) (h : ts.length < 8) :
    lzGroupFlags (ts ++ [i]) = if isLiteral i then lzGroupFlags ts ||| ((1 : Byte) <<< ts.length) else lzGroupFlags ts := by
  apply BitVec.eq_of_getLsbD_eq
  intro j hj
  have key : (lzGroupFlags (ts ++ [i])).getLsbD j = ((lzGroupFlags ts).getLsbD j || (decide (j = ts.length) && isLiteral i)) := by
    rw [lzGroupFlags_getLsbD _ _ hj, lzGroupFlags_getLsbD _ _ hj, List.map_append]
    simp only [List.getD_eq_getElem?_getD, List.getElem?_append, List.length_map, List.map_cons, List.map_nil]
    rcases Nat.lt_trichotomy j ts.length with g | g | g
    · rw [if_pos g]; simp [Nat.ne_of_lt g]
    · rw [if_neg (by omega), g]; simp
    · rw [if_neg (by omega)]
      rw [List.getElem?_eq_none (by simp; omega), List.getElem?_eq_none (by simp; omega)]
      simp [Nat.ne_of_gt g]
  rw [key]
  have h1 : ∀ n : Nat, n < 8 → ∀ j : Nat, j < 8 → ((1 : Byte) <<< n).getLsbD j = decide (j = n) := by decide
  split_ifs with g
  · rw [BitVec.getLsbD_or, h1 _ h _ hj, g]; simp
  · simp [g]

/-- The bytes at the first `n` places of a memory. -/
def firstBytes (m : Mem) (n : Nat) : Bytes := (List.range n).map (fun a => Mem.read m a)

/-- Writing the byte after the first `n` appends it. -/
theorem firstBytes_write_end (m : Mem) (hw : Memory.wf m = true) (n : Nat) (v : Byte) :
    firstBytes (Mem.write m n v) (n + 1) = firstBytes m n ++ [v] := by
  unfold firstBytes
  rw [List.range_succ, List.map_append]
  simp only [List.map_cons, List.map_nil, Mem.read_write_self _ _ _ hw]
  congr 1
  apply List.map_congr_left
  intro a ha
  exact Mem.read_write_ne _ _ (by have := List.mem_range.mp ha; omega)

/-- Writing byte 0 replaces the head. -/
theorem firstBytes_write_zero (m : Mem) (hw : Memory.wf m = true) (n : Nat) (v : Byte) :
    firstBytes (Mem.write m 0 v) (n + 1) = v :: (firstBytes m (n + 1)).tail := by
  unfold firstBytes
  rw [List.range_succ_eq_map]
  simp only [List.map_cons, List.map_map, Mem.read_write_self _ _ _ hw, List.tail_cons]
  congr 1
  apply List.map_congr_left
  intro a _
  exact Mem.read_write_ne _ _ (by simp)

/-- An LZSS token has one or two bytes. -/
theorem encode_length_le (p : Params) {i : Instr} (h : isLzToken i = true) : 1 ≤ (encode p i).length ∧
    (encode p i).length ≤ 2 := by
  cases i <;> first | (simp [encode]; done) | exact absurd h (by simp [isLzToken])

/-- The tokens of a group have at most two bytes each. -/
theorem flatMap_encode_length (p : Params) (ts : List Instr) (h : ∀ i ∈ ts, isLzToken i = true) :
    ts.length ≤ (ts.flatMap (encode p)).length ∧ (ts.flatMap (encode p)).length ≤ 2 * ts.length := by
  induction ts with
  | nil => simp
  | cons i ts ih =>
    have a := encode_length_le p (h i (by simp))
    have b := ih (fun j hj => h j (by simp [hj]))
    simp only [List.flatMap_cons, List.length_append, List.length_cons]; omega

/-- What `out` and `code_buf` hold with `pos` input bytes coded: full groups, and the group being gathered. -/
def tokensGathered (s : State) (pos : Nat) : Prop :=
  ∃ (gs : List (List Instr)) (g : List Instr), (∀ x ∈ gs, x.length = 8) ∧ g.length < 8 ∧
    s.out = gs.flatMap (lzGroupBytes s.params) ∧ s.le.mask = (1 : Byte) <<< g.length ∧
    codeBytes s.le = lzGroupBytes s.params g ∧ lzCodesAll s.inp 0 (gs.flatten ++ g) pos

/-- The window depends on the text, the trees and the counters alone. -/
theorem EncoderWindow.congr {raw : Bytes} {ip pos : Nat} {e e' : LzEnc} (W : EncoderWindow raw ip e pos)
    (hc : e'.canonical)
    (h1 : e'.text = e.text) (h2 : e'.lson = e.lson) (h3 : e'.rson = e.rson) (h4 : e'.dad = e.dad) (h5 : e'.s = e.s)
    (h6 : e'.r = e.r) (h7 : e'.len = e.len) : EncoderWindow raw ip e' pos := by
  have ht : e'.textAt = e.textAt := by unfold LzEnc.textAt; rw [h1]
  have hv : e'.view = e.view := by
    simp only [LzEnc.view, LinkView.mk.injEq]
    refine ⟨?_, ?_, ?_⟩ <;> funext a <;> simp only [LzEnc.lsonAt, LzEnc.rsonAt, LzEnc.dadAt, h2, h3, h4]
  refine ⟨⟨hc, ?_⟩, h5 ▸ W.s, h6 ▸ W.r, h7 ▸ W.ip_eq, W.ip_le, h7 ▸ W.full, h7 ▸ W.len_le, ht ▸ W.text, ht ▸ W.mirror, hv ▸ W.nodes⟩
  rw [hv, LzEnc.key_of_text ht]; exact W.trees.2

/-- The token a round codes. -/
def lzRoundToken (e : LzEnc) : Instr :=
  if (lzTokenLength e).toNat < 3 then .lzLit (e.textAt e.r.toNat)
  else .lzRef e.matchPosition ((lzTokenLength e - 3).setWidth 6)

/-- A coded length is 1, or the match length, which is then at least 3 and within the lookahead. -/
theorem lzTokenLength_cases {e : LzEnc} (hl : e.len.toNat ≠ 0) :
    ((lzTokenLength e).toNat = 1 ∨ 3 ≤ (lzTokenLength e).toNat) ∧ (lzTokenLength e).toNat ≤ e.len.toNat ∧
    (3 ≤ (lzTokenLength e).toNat → (lzTokenLength e).toNat ≤ e.matchLength.toNat) := by
  unfold lzTokenLength
  simp only [Config.lzThreshold]
  have h1 : (1 : BitVec 7).toNat = 1 := rfl
  split_ifs <;> (try rw [h1]) <;> omega

/-- A round's token stands for the next input bytes. -/
theorem lzRoundToken_codes {s : State} {pos : Nat} (R : encoderReady s pos) (hl : s.le.len.toNat ≠ 0) :
    lzCodes s.inp pos (lzRoundToken s.le) ∧ lzProduces (lzRoundToken s.le) = (lzTokenLength s.le).toNat := by
  obtain ⟨W, hm⟩ := R
  obtain ⟨c1, c2, c3⟩ := lzTokenLength_cases hl
  have hm := hm hl
  have hip := W.ip_eq; have hle := W.ip_le
  unfold lzRoundToken
  split_ifs with g
  · refine ⟨?_, by simp only [lzProduces]; omega⟩
    have a := W.string (t := pos + 958) (k := 0) (by omega) (by omega) (by omega)
    simp only [Nat.add_zero] at a
    simp only [lzCodes]
    rw [streamAt_input s.inp (i := pos) (by omega), ← a, W.r]
  · have h66 := hm.1
    have e3 : (lzTokenLength s.le - 3).toNat = (lzTokenLength s.le).toNat - 3 := by
      rw [BitVec.toNat_sub]; have h3 : (3 : BitVec 7).toNat = 3 := rfl
      have := (lzTokenLength s.le).isLt
      rw [h3]; omega
    have e6 : ((lzTokenLength s.le - 3).setWidth 6).toNat = (lzTokenLength s.le).toNat - 3 := by
      rw [BitVec.toNat_setWidth, e3]; have := c3 (by omega); omega
    refine ⟨?_, by simp only [lzProduces, e6]; omega⟩
    simp only [lzCodes, e6]
    have cc := c3 (by omega)
    refine ⟨by omega, ?_⟩
    rcases hm.2 with h0 | ⟨⟨t, t1, t2, t3⟩, hk⟩
    · have : s.le.matchLength.toNat = 0 := by rw [h0]; rfl
      omega
    · refine ⟨t, t1, t2, t3, fun k hk' => ?_⟩
      have a := hk k (by omega)
      rw [t3, W.string t1 (by omega) (by omega), W.r, W.string (t := pos + 958) (by omega) (by omega) (by omega)] at a
      exact a

/-- Putting a token changes the gathered bytes and the match length alone. -/
theorem lzPutToken_frame (l : PairLayout) (e : LzEnc) : lzPutToken l e = { e with
    matchLength := lzTokenLength e, codeBuf := (lzPutToken l e).codeBuf, codeBufPtr := (lzPutToken l e).codeBufPtr } := by
  unfold lzPutToken; simp only; split <;> rfl

/-- A round's token joins the group being gathered. -/
theorem lzPutToken_gathers {p : Params} {e : LzEnc} {g : List Instr} (hg : g.length < 8)
    (hgt : ∀ i ∈ g, isLzToken i = true)
    (hw : Memory.wf e.codeBuf = true) (hm : e.mask = (1 : Byte) <<< g.length) (hb : codeBytes e = lzGroupBytes p g) :
    codeBytes (lzPutToken p.pair e) = lzGroupBytes p (g ++ [lzRoundToken e]) := by
  have hlen : e.codeBufPtr.toNat = 1 + (g.flatMap (encode p)).length := by
    have := congrArg List.length hb
    simp only [codeBytes, List.length_map, List.length_range, lzGroupBytes_eq, List.length_cons] at this
    omega
  have hfl := flatMap_encode_length p g hgt
  have hb' : firstBytes e.codeBuf (1 + (g.flatMap (encode p)).length) = lzGroupFlags g :: g.flatMap (encode p) := by
    rw [← hlen]; exact hb
  rw [Nat.add_comm 1] at hb' hlen
  have h1 : (1 : BitVec 5).toNat = 1 := rfl
  have h2 : (2 : BitVec 5).toNat = 2 := rfl
  have h0 : Mem.read e.codeBuf 0 = lzGroupFlags g := by
    have := congrArg List.head? hb'
    unfold firstBytes at this
    rw [List.range_succ_eq_map] at this
    simpa using this
  rw [lzGroupBytes_eq, lzGroupFlags_snoc _ _ hg, List.flatMap_append]
  unfold lzPutToken lzRoundToken
  simp only [Config.lzThreshold]
  split_ifs with c1 c2 c3
  · have hp : (e.codeBufPtr + 1).toNat = (g.flatMap (encode p)).length + 1 + 1 := by
      rw [BitVec.toNat_add, hlen, h1]; omega
    show firstBytes _ (e.codeBufPtr + 1).toNat = _
    rw [hp, ← hlen, firstBytes_write_end _ (Mem.write_wf _ _ _ hw), hlen, firstBytes_write_zero _ hw, hb', h0, hm]
    simp [encode]
  · simp [isLiteral] at c2
  · simp [isLiteral] at c3
  · have hp : (e.codeBufPtr + 2).toNat = (g.flatMap (encode p)).length + 1 + 1 + 1 := by
      rw [BitVec.toNat_add, hlen, h2]; omega
    show firstBytes _ (e.codeBufPtr + 2).toNat = _
    rw [hp, hlen, firstBytes_write_end _ (Mem.write_wf _ _ _ hw), firstBytes_write_end _ hw, hb']
    simp [encode]

/-- The gathered group goes to the output when it is full. -/
theorem lzPutMask_gathers {s : State} {gs : List (List Instr)} {g : List Instr} {i : Instr} {pos : Nat}
    (hgs : ∀ x ∈ gs, x.length = 8)
    (hg : g.length < 8) (hw : Memory.wf s.le.codeBuf = true) (ho : s.out = gs.flatMap (lzGroupBytes s.params))
    (hm : s.le.mask = (1 : Byte) <<< g.length) (hb : codeBytes s.le = lzGroupBytes s.params (g ++ [i]))
    (hc : lzCodesAll s.inp 0 (gs.flatten ++ (g ++ [i])) pos) : tokensGathered (lzPutMask s) pos := by
  have hmask : ∀ n : Nat, n < 8 → ((1 : Byte) <<< n) <<< (1 : Nat) = if n = 7 then 0 else (1 : Byte) <<< (n + 1) := by decide
  have hnz : ∀ n : Nat, n < 7 → ¬ (1 : Byte) <<< (n + 1) = 0 := by decide
  unfold lzPutMask
  simp only
  rw [hm, hmask _ hg]
  by_cases h7 : g.length = 7
  · rw [if_pos h7, if_pos rfl]
    refine ⟨gs ++ [g ++ [i]], [], ?_, by simp, ?_, rfl, ?_, ?_⟩
    · intro x hx
      rcases List.mem_append.mp hx with hx | hx
      · exact hgs x hx
      · simp only [List.mem_singleton] at hx; rw [hx]; simp [h7]
    · simp only [List.flatMap_append, List.flatMap_cons, List.flatMap_nil, List.append_nil]; rw [ho, hb]
    · show firstBytes (Mem.write s.le.codeBuf 0 0) 1 = _
      rw [firstBytes_write_zero _ hw]
      simp [firstBytes, lzGroupBytes_eq, lzGroupFlags]; rfl
    · simp only [List.flatten_append, List.flatten_cons, List.flatten_nil, List.append_nil]; exact hc
  · rw [if_neg h7, if_neg (hnz _ (by omega))]
    exact ⟨gs, g ++ [i], hgs, by simp; omega, ho, by simp, hb, hc⟩

/-- Moving on over the coded bytes. -/
theorem lzAdvanceBy_ready (m : Nat) {s : State} {pos : Nat} (W : EncoderWindow s.inp s.ip s.le pos) (h0 : m ≠ 0)
    (hl : m ≤ s.le.len.toNat) :
    encoderReady (lzAdvanceBy m s) (pos + m) ∧
    (lzAdvanceBy m s).le.codeBuf = s.le.codeBuf ∧ (lzAdvanceBy m s).le.codeBufPtr = s.le.codeBufPtr ∧
    (lzAdvanceBy m s).le.mask = s.le.mask ∧ (lzAdvanceBy m s).inp = s.inp ∧ (lzAdvanceBy m s).out = s.out := by
  induction m generalizing s pos with
  | zero => exact absurd rfl h0
  | succ m ih =>
    obtain ⟨a1, a2, a3, a4, a5, a6, a7⟩ := lzAdvance_ready W (by omega)
    rw [lzAdvanceBy]
    by_cases hm : m = 0
    · subst hm; exact ⟨a1, a3, a4, a5, a6, a7⟩
    · obtain ⟨b1, b2, b3, b4, b5, b6⟩ := ih a1.1 hm (by omega)
      exact ⟨by rw [show pos + (m + 1) = pos + 1 + m by omega]; exact b1, b2.trans a3, b3.trans a4, b4.trans a5, b5.trans a6, b6.trans a7⟩

/-- What the end of a token does to the encoder's registers. -/
theorem lzPutMask_le (s : State) : (lzPutMask s).le = { s.le with
    codeBuf := (lzPutMask s).le.codeBuf, codeBufPtr := (lzPutMask s).le.codeBufPtr, mask := (lzPutMask s).le.mask } := by
  unfold lzPutMask; simp only; split <;> rfl

/-- A round of the reference encoder (R104) codes the next input bytes: the trees, the window and the match stay as they
should be, and the group being gathered has one more token, which stands for these bytes. -/
theorem lzRound_codes {s : State} {pos : Nat} (R : encoderReady s pos) (G : tokensGathered s pos)
    (hl : s.le.len.toNat ≠ 0) :
    encoderReady (lzRound s) (pos + (lzTokenLength s.le).toNat) ∧ tokensGathered (lzRound s)
      (pos + (lzTokenLength s.le).toNat) := by
  obtain ⟨k1, k2⟩ := lzRoundToken_codes R hl
  obtain ⟨c1, c2, c3⟩ := lzTokenLength_cases hl
  obtain ⟨gs, g, g1, g2, g3, g4, g5, g6⟩ := G
  have hgt : ∀ i ∈ g, isLzToken i = true := fun i hi => lzCodesAll_isLzToken g6 i (by simp [hi])
  have hcan := R.1.trees.1
  have hput := lzPutToken_gathers (p := s.params) g2 hgt hcan.2.1 g4 g5
  have hpcan := lzPutToken_canonical s.params.pair _ hcan
  have hpf := lzPutToken_frame s.params.pair s.le
  have hcodes : lzCodesAll s.inp 0 (gs.flatten ++ (g ++ [lzRoundToken s.le])) (pos + (lzTokenLength s.le).toNat) := by
    rw [← List.append_assoc]
    refine lzCodesAll_append g6 ⟨k1, ?_⟩
    rw [k2]; rfl
  have G' := lzPutMask_gathers (s := { s with le := lzPutToken s.params.pair s.le }) g1 g2 hpcan.2.1 g3
    (by rw [hpf]; exact g4) hput hcodes
  have hf := lzPutMask_frame { s with le := lzPutToken s.params.pair s.le }
  have hle := lzPutMask_le { s with le := lzPutToken s.params.pair s.le }
  have hc := lzPutMask_canonical { s with le := lzPutToken s.params.pair s.le } hpcan
  have hin : (lzPutMask { s with le := lzPutToken s.params.pair s.le }).inp = s.inp := by rw [hf]
  have hip : (lzPutMask { s with le := lzPutToken s.params.pair s.le }).ip = s.ip := by rw [hf]
  have hlen : (lzPutMask { s with le := lzPutToken s.params.pair s.le }).le.len = s.le.len := by rw [hle]; simp only; rw [hpf]
  have W' : EncoderWindow (lzPutMask { s with le := lzPutToken s.params.pair s.le }).inp (lzPutMask { s with le := lzPutToken s.params.pair s.le }).ip
      (lzPutMask { s with le := lzPutToken s.params.pair s.le }).le pos := by
    rw [hin, hip]
    refine R.1.congr hc ?_ ?_ ?_ ?_ ?_ ?_ ?_ <;> rw [hle] <;> simp only <;> rw [hpf]
  have e : lzRound s = lzAdvanceBy (lzTokenLength s.le).toNat (lzPutMask { s with le := lzPutToken s.params.pair s.le }) := by
    unfold lzRound; simp only; rw [show (lzPutToken s.params.pair s.le).matchLength = lzTokenLength s.le by rw [hpf]]
  obtain ⟨b1, b2, b3, b4, b5, b6⟩ := lzAdvanceBy_ready (lzTokenLength s.le).toNat W' (by omega) (by rw [hlen]; exact c2)
  have hpar := congrArg State.params (lzAdvanceBy_frame (lzTokenLength s.le).toNat (lzPutMask { s with le := lzPutToken s.params.pair s.le }))
  rw [e]
  generalize lzPutMask { s with le := lzPutToken s.params.pair s.le } = u at *
  generalize lzAdvanceBy (lzTokenLength s.le).toNat u = v at *
  refine ⟨b1, ?_⟩
  obtain ⟨gs', g', G1, G2, G3, G4, G5, G6⟩ := G'
  refine ⟨gs', g', G1, G2, ?_, ?_, ?_, ?_⟩
  · rw [b6, G3, hpar]
  · rw [b4, G4]
  · rw [hpar, ← G5]; unfold codeBytes; rw [b2, b3]
  · rw [b5]; exact G6

/-- What the encoder returns once its lookahead is empty: groups of tokens that stand for the whole input. -/
theorem lzEncoded_codes {s : State} {pos : Nat} (R : encoderReady s pos) (G : tokensGathered s pos)
    (hl : s.le.len.toNat = 0) :
    ∃ gs : List (List Instr), lzEncoded s = gs.flatMap (lzGroupBytes s.params) ∧ groupsFull 8 gs ∧
      lzCodesAll s.inp 0 gs.flatten s.inp.length := by
  obtain ⟨gs, g, g1, g2, g3, g4, g5, g6⟩ := G
  have hpos : pos = s.inp.length := by
    have a := R.1.ip_eq; rcases R.1.full with h | h <;> omega
  subst hpos
  have hgt : ∀ i ∈ g, isLzToken i = true := fun i hi => lzCodesAll_isLzToken g6 i (by simp [hi])
  have hlen : s.le.codeBufPtr.toNat = 1 + (g.flatMap (encode s.params)).length := by
    have := congrArg List.length g5
    simp only [codeBytes, List.length_map, List.length_range, lzGroupBytes_eq, List.length_cons] at this
    omega
  have hfl := flatMap_encode_length s.params g hgt
  unfold lzEncoded
  by_cases hg : g = []
  · subst hg
    rw [if_neg (by rw [hlen]; simp)]
    refine ⟨gs, g3, ⟨fun x hx => by have := g1 x hx; omega, fun x hx => g1 x (List.dropLast_subset _ hx)⟩, by simpa using g6⟩
  · have : 0 < g.length := List.length_pos_iff.mpr hg
    rw [if_pos (by omega)]
    refine ⟨gs ++ [g], by rw [g3, g5]; simp, ⟨fun x hx => ?_, fun x hx => ?_⟩, by simpa using g6⟩
    · rcases List.mem_append.mp hx with hx | hx
      · have := g1 x hx; omega
      · simp only [List.mem_singleton] at hx; subst hx; omega
    · rw [List.dropLast_concat] at hx; exact g1 x hx

/-- The flag word after `i` takes: the flag byte's bit `i` next, not empty before the eighth take, empty after it (R26). -/
theorem lzFlags_shifted (b : Byte) (i : Nat) (hi : i < 8) :
    ((0x100 ||| b.setWidth 9 : BitVec 9) >>> i).getLsbD 0 = b.getLsbD i ∧
      ((0x100 ||| b.setWidth 9 : BitVec 9) >>> i) ≠ 1 := by
  have h8 : (0x100 : BitVec 9).getLsbD 8 = true := rfl
  constructor
  · interval_cases i <;> simp
  · intro h
    have := congrArg (fun w : BitVec 9 => w.getLsbD (8 - i)) h
    interval_cases i <;> simp at this

/-- After eight shifts only the sentinel is left. -/
theorem lzFlags_last (b : Byte) : (0x100 ||| b.setWidth 9 : BitVec 9) >>> (8 : Nat) = 1 := by
  apply BitVec.eq_of_getLsbD_eq
  intro i hi
  interval_cases i <;> simp

/-- The LZSS decoder with the first `pos` bytes of `raw` produced: what R94 to R97 hold at every token boundary. -/
structure DecoderAt (raw : Bytes) (s : State) (pos : Nat) : Prop where
  running : s.resetPending = false ∧ s.engine = .lzssDec
  pair : s.params.pair.wf = true
  n : s.n.toNat = raw.length
  out : s.out = raw.take pos
  pos_le : pos ≤ raw.length
  r : s.lz.r.toNat = (pos + 958) % 1024
  wf : Memory.wf s.lz.ring = true
  ring : ∀ t, pos ≤ t → t < pos + 958 → Mem.read s.lz.ring (t % 1024) = streamAt raw t

/-- The number of bytes put out is the position. -/
theorem DecoderAt.op {raw : Bytes} {s : State} {pos : Nat} (D : DecoderAt raw s pos) : s.op = pos := by
  have := D.pos_le
  unfold State.op; rw [D.out, List.length_take]; omega

/-- The next byte goes to the output and to the ring. -/
theorem DecoderAt.put {raw : Bytes} {s : State} {pos : Nat} (D : DecoderAt raw s pos) (hp : pos < raw.length) {c : Byte}
    (hc : c = streamAt raw (pos + 958)) : DecoderAt raw (ringPut c (emit c s)) (pos + 1) := by
  have hr := D.r
  have e1 : (1 : BitVec 10).toNat = 1 := rfl
  refine ⟨D.running, D.pair, D.n, ?_, hp, ?_, ?_, ?_⟩
  · show s.out ++ [c] = _
    rw [D.out, hc]
    have := streamAt_input raw hp
    rw [List.take_add_one, this]; rfl
  · show (s.lz.r + 1).toNat = _
    rw [BitVec.toNat_add, e1, hr]; omega
  · exact Mem.write_wf _ _ _ D.wf
  · intro t h1 h2
    show Mem.read (Mem.write s.lz.ring s.lz.r.toNat c) (t % 1024) = _
    by_cases g : t = pos + 958
    · subst g; rw [hr, Mem.read_write_self _ _ _ D.wf, hc]
    · rw [Mem.read_write_ne _ _ (by rw [hr]; omega)]; exact D.ring t (by omega) (by omega)

/-- The copy loop of `LZ.REF` gives back the string of the window. -/
theorem DecoderAt.copy {raw : Bytes} (m : Nat) {s : State} {pos t : Nat} (D : DecoderAt raw s pos)
    (hp : pos + m ≤ raw.length)
    (h1 : pos ≤ t + s.lz.k.toNat) (h2 : t + s.lz.k.toNat < pos + 958) (ho : s.lz.off.toNat = t % 1024)
      (hk : s.lz.k.toNat + m < 128)
    (he : ∀ k, k < m → streamAt raw (t + s.lz.k.toNat + k) = streamAt raw (pos + 958 + k)) :
    DecoderAt raw (lzCopy m s) (pos + m) := by
  induction m generalizing s pos with
  | zero => exact D
  | succ m ih =>
    rw [lzCopy_succ]
    have e1 : (1 : BitVec 7).toNat = 1 := rfl
    have hc : ringAt s (s.lz.off.toNat + s.lz.k.toNat) = streamAt raw (pos + 958) := by
      unfold ringAt
      have := D.ring (t + s.lz.k.toNat) h1 h2
      rw [ho, show (t % 1024 + s.lz.k.toNat) % Config.lzWindow = (t + s.lz.k.toNat) % 1024 by simp only [Config.lzWindow]; omega, this]
      exact he 0 (by omega)
    have D0 : DecoderAt raw { s with lz := { s.lz with c := ringAt s (s.lz.off.toNat + s.lz.k.toNat), k := s.lz.k + 1 } } pos :=
      ⟨D.running, D.pair, D.n, D.out, D.pos_le, D.r, D.wf, D.ring⟩
    have D1 : DecoderAt raw (lzCopyByte s) (pos + 1) := D0.put (by omega) hc
    have hk' : (lzCopyByte s).lz.k.toNat = s.lz.k.toNat + 1 := by
      show (s.lz.k + 1).toNat = _
      rw [BitVec.toNat_add, e1]; omega
    have := ih D1 (by omega) (by omega) (by omega) ho (by omega) (fun k hk => by
      rw [hk', show t + (s.lz.k.toNat + 1) + k = t + s.lz.k.toNat + (k + 1) by omega, he (k + 1) (by omega)]; congr 1; omega)
    rw [show pos + (m + 1) = pos + 1 + m by omega]; exact this

/-- A token that stands for the next bytes gives them back. -/
theorem DecoderAt.token {raw : Bytes} {s : State} {pos : Nat} {i : Instr} {rest : Bytes} (D : DecoderAt raw s pos)
    (hf : s.lz.flags ≠ 1) (hb : s.lz.flags.getLsbD 0 = isLiteral i) (hi : lzCodes raw pos i)
    (hin : s.inp.drop s.ip = encode s.params i ++ rest) :
    ∃ t, step s = .next t ∧ DecoderAt raw t (pos + lzProduces i) ∧ t.ip = s.ip + (encode s.params i).length ∧
      t.lz.flags = s.lz.flags >>> 1 ∧ t.inp = s.inp ∧ t.params = s.params ∧ t.n = s.n := by
  obtain ⟨hr, he⟩ := D.running
  have hop := D.op
  have hn := D.n
  have hlt : pos < raw.length := by
    cases i <;> simp only [lzCodes] at hi
    · by_contra g; rw [List.getElem?_eq_none (by omega)] at hi; cases hi
    · omega
  have hfetch : fetch s = runDecoded (decode s.params (.lzToken (isLiteral i)) (encode s.params i ++ rest)) (lzTake s) := by
    simp only [fetch, he, fetchLzss]
    rw [if_pos (by omega), if_neg (by simp only [lzFlagsEmpty, decide_eq_true_eq]; exact hf)]
    unfold lzFlag inputAtCursor; rw [hb, hin]
  have DT : DecoderAt raw (lzTake s) pos := ⟨D.running, D.pair, D.n, D.out, D.pos_le, D.r, D.wf, D.ring⟩
  have hstep : ∀ t, exec i (lzTake s) = .next t → fetch s = .run i (lzTake s) → step s = .next t := by
    intro t h1 h2; unfold step; rw [hr, h2]; exact h1
  cases i <;> simp only [lzCodes] at hi
  case lzLit c =>
    have hc : c = streamAt raw (pos + 958) := by
      have := streamAt_input raw hlt; rw [hi] at this; exact Option.some.inj this
    refine ⟨ringPut c (emit c { lzTake s with ip := (lzTake s).ip + 1, lz := { (lzTake s).lz with c := c } }),
      hstep _ (by simp only [exec, execLzLit]; rw [if_pos (by show s.op < s.n.toNat; omega)]) (by rw [hfetch]; rfl), ?_, rfl, rfl, rfl, rfl, rfl⟩
    have D0 : DecoderAt raw { lzTake s with ip := (lzTake s).ip + 1, lz := { (lzTake s).lz with c := c } } pos :=
      ⟨D.running, D.pair, D.n, D.out, D.pos_le, D.r, D.wf, D.ring⟩
    exact D0.put hlt hc
  case lzRef off lraw =>
    obtain ⟨h1, t, h2, h3, h4, h5⟩ := hi
    have hdec : decode s.params (.lzToken (isLiteral (.lzRef off lraw))) (encode s.params (.lzRef off lraw) ++ rest) = .instr (.lzRef off lraw) := by
      show decodeLzRef s.params.pair (encode s.params (.lzRef off lraw) ++ rest) = _
      obtain ⟨p1, p2⟩ := pair_read s.params.pair D.pair off lraw
      simp only [encode, List.cons_append, List.nil_append, decodeLzRef, p1, p2]
    have hlen : (lzRefOperands off lraw (lzTake s)).lz.len.toNat = lraw.toNat + 3 := by
      show (lraw.setWidth 7 + 3 : BitVec 7).toNat = _
      have e3 : (3 : BitVec 7).toNat = 3 := rfl
      have := lraw.isLt
      rw [BitVec.toNat_add, BitVec.toNat_setWidth, e3]; omega
    have hover : overruns (lzRefOperands off lraw (lzTake s)) (lzRefOperands off lraw (lzTake s)).lz.len.toNat = false := by
      unfold overruns; rw [hlen]; apply decide_eq_false
      show ¬ s.n.toNat < s.op + (lraw.toNat + 3); omega
    have hexec : exec (.lzRef off lraw) (lzTake s) = .next (lzCopy (lraw.toNat + 3) (lzRefOperands off lraw (lzTake s))) := by
      simp only [exec, execLzRef]; rw [hover, hlen]; rfl
    have D0 : DecoderAt raw (lzRefOperands off lraw (lzTake s)) pos := ⟨D.running, D.pair, D.n, D.out, D.pos_le, D.r, D.wf, D.ring⟩
    have hlr := lraw.isLt
    have hk0 : (lzRefOperands off lraw (lzTake s)).lz.k.toNat = 0 := rfl
    have DC := D0.copy (lraw.toNat + 3) (t := t) (by omega) (by rw [hk0]; omega) (by rw [hk0]; omega) h4 (by rw [hk0]; omega)
      (fun k hk => by rw [hk0]; exact h5 k hk)
    have hfr := lzCopy_frame (lraw.toNat + 3) (lzRefOperands off lraw (lzTake s))
    refine ⟨_, hstep _ hexec (by rw [hfetch, hdec]; rfl), DC, ?_, ?_, ?_, ?_, ?_⟩ <;> rw [hfr] <;> rfl

/-- A run of some number of steps leads from `s` to `t`. -/
def reaches (s t : State) : Prop := ∃ k, Host.Core.run Sys2Proof.core k s = .next t

theorem reaches_refl (s : State) : reaches s s := ⟨0, rfl⟩

theorem reaches_step {s t u : State} (h : step s = .next t) (k : reaches t u) : reaches s u := by
  obtain ⟨k, hk⟩ := k
  refine ⟨k + 1, ?_⟩
  have h' : Host.Core.step Sys2Proof.core s = .next t := h
  simp only [Host.Core.run, h']; exact hk

theorem reaches_trans {s t u : State} (h : reaches s t) (k : reaches t u) : reaches s u := by
  obtain ⟨n, hn⟩ := h
  induction n generalizing s with
  | zero => cases hn; exact k
  | succ n ih =>
    simp only [Host.Core.run] at hn
    cases e : Host.Core.step Sys2Proof.core s with
    | next v => rw [e] at hn; exact reaches_step e (ih hn)
    | fault r => rw [e] at hn; cases hn
    | refused r => rw [e] at hn; cases hn

/-- The tokens of a group, from the `done`-th on. -/
theorem DecoderAt.tokens {raw : Bytes} {f : Byte} (is : List Instr) (done : Nat) {s : State} {pos stop : Nat}
    {rest : Bytes}
    (D : DecoderAt raw s pos) (hd : done + is.length ≤ 8) (hf : s.lz.flags = (0x100 ||| f.setWidth 9 : BitVec 9) >>> done)
    (hb : ∀ j, j < is.length → f.getLsbD (done + j) = (is.map isLiteral).getD j false)
    (hi : lzCodesAll raw pos is stop) (hin : s.inp.drop s.ip = is.flatMap (encode s.params) ++ rest) :
    ∃ t, reaches s t ∧ DecoderAt raw t stop ∧ t.ip = s.ip + (is.flatMap (encode s.params)).length ∧
      t.lz.flags = (0x100 ||| f.setWidth 9 : BitVec 9) >>> (done + is.length) ∧ t.inp = s.inp ∧ t.params = s.params ∧
        t.n = s.n := by
  induction is generalizing s pos done with
  | nil => cases hi; exact ⟨s, reaches_refl s, D, by simp, by simpa using hf, rfl, rfl, rfl⟩
  | cons i is ih =>
    simp only [List.length_cons] at hd hb
    obtain ⟨f1, f2⟩ := lzFlags_shifted f done (by omega)
    have hb0 := hb 0 (by omega)
    simp only [Nat.add_zero, List.map_cons, List.getD_cons_zero] at hb0
    obtain ⟨t, t1, t2, t3, t4, t5, t6, t7⟩ := D.token (rest := is.flatMap (encode s.params) ++ rest) (by rw [hf]; exact f2)
      (by rw [hf, f1, hb0]) hi.1 (by rw [hin]; simp)
    obtain ⟨u, u1, u2, u3, u4, u5, u6, u7⟩ := ih (done + 1) t2 (by omega) (by rw [t4, hf, ← BitVec.shiftRight_add])
      (fun j hj => by
        have := hb (j + 1) (by omega)
        rw [show done + 1 + j = done + (j + 1) by omega, this]; simp)
      hi.2 (by
        rw [t5, t3, t6, ← List.drop_drop, hin]; simp)
    refine ⟨u, reaches_step t1 u1, u2, ?_, ?_, u5.trans t5, u6.trans t6, u7.trans t7⟩
    · rw [u3, t3, t6]; simp; omega
    · rw [u4]; congr 1; simp only [List.length_cons]; omega

/-- A group of tokens. -/
theorem DecoderAt.group {raw : Bytes} {g : List Instr} {s : State} {pos stop : Nat} {rest : Bytes}
    (D : DecoderAt raw s pos)
    (h0 : g ≠ []) (h8 : g.length ≤ 8) (hf : s.lz.flags = 1) (hi : lzCodesAll raw pos g stop)
    (hin : s.inp.drop s.ip = lzGroupBytes s.params g ++ rest) :
    ∃ t, reaches s t ∧ DecoderAt raw t stop ∧ t.ip = s.ip + (lzGroupBytes s.params g).length ∧
      (g.length = 8 → t.lz.flags = 1) ∧ t.inp = s.inp ∧ t.params = s.params ∧ t.n = s.n := by
  obtain ⟨hr, he⟩ := D.running
  have hop := D.op
  have hn := D.n
  have hlt : pos < raw.length := by
    cases g with
    | nil => exact absurd rfl h0
    | cons i is =>
      have := hi.1
      cases i <;> simp only [lzCodes] at this
      · by_contra g; rw [List.getElem?_eq_none (by omega)] at this; cases this
      · omega
  have hstep : step s = .next (lzRefill (lzGroupFlags g) { s with ip := s.ip + 1 }) := by
    unfold step; rw [if_neg (by simp [hr])]
    have : fetch s = .run (.lzFlag (lzGroupFlags g)) s := by
      simp only [fetch, he, fetchLzss]
      rw [if_pos (by omega), if_pos (by simp [lzFlagsEmpty, hf])]
      unfold inputAtCursor; rw [hin]; rfl
    rw [this]; rfl
  have D1 : DecoderAt raw (lzRefill (lzGroupFlags g) { s with ip := s.ip + 1 }) pos :=
    ⟨D.running, D.pair, D.n, D.out, D.pos_le, D.r, D.wf, D.ring⟩
  obtain ⟨t, t1, t2, t3, t4, t5, t6, t7⟩ := D1.tokens (f := lzGroupFlags g) (rest := rest) g 0 (by omega) rfl
    (fun j hj => by rw [Nat.zero_add]; exact lzGroupFlags_getLsbD g j (by omega)) hi (by
      show s.inp.drop (s.ip + 1) = _
      rw [← List.drop_drop, hin]; rfl)
  refine ⟨t, reaches_step hstep t1, t2, ?_, fun h => ?_, t5, t6, t7⟩
  · rw [t3, lzGroupBytes_eq]; show s.ip + 1 + _ = _; simp only [List.length_cons]; show s.ip + 1 + (g.flatMap (encode s.params)).length = _; omega
  · rw [t4, h]; exact lzFlags_last _

/-- A sequence of groups. -/
theorem DecoderAt.groups {raw : Bytes} (gs : List (List Instr)) {s : State} {pos stop : Nat} {rest : Bytes}
    (D : DecoderAt raw s pos)
    (hg : groupsFull 8 gs) (hf : s.lz.flags = 1) (hi : lzCodesAll raw pos gs.flatten stop)
    (hin : s.inp.drop s.ip = gs.flatMap (lzGroupBytes s.params) ++ rest) :
    ∃ t, reaches s t ∧ DecoderAt raw t stop ∧ t.ip = s.ip + (gs.flatMap (lzGroupBytes s.params)).length ∧
      t.inp = s.inp ∧ t.params = s.params ∧ t.n = s.n := by
  induction gs generalizing s pos with
  | nil => cases hi; exact ⟨s, reaches_refl s, D, by simp, rfl, rfl, rfl⟩
  | cons g gs ih =>
    rw [List.flatten_cons] at hi
    obtain ⟨mid, i1, i2⟩ := lzCodesAll_split hi
    have hg0 := hg.1 g (by simp)
    obtain ⟨t, t1, t2, t3, t4, t5, t6, t7⟩ := D.group (rest := gs.flatMap (lzGroupBytes s.params) ++ rest)
      (by rintro rfl; simp at hg0) hg0.2 hf i1 (by rw [hin]; simp)
    cases gs with
    | nil =>
      cases i2
      exact ⟨t, t1, t2, by simpa using t3, t5, t6, t7⟩
    | cons g2 gs =>
      have h8 : g.length = 8 := hg.2 g (by simp)
      obtain ⟨u, u1, u2, u3, u4, u5, u6⟩ := ih t2 ⟨fun x hx => hg.1 x (by simp [hx]), fun x hx => hg.2 x (by
        rw [List.dropLast_cons_of_ne_nil (by simp)]; exact List.mem_cons_of_mem _ hx)⟩ (t4 h8) i2 (by
          rw [t5, t3, t6, ← List.drop_drop, hin]; simp)
      refine ⟨u, reaches_trans t1 u1, u2, ?_, u4.trans t5, u5.trans t6, u6.trans t7⟩
      have e : ((g :: g2 :: gs).flatMap (lzGroupBytes s.params)).length =
          (lzGroupBytes s.params g).length + ((g2 :: gs).flatMap (lzGroupBytes s.params)).length := by
        rw [List.flatMap_cons, List.length_append]
      rw [e, u3, t3, t6]; omega

/-- Groups of tokens that stand for the whole input decode to it (R102). -/
theorem lzCodes_decodesTo {p : Params} (hp : p.pair.wf = true) {raw : Bytes} (hl : raw.length < 2 ^ 32)
    {gs : List (List Instr)}
    (hg : groupsFull 8 gs) (hi : lzCodesAll raw 0 gs.flatten raw.length) :
    decodesTo (startLzssDec (gs.flatMap (lzGroupBytes p)) (BitVec.ofNat 32 raw.length) { params := p }) raw
      (gs.flatMap (lzGroupBytes p)).length := by
  have hn : (BitVec.ofNat 32 raw.length).toNat = raw.length := by rw [BitVec.toNat_ofNat]; exact Nat.mod_eq_of_lt hl
  have D : DecoderAt raw (startLzssDec (gs.flatMap (lzGroupBytes p)) (BitVec.ofNat 32 raw.length) { params := p }) 0 := by
    refine ⟨⟨rfl, rfl⟩, hp, hn, by simp [startLzssDec], by omega, rfl, rfl, ?_⟩
    intro t _ ht
    unfold streamAt; rw [if_pos (by omega)]; rfl
  obtain ⟨t, ⟨k, t1⟩, t2, t3, t4, t5, t6⟩ := D.groups (rest := []) gs hg rfl hi (by simp [startLzssDec])
  refine ⟨k, t, t1, t2.running.2, by rw [t2.out, List.take_length], by rw [t2.op, t2.n], ?_⟩
  rw [t3]; show 0 + _ = _; simp [startLzssDec]

/-- Only the trees and the match are written by an insertion. -/
theorem insertFrom_same (r fuel : Nat) (cmp : Int) (p : Nat)
    (e : LzEnc) : sameButTrees e (insertFrom r fuel cmp p e) := by
  induction fuel generalizing cmp p e with
  | zero => rfl
  | succ fuel ih =>
    unfold insertFrom
    simp only
    generalize (if 0 ≤ cmp then e.rsonAt p else e.lsonAt p) = q
    split
    · split <;> rfl
    · split
      · split
        · exact sameButTrees.trans (b := { e with matchPosition := BitVec.ofNat 10 q, matchLength := _ }) rfl (replaceNode_same _ _ _).trees
        · exact sameButTrees.trans (b := { e with matchPosition := BitVec.ofNat 10 q, matchLength := _ }) rfl (ih _ _ _)
      · exact ih _ _ _

/-- An insertion changes links and the match alone. -/
theorem insertNode_same (r : Nat) (e : LzEnc) : sameButTrees e (insertNode r e) := by
  unfold insertNode
  exact sameButTrees.trans (b := { (e.setRson r nilIndex).setLson r nilIndex with matchLength := 0 }) rfl (insertFrom_same _ _ _ _ _)

/-- The first insertions change links and the match alone. -/
theorem lzInsertFirst_same (e : LzEnc) : sameButTrees e (lzInsertFirst e) := by
  unfold lzInsertFirst
  have : ∀ (l : List Nat) (e : LzEnc), sameButTrees e (l.foldl (fun e j => insertNode (e.r.toNat - (j + 1)) e) e) := by
    intro l
    induction l with
    | nil => exact fun e => rfl
    | cons a l ih => exact fun e => (insertNode_same _ e).trans (ih _)
  exact (this _ _).trans (insertNode_same _ _)

/-- One position on (R104), but for the trees and the match: the next input byte, if there is one, takes the place of the
oldest byte of `text` and of its copy; else the lookahead shrinks. -/
theorem lzAdvance_spec (s : State) (hw : Memory.wf s.le.text = true) :
    (lzAdvance s).le.s = s.le.s + 1 ∧ (lzAdvance s).le.r = s.le.r + 1 ∧ Memory.wf (lzAdvance s).le.text = true ∧
    (lzAdvance s).le.codeBuf = s.le.codeBuf ∧ (lzAdvance s).le.codeBufPtr = s.le.codeBufPtr ∧
      (lzAdvance s).le.mask = s.le.mask ∧
    ((s.inp.length ≤ s.ip ∧ (lzAdvance s).ip = s.ip ∧ (lzAdvance s).le.len = s.le.len - 1 ∧
      (lzAdvance s).le.text = s.le.text) ∨
     (s.ip < s.inp.length ∧ (lzAdvance s).ip = s.ip + 1 ∧ (lzAdvance s).le.len = s.le.len ∧
      ∀ a, a < 1089 → Mem.read (lzAdvance s).le.text a = if a = s.le.s.toNat ∨ a = s.le.s.toNat + 1024 then s.inp.getD s.ip 0 else Mem.read s.le.text a)) := by
  have f := (deleteNode_same s.le.s.toNat s.le).trees.fields
  generalize hD : deleteNode s.le.s.toNat s.le = D at f
  obtain ⟨f1, f2, f3, f4, f5, f6, f7⟩ := f
  unfold lzAdvance
  simp only [hD]
  cases hb : inputByte s with
  | some c =>
    have hb' : s.inp[s.ip]? = some c := hb
    have hlt : s.ip < s.inp.length := by
      by_contra g; rw [List.getElem?_eq_none (by omega)] at hb'; cases hb'
    simp only
    have hwf : Memory.wf D.text = true := by rw [f4]; exact hw
    have ht := lzText_write D.text D.s.toNat c hwf
    generalize (if D.s.toNat < Config.lzMaxMatch - 1 then Mem.write (Mem.write D.text D.s.toNat c) (D.s.toNat + Config.lzWindow) c
      else Mem.write D.text D.s.toNat c) = tx at ht ⊢
    obtain ⟨htw, htr⟩ := ht
    have fi := (insertNode_same (D.r + 1).toNat { D with text := tx, s := D.s + 1, r := D.r + 1 }).fields
    obtain ⟨g1, g2, g3, g4, g5, g6, g7⟩ := fi
    refine ⟨by rw [g1, f1], by rw [g2, f2], by rw [g4]; exact htw, by rw [g5, f5], by rw [g6, f6], by rw [g7, f7],
      .inr ⟨hlt, trivial, by rw [g3, f3], fun a ha => ?_⟩⟩
    rw [g4]; show Mem.read tx a = _
    rw [htr a ha, f1, f4]; simp [hb']
  | none =>
    have hb' : s.inp[s.ip]? = none := hb
    have hge : s.inp.length ≤ s.ip := by simpa using hb'
    simp only
    have fi : sameButTrees { D with s := D.s + 1, r := D.r + 1, len := D.len - 1 }
        (if D.len - 1 = 0 then { D with s := D.s + 1, r := D.r + 1, len := D.len - 1 }
         else insertNode (D.r + 1).toNat { D with s := D.s + 1, r := D.r + 1, len := D.len - 1 }) := by
      split
      · rfl
      · exact insertNode_same _ _
    obtain ⟨g1, g2, g3, g4, g5, g6, g7⟩ := fi.fields
    exact ⟨by rw [g1, f1], by rw [g2, f2], by rw [g4, f4]; exact hw, by rw [g5, f5], by rw [g6, f6], by rw [g7, f7],
      .inl ⟨hge, trivial, by rw [g3, f3], by rw [g4, f4]⟩⟩

/-- Several positions on (R104), but for the trees and the match. -/
theorem lzAdvanceBy_spec (m : Nat) (s : State) (hw : Memory.wf s.le.text = true) (hl : m ≤ s.le.len.toNat)
    (hm : m ≤ 128) :
    let j := min m (s.inp.length - s.ip)
    let t := lzAdvanceBy m s
    t.ip = s.ip + j ∧ t.le.len.toNat + (m - j) = s.le.len.toNat ∧
    t.le.s.toNat = (s.le.s.toNat + m) % 1024 ∧ t.le.r.toNat = (s.le.r.toNat + m) % 1024 ∧
    t.le.codeBuf = s.le.codeBuf ∧ t.le.codeBufPtr = s.le.codeBufPtr ∧ t.le.mask = s.le.mask ∧
    (∀ i, i < j → Mem.read t.le.text ((s.le.s.toNat + i) % 1024) = s.inp.getD (s.ip + i) 0 ∧
      ((s.le.s.toNat + i) % 1024 < 65 → Mem.read t.le.text ((s.le.s.toNat + i) % 1024 + 1024) = s.inp.getD (s.ip + i) 0)) ∧
    (∀ a, a < 1089 → (∀ i, i < j → a ≠ (s.le.s.toNat + i) % 1024 ∧ a ≠ (s.le.s.toNat + i) % 1024 + 1024) →
      Mem.read t.le.text a = Mem.read s.le.text a) := by
  induction m generalizing s with
  | zero =>
    simp only [Nat.zero_min, lzAdvanceBy]
    have := s.le.s.isLt; have := s.le.r.isLt
    exact ⟨rfl, rfl, by omega, by omega, trivial, trivial, trivial, fun i h => absurd h (by omega), fun a _ _ => trivial⟩
  | succ m ih =>
    have hfr := lzAdvance_frame s
    have hinp : (lzAdvance s).inp = s.inp := by rw [hfr]
    obtain ⟨a1, a2, a3, a4, a5, a6, a7⟩ := lzAdvance_spec s hw
    have e1 : (1 : BitVec 10).toNat = 1 := rfl
    have e1' : (1 : BitVec 7).toNat = 1 := rfl
    have hs1 : (lzAdvance s).le.s.toNat = (s.le.s.toNat + 1) % 1024 := by rw [a1, BitVec.toNat_add, e1]
    have hr1 : (lzAdvance s).le.r.toNat = (s.le.r.toNat + 1) % 1024 := by rw [a2, BitVec.toNat_add, e1]
    have hsl := s.le.s.isLt
    simp only [lzAdvanceBy]
    rcases a7 with ⟨b1, b2, b3, b4⟩ | ⟨b1, b2, b3, b4⟩
    · have hlen : (lzAdvance s).le.len.toNat = s.le.len.toNat - 1 := by
        rw [b3, BitVec.toNat_sub, e1']; have := s.le.len.isLt; omega
      obtain ⟨c1, c2, c3, c4, c5, c6, c7, c8, c9⟩ := ih (lzAdvance s) a3 (by omega) (by omega)
      rw [hinp, b2] at c1 c2 c8 c9
      refine ⟨by omega, by omega, by rw [c3, hs1]; omega, by rw [c4, hr1]; omega, c5.trans a4, c6.trans a5, c7.trans a6, fun i h => absurd h (by omega), fun a h _ => ?_⟩
      rw [c9 a h (fun i h => absurd h (by omega)), b4]
    · obtain ⟨c1, c2, c3, c4, c5, c6, c7, c8, c9⟩ := ih (lzAdvance s) a3 (by rw [b3]; omega) (by omega)
      rw [hinp, b2] at c1 c2 c8 c9
      rw [b3] at c2
      have hj : min (m + 1) (s.inp.length - s.ip) = min m (s.inp.length - (s.ip + 1)) + 1 := by omega
      rw [hj]
      generalize hJ : min m (s.inp.length - (s.ip + 1)) = j at *
      have hjm : j ≤ m := by omega
      rw [hs1] at c8 c9
      refine ⟨by omega, by omega, by rw [c3, hs1]; omega, by rw [c4, hr1]; omega, c5.trans a4, c6.trans a5, c7.trans a6, fun i h => ?_, fun a h1 h2 => ?_⟩
      · cases i with
        | zero =>
          have hne : ∀ i, i < j → s.le.s.toNat ≠ ((s.le.s.toNat + 1) % 1024 + i) % 1024 ∧ s.le.s.toNat ≠ ((s.le.s.toNat + 1) % 1024 + i) % 1024 + 1024 := fun i hi => by omega
          have hne' : ∀ i, i < j → s.le.s.toNat + 1024 ≠ ((s.le.s.toNat + 1) % 1024 + i) % 1024 ∧ s.le.s.toNat + 1024 ≠ ((s.le.s.toNat + 1) % 1024 + i) % 1024 + 1024 := fun i hi => by omega
          simp only [Nat.add_zero, Nat.mod_eq_of_lt hsl]
          refine ⟨by rw [c9 _ (by omega) hne, b4 _ (by omega), if_pos (.inl rfl)], fun h => by rw [c9 _ (by omega) hne', b4 _ (by omega), if_pos (.inr rfl)]⟩
        | succ i =>
          have := c8 i (by omega)
          rw [show ((s.le.s.toNat + 1) % 1024 + i) % 1024 = (s.le.s.toNat + (i + 1)) % 1024 by omega, show s.ip + 1 + i = s.ip + (i + 1) by omega] at this
          exact this
      · rw [c9 a h1 (fun i hi => by have := h2 (i + 1) (by omega); omega), b4 a h1, if_neg]
        have := h2 0 (by omega)
        simp only [Nat.add_zero, Nat.mod_eq_of_lt hsl] at this
        omega

end Sys2Proof.Machine
end

