-- ==== Sys2Proof/Laws/Outcome.lean ====
section
/-! SUPPORT. What every step does to the state that lasts between commands: a command faults, ends with `Ok`, or goes on
and writes none of it. -/

namespace Sys2Proof.Machine

/-- What lasts between commands, and the host's side of the port, are the same in the two states. -/
def samePersistent (s t : State) : Prop :=
  t.store = s.store ∧ t.status = s.status ∧ t.result = s.result ∧ t.params = s.params ∧ t.cmd = s.cmd ∧
  t.requests = s.requests ∧ t.resetPending = s.resetPending

/-- What can come of running something in state `s`: the command faults (R152), or ends with `Ok` and some store, or goes
on with nothing persistent written, and then `goesOn` holds. -/
def outcomeIs (s t : State) (goesOn : Prop) : Prop :=
  (∃ k, t = raise k s) ∨ (∃ p st, t = finish p { s with store := st }) ∨ (goesOn ∧ samePersistent s t)

section
variable {s t : State} {E F : Prop}

theorem outcomeIs_raise {k : FaultKind} : outcomeIs s (raise k s) E := .inl ⟨k, rfl⟩

theorem outcomeIs_finish {p : Payload} {st : List Entry} : outcomeIs s (finish p { s with store := st }) E :=
  .inr (.inl ⟨p, st, rfl⟩)

theorem outcomeIs_finish_same {p : Payload} : outcomeIs s (finish p s) E := .inr (.inl ⟨p, s.store, rfl⟩)

theorem outcomeIs_goesOn (h : E) (h' : samePersistent s t) : outcomeIs s t E := .inr (.inr ⟨h, h'⟩)

theorem outcomeIs_mono (h : E → F) (c : outcomeIs s t E) : outcomeIs s t F := c.imp id (Or.imp id (And.imp_left h))

/-! ## The returns and the entry headers -/

theorem decodeReturn_outcome {b : Bytes} (h : decodeReturn b s = .next t) : outcomeIs s t (t.engine ≠ .idle) := by
  obtain ⟨e, -, ⟨-, rfl⟩ | ⟨-, rfl⟩ | ⟨-, rfl⟩ | ⟨-, rfl⟩⟩ := decodeReturn_next h
  · exact outcomeIs_finish
  · exact outcomeIs_finish
  · exact outcomeIs_goesOn (by simp) (by simp [samePersistent])
  · exact outcomeIs_goesOn (by simp) (by simp [samePersistent])

theorem encodeReturn_outcome {b : Bytes} (h : encodeReturn b s = .next t) : outcomeIs s t (t.engine ≠ .idle) := by
  cases h
  exact outcomeIs_goesOn (by simp) (by simp [samePersistent])

theorem codecReturn_outcome {b : Bytes} (h : codecReturn b s = .next t) : outcomeIs s t (t.engine ≠ .idle) := by
  rcases codecReturn_next h with ⟨-, rfl⟩ | ⟨-, h⟩ | ⟨-, h⟩
  · exact outcomeIs_finish_same
  · exact decodeReturn_outcome h
  · exact encodeReturn_outcome h

theorem entryPass_outcome {k : Kind} {size : Word} {dec enc : Bytes → Answer}
    (hE : t.engine ≠ .idle ∨ t.engine = s.engine → E)
    (hd : ∀ b u, dec b = .next u → outcomeIs s u (u.engine ≠ .idle))
    (he : ∀ b u, enc b = .next u → outcomeIs s u (u.engine ≠ .idle))
    (hx : entryPass s (loadEntry k size s) dec enc = .next t) : outcomeIs s t E := by
  rcases entryPass_next hx with ⟨-, h1⟩ | ⟨-, e, -, h1⟩ | ⟨-, e, -, h1⟩
  · rcases loadEntry_next h1 with ⟨k, rfl⟩ | ⟨e, -, -, -, -, rfl⟩
    · exact outcomeIs_raise
    · exact outcomeIs_goesOn (hE (.inr rfl)) (by simp [samePersistent])
  · exact outcomeIs_mono (fun h => hE (.inl h)) (hd _ _ h1)
  · exact outcomeIs_mono (fun h => hE (.inl h)) (he _ _ h1)

end

/-! ## Instructions -/

/-- A step into another engine. -/
theorem outcomeIs_start {s t : State} {i : Instr} (h : t.engine ≠ .idle) (h' : samePersistent s t) :
    outcomeIs s t (t.engine ≠ .idle ∨ i.ctx ≠ .command ∧ t.engine = s.engine) := outcomeIs_goesOn (.inl h) h'

/-- A step that stays in its engine. -/
theorem outcomeIs_stay {s t : State} {i : Instr} (hi : i.ctx ≠ .command) (h : t.engine = s.engine)
    (h' : samePersistent s t) : outcomeIs s t (t.engine ≠ .idle ∨ i.ctx ≠ .command ∧ t.engine = s.engine) :=
  outcomeIs_goesOn (.inr ⟨hi, h⟩) h'

theorem slideCopy_outcome {i : Instr} {s u t : State} (hi : i.ctx ≠ .command) (hu : samePersistent s u)
    (he : u.engine = s.engine) (hr : ∀ k, raise k u = raise k s) (hx : slideCopy u = .next t) :
    outcomeIs s t (t.engine ≠ .idle ∨ i.ctx ≠ .command ∧ t.engine = s.engine) := by
  rcases slideCopy_cases u with ⟨-, e⟩ | ⟨-, e⟩ <;> rw [e] at hx <;> cases hx
  · rw [hr]; exact outcomeIs_raise
  · exact outcomeIs_stay hi (by rw [slCopy_frame]; exact he) (by rw [slCopy_frame]; exact hu)

theorem flideEntry_outcome {i : Instr} {k : Kind} {size : Word} {s t : State} (hi : i.ctx ≠ .command)
    (hx : flideEntry k size s = .next t) :
    outcomeIs s t (t.engine ≠ .idle ∨ i.ctx ≠ .command ∧ t.engine = s.engine) := by
  unfold flideEntry at hx
  refine entryPass_outcome (Or.imp id fun h => ⟨hi, h⟩) (fun b u hu => ?_) (fun b u hu => ?_) hx <;>
    split at hu <;> cases hu
  · exact outcomeIs_goesOn (by simp [startSlideDec]) (by simp [samePersistent])
  · exact outcomeIs_raise
  · exact outcomeIs_goesOn (by simp [startSlideEnc]) (by simp [samePersistent])
  · exact outcomeIs_raise

/-- What an instruction does to what lasts between commands: a command that goes on has started an engine; any other
instruction that goes on has started one, or stays in the one it was met in. -/
theorem exec_outcome {i : Instr} {s t : State} (hx : exec i s = .next t) :
    outcomeIs s t (t.engine ≠ .idle ∨ i.ctx ≠ .command ∧ t.engine = s.engine) := by
  cases i <;> simp only [exec] at hx
  case lzFlag f => cases hx; exact outcomeIs_stay nofun rfl (by simp [samePersistent])
  case lzLit c =>
    unfold execLzLit at hx
    split at hx <;> cases hx
    exact outcomeIs_stay nofun rfl (by simp [samePersistent])
  case lzRef off l =>
    unfold execLzRef at hx
    simp only at hx
    split at hx <;> cases hx
    · exact .inl ⟨_, rfl⟩
    · rw [lzCopy_frame]; exact outcomeIs_stay nofun rfl ⟨rfl, rfl, rfl, rfl, rfl, rfl, rfl⟩
  case slHdr u => cases hx; exact outcomeIs_start (by simp) (by simp [samePersistent])
  case slCw u => cases hx; exact outcomeIs_stay nofun rfl (by simp [samePersistent])
  case slLit c =>
    unfold execSlLit at hx
    split at hx <;> cases hx
    exact outcomeIs_stay nofun rfl (by simp [samePersistent])
  case slRef2 n d =>
    exact slideCopy_outcome (u := slRef2Operands n d s) nofun ⟨rfl, rfl, rfl, rfl, rfl, rfl, rfl⟩ rfl (fun _ => rfl) hx
  case slRef3 d e =>
    exact slideCopy_outcome (u := slRef3Operands d e s) nofun ⟨rfl, rfl, rfl, rfl, rfl, rfl, rfl⟩ rfl (fun _ => rfl) hx
  case rlCopy k =>
    unfold execRlCopy at hx
    simp only at hx
    split at hx <;> cases hx
    · exact .inl ⟨_, rfl⟩
    · rcases rlCopyLoop_cases k.toNat { s with
        ip := s.ip + 1, rl := { s.rl with c := (1 : BitVec 1) ++ k, k := k, j := 0 } } with ⟨-, h⟩ | ⟨-, -, h⟩ <;> rw [h]
      · exact outcomeIs_stay nofun rfl (by simp [samePersistent])
      · exact .inl ⟨_, rfl⟩
  case rlFill k v =>
    unfold execRlFill at hx
    simp only at hx
    split at hx <;> cases hx
    · exact .inl ⟨_, rfl⟩
    · rw [rlFillLoop_eq]; exact outcomeIs_stay nofun rfl (by simp [samePersistent])
  case arcIndex c =>
    unfold execArcIndex at hx
    split at hx <;> cases hx
    · exact outcomeIs_raise
    · exact outcomeIs_start (by simp) (by simp [samePersistent])
  case entryNone size =>
    refine entryPass_outcome (Or.imp id fun h => ⟨nofun, h⟩) (fun b u hu => ?_) (fun b u hu => encodeReturn_outcome hu) hx
    split at hu
    · cases hu; exact outcomeIs_raise
    · exact decodeReturn_outcome hu
  case entryLzss size =>
    refine entryPass_outcome (Or.imp id fun h => ⟨nofun, h⟩) (fun b u hu => ?_) (fun b u hu => ?_) hx <;> cases hu
    · exact outcomeIs_goesOn (by simp [startLzssDec]) (by simp [samePersistent])
    · exact outcomeIs_goesOn (by simp [startLzssEnc]) (by simp [samePersistent])
  case entrySlide size =>
    refine entryPass_outcome (Or.imp id fun h => ⟨nofun, h⟩) (fun b u hu => ?_) (fun b u hu => ?_) hx <;> cases hu
    · exact outcomeIs_goesOn (by simp [startSlideDec]) (by simp [samePersistent])
    · exact outcomeIs_goesOn (by simp [startSlideEnc]) (by simp [samePersistent])
  case entryFlideA size => exact flideEntry_outcome nofun hx
  case entryFlideB size => exact flideEntry_outcome nofun hx
  case entryRle size =>
    refine entryPass_outcome (Or.imp id fun h => ⟨nofun, h⟩) (fun b u hu => ?_) (fun b u hu => ?_) hx <;> cases hu
    · exact outcomeIs_goesOn (by simp [startRleDec]) (by simp [samePersistent])
    · exact outcomeIs_raise
  case entryInflate size =>
    refine entryPass_outcome (Or.imp id fun h => ⟨nofun, h⟩) (fun b u hu => ?_) (fun b u hu => ?_) hx <;> split at hu
    · split at hu
      · exact decodeReturn_outcome hu
      · cases hu; exact outcomeIs_raise
    · cases hu; exact outcomeIs_raise
    · exact encodeReturn_outcome hu
    · cases hu; exact outcomeIs_raise
  case entryUnknown size tag =>
    refine entryPass_outcome (Or.imp id fun h => ⟨nofun, h⟩) (fun b u hu => ?_) (fun b u hu => ?_) hx <;> cases hu <;>
      exact outcomeIs_raise
  case lzssDec | lzssEnc | slideDec | rleDec | arcLoad | arcUnpack =>
    obtain ⟨-, hx⟩ := withinLimit_next.mp hx
    cases hx
    exact outcomeIs_start nofun ⟨rfl, rfl, rfl, rfl, rfl, rfl, rfl⟩
  case slideEnc =>
    obtain ⟨-, hx⟩ := withinLimit_next.mp hx
    split at hx <;> cases hx
    exact outcomeIs_start nofun ⟨rfl, rfl, rfl, rfl, rfl, rfl, rfl⟩
  case rleEnc => obtain ⟨-, hx⟩ := withinLimit_next.mp hx; cases hx; exact outcomeIs_raise
  case arcDecode =>
    unfold execArcDecode at hx
    split at hx
    · cases hx
    · split at hx <;> cases hx
      · exact outcomeIs_start nofun ⟨rfl, rfl, rfl, rfl, rfl, rfl, rfl⟩
      · exact outcomeIs_finish_same
  case arcRead =>
    unfold execArcRead at hx
    split at hx
    · cases hx
    · split at hx <;> cases hx
      · exact outcomeIs_start nofun ⟨rfl, rfl, rfl, rfl, rfl, rfl, rfl⟩
      · exact outcomeIs_finish_same
  case arcSave =>
    unfold execArcSave at hx
    split at hx <;> cases hx
    · exact outcomeIs_start nofun ⟨rfl, rfl, rfl, rfl, rfl, rfl, rfl⟩
    · exact outcomeIs_raise
  case arcAdd => obtain ⟨-, hx⟩ := withinLimit_next.mp hx; cases hx; exact outcomeIs_finish
  case arcDel => unfold execArcDel at hx; split at hx <;> cases hx; exact outcomeIs_finish
  case arcReplace =>
    unfold execArcReplace at hx
    split at hx
    · cases hx
    · obtain ⟨-, hx⟩ := withinLimit_next.mp hx; cases hx; exact outcomeIs_finish
  case arc2Load => cases hx

/-! ## Steps -/

/-- What a step without an instruction does to what lasts between commands. -/
theorem auto_outcome {s t : State} (hf : fetch s = .auto (.next t)) :
    (s.engine = .idle ∧ s.requests = [] ∧ t = s) ∨ outcomeIs s t (t.engine ≠ .idle) := by
  rcases fetch_auto hf with h | ⟨-, rfl⟩ | ⟨-, -, hc⟩ | ⟨-, hc⟩ | ⟨he, hc⟩ | ⟨he, hc⟩ | ⟨-, -, rfl⟩ | ⟨he, -, rfl⟩ |
    ⟨-, -, -, rfl⟩ | ⟨he, -, rfl⟩ | ⟨-, -, -, hc⟩ | ⟨he, -, e, d, -, -, -, rfl⟩
  · exact .inl h
  all_goals refine .inr ?_
  · exact outcomeIs_raise
  · exact codecReturn_outcome hc
  · unfold primeLzssEnc at hc
    split at hc
    · simp only at hc
      generalize Config.lzMaxMatch = m at hc
      have hl := lzFill_frame m s
      generalize lzFill m s = u at hc hl
      split at hc
      · have h := codecReturn_outcome hc
        rw [hl] at h
        rcases h with ⟨k, rfl⟩ | ⟨p, st, rfl⟩ | h
        · exact outcomeIs_raise
        · exact .inr (.inl ⟨p, st, rfl⟩)
        · exact .inr (.inr h)
      · injection hc with hc
        subst hc
        generalize lzInsertFirst u.le = e
        rw [hl]
        exact outcomeIs_goesOn (by simp) ⟨rfl, rfl, rfl, rfl, rfl, rfl, rfl⟩
    · exact codecReturn_outcome hc
  · unfold stepLzssEnc at hc
    split at hc
    · exact codecReturn_outcome hc
    · cases hc
      rw [lzRound_frame]
      exact outcomeIs_goesOn (by simp [he]) ⟨rfl, rfl, rfl, rfl, rfl, rfl, rfl⟩
  · unfold stepSlideEnc at hc
    split at hc
    · split at hc
      · cases hc
        rw [slRound_frame]
        exact outcomeIs_goesOn (by simp [he]) ⟨rfl, rfl, rfl, rfl, rfl, rfl, rfl⟩
      · exact codecReturn_outcome hc
    · exact codecReturn_outcome hc
  · exact .inr (.inl ⟨_, _, rfl⟩)
  · exact outcomeIs_goesOn (by simp [unpackBegin, he]) ⟨rfl, rfl, rfl, rfl, rfl, rfl, rfl⟩
  · exact .inr (.inl ⟨_, _, rfl⟩)
  · exact outcomeIs_goesOn (by simp [he]) ⟨rfl, rfl, rfl, rfl, rfl, rfl, rfl⟩
  · unfold saveEnd at hc
    obtain ⟨-, hc⟩ := withinLimit_next.mp hc
    cases hc
    exact outcomeIs_finish
  · exact outcomeIs_goesOn (by simp [he]) ⟨rfl, rfl, rfl, rfl, rfl, rfl, rfl⟩

theorem commandOf_ctx {code : Byte} {i : Instr} (h : commandOf code = some i) : i.ctx = .command := by
  simp only [commandOf, Option.map_eq_some_iff] at h
  obtain ⟨⟨c, j⟩, hf, rfl⟩ := h
  have hm := List.mem_of_find?_eq_some hf
  simp only [commandTable, List.mem_cons, List.not_mem_nil, or_false, Prod.mk.injEq] at hm
  rcases hm with h | h | h | h | h | h | h | h | h | h | h | h | h | h | h <;> obtain ⟨_, rfl⟩ := h <;> rfl

/-- What a step outside the reset event does to what lasts between commands. It is told of the state `u` that the fetch
hands on: that state's persistent part is the same, but for a request presented by an idle block. -/
theorem step_outcome {s t : State} (hs : step s = .next t) (hr : s.resetPending = false) :
    (s.engine = .idle ∧ s.requests = [] ∧ t = s) ∨
    ∃ u : State, u.store = s.store ∧ u.status = s.status ∧ u.result = s.result ∧ u.params = s.params ∧
      u.resetPending = s.resetPending ∧ (s.engine ≠ .idle → u.cmd = s.cmd ∧ u.requests = s.requests) ∧
      outcomeIs u t (t.engine ≠ .idle) := by
  rcases step_next hs with ⟨h, -⟩ | ⟨-, ⟨i, u, hf, hx⟩ | hf⟩
  · rw [hr] at h; cases h
  · right
    refine ⟨u, ?_⟩
    have hc := exec_outcome hx
    rcases fetch_run hf with ⟨he, q, r, -, rfl, hd⟩ | ⟨he, -, ⟨-, rfl, -⟩ | ⟨-, rfl, -⟩⟩ | ⟨he, rfl, -⟩ |
      ⟨he, -, ⟨-, rfl, -⟩ | ⟨-, rfl, -⟩⟩ | ⟨he, -, rfl, -⟩ | ⟨he, rfl, -⟩ | ⟨he, rfl, -⟩
    · have hi : i.ctx = .command := by
        simp only [decode, decodeCommand] at hd
        split at hd <;> cases hd
        exact commandOf_ctx (by assumption)
      exact ⟨rfl, rfl, rfl, rfl, rfl, fun h => absurd he h, outcomeIs_mono (by simp [hi]) hc⟩
    all_goals refine ⟨rfl, rfl, rfl, rfl, rfl, fun _ => ⟨rfl, rfl⟩, outcomeIs_mono ?_ hc⟩
    all_goals
      rintro (h | ⟨-, h⟩)
      · exact h
      · rw [h]; simp [he, lzTake, slTake]
  · rcases auto_outcome hf with h | h
    · exact .inl h
    · exact .inr ⟨s, rfl, rfl, rfl, rfl, rfl, fun _ => ⟨rfl, rfl⟩, h⟩

end Sys2Proof.Machine
end

