-- ==== Sys2Proof/Laws/PerInstr.lean ====
section
/-! SUPPORT. Statements made once for each instruction. -/

namespace Sys2Proof.Laws

/-- The encoding of a row is as long as 30_encoding.md says (R88), for every parameter. -/
def EncodedLength.Statement (i : Instr) : Prop := ∀ p : Params, (encode p i).length = i.length

theorem EncodedLength.lzFlag (f : Byte) : EncodedLength.Statement (.lzFlag f) := fun _ => rfl
theorem EncodedLength.lzLit (c : Byte) : EncodedLength.Statement (.lzLit c) := fun _ => rfl
theorem EncodedLength.lzRef (off : BitVec 10) (lraw : BitVec 6) : EncodedLength.Statement (.lzRef off lraw) := fun _ => rfl
theorem EncodedLength.slHdr (u : Word) : EncodedLength.Statement (.slHdr u) := fun _ => rfl
theorem EncodedLength.slCw (f : Word) : EncodedLength.Statement (.slCw f) := fun _ => rfl
theorem EncodedLength.slLit (c : Byte) : EncodedLength.Statement (.slLit c) := fun _ => rfl
theorem EncodedLength.slRef2 (n : BitVec 4) (d : BitVec 12) : EncodedLength.Statement (.slRef2 n d) := fun _ => rfl
theorem EncodedLength.slRef3 (d : BitVec 12) (e : Byte) : EncodedLength.Statement (.slRef3 d e) := fun _ => rfl
theorem EncodedLength.rlCopy (k : BitVec 7) : EncodedLength.Statement (.rlCopy k) := fun _ => rfl
theorem EncodedLength.rlFill (k : BitVec 7) (v : Byte) : EncodedLength.Statement (.rlFill k v) := fun _ => rfl
theorem EncodedLength.arcIndex (count : Word) : EncodedLength.Statement (.arcIndex count) := fun _ => rfl
theorem EncodedLength.entryNone (size : Word) : EncodedLength.Statement (.entryNone size) := fun _ => rfl
theorem EncodedLength.entryLzss (size : Word) : EncodedLength.Statement (.entryLzss size) := fun _ => rfl
theorem EncodedLength.entrySlide (size : Word) : EncodedLength.Statement (.entrySlide size) := fun _ => rfl
theorem EncodedLength.entryFlideA (size : Word) : EncodedLength.Statement (.entryFlideA size) := fun _ => rfl
theorem EncodedLength.entryFlideB (size : Word) : EncodedLength.Statement (.entryFlideB size) := fun _ => rfl
theorem EncodedLength.entryRle (size : Word) : EncodedLength.Statement (.entryRle size) := fun _ => rfl
theorem EncodedLength.entryInflate (size : Word) : EncodedLength.Statement (.entryInflate size) := fun _ => rfl
theorem EncodedLength.entryUnknown (size : Word) (tag : Word) : EncodedLength.Statement (.entryUnknown size tag) := fun _ => rfl
theorem EncodedLength.lzssDec : EncodedLength.Statement .lzssDec := fun _ => rfl
theorem EncodedLength.lzssEnc : EncodedLength.Statement .lzssEnc := fun _ => rfl
theorem EncodedLength.slideDec : EncodedLength.Statement .slideDec := fun _ => rfl
theorem EncodedLength.slideEnc : EncodedLength.Statement .slideEnc := fun _ => rfl
theorem EncodedLength.rleDec : EncodedLength.Statement .rleDec := fun _ => rfl
theorem EncodedLength.rleEnc : EncodedLength.Statement .rleEnc := fun _ => rfl
theorem EncodedLength.arcLoad : EncodedLength.Statement .arcLoad := fun _ => rfl
theorem EncodedLength.arcDecode : EncodedLength.Statement .arcDecode := fun _ => rfl
theorem EncodedLength.arcRead : EncodedLength.Statement .arcRead := fun _ => rfl
theorem EncodedLength.arcUnpack : EncodedLength.Statement .arcUnpack := fun _ => rfl
theorem EncodedLength.arcSave : EncodedLength.Statement .arcSave := fun _ => rfl
theorem EncodedLength.arcAdd : EncodedLength.Statement .arcAdd := fun _ => rfl
theorem EncodedLength.arcDel : EncodedLength.Statement .arcDel := fun _ => rfl
theorem EncodedLength.arcReplace : EncodedLength.Statement .arcReplace := fun _ => rfl
theorem EncodedLength.arc2Load : EncodedLength.Statement .arc2Load := fun _ => rfl

end Sys2Proof.Laws
end

