-- ==== Sys2Proof/Tests/Slice0.lean ====
section
/-! SUPPORT. The model's own tests: ill-formed terms that the checks refuse, words written out from 30_encoding.md, single
steps from 95_test_vectors.md, and for every obligation with hypotheses a state and operands that meet them. -/

namespace Sys2Proof.Tests

open Sys2Proof.Machine Sys2Proof.Claims

/-- The state an answer gives, if it is a next state. -/
def nextOf : Answer → Option State
  | .next t => some t
  | .fault _ => none
  | .refused _ => none

/-! ## WellFormed refuses -/

theorem test_wf_refuses_slRef2_of_nibble_zero : Instr.wf .default (.slRef2 0 5) = false := by decide
theorem test_wf_admits_slRef2_of_nibble_one : Instr.wf .default (.slRef2 1 5) = true := by decide
theorem test_wf_refuses_entryUnknown_with_a_known_tag : Instr.wf .default (.entryUnknown 9 7) = false := by decide
theorem test_wf_admits_entryUnknown_with_tag_six : Instr.wf .default (.entryUnknown 9 6) = true := by decide
theorem test_wf_refuses_equal_tags : Params.wf { tags := { Tags.default with lzss := 0 } } = false := by decide
theorem test_wf_refuses_a_pair_of_fifteen_bits : PairLayout.wf ⟨List.range 15⟩ = false := by decide
theorem test_wf_refuses_a_pair_with_a_repeated_bit :
    PairLayout.wf ⟨[0, 0, 2, 3, 4, 5, 6, 7, 8, 9, 10, 11, 12, 13, 14, 15]⟩ = false := by decide
theorem test_wf_refuses_a_pair_with_bit_sixteen :
    PairLayout.wf ⟨[16, 1, 2, 3, 4, 5, 6, 7, 8, 9, 10, 11, 12, 13, 14, 15]⟩ = false := by decide
theorem test_wf_refuses_alignment_zero : Params.wf { entryAlign := 0 } = false := by decide
theorem test_wf_admits_the_default_parameters : Params.default.wf = true := by decide

/-! ## Decode: every constructor from bytes written out from its encoding -/

/-- R67: `ffffffff`. -/
theorem test_decode_lzFlag : decode .default .lzFlag [0b00000001#8] = .instr (.lzFlag 0x01) := by decide
/-- R68: `cccccccc` under flag 1. -/
theorem test_decode_lzLit : decode .default (.lzToken true) [0b01000001#8] = .instr (.lzLit 0x41) := by decide
/-- R70: `oooooooo OOllllll`; the decoder table of 95_test_vectors.md 2.1: `34 12` is offset 52, length 21. -/
theorem test_decode_lzRef :
    decode .default (.lzToken false) [0b00110100#8, 0b00010010#8] = .instr (.lzRef 52 18) := by decide
/-- The same table: `00 40` is offset 256, `FF FF` offset 1023 and length 66. -/
theorem test_decode_lzRef_high_offset_bits :
    decode .default (.lzToken false) [0x00, 0x40] = .instr (.lzRef 256 0) ∧
    decode .default (.lzToken false) [0xFF, 0xFF] = .instr (.lzRef 1023 63) := by decide
/-- R73. -/
theorem test_decode_slHdr : decode .default .slHeader [0x00, 0x00, 0x00, 0x18] = .instr (.slHdr 24) := by decide
/-- R74: big-endian. -/
theorem test_decode_slCw :
    decode .default .slCodeword [0b10000000#8, 0, 0, 0b00000001#8] = .instr (.slCw 0x80000001) := by decide
/-- R75. -/
theorem test_decode_slLit : decode .default (.slToken true) [0b00000111#8] = .instr (.slLit 0x07) := by decide
/-- R76: `nnnndddd dddddddd`. -/
theorem test_decode_slRef2 :
    decode .default (.slToken false) [0b00101010#8, 0b10111100#8] = .instr (.slRef2 2 0xABC) := by decide
/-- R77: `0000dddd dddddddd eeeeeeee`. -/
theorem test_decode_slRef3 :
    decode .default (.slToken false) [0b00001111#8, 0b11111110#8, 0b00000101#8] = .instr (.slRef3 0xFFE 5) := by decide
/-- R81: `1kkkkkkk`. -/
theorem test_decode_rlCopy : decode .default .rlToken [0b10000011#8] = .instr (.rlCopy 3) := by decide
/-- R82: `0kkkkkkk vvvvvvvv`. -/
theorem test_decode_rlFill : decode .default .rlToken [0b00000011#8, 0b11111111#8] = .instr (.rlFill 3 0xFF) := by decide
/-- R84: the count, big-endian. -/
theorem test_decode_arcIndex : decode .default .arcIndex [0, 0, 0x01, 0x04] = .instr (.arcIndex 260) := by decide
/-- R85, with the default tags 0, 1, 2, 3, 4, 5 and 7. -/
theorem test_decode_entryNone :
    decode .default .arcEntry [0, 0, 0x01, 0x02, 0, 0, 0, 0] = .instr (.entryNone 258) := by decide
theorem test_decode_entryLzss :
    decode .default .arcEntry [0, 0, 0, 0x0A, 0, 0, 0, 1] = .instr (.entryLzss 10) := by decide
theorem test_decode_entrySlide :
    decode .default .arcEntry [0, 0, 0, 0x04, 0, 0, 0, 2] = .instr (.entrySlide 4) := by decide
theorem test_decode_entryFlideA :
    decode .default .arcEntry [0, 0, 0, 0x04, 0, 0, 0, 3] = .instr (.entryFlideA 4) := by decide
theorem test_decode_entryFlideB :
    decode .default .arcEntry [0, 0, 0, 0x04, 0, 0, 0, 4] = .instr (.entryFlideB 4) := by decide
theorem test_decode_entryRle :
    decode .default .arcEntry [0, 0, 0, 0x06, 0, 0, 0, 5] = .instr (.entryRle 6) := by decide
theorem test_decode_entryInflate :
    decode .default .arcEntry [0xFF, 0, 0, 0, 0, 0, 0, 7] = .instr (.entryInflate 0xFF000000) := by decide
/-- R86: tags 6 and 8 to 2^32 - 1 are unknown. -/
theorem test_decode_entryUnknown :
    decode .default .arcEntry [0, 0, 0, 1, 0, 0, 0, 6] = .instr (.entryUnknown 1 6) ∧
    decode .default .arcEntry [0, 0, 0, 1, 0, 0, 0, 8] = .instr (.entryUnknown 1 8) ∧
    decode .default .arcEntry [0, 0, 0, 1, 1, 0, 0, 0] = .instr (.entryUnknown 1 0x01000000) := by decide
/-- R92: the codes written out. -/
theorem test_decode_codec_commands :
    decode .default .command [0x01] = .instr .lzssDec ∧ decode .default .command [0x02] = .instr .lzssEnc ∧
    decode .default .command [0x03] = .instr .slideDec ∧ decode .default .command [0x04] = .instr .slideEnc ∧
    decode .default .command [0x05] = .instr .rleDec ∧ decode .default .command [0x06] = .instr .rleEnc := by decide
theorem test_decode_container_commands :
    decode .default .command [0x10] = .instr .arcLoad ∧ decode .default .command [0x11] = .instr .arcDecode ∧
    decode .default .command [0x12] = .instr .arcRead ∧ decode .default .command [0x13] = .instr .arcUnpack ∧
    decode .default .command [0x14] = .instr .arcSave ∧ decode .default .command [0x15] = .instr .arcAdd ∧
    decode .default .command [0x16] = .instr .arcDel ∧ decode .default .command [0x17] = .instr .arcReplace ∧
    decode .default .command [0x18] = .instr .arc2Load := by decide
theorem test_decode_refuses_other_codes :
    decode .default .command [0x00] = .unknownCommand 0x00 ∧ decode .default .command [0x07] = .unknownCommand 0x07 ∧
    decode .default .command [0x0F] = .unknownCommand 0x0F ∧ decode .default .command [0x19] = .unknownCommand 0x19 := by
  decide
/-- Another layout of the pair (R13 `LZSS_PAIR`): the two bytes swapped. -/
theorem test_decode_lzRef_other_layout :
    decode { pair := ⟨[8, 9, 10, 11, 12, 13, 14, 15, 0, 1, 2, 3, 4, 5, 6, 7]⟩ } (.lzToken false) [0x12, 0x34] =
      .instr (.lzRef 52 18) := by decide

/-! ## Words of the opcode table -/

theorem test_table_words :
    decodeTableWord 16 0xAABC = some (.slRef2 10 0xABC) ∧ decodeTableWord 24 0x000005 = some (.slRef3 0 5) ∧
    decodeTableWord 16 0x03FF = some (.rlFill 3 0xFF) ∧ decodeTableWord 8 0x83 = some (.rlCopy 3) ∧
    decodeTableWord 32 0x80000000 = some (.slCw 0x80000000) ∧ decodeTableWord 8 0x14 = some .arcSave ∧
    decodeTableWord 64 0x0000000A00000001 = some (.entryLzss 10) := by decide

/-- The very next step after `withFetchWord` runs the word's instruction. -/
theorem test_withFetchWord_runs_slRef3 :
    (nextOf (step (State.reset.withFetchWord 24 0x000005))).map (fun t => (t.out, t.ip)) =
      some (List.replicate 23 0, 3) := by decide
theorem test_withFetchWord_runs_entryLzss :
    (nextOf (step (State.reset.withFetchWord 64 0x0000000A00000001))).map (fun t => t.arc.work.map Entry.size) =
      some [10] := by decide
theorem test_withFetchWord_runs_rleEnc :
    (nextOf (step (State.reset.withFetchWord 8 0x06))).map (fun t => (t.status, t.result)) =
      some (1, some (.fault .unsupportedCompressionType)) := by decide

/-! ## Small states -/

/-- An LZSS decoder at the start of `inp`, with `n` bytes wanted. -/
def lz (inp : Bytes) (n : Word) : State :=
  { engine := .lzssDec, inp := inp, n := n, lz := LzDec.start }

/-- An LZSS decoder that holds `flags`, at input cursor `ip`, with `out` produced. -/
def lzAt (inp : Bytes) (ip : Nat) (n : Word) (flags : BitVec 9) (out : Bytes) : State :=
  { engine := .lzssDec, inp := inp, ip := ip, n := n, out := out
    lz := { LzDec.start with flags := flags, r := BitVec.ofNat 10 (958 + out.length) } }

/-- A Slide decoder that holds `cw` and `nb`. -/
def slAt (inp : Bytes) (ip : Nat) (n : Word) (cw : Word) (nb : BitVec 6) (out : Bytes) : State :=
  { engine := .slideDec, inp := inp, ip := ip, n := n, out := out, sl := { cw := cw, nb := nb } }

/-- An RLE decoder. -/
def rlAt (inp : Bytes) (ip : Nat) (n : Word) (out : Bytes) : State :=
  { engine := .rleDec, inp := inp, ip := ip, n := n, out := out }

/-- An entry still `Unloaded`. -/
def raw (kind : Kind) (size : Word) (bytes : Bytes) : Entry :=
  { name := [], kind := kind, size := size, raw := bytes, data := none, st := .unloaded }

/-- An entry with data. -/
def held (kind : Kind) (bytes : Bytes) : Entry :=
  { name := [], kind := kind, size := BitVec.ofNat 32 bytes.length, raw := [], data := some bytes, st := .decoded }

/-- A container loop at entry 0 of `work`. -/
def loop (task : Task) (work : List Entry) : State :=
  { engine := .arcEntries, task := task, arc := { work := work } }

/-- A save that is to encode `d`, the data of its entry. -/
def encoding (kind : Kind) (d : Bytes) : State :=
  { engine := .arcEntries, task := .saveEncode, arc := { work := [held kind d], d := [d] } }

/-- The Slide encoder in its loop over `raw`. -/
def slideRound (raw : Bytes) (e : SlEnc) : State := { engine := .slideEnc, inp := raw, se := e }

/-- The Slide encoder stands before a round. -/
def slRoundReady (s : State) : Prop :=
  s.resetPending = false ∧ s.engine = .slideEnc ∧ s.params.slideEncRef = .reference ∧ s.se.pos < s.inp.length

/-- An LZSS decoder that has made the one byte of its entry, for `task`. -/
def decoded (task : Task) : State :=
  { lzAt [0x01, 0x41] 2 1 0x080 [0x41] with task := task, arc := { work := [raw .lzss 1 [0x01, 0x41]] } }

/-- Idle, with a request. -/
def asked (code : Byte) (ops : Operands) (store : List Entry) : State :=
  { requests := [{ code := code, operands := ops }], store := store }

/-- A command about to run. -/
def given (ops : Operands) (store : List Entry) : State := { operands := ops, store := store }

/-- The container of the example of R125. -/
def oneEntry : Bytes := [0, 0, 0, 1, 0, 0, 0, 8, 0, 0, 0, 2, 0, 0, 0, 0, 0x68, 0x69]

/-! ## Steps from the spec's examples -/

/-- R95: `01 41` first sets `flags = 0x101`. -/
theorem test_lzFlag_step :
    (nextOf (step (lz [0x01, 0x41] 1))).map (fun t => (t.ip, t.lz.flags)) = some (1, 0x101) := by decide
/-- R96 (S1): the literal goes to `OUT` and to `ring[0x3BE]`; `r = 0x3BF`, `flags = 0x080`. -/
theorem test_lzLit_step :
    (nextOf (step (lzAt [0x01, 0x41] 1 1 0x101 []))).map (fun t => (t.out, t.lz.r, t.lz.flags, Mem.read t.lz.ring 0x3BE)) =
      some ([0x41], 0x3BF, 0x080, 0x41) := by decide
/-- R97, vector L8: the reference to the byte just written repeats it. -/
theorem test_lzRef_step_overlaps :
    (nextOf (step { lzAt [0x01, 0x41, 0xBE, 0xC6] 2 10 0x080 [0x41] with
        lz := { ring := [(0x3BE, 0x41)], r := 0x3BF, flags := 0x080 } })).map (fun t => (t.out, t.ip, t.lz.r)) =
      some (List.replicate 10 0x41, 4, 0x3C8) := by decide
/-- R97, vector L24: the same with one byte fewer wanted. -/
theorem test_lzRef_step_overruns :
    (nextOf (step (lzAt [0x01, 0x41, 0xBE, 0xC6] 2 9 0x080 [0x41]))).map (fun t => (t.result, t.status, t.out)) =
      some (some (.fault .corruptDataError), 2, []) := by decide
/-- P1 step 4: the read index wraps from 1023 to 0 and meets the bytes just written. -/
theorem test_lzRef_step_wraps :
    (nextOf (exec (.lzRef 1023 0) { engine := .lzssDec, n := 70, lz := { ring := [(0, 0x55)], r := 1 } })).map
        (fun t => (t.out, t.lz.ring, t.lz.r)) =
      some ([0x00, 0x55, 0x00], [(0, 0x55), (2, 0x55)], 4) := by decide
/-- R107: the header is skipped, however short the input. -/
theorem test_slHdr_step :
    (nextOf (step { engine := .slideHdr, inp := [0, 0], ip := 4, n := 1 })).map (fun t => (t.ip, t.engine)) =
      some (4, .slideDec) := by decide
/-- R108, P2 step 1. -/
theorem test_slCw_step :
    (nextOf (step (slAt [0, 0, 0, 6, 0xC0, 0, 0, 0, 0x41] 4 6 0 0 []))).map (fun t => (t.ip, t.sl.cw, t.sl.nb)) =
      some (8, 0xC0000000, 32) := by decide
/-- R109, P2 step 2. -/
theorem test_slLit_step :
    (nextOf (step (slAt [0x41] 0 6 0xC0000000 32 []))).map (fun t => (t.out, t.sl.cw, t.sl.nb)) =
      some ([0x41], 0x80000000, 31) := by decide
/-- R112, P2 step 4: two zeros before the start of the output, then the output. -/
theorem test_slRef2_step :
    (nextOf (step (slAt [0x20, 0x03] 0 6 0 30 [0x41, 0x42]))).map (fun t => (t.out, t.ip, t.sl.nb)) =
      some ([0x41, 0x42, 0, 0, 0x41, 0x42], 2, 29) := by decide
/-- S2: `00 00 05` copies the last byte 23 times. -/
theorem test_slRef3_step :
    (nextOf (step (slAt [0x00, 0x00, 0x05] 0 24 0 31 [0x07]))).map (fun t => (t.out, t.ip)) =
      some (List.replicate 24 0x07, 3) := by decide
/-- S3: `83 01 02 03`. -/
theorem test_rlCopy_step :
    (nextOf (step (rlAt [0x83, 1, 2, 3, 3, 0xFF] 0 6 []))).map (fun t => (t.out, t.ip)) = some ([1, 2, 3], 4) := by decide
/-- R151(b): the length check comes before the missing literals. -/
theorem test_rlCopy_step_checks_the_length_first :
    (nextOf (step (rlAt [0x83] 0 2 []))).map (fun t => t.status) = some 2 := by decide
/-- S3: `03 FF`. -/
theorem test_rlFill_step :
    (nextOf (step (rlAt [0x83, 1, 2, 3, 3, 0xFF] 4 6 [1, 2, 3]))).map (fun t => (t.out, t.ip)) =
      some ([1, 2, 3, 0xFF, 0xFF, 0xFF], 6) := by decide
/-- R151(a): the missing value byte comes before the length check. -/
theorem test_rlFill_step_fetches_first :
    (nextOf (step (rlAt [0x03] 0 2 []))).map (fun t => t.status) = some 3 := by decide
/-- R125's example: the index, then the entry. -/
theorem test_arcIndex_step :
    (nextOf (step { engine := .arcIndex, task := .load, inp := oneEntry })).map (fun t => (t.arc.count, t.arc.offsets)) =
      some (1, [8]) := by decide
theorem test_entryNone_load_step :
    (nextOf (step { engine := .arcEntries, task := .load, inp := oneEntry, arc := { count := 1, offsets := [8] } })).map
        (fun t => t.arc.work) =
      some [raw .none 2 [0x68, 0x69]] := by decide
/-- R129: the kind None takes the first `size` raw bytes. -/
theorem test_entryNone_decode_step :
    (nextOf (step (loop .decode [raw .none 2 [0x68, 0x69, 0]]))).map (fun t => t.store.map Entry.data) =
      some [some [0x68, 0x69]] := by decide
/-- R135's example: a container of one LZSS entry with data `41`. -/
theorem test_save_commit_step :
    (nextOf (step { engine := .arcEntries, task := .saveDecode
                    arc := { work := [held .lzss [0x41]], i := 1, d := [[0x41]], c := [[0x01, 0x41]] } })).map
        (fun t => (t.result, t.store.map Entry.raw)) =
      some (some (.ok (.bytes [0, 0, 0, 1, 0, 0, 0, 8, 0, 0, 0, 1, 0, 0, 0, 1, 0x01, 0x41])), [[0x01, 0x41]]) := by decide
/-- P5 with `ENTRY_ALIGN` = 4: zero bytes up to the second entry. -/
theorem test_layout_aligned :
    layout { entryAlign := 4 } [held .lzss [0x41], held .none [0x68]] [[0x41], [0x68]] [[0x01, 0x41], [0x68]] =
      [0, 0, 0, 2, 0, 0, 0, 12, 0, 0, 0, 24, 0, 0, 0, 1, 0, 0, 0, 1, 0x01, 0x41, 0, 0,
       0, 0, 0, 1, 0, 0, 0, 0, 0x68] := by decide
/-- R138. -/
theorem test_suffixes :
    suffixKind .default ['a', '.', 'l', 'z'] = .lzss ∧ suffixKind .default ['b', '.', 's'] = .slide ∧
    suffixKind .default ['b', '.', 'f', 's'] = .flideVariantA ∧ suffixKind .default ['.', 'z'] = .inflate ∧
    suffixKind .default ['a', '.', 'L', 'Z'] = .none ∧ suffixKind .default ['c', '.', 'b', 'i', 'n'] = .none := by decide
/-- F14: at position 6 the longest match is 3 long, at position 7 it is 5 long, at position 1. -/
theorem test_longest :
    longest .nearest [0x61, 0x61, 0x62, 0x62, 0x62, 0x61, 0x62, 0x61, 0x62, 0x62, 0x62, 0x61] 6 = (3, 4) ∧
    longest .nearest [0x61, 0x61, 0x62, 0x62, 0x62, 0x61, 0x62, 0x61, 0x62, 0x62, 0x62, 0x61] 7 = (5, 1) := by decide
/-- F5: the first round codes a literal, the second the reference. -/
theorem test_slideEnc_round :
    (slPutToken .nearest [0x41, 0x41, 0x41, 0x41] { pos := 1, cw := 1, nb := 1, buf := [0x41] }) =
      { pos := 4, cw := 2, nb := 2, buf := [0x41, 0x10, 0x00] } := by decide

/-- R102 and E9: `01 41 BE C6` is in `EncLZSS` of ten `41`. -/
theorem test_encLzss_member : encLzss {} (List.replicate 10 0x41) [0x01, 0x41, 0xBE, 0xC6] := by
  refine ⟨⟨[[.lzLit 0x41, .lzRef 958 6]], by decide, by simp [groupsFull], by decide⟩, ⟨3, ?_⟩, by decide⟩
  exact ⟨_, rfl, by decide, by decide, by decide, by decide⟩
/-- R115 and F5. -/
theorem test_encSlide_member :
    encSlide {} [0x41, 0x41, 0x41, 0x41] [0, 0, 0, 4, 0x80, 0, 0, 0, 0x41, 0x10, 0x00] := by
  refine ⟨⟨[[.slLit 0x41, .slRef2 1 0]], by decide, ?_, by decide, ?_⟩, ⟨3, ?_⟩, by decide⟩
  · simp [groupsFull]
  · simp [refsInside, slProduces]
  · exact ⟨_, rfl, by decide, by decide, by decide, by decide⟩

/-! ## Witnesses: for every obligation with hypotheses, a state and operands that meet them -/

theorem witness_DecodeReadsWhatEncodeWrites :
    Params.default.wf = true ∧ Instr.wf .default (.slRef2 1 0xFFF) = true ∧
    Instr.wf .default (.entryUnknown 0xFFFFFFFF 6) = true := by decide

theorem witness_EncodeWritesWhatDecodeRead :
    decode .default (.slToken false) [0x10, 0x00, 0x99] = .instr (.slRef2 1 0) ∧
    Params.default.pair.wf = true ∧ Ctx.slToken false ≠ .slHeader := by decide

/-- The clause without the header's exception: fewer than four bytes. -/
theorem witness_EncodeWritesWhatDecodeRead_header : decode .default .slHeader [0x10] = .instr (.slHdr 0x10000000) := by
  decide

theorem witness_TokenLengthIsToldByFlagAndFirstByte : Ctx.rlToken ≠ .command := by decide

theorem witness_StepRunsTheDecodedInstruction_command :
    ∃ (s : State) (q : Request) (rest : List Request), s.resetPending = false ∧ s.engine = .idle ∧
      s.requests = q :: rest ∧ decode s.params .command [q.code] = .instr .arcSave :=
  ⟨asked 0x14 {} [], { code := 0x14 }, [], by decide⟩

theorem witness_StepRunsTheDecodedInstruction_lzFlag :
    ∃ s : State, s.resetPending = false ∧ s.engine = .lzssDec ∧ s.op < s.n.toNat ∧ s.lz.flags = 1 ∧
      decode s.params .lzFlag (s.inp.drop s.ip) = .instr (.lzFlag 0x01) :=
  ⟨lz [0x01] 1, by decide⟩

theorem witness_StepRunsTheDecodedInstruction_lzToken :
    ∃ s : State, s.resetPending = false ∧ s.engine = .lzssDec ∧ s.op < s.n.toNat ∧ s.lz.flags ≠ 1 ∧
      decode s.params (.lzToken (s.lz.flags.getLsbD 0)) (s.inp.drop s.ip) = .instr (.lzRef 958 6) :=
  ⟨lzAt [0xBE, 0xC6] 0 10 0x080 [0x41], by decide⟩

theorem witness_StepRunsTheDecodedInstruction_slHdr :
    ∃ (s : State) (i : Instr), s.resetPending = false ∧ s.engine = .slideHdr ∧ i = .slHdr (headerWord s.inp) :=
  ⟨{ engine := .slideHdr, inp := [1, 2, 3, 4] }, .slHdr 0x01020304, by decide⟩

theorem witness_StepRunsTheDecodedInstruction_slCw :
    ∃ s : State, s.resetPending = false ∧ s.engine = .slideDec ∧ s.op < s.n.toNat ∧ s.sl.nb = 0 ∧
      decode s.params .slCodeword (s.inp.drop s.ip) = .instr (.slCw 0x80000000) :=
  ⟨slAt [0, 0, 0, 1, 0x80, 0, 0, 0] 4 1 0 0 [], by decide⟩

theorem witness_StepRunsTheDecodedInstruction_slToken :
    ∃ s : State, s.resetPending = false ∧ s.engine = .slideDec ∧ s.op < s.n.toNat ∧ s.sl.nb ≠ 0 ∧
      decode s.params (.slToken (s.sl.cw.getLsbD 31)) (s.inp.drop s.ip) = .instr (.slRef3 0 5) :=
  ⟨slAt [0, 0, 5] 0 24 0 1 [7], by decide⟩

theorem witness_StepRunsTheDecodedInstruction_rlToken :
    ∃ s : State, s.resetPending = false ∧ s.engine = .rleDec ∧ s.op < s.n.toNat ∧
      decode s.params .rlToken (s.inp.drop s.ip) = .instr (.rlCopy 0) :=
  ⟨rlAt [0x80] 0 1 [], by decide⟩

theorem witness_StepRunsTheDecodedInstruction_arcIndex :
    ∃ s : State, s.resetPending = false ∧ s.engine = .arcIndex ∧ decode s.params .arcIndex s.inp = .instr (.arcIndex 1) :=
  ⟨{ engine := .arcIndex, task := .load, inp := oneEntry }, by decide⟩

theorem witness_StepRunsTheDecodedInstruction_header :
    ∃ (s : State) (off : Word), s.resetPending = false ∧ s.engine = .arcEntries ∧
      (s.task = .load ∨ s.task = .loadUnpack) ∧ s.arc.i < s.arc.count.toNat ∧ s.arc.offsets[s.arc.i]? = some off ∧
      decode s.params .arcEntry (s.inp.drop off.toNat) = .instr (.entryNone 2) :=
  ⟨{ engine := .arcEntries, task := .load, inp := oneEntry, arc := { count := 1, offsets := [8] } }, 8, by decide⟩

theorem witness_StepRunsTheDecodedInstruction_entry :
    ∃ (s : State) (e : Entry), s.resetPending = false ∧ s.engine = .arcEntries ∧ s.arc.work[s.arc.i]? = some e ∧
      Instr.entryLzss 1 = entryInstr e.size e.kind ∧ s.task = .unpack ∧ e.st = .unloaded :=
  ⟨loop .unpack [raw .lzss 1 [0x01, 0x41]], raw .lzss 1 [0x01, 0x41], by decide⟩

/-! `StepFaultsWhereTheInputEnds`: the faults L20, L21, L22, D21, D22, D23, D24, R10, R11 of 95_test_vectors.md. -/

theorem witness_StepFaultsWhereTheInputEnds_lzss :
    (∃ s : State, s.resetPending = false ∧ s.engine = .lzssDec ∧ s.op < s.n.toNat ∧ s.lz.flags = 1 ∧
      s.inp.length ≤ s.ip) ∧
    (∃ s : State, s.resetPending = false ∧ s.engine = .lzssDec ∧ s.op < s.n.toNat ∧ s.lz.flags ≠ 1 ∧
      s.inp.length ≤ s.ip) ∧
    (∃ s : State, s.resetPending = false ∧ s.engine = .lzssDec ∧ s.op < s.n.toNat ∧ s.lz.flags ≠ 1 ∧
      s.lz.flags.getLsbD 0 = false ∧ s.inp.length ≤ s.ip + 1) :=
  ⟨⟨lz [] 1, by decide⟩, ⟨lzAt [0x01] 1 1 0x101 [], by decide⟩, ⟨lzAt [0, 0] 1 3 0x100 [], by decide⟩⟩

theorem witness_StepFaultsWhereTheInputEnds_slide :
    (∃ s : State, s.resetPending = false ∧ s.engine = .slideDec ∧ s.op < s.n.toNat ∧ s.sl.nb = 0 ∧
      s.inp.length < s.ip + 4) ∧
    (∃ s : State, s.resetPending = false ∧ s.engine = .slideDec ∧ s.op < s.n.toNat ∧ s.sl.nb ≠ 0 ∧
      s.inp.length ≤ s.ip) ∧
    (∃ s : State, s.resetPending = false ∧ s.engine = .slideDec ∧ s.op < s.n.toNat ∧ s.sl.nb ≠ 0 ∧
      s.sl.cw.getLsbD 31 = false ∧ s.inp.length ≤ s.ip + 1) ∧
    (∃ (s : State) (b1 b2 : Byte), s.resetPending = false ∧ s.engine = .slideDec ∧ s.op < s.n.toNat ∧ s.sl.nb ≠ 0 ∧
      s.sl.cw.getLsbD 31 = false ∧ s.inp.drop s.ip = [b1, b2] ∧ b1.extractLsb' 4 4 = 0) :=
  ⟨⟨slAt [0, 0, 0, 1, 0x80, 0, 0] 4 1 0 0 [], by decide⟩, ⟨slAt [] 0 1 0x80000000 32 [], by decide⟩,
   ⟨slAt [0x10] 0 4 0 31 [0x41], by decide⟩, ⟨slAt [0x00, 0x00] 0 20 0 31 [0x41], 0, 0, by decide⟩⟩

theorem witness_StepFaultsWhereTheInputEnds_rle :
    (∃ s : State, s.resetPending = false ∧ s.engine = .rleDec ∧ s.op < s.n.toNat ∧ s.inp.length ≤ s.ip) ∧
    (∃ (s : State) (c : Byte), s.resetPending = false ∧ s.engine = .rleDec ∧ s.op < s.n.toNat ∧
      s.inp.drop s.ip = [c] ∧ c.getLsbD 7 = false) :=
  ⟨⟨rlAt [] 0 1 [], by decide⟩, ⟨rlAt [0x03] 0 3 [], 0x03, by decide⟩⟩

theorem witness_StepFaultsWhereTheInputEnds_container :
    (∃ s : State, s.resetPending = false ∧ s.engine = .arcIndex ∧ s.inp.length < 4) ∧
    (∃ (s : State) (off : Word), s.resetPending = false ∧ s.engine = .arcEntries ∧
      (s.task = .load ∨ s.task = .loadUnpack) ∧ s.arc.i < s.arc.count.toNat ∧ s.arc.offsets[s.arc.i]? = some off ∧
      s.inp.length < off.toNat + 8) :=
  ⟨⟨{ engine := .arcIndex, task := .load, inp := [0, 0, 0] }, by decide⟩,
   ⟨{ engine := .arcEntries, task := .loadUnpack, inp := [0, 0, 0, 1, 0, 0, 0, 8, 0, 0, 0, 2, 0, 0, 0]
      arc := { count := 1, offsets := [8] } }, 8, by decide⟩⟩

theorem witness_CommandsAreTakenByTheirCodes :
    (∃ (s : State) (q : Request) (rest : List Request), s.resetPending = false ∧ s.engine = .idle ∧
      s.requests = q :: rest ∧ commandOf q.code = some .arc2Load) ∧
    (∃ (s : State) (q : Request) (rest : List Request), s.resetPending = false ∧ s.engine = .idle ∧
      s.requests = q :: rest ∧
      q.code ∉ ([0x01, 0x02, 0x03, 0x04, 0x05, 0x06, 0x10, 0x11, 0x12, 0x13, 0x14, 0x15, 0x16, 0x17, 0x18] : Bytes)) ∧
    (State.reset.resetPending = false ∧ State.reset.engine = .idle ∧ State.reset.requests = []) :=
  ⟨⟨asked 0x18 {} [], { code := 0x18 }, [], by decide⟩, ⟨asked 0x07 {} [], { code := 0x07 }, [], by decide⟩, by decide⟩

theorem witness_ResetEventDiscardsTheCommand :
    State.resetPending { lzAt [0x01] 1 1 0x101 [] with resetPending := true, store := [held .none [1]] } = true := by
  decide

theorem witness_FaultedCommandChangesNothing :
    ∃ s t : State, s.resetPending = false ∧ s.engine ≠ .idle ∧ step s = .next t ∧ t.engine = .idle ∧
      t.result = some (.fault .truncatedInputError) :=
  ⟨lz [] 1, raise .truncatedInputError (lz [] 1), by decide, by decide, rfl, by decide, by decide⟩

/-- Both the store and `STATUS` change. -/
theorem witness_PersistentStateChangesOnlyWhereACommandEnds :
    ∃ s t : State, step s = .next t ∧ s.resetPending = false ∧ t.store ≠ s.store ∧
      (t.status ≠ s.status ∨ t.result ≠ s.result) :=
  ⟨{ asked 0x17 { index := 0, bytes := [1] } [held .none [2]] with status := 3 },
   finish .empty { asked 0x17 { index := 0, bytes := [1] } [held .none [1]] with
     status := 3, cmd := 0x17, requests := [] }, rfl, by decide, by decide, by decide⟩

theorem witness_TokensNeedRoom :
    (∃ s : State, s.n.toNat < s.op + ((0 : BitVec 6).toNat + 3)) ∧
    (∃ s : State, s.n.toNat < s.op + ((63 : BitVec 6).toNat + 3)) ∧
    (∃ s : State, s.n.toNat < s.op + ((1 : BitVec 4).toNat + 2)) ∧
    (∃ s : State, s.n.toNat < s.op + ((255 : Byte).toNat + 18)) ∧
    (∃ s : State, s.n.toNat < s.op + (127 : BitVec 7).toNat) ∧
    (∃ s : State, s.n.toNat ≤ s.op) :=
  ⟨⟨lzAt [] 0 2 0x100 [], by decide⟩, ⟨lzAt [] 0 65 0x100 [], by decide⟩, ⟨slAt [] 0 2 0 31 [], by decide⟩,
   ⟨slAt [] 0 272 0 31 [], by decide⟩, ⟨rlAt [] 0 126 [], by decide⟩, ⟨slAt [] 0 1 0 31 [0x41], by decide⟩⟩

theorem witness_LzFlagFetchesAFlagByte :
    (∃ s : State, s.resetPending = false ∧ s.engine = .lzssDec ∧ s.op < s.n.toNat ∧ s.lz.flags = 1 ∧
      s.inp.length ≤ s.ip) ∧
    (∃ s : State, s.resetPending = false ∧ s.engine = .lzssDec ∧ s.op < s.n.toNat ∧ s.lz.flags = 1 ∧
      s.inp[s.ip]? = some 0x01) :=
  ⟨⟨lz [] 1, by decide⟩, ⟨lz [0x01] 1, by decide⟩⟩

theorem witness_LzFlagsComeLowBitFirst : (7 : Nat) < 8 := by decide

theorem witness_LzLitGoesToOutputAndRing :
    (∃ s : State, s.op < s.n.toNat ∧ Memory.wf s.lz.ring = true ∧ s.resetPending = false ∧ s.engine = .lzssDec ∧
      s.lz.flags ≠ 1 ∧ s.lz.flags.getLsbD 0 = true ∧ s.inp[s.ip]? = some 0x41) ∧
    (∃ s : State, s.op < s.n.toNat ∧ s.resetPending = false ∧ s.engine = .lzssDec ∧
      s.lz.flags ≠ 1 ∧ s.lz.flags.getLsbD 0 = true ∧ s.inp.length ≤ s.ip) :=
  ⟨⟨lzAt [0x01, 0x41] 1 1 0x101 [], by decide⟩, ⟨lzAt [0x01] 1 1 0x101 [], by decide⟩⟩

theorem witness_LzRefCopiesFromTheRing_fetch :
    (∃ s : State, s.resetPending = false ∧ s.engine = .lzssDec ∧ s.op < s.n.toNat ∧ s.lz.flags ≠ 1 ∧
      s.lz.flags.getLsbD 0 = false ∧ s.inp.length ≤ s.ip + 1) ∧
    (∃ s : State, s.resetPending = false ∧ s.engine = .lzssDec ∧ s.op < s.n.toNat ∧ s.lz.flags ≠ 1 ∧
      s.lz.flags.getLsbD 0 = false ∧ s.inp.drop s.ip = 0xBE :: 0xC6 :: [] ∧ s.params.pair = PairLayout.default) :=
  ⟨⟨lzAt [0, 0] 1 3 0x100 [], by decide⟩, ⟨lzAt [0xBE, 0xC6] 0 10 0x080 [0x41], by decide⟩⟩

/-- The longest match, exactly to the end of the output; one byte less room; and, with `off = r`, reads of old ring bytes
and, with `off = r - 1`, of bytes just written (R97, corner cases (b) and (c)). -/
theorem witness_LzRefCopiesFromTheRing_copy :
    (∃ s : State, s.op + ((63 : BitVec 6).toNat + 3) ≤ s.n.toNat ∧ Memory.wf s.lz.ring = true) ∧
    (∃ s : State, s.n.toNat < s.op + ((63 : BitVec 6).toNat + 3)) ∧
    (∀ j, j < 2 → (958 + j) % 1024 ≠ (958 + 2) % 1024) ∧ (958 + 1) % 1024 = (957 + 2) % 1024 :=
  ⟨⟨lz [] 66, by decide⟩, ⟨lz [] 65, by decide⟩, by decide, by decide⟩

theorem witness_SlHdrIsSkipped :
    ∃ s : State, s.resetPending = false ∧ s.engine = .slideHdr := ⟨{ engine := .slideHdr }, by decide⟩

theorem witness_SlCwFetchesACodeword :
    (∃ s : State, s.resetPending = false ∧ s.engine = .slideDec ∧ s.op < s.n.toNat ∧ s.sl.nb = 0 ∧
      s.inp.length < s.ip + 4) ∧
    (∃ s : State, s.resetPending = false ∧ s.engine = .slideDec ∧ s.op < s.n.toNat ∧ s.sl.nb = 0 ∧
      s.inp.drop s.ip = 0x80 :: 0 :: 0 :: 0 :: []) :=
  ⟨⟨slAt [0, 0, 0, 1, 0x80, 0, 0] 4 1 0 0 [], by decide⟩, ⟨slAt [0, 0, 0, 1, 0x80, 0, 0, 0] 4 1 0 0 [], by decide⟩⟩

theorem witness_SlFlagsComeHighBitFirst : (31 : Nat) < 32 := by decide

theorem witness_SlLitGoesToTheOutput :
    (∃ s : State, s.op < s.n.toNat ∧ s.resetPending = false ∧ s.engine = .slideDec ∧ s.sl.nb ≠ 0 ∧
      s.sl.cw.getLsbD 31 = true ∧ s.inp[s.ip]? = some 0x41) ∧
    (∃ s : State, s.op < s.n.toNat ∧ s.resetPending = false ∧ s.engine = .slideDec ∧ s.sl.nb ≠ 0 ∧
      s.sl.cw.getLsbD 31 = true ∧ s.inp.length ≤ s.ip) :=
  ⟨⟨slAt [0x41] 0 1 0x80000000 1 [], by decide⟩, ⟨slAt [] 0 1 0x80000000 1 [], by decide⟩⟩

theorem witness_SlideReferencesReadBackTheOutput_fetch :
    (∃ s : State, s.resetPending = false ∧ s.engine = .slideDec ∧ s.op < s.n.toNat ∧ s.sl.nb ≠ 0 ∧
      s.sl.cw.getLsbD 31 = false ∧ s.inp.length ≤ s.ip + 1) ∧
    (∃ (s : State) (b1 b2 : Byte), s.resetPending = false ∧ s.engine = .slideDec ∧ s.op < s.n.toNat ∧ s.sl.nb ≠ 0 ∧
      s.sl.cw.getLsbD 31 = false ∧ s.inp.drop s.ip = b1 :: b2 :: [] ∧ (b1.toNat &&& 0xF0) >>> 4 = 0) ∧
    (∃ (s : State) (b1 b2 b3 : Byte), s.resetPending = false ∧ s.engine = .slideDec ∧ s.op < s.n.toNat ∧ s.sl.nb ≠ 0 ∧
      s.sl.cw.getLsbD 31 = false ∧ s.inp.drop s.ip = b1 :: b2 :: b3 :: [] ∧ (b1.toNat &&& 0xF0) >>> 4 = 0) ∧
    (∃ (s : State) (b1 b2 : Byte), s.resetPending = false ∧ s.engine = .slideDec ∧ s.op < s.n.toNat ∧ s.sl.nb ≠ 0 ∧
      s.sl.cw.getLsbD 31 = false ∧ s.inp.drop s.ip = b1 :: b2 :: [] ∧ (b1.toNat &&& 0xF0) >>> 4 ≠ 0) :=
  ⟨⟨slAt [0x10] 0 4 0 31 [0x41], by decide⟩, ⟨slAt [0x0F, 0xFF] 0 20 0 31 [0x41], 0x0F, 0xFF, by decide⟩,
   ⟨slAt [0x0F, 0xFF, 0xFF] 0 273 0 32 [], 0x0F, 0xFF, 0xFF, by decide⟩,
   ⟨slAt [0x10, 0x00] 0 4 0 31 [0x41], 0x10, 0x00, by decide⟩⟩

theorem witness_SlideReferencesReadBackTheOutput_copy :
    (∃ s : State, s.n.toNat < s.op + ((15 : BitVec 4).toNat + 2)) ∧
    (∃ s : State, s.n.toNat < s.op + ((255 : Byte).toNat + 18)) ∧
    (∃ s : State, s.op + ((15 : BitVec 4).toNat + 2) ≤ s.n.toNat) ∧
    (∃ s : State, s.op + ((255 : Byte).toNat + 18) ≤ s.n.toNat) :=
  ⟨⟨slAt [] 0 17 0 31 [0x41], by decide⟩, ⟨slAt [] 0 272 0 31 [], by decide⟩, ⟨slAt [] 0 18 0 31 [0x41], by decide⟩,
   ⟨slAt [] 0 273 0 31 [], by decide⟩⟩

theorem witness_RlCopyTakesLiterals :
    (∃ s : State, s.n.toNat < s.op + (127 : BitVec 7).toNat) ∧
    (∃ s : State, s.op + (3 : BitVec 7).toNat ≤ s.n.toNat ∧ (3 : BitVec 7) ≠ 0 ∧
      s.inp.length < s.ip + 1 + (3 : BitVec 7).toNat) ∧
    (∃ s : State, s.op + (0 : BitVec 7).toNat ≤ s.n.toNat ∧ ((0 : BitVec 7) = 0 ∨
      s.ip + 1 + (0 : BitVec 7).toNat ≤ s.inp.length)) ∧
    (∃ s : State, s.op + (3 : BitVec 7).toNat ≤ s.n.toNat ∧ ((3 : BitVec 7) = 0 ∨
      s.ip + 1 + (3 : BitVec 7).toNat ≤ s.inp.length) ∧
      s.resetPending = false ∧ s.engine = .rleDec ∧ s.op < s.n.toNat ∧
      s.inp.drop s.ip = ((1 : BitVec 1) ++ (3 : BitVec 7)) :: [1, 2, 3]) :=
  ⟨⟨rlAt [0xFF] 0 126 [], by decide⟩, ⟨rlAt [0x83, 1, 2] 0 3 [], by decide⟩, ⟨rlAt [] 0 0 [], by decide⟩,
   ⟨rlAt [0x83, 1, 2, 3] 0 3 [], by decide⟩⟩

theorem witness_RlFillRepeatsItsByte :
    (∃ s : State, s.n.toNat < s.op + (127 : BitVec 7).toNat) ∧
    (∃ s : State, s.op + (127 : BitVec 7).toNat ≤ s.n.toNat) ∧
    (∃ s : State, s.resetPending = false ∧ s.engine = .rleDec ∧ s.op < s.n.toNat ∧
      s.inp.drop s.ip = [(0 : BitVec 1) ++ (3 : BitVec 7)]) ∧
    (∃ s : State, s.resetPending = false ∧ s.engine = .rleDec ∧ s.op < s.n.toNat ∧
      s.inp.drop s.ip = ((0 : BitVec 1) ++ (3 : BitVec 7)) :: 0xFF :: []) :=
  ⟨⟨rlAt [] 0 126 [], by decide⟩, ⟨rlAt [] 0 127 [], by decide⟩, ⟨rlAt [0x03] 0 3 [], by decide⟩,
   ⟨rlAt [0x03, 0xFF] 0 3 [], by decide⟩⟩

theorem witness_RleEncAlwaysFaults : (given { inp := [0x41] } []).operands.inp.length < 2 ^ 32 := by decide

theorem witness_DecodersStartFresh : (given { inp := [0x01, 0x41], n := 1 } []).operands.inp.length < 2 ^ 32 ∧
    (1023 : Nat) < 1024 := by decide

theorem witness_EncodersStartFresh :
    (given { inp := [0x41], n := 1 } []).operands.inp.length < 2 ^ 32 ∧
    (given { inp := [0x41], n := 1 } []).operands.n.toNat = (given { inp := [0x41], n := 1 } []).operands.inp.length := by
  decide

/-- Buffers of exactly 2^32 bytes. -/
theorem witness_OperandsWithoutMeaningAreRefused_buffers :
    2 ^ 32 ≤ (given { inp := List.replicate (2 ^ 32) 0 } []).operands.inp.length ∧
    2 ^ 32 ≤ (given { bytes := List.replicate (2 ^ 32) 0 } [held .none []]).operands.bytes.length ∧
    (given { bytes := List.replicate (2 ^ 32) 0 } [held .none []]).operands.index <
      (given { bytes := List.replicate (2 ^ 32) 0 } [held .none []]).store.length := by
  simp only [given, List.length_replicate, List.length_cons, List.length_nil]
  exact ⟨le_refl _, le_refl _, Nat.zero_lt_one⟩

theorem witness_OperandsWithoutMeaningAreRefused_sizes_and_indexes :
    (∃ s : State, s.operands.inp.length < 2 ^ 32 ∧ s.operands.n.toNat ≠ s.operands.inp.length) ∧
    (∃ s : State, s.store.length ≤ s.operands.index) :=
  ⟨⟨given { inp := [0x41], n := 2 } [], by decide⟩, ⟨given { index := 1 } [held .none []], by decide⟩⟩

theorem witness_DecodersReturnExactlyNBytes :
    ∃ s : State, s.resetPending = false ∧ s.task = .host ∧ s.op ≤ s.n.toNat ∧ ¬ s.op < s.n.toNat ∧
      (s.engine = .lzssDec ∨ s.engine = .slideDec ∨ s.engine = .rleDec) :=
  ⟨lzAt [0x01, 0x41] 2 1 0x080 [0x41], by decide⟩

theorem witness_DecoderStepsConsumeInput :
    ∃ s t : State, s.resetPending = false ∧ (s.engine = .lzssDec ∨ s.engine = .slideDec ∨ s.engine = .rleDec) ∧
      step s = .next t ∧ t.engine = s.engine :=
  ⟨rlAt [0x80] 0 1 [], { rlAt [0x80] 1 1 [] with rl := { c := 0x80 } }, by decide, by decide, rfl, by decide⟩

theorem witness_DecodersTerminate :
    ∃ s : State, s.resetPending = false ∧ s.task = .host ∧ s.op ≤ s.n.toNat ∧
      (s.engine = .lzssDec ∨ s.engine = .slideDec ∨ s.engine = .rleDec) :=
  ⟨slAt [0, 0, 0, 1, 0x80, 0, 0, 0, 0x41] 4 1 0 0 [], by decide⟩

theorem witness_TrailingInputIsIgnored :
    ∃ s t : State, s.resetPending = false ∧ (s.engine = .lzssDec ∨ s.engine = .slideDec ∨ s.engine = .rleDec) ∧
      step s = .next t ∧ t.engine = s.engine :=
  ⟨lz [0x01] 1, { lz [0x01] 1 with ip := 1, lz := { LzDec.start with flags := 0x101 } },
   by decide, by decide, rfl, by decide⟩

/-- The input of one byte 0x41, coded as one group; the empty input. -/
theorem witness_EncodersEndWithOk :
    (∃ s : State, s.resetPending = false ∧ s.task = .host ∧
      (s.engine = .lzssEncPrime ∨ s.engine = .lzssEnc ∨ s.engine = .slideEnc)) ∧
    (∃ (s : State) (raw : Bytes), s.resetPending = false ∧ raw.length < 2 ^ 32 ∧ s.params.lzssEncRef = .reference ∧
      s.params.pair.wf = true) ∧
    (∃ (s : State) (raw : Bytes), s.resetPending = false ∧ raw.length < 2 ^ 32 ∧ s.params.lzssEncRef = .other) ∧
    (∃ (s : State) (raw c more : Bytes), s.resetPending = false ∧ encLzss s.params raw c ∧ (c ++ more).length < 2 ^ 32 ∧
      raw ≠ []) ∧
    (∃ (s : State) (more : Bytes), s.resetPending = false ∧ encLzss s.params [] [] ∧ ([] ++ more).length < 2 ^ 32) :=
  ⟨⟨startSlideEnc [0x41] {}, by decide⟩, ⟨{}, [], by decide⟩, ⟨{ params := { lzssEncRef := .other } }, [0x41], by decide⟩,
   ⟨{}, [0x41], [0x01, 0x41], [0x99], rfl, ⟨⟨[[.lzLit 0x41]], by decide, by simp [groupsFull], by decide⟩, ⟨2, _, rfl, by decide⟩, by decide⟩, by decide⟩,
   ⟨{}, [0x99], rfl, ⟨⟨[], rfl, by simp [groupsFull], by decide⟩, ⟨0, _, rfl, by decide⟩, by decide⟩, by decide⟩⟩

/-- The input of one byte 0x41, coded as one group; the empty input. -/
theorem witness_SlideDecodesWhatItEncodes :
    (∃ (s : State) (raw b more : Bytes), s.resetPending = false ∧ s.params.slideEncRef = .reference ∧
      raw.length < 2 ^ 32 ∧ (b ++ more).length < 2 ^ 32) ∧
    (∃ (s : State) (raw : Bytes), s.resetPending = false ∧ s.params.slideEncRef = .other ∧ raw.length < 2 ^ 32) ∧
    (∃ (s : State) (raw c more : Bytes), s.resetPending = false ∧ encSlide s.params raw c ∧ (c ++ more).length < 2 ^ 32 ∧
      raw ≠ []) ∧
    (∃ (s : State) (c more : Bytes), s.resetPending = false ∧ encSlide s.params [] c ∧ (c ++ more).length < 2 ^ 32) :=
  ⟨⟨{}, [0x41], [0, 0, 0, 1, 0x80, 0, 0, 0, 0x41], [0x99], by decide⟩,
   ⟨{ params := { slideEncRef := .other } }, [0x41], by decide⟩,
   ⟨{}, [0x41], [0, 0, 0, 1, 0x80, 0, 0, 0, 0x41], [0x99], rfl,
    ⟨⟨[[.slLit 0x41]], by decide, by simp [groupsFull], by decide, by simp [refsInside]⟩, ⟨2, _, rfl, by decide⟩, by decide⟩, by decide⟩,
   ⟨{}, [0, 0, 0, 0], [0x99], rfl, ⟨⟨[], by decide, by simp [groupsFull], by decide, by simp [refsInside]⟩, ⟨0, _, rfl, by decide⟩, by decide⟩, by decide⟩⟩

/-- The four choices of a round: a pair kept, at the thirty-first token; a literal without a match, at the thirty-second; a
literal before a match longer by 2, the least that is deferred for; a match of the least length that is coded. And the loop's
end with a full codeword but one, and with none begun. -/
theorem witness_SlideDecodesWhatItEncodes_round :
    (∃ s : State, slRoundReady s ∧ slChosen s 3 0 none ∧ s.se.deferred ≠ none ∧ s.se.nb.toNat + 1 < 32 ∧
      0 < s.se.pos ∧ s.se.pos ≤ 0 + 4096) ∧
    (∃ s : State, slRoundReady s ∧ slChosen s 1 0 none ∧ s.se.nb.toNat + 1 = 32) ∧
    (∃ s : State, slRoundReady s ∧ slChosen s 1 0 (some (5, 4))) ∧
    (∃ s : State, slRoundReady s ∧ s.se.deferred = none ∧ slChosen s 3 0 none ∧ 0 < s.se.pos ∧ s.se.pos ≤ 0 + 4096) ∧
    (∃ s : State, s.resetPending = false ∧ s.engine = .slideEnc ∧ s.params.slideEncRef = .reference ∧ s.task = .host ∧
      s.inp.length ≤ s.se.pos ∧ s.se.nb = 31) ∧
    (∃ s : State, s.resetPending = false ∧ s.engine = .slideEnc ∧ s.params.slideEncRef = .reference ∧ s.task = .host ∧
      s.inp.length ≤ s.se.pos ∧ s.se.nb = 0) := by
  unfold slRoundReady slChosen
  exact ⟨⟨slideRound (List.replicate 9 0x41) { pos := 1, nb := 30, deferred := some (3, 0) }, by decide⟩,
    ⟨slideRound [0x41] { nb := 31 }, by decide⟩,
    ⟨slideRound [1, 2, 3, 0, 2, 3, 4, 5, 6, 1, 2, 3, 4, 5, 6] { pos := 9 }, by decide⟩,
    ⟨slideRound [1, 1, 1, 1] { pos := 1 }, by decide⟩,
    ⟨slideRound [0x41] { pos := 1, nb := 31 }, by decide⟩, ⟨slideRound [] {}, by decide⟩⟩

/-- Past the input; the last position; a match of length 2 at distance 1, its greatest length. -/
theorem witness_LongestFindsALongestMatch :
    (∃ (raw : Bytes) (pos : Nat), raw.length ≤ pos) ∧
    (∃ (raw : Bytes) (pos : Nat), pos < raw.length ∧ (longest .nearest raw pos).1 = 0) ∧
    (∃ (raw : Bytes) (pos p len : Nat), pos < raw.length ∧ 0 < (longest .nearest raw pos).1 ∧ p < pos ∧ pos ≤ p + 4096 ∧
      len ≤ 273 ∧ pos + len ≤ raw.length ∧ 0 < len ∧ len = (longest .nearest raw pos).1 ∧
      ∀ j, j < len → raw[p + j]? = raw[pos + j]?) :=
  ⟨⟨[0x41], 1, by decide⟩, ⟨[0x41], 0, by decide⟩, ⟨[0x41, 0x41, 0x41], 1, 0, 2, by decide⟩⟩

/-- The greatest length, and the greatest length that is coded as a literal; `code_buf` at its first and last place; the
first, seventh and eighth token of a group; the first step; a round after the input's end and one at its last byte. -/
theorem witness_LzEncoderCodesLengthsThreeToSixtySix :
    (Links.wf LzEnc.start.lson = true ∧ Links.wf LzEnc.start.rson = true ∧
      ∀ a, LzEnc.start.lsonAt a ≤ 1024 ∧ LzEnc.start.rsonAt a ≤ 1024) ∧
    (∃ e : LzEnc, Memory.wf e.codeBuf = true ∧ e.matchLength.toNat ≤ 66 ∧ 1 ≤ e.codeBufPtr.toNat ∧
      e.codeBufPtr.toNat ≤ 15 ∧ lzTokenLength e = 66 ∧ 3 ≤ (lzTokenLength e).toNat) ∧
    (∃ e : LzEnc, Memory.wf e.codeBuf = true ∧ e.matchLength.toNat ≤ 66 ∧ 1 ≤ e.codeBufPtr.toNat ∧
      e.codeBufPtr.toNat ≤ 15 ∧ lzTokenLength e = 1) ∧
    (∃ s : State, s.le.mask = (1 : Byte) <<< (0 : Nat)) ∧ (∃ s : State, s.le.mask = (1 : Byte) <<< (6 : Nat)) ∧
    (∃ s : State, s.le.mask = 0x80 ∧ Memory.wf s.le.codeBuf = true) ∧
    (∃ s : State, s.resetPending = false ∧ s.engine = .lzssEncPrime ∧ s.params.lzssEncRef = .reference ∧ s.inp ≠ [] ∧
      s.ip = 0 ∧ s.le.len = 0 ∧ s.le.r = 958 ∧ Memory.wf s.le.text = true) ∧
    (∃ s : State, s.resetPending = false ∧ s.engine = .lzssEnc ∧ s.le.len ≠ 0 ∧ Memory.wf s.le.text = true ∧
      (lzTokenLength s.le).toNat = 66 ∧ min 66 (s.inp.length - s.ip) = 0) ∧
    (∃ s : State, s.resetPending = false ∧ s.engine = .lzssEnc ∧ s.le.len ≠ 0 ∧ Memory.wf s.le.text = true ∧
      (lzTokenLength s.le).toNat = 1 ∧ min 1 (s.inp.length - s.ip) = 1) :=
  ⟨⟨by decide, by decide, fun _ => ⟨le_refl _, le_refl _⟩⟩,
   ⟨{ matchLength := 66, len := 66, codeBufPtr := 15 }, by decide⟩,
   ⟨{ matchLength := 66, len := 2, codeBufPtr := 1 }, by decide⟩,
   ⟨{ le := { mask := 1 } }, by decide⟩, ⟨{ le := { mask := 64 } }, by decide⟩, ⟨{ le := { mask := 128 } }, by decide⟩,
   ⟨startLzssEnc [0x41] {}, by decide⟩, ⟨{ engine := .lzssEnc, le := { matchLength := 66, len := 66 } }, by decide⟩,
   ⟨{ engine := .lzssEnc, inp := [0x41, 0x42], ip := 1, le := { len := 1 } }, by decide⟩⟩

/-- A tree of two nodes, the strings of which are zeros; the new string begins 0, 1. -/
def twoNodes : LzEnc := { text := [(301, 1)], rson := [(50, 60), (1025, 50)], dad := [(50, 1025), (60, 50)] }

/-- A descent to the second of two nodes, below which it ends; a tree with no node; a string that agrees in full; a deletion
of a position that stands in no tree, and of one that does; an advance. -/
theorem witness_LzEncoderCodesLengthsThreeToSixtySix_descent :
    (Links.wf twoNodes.lson = true ∧ Links.wf twoNodes.rson = true ∧ Links.wf twoNodes.dad = true ∧
      (∀ a, twoNodes.lsonAt a ≤ 1024 ∧ twoNodes.rsonAt a ≤ 1024) ∧
      descends twoNodes 300 (fun i => if i = 0 then 50 else 60) 1 ∧ goesOnTo twoNodes 300 60 1024) ∧
    LzEnc.start.rsonAt (1025 + (LzEnc.start.textAt 100).toNat) = 1024 ∧
    (descends twoNodes 200 (fun _ => 50) 0 ∧ ∀ j, 1 ≤ j → j < 66 → twoNodes.textAt (50 + j) = twoNodes.textAt (200 + j)) ∧
    (twoNodes.dadAt 70 = 1024 ∧ twoNodes.dadAt 60 ≠ 1024) ∧ (∃ s : State, s.le.len ≠ 0) := by
  have g : ∀ x y, x = 50 ∧ y = 60 ∨ x = 60 ∧ y = 1024 → goesOnTo twoNodes 300 x y := by
    rintro x y (⟨rfl, rfl⟩ | ⟨rfl, rfl⟩) <;> exact ⟨1, by decide, by decide, fun j _ _ => by omega, by decide, by decide⟩
  refine ⟨⟨by decide, by decide, by decide, fun a => ⟨le_refl _, ?_⟩, ⟨by decide, ?_, ?_⟩, g _ _ (.inr ⟨rfl, rfl⟩)⟩,
    by decide, ⟨⟨by decide, fun _ _ => by norm_num, fun i h => absurd h (by omega)⟩, by decide⟩, by decide,
    ⟨{ le := { len := 1 } }, by decide⟩⟩
  · simp only [twoNodes, LzEnc.rsonAt, Links.read, Table.read]; split_ifs <;> decide
  · intro i _; show (if i = 0 then 50 else 60) ≠ 1024; split_ifs <;> decide
  · intro i h; obtain rfl : i = 0 := by omega
    exact g _ _ (.inl ⟨rfl, rfl⟩)

/-- A tree with a node: two positions with the same text are found to match to their full length. -/
theorem witness_LzEncoderCodesLengthsThreeToSixtySix_match :
    (insertNode 100 (insertNode 50 LzEnc.start)).matchLength.toNat = 66 ∧
    (insertNode 100 (insertNode 50 LzEnc.start)).matchPosition = 50 := by decide

theorem witness_ArcIndexReadsTheOffsets :
    (∃ s : State, (2 : Word) ≠ 0 ∧ s.inp.length < 4 + 4 * (2 : Word).toNat) ∧
    (∃ s : State, (1 : Word) = 0 ∨ 4 + 4 * (1 : Word).toNat ≤ s.inp.length) :=
  ⟨⟨{ engine := .arcIndex, inp := [0, 0, 0, 2, 0, 0, 0, 8, 0, 0, 0] }, by decide⟩,
   ⟨{ engine := .arcIndex, inp := [0, 0, 0, 1, 0, 0, 0, 8] }, by decide⟩⟩

/-- A last entry that ends exactly at its header's end; one that begins a byte later; an end beyond the buffer. -/
theorem witness_EntryHeadersAreTakenIn :
    (∃ (s : State) (off : Word) (stop : Nat), (s.task = .load ∨ s.task = .loadUnpack) ∧
      s.arc.offsets[s.arc.i]? = some off ∧ stop = ((s.arc.offsets[s.arc.i + 1]?).map BitVec.toNat).getD s.inp.length ∧
      stop ≤ s.inp.length ∧ off.toNat + 8 ≤ stop) ∧
    (∃ (s : State) (off : Word) (stop : Nat), (s.task = .load ∨ s.task = .loadUnpack) ∧
      s.arc.offsets[s.arc.i]? = some off ∧ stop = ((s.arc.offsets[s.arc.i + 1]?).map BitVec.toNat).getD s.inp.length ∧
      stop ≤ s.inp.length ∧ stop < off.toNat + 8) ∧
    (∃ (s : State) (off : Word) (stop : Nat), (s.task = .load ∨ s.task = .loadUnpack) ∧
      s.arc.offsets[s.arc.i]? = some off ∧ stop = ((s.arc.offsets[s.arc.i + 1]?).map BitVec.toNat).getD s.inp.length ∧
      s.inp.length < stop) :=
  ⟨⟨{ task := .load, inp := List.replicate 16 0, arc := { count := 1, offsets := [8] } }, 8, 16, by decide⟩,
   ⟨{ task := .loadUnpack, inp := List.replicate 16 0, arc := { count := 1, offsets := [9] } }, 9, 16, by decide⟩,
   ⟨{ task := .load, inp := List.replicate 20 0, arc := { count := 2, offsets := [12, 21] } }, 12, 21, by decide⟩⟩

theorem witness_LoadReplacesTheContainer :
    (given { inp := oneEntry } []).operands.inp.length < 2 ^ 32 ∧
    (∃ s : State, s.resetPending = false ∧ s.engine = .arcEntries ∧ s.task = .load ∧ ¬ s.arc.i < s.arc.count.toNat) :=
  ⟨by decide, { loop .load [raw .none 2 [0x68, 0x69]] with arc := { count := 1, i := 1 } }, by decide⟩

theorem witness_UnpackLoadsThenDecodesEveryEntry :
    (given { inp := oneEntry } []).operands.inp.length < 2 ^ 32 ∧
    (∃ s : State, s.resetPending = false ∧ s.engine = .arcEntries ∧ s.task = .loadUnpack ∧
      ¬ s.arc.i < s.arc.count.toNat) ∧
    (∃ (s : State) (e : Entry), s.resetPending = false ∧ s.engine = .arcEntries ∧ s.task = .unpack ∧
      s.arc.work[s.arc.i]? = some e ∧ e.st = .unloaded) ∧
    (∃ (s : State) (e : Entry), s.resetPending = false ∧ s.engine = .arcEntries ∧ s.task = .unpack ∧
      s.arc.work[s.arc.i]? = some e ∧ e.st ≠ .unloaded) ∧
    (∃ s : State, s.resetPending = false ∧ s.engine = .arcEntries ∧ s.task = .unpack ∧ s.arc.work.length ≤ s.arc.i) ∧
    (∃ (s : State) (e : Entry), s.resetPending = false ∧
      (s.engine = .lzssDec ∨ s.engine = .slideDec ∨ s.engine = .rleDec) ∧ s.task = .unpack ∧ ¬ s.op < s.n.toNat ∧
      s.arc.work[s.arc.i]? = some e) :=
  ⟨by decide, ⟨loop .loadUnpack [], by decide⟩, ⟨loop .unpack [raw .lzss 1 [1, 0x41]], raw .lzss 1 [1, 0x41], by decide⟩,
   ⟨loop .unpack [held .none [1]], held .none [1], by decide⟩, ⟨loop .unpack [], by decide⟩,
   ⟨decoded .unpack, raw .lzss 1 [0x01, 0x41], by decide⟩⟩

theorem witness_DecodeDispatchRunsTheCodec :
    ∃ (s : State) (e : Entry), s.task.isDecode = true ∧ s.arc.work[s.arc.i]? = some e ∧ e.raw.length < 2 ^ 32 ∧
      s.params.flideIsSlide = true :=
  ⟨loop .decode [raw .lzss 1 [0x01, 0x41]], raw .lzss 1 [0x01, 0x41], by decide⟩

theorem witness_KindsWithoutACodecFault :
    (∃ (s : State) (e : Entry), s.task.isDecode = true ∧ s.arc.work[s.arc.i]? = some e ∧ s.params.flideIsSlide = false) ∧
    (∃ (s : State) (d : Bytes), s.task = .saveEncode ∧ s.arc.d[s.arc.i]? = some d ∧ s.params.flideIsSlide = false) :=
  ⟨⟨{ loop .read [raw .flideVariantA 1 []] with params := { flideIsSlide := false } }, raw .flideVariantA 1 [], by decide⟩,
   ⟨{ encoding .flideVariantB [1] with params := { flideIsSlide := false } }, [1], by decide⟩⟩

/-- Exactly `size` raw bytes, in each pass that decodes, and one fewer. -/
theorem witness_NoneEntryDecodesToItsFirstBytes :
    (∀ task ∈ [Task.decode, .read, .unpack, .saveDecode], ∃ (s : State) (e : Entry), s.task = task ∧
      s.task.isDecode = true ∧ s.arc.work[s.arc.i]? = some e ∧ (2 : Word).toNat ≤ e.raw.length) ∧
    (∃ (s : State) (e : Entry), s.task.isDecode = true ∧ s.arc.work[s.arc.i]? = some e ∧
      e.raw.length < (2 : Word).toNat) := by
  refine ⟨fun task h => ⟨loop task [raw .none 2 [1, 2]], raw .none 2 [1, 2], rfl, ?_, rfl, by decide⟩,
    ⟨loop .decode [raw .none 2 [1]], raw .none 2 [1], by decide⟩⟩
  revert task; decide

/-- What the external functions return is not known: one of the cases holds, whichever it is. -/
theorem witness_InflateGoesToTheExternalFunctions :
    (∃ (s : State) (e : Entry) (size : Word), s.task.isDecode = true ∧ s.arc.work[s.arc.i]? = some e ∧
      ((∃ k, Config.zDecode e.raw size = .fault k) ∨
       (∃ d, Config.zDecode e.raw size = .ok d ∧ d.length ≠ size.toNat) ∨
       ∃ d, Config.zDecode e.raw size = .ok d ∧ d.length = size.toNat)) ∧
    (∃ (s : State) (d : Bytes), s.task = .saveEncode ∧ s.arc.d[s.arc.i]? = some d ∧
      ((∃ k, Config.zEncode d = .fault k) ∨ ∃ c, Config.zEncode d = .ok c)) := by
  refine ⟨⟨loop .decode [raw .inflate 1 [1]], raw .inflate 1 [1], 1, by decide, by decide, ?_⟩,
    ⟨encoding .inflate [1], [1], by decide, by decide, ?_⟩⟩
  · rcases h : Config.zDecode (raw .inflate 1 [1]).raw 1 with d | k
    · by_cases hd : d.length = (1 : Word).toNat
      · exact .inr (.inr ⟨d, rfl, hd⟩)
      · exact .inr (.inl ⟨d, rfl, hd⟩)
    · exact .inl ⟨k, rfl⟩
  · rcases h : Config.zEncode [1] with c | k
    · exact .inr ⟨c, rfl⟩
    · exact .inl ⟨k, rfl⟩

theorem witness_DecodeCommandsUseTheCache :
    (∃ (s : State) (e : Entry), s.store[s.operands.index]? = some e ∧ e.st = .unloaded) ∧
    (∃ (s : State) (e : Entry) (d : Bytes), s.store[s.operands.index]? = some e ∧ e.st ≠ .unloaded ∧ e.data = some d) :=
  ⟨⟨given { index := 0 } [raw .lzss 1 [0x01, 0x41]], raw .lzss 1 [0x01, 0x41], by decide⟩,
   ⟨given { index := 1 } [raw .none 0 [], held .none [1]], held .none [1], [1], by decide⟩⟩

theorem witness_DecodedBytesAreCached :
    ∀ task ∈ [Task.decode, .read, .unpack, .saveDecode], ∃ (s : State) (e : Entry), s.task = task ∧
      s.resetPending = false ∧ (s.engine = .lzssDec ∨ s.engine = .slideDec ∨ s.engine = .rleDec) ∧
      ¬ s.op < s.n.toNat ∧ s.task.isDecode = true ∧ s.arc.work[s.arc.i]? = some e := by
  refine fun task h => ⟨decoded task, raw .lzss 1 [0x01, 0x41], rfl, rfl, .inl rfl, by show ¬ 1 < 1; decide, ?_, rfl⟩
  revert task; decide

theorem witness_SaveChecksTheKindsFirst :
    (∃ s : State, ∃ e ∈ s.store, e.kind = .rle) ∧ (∃ s : State, ∃ e ∈ s.store, e.kind = .unknown 6) ∧
    (∃ s : State, s.params.flideIsSlide = false ∧ ∃ e ∈ s.store, e.kind = .flideVariantA) ∧
    (∃ s : State, s.store.length = 2 ∧ s.params.flideIsSlide = true ∧
      ∀ e ∈ s.store, e.kind = .flideVariantB ∨ e.kind = .lzss) :=
  ⟨⟨given {} [held .lzss [1], held .rle [1]], by decide⟩, ⟨given {} [held (.unknown 6) [1]], by decide⟩,
   ⟨{ given {} [held .flideVariantA [1]] with params := { flideIsSlide := false } }, by decide⟩,
   ⟨given {} [held .flideVariantB [1], held .lzss [1]], by decide⟩⟩

theorem witness_EncodeDispatchRunsTheCodec :
    ∃ (s : State) (d : Bytes), s.task = .saveEncode ∧ s.arc.d[s.arc.i]? = some d ∧ d.length < 2 ^ 32 ∧
      s.params.flideIsSlide = true :=
  ⟨encoding .slide [0x41], [0x41], by decide⟩

/-- Each encoder at its end: LZSS with empty input, another LZSS function, LZSS, Slide, another Slide function. -/
theorem witness_EncodeDispatchRunsTheCodec_return :
    encoderReturns { encoding .lzss [] with engine := .lzssEncPrime } [] ∧
    encoderReturns { encoding .lzss [1] with engine := .lzssEncPrime, params := { lzssEncRef := .other }, inp := [1] }
      (Config.lzssEncOther [1]) ∧
    encoderReturns { encoding .lzss [1] with engine := .lzssEnc, le := { codeBuf := [(0, 1), (1, 1)], codeBufPtr := 2 } }
      [1, 1] ∧
    encoderReturns { encoding .slide [] with engine := .slideEnc, out := [0, 0, 0, 0] } [0, 0, 0, 0] ∧
    encoderReturns { encoding .slide [1] with engine := .slideEnc, params := { slideEncRef := .other }, inp := [1] }
      (Config.slideEncOther [1]) :=
  ⟨.inl (by decide), .inr (.inl ⟨rfl, rfl, rfl⟩), .inr (.inr (.inl (by decide))),
   .inr (.inr (.inr (.inl (by decide)))), .inr (.inr (.inr (.inr ⟨rfl, rfl, rfl⟩)))⟩

theorem witness_SaveCommitsEveryEntry :
    ∃ s : State, s.resetPending = false ∧ s.engine = .arcEntries ∧ s.task = .saveDecode ∧
      s.arc.i = s.arc.work.length ∧ s.arc.d.length = s.arc.work.length ∧ s.arc.c.length = s.arc.work.length ∧
      (layout s.params s.arc.work s.arc.d s.arc.c).length < 2 ^ 32 :=
  ⟨{ loop .saveDecode [held .none [0x68]] with
      arc := { work := [held .none [0x68]], i := 1, d := [[0x68]], c := [[0x68]] } }, by decide⟩

theorem witness_SaveCommitsEveryEntry_pass_two :
    (∃ (s : State) (e : Entry), s.resetPending = false ∧ s.engine = .arcEntries ∧ s.task = .saveDecode ∧
      s.arc.work[s.arc.i]? = some e ∧ e.st = .unloaded) ∧
    (∃ (s : State) (e : Entry), s.resetPending = false ∧ s.engine = .arcEntries ∧ s.task = .saveDecode ∧
      s.arc.work[s.arc.i]? = some e ∧ e.st ≠ .unloaded ∧ e.data = some [0x68]) :=
  ⟨⟨loop .saveDecode [raw .none 1 [0x68]], raw .none 1 [0x68], by decide⟩,
   ⟨loop .saveDecode [held .none [0x68]], held .none [0x68], by decide⟩⟩

theorem layout_one_entry_length (x : Bytes) : (layout {} [held .none []] [[]] [x]).length = 16 + x.length := by
  simp [layout, layoutOffsets, layoutBody, alignUp, beBytes, entryHeader, held]
  omega

/-- One entry whose coded bytes are 2^32 - 16 bytes long: the sixteen bytes before them make it 2^32. -/
theorem witness_SaveCommitsEveryEntry_too_long :
    ∃ x : Bytes, 2 ^ 32 ≤ (layout {} [held .none []] [[]] [x]).length :=
  ⟨List.replicate (2 ^ 32 - 16) 0, by rw [layout_one_entry_length, List.length_replicate]; omega⟩

theorem witness_SavedContainerLoadsAgain :
    ∃ (p : Params) (es : List Entry) (ds cs : List Bytes), 0 < p.entryAlign ∧ ds.length = es.length ∧
      cs.length = es.length ∧ (layout p es ds cs).length < 2 ^ 32 ∧ es.length = 2 :=
  ⟨{ entryAlign := 4 }, [held .lzss [0x41], held .none [0x68]], [[0x41], [0x68]], [[0x01, 0x41], [0x68]], by decide⟩

theorem witness_AddAppendsADecodedEntry :
    (given { name := ['a', '.', 'l', 'z'], bytes := [0x41] } []).operands.bytes.length < 2 ^ 32 := by decide

/-- A name that ends with no suffix. -/
theorem witness_AddAppendsADecodedEntry_no_suffix :
    ∀ x : Name, (['c'] : Name) ≠ x ++ ['.', 'l', 'z'] ∧ (['c'] : Name) ≠ x ++ ['.', 's'] ∧
      (['c'] : Name) ≠ x ++ ['.', 'f', 's'] ∧ (['c'] : Name) ≠ x ++ ['.', 'f', 's', 'a'] ∧
      (['c'] : Name) ≠ x ++ ['.', 'z'] := by
  refine fun x => ⟨?_, ?_, ?_, ?_, ?_⟩ <;> intro h <;> simpa using congrArg List.length h

theorem witness_DelRemovesTheEntry :
    ∃ s : State, s.operands.index < s.store.length := ⟨given { index := 0 } [held .none [1]], by decide⟩

theorem witness_ReplaceSetsTheData :
    ∃ (s : State) (e : Entry), s.operands.bytes.length < 2 ^ 32 ∧ s.store[s.operands.index]? = some e :=
  ⟨given { index := 0, bytes := [0x42, 0x42] } [raw .lzss 1 []], raw .lzss 1 [], by decide⟩

/-- One running decoder that meets all five invariants, and its step. -/
theorem witness_invariants :
    ∃ s t : State, memoriesCanonical s ∧ ringFollowsOutput s ∧ idleHoldsNoScratch s ∧ statusTellsResult s = true ∧
      entriesSound s ∧ s.engine = .lzssDec ∧ step s = .next t :=
  ⟨lz [0x01] 1, { lz [0x01] 1 with ip := 1, lz := { LzDec.start with flags := 0x101 } },
   by decide, by decide, by decide, by decide, by decide, by decide, rfl⟩

theorem witness_NamesChangeNothingElse :
    (∃ s t : State, step s = .next t ∧ ∃ e ∈ s.store, e.name ≠ []) ∧
    (∃ (s : State) (f : Fault), step s = .fault f) ∧ (∃ (s : State) (r : Refusal), step s = .refused r) :=
  ⟨⟨{ store := [{ held .none [1] with name := ['x'] }] }, { store := [{ held .none [1] with name := ['x'] }] },
    rfl, by decide⟩,
   ⟨{ engine := .arcEntries }, .strayEntry, rfl⟩, ⟨asked 0x18 {} [], .secondContainerShape, rfl⟩⟩

end Sys2Proof.Tests
end

section
/-! The facts about one step that the statements below rest on: when a decode runs out of bytes, what each engine
fetches, and what becomes of a codec's result. -/

namespace Sys2Proof

/-! ## When a decode runs out of bytes (R17, R88, R148) -/

section
variable {p : Params} {bs : Bytes}

theorem decode_lzFlag_truncated_iff : decode p .lzFlag bs = .truncated ↔ bs.length < 1 := by
  cases bs <;> simp [decode, decodeLzFlag]

theorem decode_lzToken_true_truncated_iff : decode p (.lzToken true) bs = .truncated ↔ bs.length < 1 := by
  cases bs <;> simp [decode, decodeLzLit]

theorem decode_lzToken_false_truncated_iff : decode p (.lzToken false) bs = .truncated ↔ bs.length < 2 := by
  rcases bs with _ | ⟨b1, _ | ⟨b2, rest⟩⟩ <;> simp [decode, decodeLzRef]

theorem decode_slCodeword_truncated_iff : decode p .slCodeword bs = .truncated ↔ bs.length < 4 := by
  rcases bs with _ | ⟨a, _ | ⟨b, _ | ⟨c, _ | ⟨d, rest⟩⟩⟩⟩ <;> simp [decode, decodeSlCw]

theorem decode_slToken_true_truncated_iff : decode p (.slToken true) bs = .truncated ↔ bs.length < 1 := by
  cases bs <;> simp [decode, decodeSlLit]

/-- The high nibble of the first byte tells whether the reference has a third byte (R76, R77). -/
theorem decode_slToken_false_truncated_iff :
    decode p (.slToken false) bs = .truncated ↔
      bs.length < if (bs.getD 0 0).extractLsb' 4 4 = 0 then 3 else 2 := by
  rcases bs with _ | ⟨b1, _ | ⟨b2, rest⟩⟩
  · simp [decode, decodeSlRef]
  · by_cases hn : b1.extractLsb' 4 4 = 0#4 <;> simp [decode, decodeSlRef, hn]
  · by_cases hn : b1.extractLsb' 4 4 = 0#4
    · cases rest <;> simp [decode, decodeSlRef, hn]
    · simp [decode, decodeSlRef, hn]

/-- Bit 7 of the control byte tells whether a value byte follows (R81, R82). -/
theorem decode_rlToken_truncated_iff :
    decode p .rlToken bs = .truncated ↔ bs.length < if (bs.getD 0 0).getLsbD 7 then 1 else 2 := by
  rcases bs with _ | ⟨c, rest⟩
  · simp [decode, decodeRl]
  · cases hc : c.getLsbD 7
    · cases rest <;> simp [decode, decodeRl, hc, -BitVec.getLsbD_eq_getElem]
    · simp [decode, decodeRl, hc, -BitVec.getLsbD_eq_getElem]

theorem decode_arcIndex_truncated_iff : decode p .arcIndex bs = .truncated ↔ bs.length < 4 := by
  rcases bs with _ | ⟨a, _ | ⟨b, _ | ⟨c, _ | ⟨d, rest⟩⟩⟩⟩ <;> simp [decode, decodeArcIndex]

theorem decode_arcEntry_truncated_iff : decode p .arcEntry bs = .truncated ↔ bs.length < 8 := by
  rcases bs with _ | ⟨a, _ | ⟨b, _ | ⟨c, _ | ⟨d, _ | ⟨e, _ | ⟨f, _ | ⟨g, _ | ⟨h, rest⟩⟩⟩⟩⟩⟩⟩⟩ <;>
    simp [decode, decodeArcEntry]

/-- A token of either flag needs a byte. -/
theorem decode_lzToken_nil (flag : Bool) : decode p (.lzToken flag) [] = .truncated := by cases flag <;> rfl

/-- A token of either flag needs a byte. -/
theorem decode_slToken_nil (flag : Bool) : decode p (.slToken flag) [] = .truncated := by cases flag <;> rfl

end

end Sys2Proof
end

section
namespace Sys2Proof.Machine

/-! ## From a fetch to the step -/

section
variable {s u : State} {i : Instr} {d : Decoded} {a : Answer}

theorem step_of_fetch_run (hr : s.resetPending = false) (hf : fetch s = .run i u) : step s = exec i u := by
  simp [step, hr, hf]

theorem step_of_fetch_auto (hr : s.resetPending = false) (hf : fetch s = .auto a) : step s = a := by
  simp [step, hr, hf]

/-- The step runs what the fetch has decoded (R19). -/
theorem step_of_decoded (hr : s.resetPending = false) (hf : fetch s = runDecoded d u) (hd : d = .instr i) :
    step s = exec i u := step_of_fetch_run hr (by rw [hf, hd]; rfl)

/-- The step faults where the fetch has run out of bytes (R17, R148); what the fetch did to the scratch state, as taking a
flag, is dropped with it (R152). -/
theorem step_of_truncated (hr : s.resetPending = false) (hf : fetch s = runDecoded d u)
    (hu : dropScratch u = dropScratch s) (hd : d = .truncated) : step s = .next (raise .truncatedInputError s) := by
  refine step_of_fetch_auto hr ?_
  rw [hf, hd, runDecoded, raise, hu, raise]

end

/-! ## What each engine fetches -/

section
variable {s : State}

/-- R39, R161. -/
theorem fetch_request {q : Request} {rest : List Request} (he : s.engine = .idle) (hq : s.requests = q :: rest) :
    fetch s = runDecoded (decode s.params .command [q.code]) (present q rest s) := by
  simp [fetch, he, fetchCommand, hq]

/-- R94: no flag is left. -/
theorem fetch_lzFlag (he : s.engine = .lzssDec) (ho : s.op < s.n.toNat) (hf : s.lz.flags = 1) :
    fetch s = runDecoded (decode s.params .lzFlag (inputAtCursor s)) s := by
  have hb : lzFlagsEmpty s = true := decide_eq_true hf
  simp [fetch, he, fetchLzss, ho, hb]

/-- R94: a flag is taken, and the token it tells follows. -/
theorem fetch_lzToken (he : s.engine = .lzssDec) (ho : s.op < s.n.toNat) (hf : s.lz.flags ≠ 1) :
    fetch s = runDecoded (decode s.params (.lzToken (lzFlag s)) (inputAtCursor s)) (lzTake s) := by
  have hb : lzFlagsEmpty s = false := decide_eq_false hf
  simp [fetch, he, fetchLzss, ho, hb]

/-- R107. -/
theorem fetch_slHeader (he : s.engine = .slideHdr) : fetch s = .run (.slHdr (headerWord s.inp)) s := by
  simp [fetch, he, fetchSlideHeader, decode, runDecoded]

/-- R106: no flag is left. -/
theorem fetch_slCodeword (he : s.engine = .slideDec) (ho : s.op < s.n.toNat) (hf : s.sl.nb = 0) :
    fetch s = runDecoded (decode s.params .slCodeword (inputAtCursor s)) s := by
  have hb : slFlagsEmpty s = true := decide_eq_true hf
  simp [fetch, he, fetchSlide, ho, hb]

/-- R106: a flag is taken, and the token it tells follows. -/
theorem fetch_slToken (he : s.engine = .slideDec) (ho : s.op < s.n.toNat) (hf : s.sl.nb ≠ 0) :
    fetch s = runDecoded (decode s.params (.slToken (slFlag s)) (inputAtCursor s)) (slTake s) := by
  have hb : slFlagsEmpty s = false := decide_eq_false hf
  simp [fetch, he, fetchSlide, ho, hb]

/-- R119. -/
theorem fetch_rlToken (he : s.engine = .rleDec) (ho : s.op < s.n.toNat) :
    fetch s = runDecoded (decode s.params .rlToken (inputAtCursor s)) s := by
  simp [fetch, he, fetchRle, ho]

/-- R125. -/
theorem fetch_arcIndex (he : s.engine = .arcIndex) :
    fetch s = runDecoded (decode s.params .arcIndex s.inp) s := by
  simp [fetch, he, fetchIndex]

/-- R125: a load meets the header at the entry's offset. -/
theorem fetch_arcEntry {off : Word} (he : s.engine = .arcEntries) (ht : s.task = .load ∨ s.task = .loadUnpack)
    (hi : s.arc.i < s.arc.count.toNat) (ho : s.arc.offsets[s.arc.i]? = some off) :
    fetch s = runDecoded (decode s.params .arcEntry (s.inp.drop off.toNat)) s := by
  rcases ht with ht | ht <;> simp [fetch, he, fetchEntries, ht, fetchHeader, hi, ho]

/-- R128, R133, R135: the other passes meet a stored entry as the header of its kind and size, `ARC.UNPACK` and the
decodes of a save only while it is `Unloaded`. -/
theorem fetch_storedEntry {e : Entry} (he : s.engine = .arcEntries) (hw : s.arc.work[s.arc.i]? = some e)
    (ht : s.task = .decode ∨ s.task = .read ∨ s.task = .saveEncode ∨
      (s.task = .unpack ∧ e.st = .unloaded) ∨ (s.task = .saveDecode ∧ e.st = .unloaded)) :
    fetch s = .run (storedEntryInstr e) s := by
  rcases ht with ht | ht | ht | ⟨ht, hst⟩ | ⟨ht, hst⟩
  · simp [fetch, he, fetchEntries, ht, hw]
  · simp [fetch, he, fetchEntries, ht, hw]
  · simp [fetch, he, fetchEntries, ht, hw]
  · simp [fetch, he, fetchEntries, ht, hw, hst]
  · simp [fetch, he, fetchEntries, ht, hw, hst]

end

/-! ## Limits, entry headers, the return of a codec -/

theorem withinLimit_of_lt {b : Bytes} {k : Answer} (h : b.length < 2 ^ 32) : withinLimit b k = k :=
  if_pos h

theorem withinLimit_of_le {b : Bytes} {k : Answer} (h : 2 ^ 32 ≤ b.length) :
    withinLimit b k = .refused .bufferTooLong :=
  if_neg (Nat.not_lt.mpr h)

section
variable {s : State}

/-- A save's encode runs `EncodeBy` on the payload gathered for the entry (R134). -/
theorem entryPass_of_saveEncode {load : Answer} {dec enc : Bytes → Answer} {d : Bytes} (ht : s.task = .saveEncode)
    (hd : s.arc.d[s.arc.i]? = some d) : entryPass s load dec enc = enc d := by
  simp [entryPass, ht, hd]

section
variable {d : Bytes} {size : Word}

theorem exec_entryNone_of_saveEncode (ht : s.task = .saveEncode) (hd : s.arc.d[s.arc.i]? = some d) :
    exec (.entryNone size) s = encodeReturn d s := by
  rw [exec, execEntryNone, entryPass_of_saveEncode ht hd]

theorem exec_entryLzss_of_saveEncode (ht : s.task = .saveEncode) (hd : s.arc.d[s.arc.i]? = some d) :
    exec (.entryLzss size) s = .next (startLzssEnc d s) := by
  rw [exec, execEntryLzss, entryPass_of_saveEncode ht hd]

theorem exec_entrySlide_of_saveEncode (ht : s.task = .saveEncode) (hd : s.arc.d[s.arc.i]? = some d) :
    exec (.entrySlide size) s = .next (startSlideEnc d s) := by
  rw [exec, execEntrySlide, entryPass_of_saveEncode ht hd]

/-- Under `FLIDE_IS_SLIDE` the Flide variants encode as Slide does. -/
theorem flideEntry_of_saveEncode {kind : Kind} (ht : s.task = .saveEncode) (hd : s.arc.d[s.arc.i]? = some d)
    (hp : s.params.flideIsSlide = true) : flideEntry kind size s = .next (startSlideEnc d s) := by
  rw [flideEntry, entryPass_of_saveEncode ht hd, if_pos hp]

end

theorem codecReturn_of_host {b : Bytes} (ht : s.task = .host) :
    codecReturn b s = .next (finish (.bytes b) s) := by
  simp [codecReturn, ht]

theorem codecReturn_of_saveEncode {b : Bytes} (ht : s.task = .saveEncode) :
    codecReturn b s = encodeReturn b s := by
  simp [codecReturn, ht]

/-- With no input left the lookahead takes no byte in (R104). -/
theorem lzFill_of_end (m : Nat) (h : s.inp.length ≤ s.ip) : lzFill m s = s := by
  cases m with
  | zero => rfl
  | succ m =>
    have hb : inputByte s = none := List.getElem?_eq_none h
    simp [lzFill, hb]

end

end Sys2Proof.Machine
end

section
/-! The statements on what a step fetches, on operands without a meaning, and on `EncodeBy`. -/

open Sys2Proof.Claims

namespace Sys2Proof.Machine

/-- Settles O5: each engine's fetch hands the decoded instruction on with the state the clause names. -/
theorem stepRunsTheDecodedInstruction : Obligations.StepRunsTheDecodedInstruction := by
  intro s i hr
  refine ⟨?command, ?lzFlag, ?lzToken, ?slHeader, ?slCodeword, ?slToken, ?rlToken, ?arcIndex, ?arcEntry, ?stored⟩
  case command => exact fun q rest he hq hd => step_of_decoded hr (fetch_request he hq) hd
  case lzFlag => exact fun he ho hf hd => step_of_decoded hr (fetch_lzFlag he ho hf) hd
  case lzToken => exact fun he ho hf hd => step_of_decoded hr (fetch_lzToken he ho hf) hd
  case slHeader =>
    rintro he rfl
    exact step_of_fetch_run hr (fetch_slHeader he)
  case slCodeword => exact fun he ho hf hd => step_of_decoded hr (fetch_slCodeword he ho hf) hd
  case slToken => exact fun he ho hf hd => step_of_decoded hr (fetch_slToken he ho hf) hd
  case rlToken => exact fun he ho hd => step_of_decoded hr (fetch_rlToken he ho) hd
  case arcIndex => exact fun he hd => step_of_decoded hr (fetch_arcIndex he) hd
  case arcEntry => exact fun off he ht hi ho hd => step_of_decoded hr (fetch_arcEntry he ht hi ho) hd
  case stored =>
    rintro e he hw rfl ht
    exact step_of_fetch_run hr (fetch_storedEntry he hw ht)

/-- Settles O6: the decode of each fetch is out of bytes. -/
theorem stepFaultsWhereTheInputEnds : Obligations.StepFaultsWhereTheInputEnds := by
  intro s hr
  have hlen : (inputAtCursor s).length = s.inp.length - s.ip := List.length_drop
  have hnil (h : s.inp.length ≤ s.ip) : inputAtCursor s = [] := List.drop_eq_nil_of_le h
  refine ⟨?lzFlag, ?lzToken, ?lzRef, ?slCodeword, ?slToken, ?slRef, ?slRef3, ?rlToken, ?rlFill, ?arcIndex, ?arcEntry⟩
  case lzFlag =>
    intro he ho hf h
    exact step_of_truncated hr (fetch_lzFlag he ho hf) rfl (decode_lzFlag_truncated_iff.mpr (by omega))
  case lzToken =>
    intro he ho hf h
    exact step_of_truncated hr (fetch_lzToken he ho hf) rfl (by rw [hnil h, decode_lzToken_nil])
  case lzRef =>
    intro he ho hf (hflag : lzFlag s = false) h
    refine step_of_truncated hr (fetch_lzToken he ho hf) rfl ?_
    rw [hflag]
    exact decode_lzToken_false_truncated_iff.mpr (by omega)
  case slCodeword =>
    intro he ho hf h
    exact step_of_truncated hr (fetch_slCodeword he ho hf) rfl (decode_slCodeword_truncated_iff.mpr (by omega))
  case slToken =>
    intro he ho hf h
    exact step_of_truncated hr (fetch_slToken he ho hf) rfl (by rw [hnil h, decode_slToken_nil])
  case slRef =>
    intro he ho hf (hflag : slFlag s = false) h
    refine step_of_truncated hr (fetch_slToken he ho hf) rfl ?_
    rw [hflag]
    exact decode_slToken_false_truncated_iff.mpr (by split <;> omega)
  case slRef3 =>
    rintro he ho hf (hflag : slFlag s = false) ⟨b1, b2, hb : inputAtCursor s = _, hnib⟩
    refine step_of_truncated hr (fetch_slToken he ho hf) rfl ?_
    rw [hflag, hb]
    exact decode_slToken_false_truncated_iff.mpr (by simp [hnib])
  case rlToken =>
    intro he ho h
    exact step_of_truncated hr (fetch_rlToken he ho) rfl (decode_rlToken_truncated_iff.mpr (by split <;> omega))
  case rlFill =>
    rintro he ho ⟨c, hc : inputAtCursor s = _, hbit⟩
    refine step_of_truncated hr (fetch_rlToken he ho) rfl ?_
    rw [hc]
    exact decode_rlToken_truncated_iff.mpr (by simp [hbit, -BitVec.getLsbD_eq_getElem])
  case arcIndex =>
    intro he h
    exact step_of_truncated hr (fetch_arcIndex he) rfl (decode_arcIndex_truncated_iff.mpr h)
  case arcEntry =>
    intro off he ht hi ho h
    exact step_of_truncated hr (fetch_arcEntry he ht hi ho) rfl
      (decode_arcEntry_truncated_iff.mpr (by rw [List.length_drop]; omega))

/-- Settles O27: the limit check refuses the long buffers, and no entry of the store stands at an index past its end. -/
theorem operandsWithoutMeaningAreRefused : Obligations.OperandsWithoutMeaningAreRefused := by
  intro s
  refine ⟨?longInput, ?longBytes, ?sizeMismatch, ?noEntry⟩
  case longInput =>
    intro h
    exact ⟨withinLimit_of_le h, withinLimit_of_le h, withinLimit_of_le h, withinLimit_of_le h, withinLimit_of_le h,
      withinLimit_of_le h, withinLimit_of_le h, withinLimit_of_le h⟩
  case longBytes =>
    intro h
    refine ⟨withinLimit_of_le h, fun hi => ?_⟩
    have he : s.store[s.operands.index]? = some s.store[s.operands.index] := List.getElem?_eq_getElem hi
    simp [exec, execArcReplace, he, withinLimit_of_le h]
  case sizeMismatch =>
    intro h hn
    calc exec .slideEnc s = _ := withinLimit_of_lt h
      _ = .refused .sizeOperandMismatch := if_neg hn
  case noEntry =>
    intro h
    have he : s.store[s.operands.index]? = none := List.getElem?_eq_none h
    refine ⟨?_, ?_, if_neg (Nat.not_lt.mpr h), ?_⟩
    · simp [exec, execArcDecode, he]
    · simp [exec, execArcRead, he]
    · simp [exec, execArcReplace, he]

/-- The step of an encoder that has coded its input is the return of its bytes (R101, R104, R114, R117). -/
theorem step_of_encoderReturns {s : State} {b : Bytes} (hr : s.resetPending = false) (h : encoderReturns s b) :
    step s = codecReturn b s := by
  rcases h with ⟨he, hp, hl, hend, rfl⟩ | ⟨he, hp, rfl⟩ | ⟨he, hl, rfl⟩ | ⟨he, hp, hend, rfl⟩ | ⟨he, hp, rfl⟩
  · have hprime : primeLzssEnc s = codecReturn [] s := by
      simp [primeLzssEnc, hp, lzFill_of_end _ hend, hl]
    exact step_of_fetch_auto hr (by simp [fetch, he, hprime])
  · exact step_of_fetch_auto hr (by simp [fetch, he, primeLzssEnc, hp])
  · exact step_of_fetch_auto hr (by simp [fetch, he, stepLzssEnc, hl])
  · exact step_of_fetch_auto hr (by simp [fetch, he, stepSlideEnc, hp, Nat.not_lt.mpr hend])
  · exact step_of_fetch_auto hr (by simp [fetch, he, stepSlideEnc, hp])

/-- `SLIDE.ENC` on a buffer within the limit, given its length as the size operand, starts the encoder (R114). -/
theorem exec_slideEnc_withOperands (s : State) {d : Bytes} (hd : d.length < 2 ^ 32) :
    exec .slideEnc (withOperands s d (BitVec.ofNat 32 d.length)) =
      .next (startSlideEnc d { withOperands s d (BitVec.ofNat 32 d.length) with task := .host }) := by
  have hn : (BitVec.ofNat 32 d.length).toNat = d.length := by
    rw [BitVec.toNat_ofNat, Nat.mod_eq_of_lt hd]
  calc exec .slideEnc (withOperands s d (BitVec.ofNat 32 d.length)) = _ := withinLimit_of_lt hd
    _ = _ := if_pos hn

/-- Settles O47: in a save the header's encode starts the encoder in the save's own state, and an encoder's return goes
where the task says. -/
theorem encodeDispatchRunsTheCodec : Obligations.EncodeDispatchRunsTheCodec := by
  refine ⟨fun s d size ht hd hlen => ⟨?none, ?lzss, ?slide⟩, fun s b hr h => ⟨fun ht => ?save, fun ht => ?host⟩⟩
  case none => exact ⟨_, exec_entryNone_of_saveEncode ht hd, rfl⟩
  case lzss => exact ⟨_, withinLimit_of_lt hlen, exec_entryLzss_of_saveEncode ht hd⟩
  case slide =>
    exact ⟨_, exec_slideEnc_withOperands s hlen, exec_entrySlide_of_saveEncode ht hd,
      fun hp => ⟨flideEntry_of_saveEncode ht hd hp, flideEntry_of_saveEncode ht hd hp⟩⟩
  case save => exact ⟨_, (step_of_encoderReturns hr h).trans (codecReturn_of_saveEncode ht), rfl⟩
  case host => exact ⟨_, (step_of_encoderReturns hr h).trans (codecReturn_of_host ht), rfl⟩

end Sys2Proof.Machine
end

section
/-! The flag words, the reset event, the command port, and what a step does to the state that lasts. -/

open Sys2Proof.Claims

namespace Sys2Proof.Machine

/-! ## Reset -/

/-- Settles O8. -/
theorem resetHoldsAnEmptyContainer : Obligations.ResetHoldsAnEmptyContainer := ⟨rfl, rfl, rfl, rfl⟩

/-- The reset event comes before any fetch (R163). -/
theorem step_of_resetPending {s : State} (hr : s.resetPending = true) : step s = .next (resetEvent s) := by
  simp [step, hr]

/-- Settles O9: the reset event's state is the reset state, but for the parameters and the requests. -/
theorem resetEventDiscardsTheCommand : Obligations.ResetEventDiscardsTheCommand := fun s hr =>
  ⟨resetEvent s, step_of_resetPending hr, rfl, rfl, rfl, rfl, rfl, rfl, rfl, rfl⟩

/-- Settles O54: at reset every memory is unwritten, no engine runs and there is no entry. -/
theorem resetMeetsTheInvariants : Obligations.ResetMeetsTheInvariants := by
  refine ⟨?canonical, ?ring, fun _ => rfl, rfl, ?entries, by decide⟩
  case canonical => exact ⟨rfl, rfl, rfl, rfl, rfl, rfl⟩
  case ring => exact fun h => nomatch h
  case entries => exact ⟨nofun, nofun, nofun, nofun, nofun, nofun⟩

/-! ## The command port -/

/-- A code outside R92's list has no command. -/
theorem commandOf_eq_none {code : Byte}
    (h : code ∉ ([0x01, 0x02, 0x03, 0x04, 0x05, 0x06, 0x10, 0x11, 0x12, 0x13, 0x14, 0x15, 0x16, 0x17, 0x18] : Bytes)) :
    commandOf code = none := by
  have hcodes : commandTable.map Prod.fst =
      [0x01, 0x02, 0x03, 0x04, 0x05, 0x06, 0x10, 0x11, 0x12, 0x13, 0x14, 0x15, 0x16, 0x17, 0x18] := rfl
  rw [← hcodes, List.mem_map] at h
  rw [commandOf, Option.map_eq_none_iff, List.find?_eq_none]
  intro row hrow hcode
  exact h ⟨row, hrow, by simpa using hcode⟩

/-- Settles O7: the codes are R92's table, and an idle step takes the first request by its code. -/
theorem commandsAreTakenByTheirCodes : Obligations.CommandsAreTakenByTheirCodes := by
  refine ⟨by decide, fun s hr he => ⟨?run, ?refused, ?idle⟩⟩
  case run =>
    intro q rest i hq hi
    exact step_of_decoded hr (fetch_request he hq) (by simp [decode, decodeCommand, hi])
  case refused =>
    intro q rest hq hcode
    refine step_of_fetch_auto hr ?_
    rw [fetch_request he hq]
    simp [decode, decodeCommand, commandOf_eq_none hcode, runDecoded]
  case idle =>
    intro hq
    exact step_of_fetch_auto hr (by simp [fetch, he, fetchCommand, hq])

/-! ## The flag words -/

/-- Taking flags shifts the LZSS flag word right, once for each (R26). -/
theorem lzTakeMany_flags (i : Nat) (s : State) : (lzTakeMany i s).lz.flags = s.lz.flags >>> i := by
  induction i with
  | zero => simp [lzTakeMany]
  | succ i ih => rw [BitVec.shiftRight_add, ← ih]; rfl

/-- Settles O14. -/
theorem lzFlagsComeLowBitFirst : Obligations.LzFlagsComeLowBitFirst := by
  refine ⟨fun _ _ _ => rfl, fun s b => ⟨rfl, fun i hi => ?_, ?_⟩⟩
  · obtain ⟨hbit, hne⟩ := lzFlags_shifted b i hi
    simp only [lzTakeMany_flags]
    exact ⟨hbit, hne, BitVec.shiftRight_add _ _ _⟩
  · rw [lzTakeMany_flags]
    exact lzFlags_last b

/-- Taking flags shifts the Slide codeword left, once for each (R30). -/
theorem slTakeMany_cw (i : Nat) (s : State) : (slTakeMany i s).sl.cw = s.sl.cw <<< i := by
  induction i with
  | zero => simp [slTakeMany]
  | succ i ih => rw [BitVec.shiftLeft_add, ← ih]; rfl

/-- Taking flags counts down, once for each (R30). -/
theorem slTakeMany_nb (i : Nat) (s : State) (hi : i ≤ s.sl.nb.toNat) :
    (slTakeMany i s).sl.nb.toNat = s.sl.nb.toNat - i := by
  induction i with
  | zero => rfl
  | succ i ih =>
    have hone : (1 : BitVec 6).toNat = 1 := rfl
    have hlt := s.sl.nb.isLt
    change ((slTakeMany i s).sl.nb - 1).toNat = _
    rw [BitVec.toNat_sub, ih (by omega), hone]
    omega

/-- Settles O19. -/
theorem slFlagsComeHighBitFirst : Obligations.SlFlagsComeHighBitFirst := by
  intro s w
  have hnb : (slReload w s).sl.nb.toNat = 32 := rfl
  refine ⟨fun _ _ => ⟨rfl, rfl⟩, rfl, rfl, ?shift, rfl, fun i hi => ⟨?bit, ?count⟩, ?last⟩
  case shift =>
    change (s.sl.cw <<< 1).toNat = _
    rw [BitVec.toNat_shiftLeft, Nat.shiftLeft_eq]
    omega
  case bit =>
    have hle : ¬ 31 < i := by omega
    rw [slTakeMany_cw, BitVec.getLsbD_shiftLeft]
    simp [slReload, hle, -BitVec.getLsbD_eq_getElem]
  case count => rw [slTakeMany_nb _ _ (by omega), hnb]
  case last =>
    apply BitVec.eq_of_toNat_eq
    rw [slTakeMany_nb _ _ (by omega), hnb]
    rfl

/-! ## What lasts between commands -/

/-- Settles O57: by `step_outcome` only an idle step, a fault taken or a command's end is followed by the idle block. -/
theorem scratchDiesWithItsCommand : Obligations.ScratchDiesWithItsCommand := by
  intro s t hs hstep
  cases hr : s.resetPending with
  | true =>
    rw [step_of_resetPending hr] at hstep
    cases hstep
    exact fun _ => rfl
  | false =>
    rcases step_outcome hstep hr with ⟨-, -, rfl⟩ | ⟨u, -, -, -, -, -, -, ⟨k, rfl⟩ | ⟨p, st, rfl⟩ | ⟨hrun, -⟩⟩
    · exact hs
    · exact fun _ => rfl
    · exact fun _ => rfl
    · exact fun hidle => absurd hidle hrun

/-- Settles O11, by `step_outcome`. -/
theorem persistentStateChangesOnlyWhereACommandEnds : Obligations.PersistentStateChangesOnlyWhereACommandEnds := by
  intro s t hstep
  cases hr : s.resetPending with
  | true =>
    rw [step_of_resetPending hr] at hstep
    cases hstep
    exact ⟨rfl, nofun⟩
  | false =>
    rcases step_outcome hstep hr with ⟨-, -, rfl⟩ | ⟨u, hstore, hstatus, hresult, hparams, -, -, hout⟩
    · exact ⟨rfl, fun _ => ⟨fun h => absurd rfl h, fun h => by simp at h⟩⟩
    · rcases hout with ⟨k, rfl⟩ | ⟨p, st, rfl⟩ | ⟨-, hstore', hstatus', hresult', hparams', -⟩
      · exact ⟨hparams, fun _ => ⟨fun h => absurd hstore h, fun _ => rfl⟩⟩
      · exact ⟨hparams, fun _ => ⟨fun _ => ⟨rfl, rfl, p, rfl⟩, fun _ => rfl⟩⟩
      · refine ⟨hparams'.trans hparams, fun _ => ⟨fun h => absurd (hstore'.trans hstore) h, ?_⟩⟩
        rintro (h | h)
        · exact absurd (hstatus'.trans hstatus) h
        · exact absurd (hresult'.trans hresult) h

/-! ## Starting and ending a codec -/

/-- Settles O25. -/
theorem decodersStartFresh : Obligations.DecodersStartFresh := by
  intro s h
  refine ⟨⟨_, withinLimit_of_lt h, rfl, rfl, rfl, rfl, rfl, rfl, rfl, rfl, fun a ha => if_pos ha, rfl⟩, ?_, ?_⟩
  · exact ⟨_, withinLimit_of_lt h, rfl, rfl, rfl, rfl, rfl, rfl, rfl, rfl, rfl⟩
  · exact ⟨_, withinLimit_of_lt h, rfl, rfl, rfl, rfl, rfl, rfl, rfl⟩

/-- Settles O26. -/
theorem encodersStartFresh : Obligations.EncodersStartFresh := by
  intro s h
  refine ⟨⟨_, withinLimit_of_lt h, rfl, rfl, rfl, rfl, rfl, fun a ha => if_pos ha, fun _ _ => rfl, fun _ _ => rfl, rfl,
    rfl, rfl, rfl, rfl, rfl⟩, fun hn => ?_⟩
  have hout : beBytes (BitVec.ofNat 32 s.operands.inp.length) = beBytes s.operands.n := by
    rw [← hn, BitVec.ofNat_toNat, BitVec.setWidth_eq]
  exact ⟨_, (withinLimit_of_lt h).trans (if_pos hn), rfl, rfl, rfl, hout, rfl, rfl, rfl, rfl, rfl, rfl⟩

/-- A decoder's loop ends where no output is wanted (R94, R106, R119). -/
theorem fetch_decoderEnd {s : State} (ho : ¬ s.op < s.n.toNat)
    (he : s.engine = .lzssDec ∨ s.engine = .slideDec ∨ s.engine = .rleDec) :
    fetch s = .auto (codecReturn s.out s) := by
  rcases he with he | he | he
  · simp [fetch, he, fetchLzss, ho]
  · simp [fetch, he, fetchSlide, ho]
  · simp [fetch, he, fetchRle, ho]

/-- Settles O28. -/
theorem decodersReturnExactlyNBytes : Obligations.DecodersReturnExactlyNBytes := by
  intro s hr ht hle ho he
  exact ⟨_, (step_of_fetch_auto hr (fetch_decoderEnd ho he)).trans (codecReturn_of_host ht), rfl,
    le_antisymm hle (not_lt.mp ho)⟩

end Sys2Proof.Machine
end

section
/-! What one fetched token, flag byte or codeword does, and what a step of a decoder's loop can do. -/

namespace Sys2Proof

/-! ## What a token's context decodes to, and how many bytes that took (R88) -/

section
variable {p : Params} {bs : Bytes} {i : Instr}

theorem decode_lzFlag_instr (h : decode p .lzFlag bs = .instr i) : (∃ f, i = .lzFlag f) ∧ 1 ≤ bs.length := by
  rcases bs with _ | ⟨f, rest⟩ <;> cases h
  exact ⟨⟨f, rfl⟩, by simp⟩

theorem decode_lzToken_instr {flag : Bool} (h : decode p (.lzToken flag) bs = .instr i) :
    ((∃ c, i = .lzLit c) ∧ 1 ≤ bs.length) ∨ ((∃ off lraw, i = .lzRef off lraw) ∧ 2 ≤ bs.length) := by
  cases flag
  · rcases bs with _ | ⟨b1, _ | ⟨b2, rest⟩⟩ <;> cases h
    exact .inr ⟨⟨_, _, rfl⟩, by simp⟩
  · rcases bs with _ | ⟨c, rest⟩ <;> cases h
    exact .inl ⟨⟨c, rfl⟩, by simp⟩

theorem decode_slCodeword_instr (h : decode p .slCodeword bs = .instr i) : (∃ w, i = .slCw w) ∧ 4 ≤ bs.length := by
  rcases bs with _ | ⟨a, _ | ⟨b, _ | ⟨c, _ | ⟨d, rest⟩⟩⟩⟩ <;> cases h
  exact ⟨⟨_, rfl⟩, by simp⟩

theorem decode_slToken_instr {flag : Bool} (h : decode p (.slToken flag) bs = .instr i) :
    ((∃ c, i = .slLit c) ∧ 1 ≤ bs.length) ∨ ((∃ n d, i = .slRef2 n d) ∧ 2 ≤ bs.length) ∨
      ((∃ d e, i = .slRef3 d e) ∧ 3 ≤ bs.length) := by
  cases flag
  · rcases bs with _ | ⟨b1, _ | ⟨b2, rest⟩⟩
    · cases h
    · cases h
    · simp only [decode, decodeSlRef] at h
      split at h
      · split at h <;> cases h
        exact .inr (.inr ⟨⟨_, _, rfl⟩, by simp⟩)
      · cases h
        exact .inr (.inl ⟨⟨_, _, rfl⟩, by simp⟩)
  · rcases bs with _ | ⟨c, rest⟩ <;> cases h
    exact .inl ⟨⟨c, rfl⟩, by simp⟩

theorem decode_rlToken_instr (h : decode p .rlToken bs = .instr i) :
    ((∃ k, i = .rlCopy k) ∧ 1 ≤ bs.length) ∨ ((∃ k v, i = .rlFill k v) ∧ 2 ≤ bs.length) := by
  rcases bs with _ | ⟨c, rest⟩
  · cases h
  · simp only [decode, decodeRl] at h
    split at h
    · cases h
      exact .inl ⟨⟨_, rfl⟩, by simp⟩
    · split at h <;> cases h
      exact .inr ⟨⟨_, _, rfl⟩, by simp⟩

theorem decode_arcIndex_instr (h : decode p .arcIndex bs = .instr i) : ∃ count, i = .arcIndex count := by
  rcases bs with _ | ⟨a, _ | ⟨b, _ | ⟨c, _ | ⟨d, rest⟩⟩⟩⟩ <;> cases h
  exact ⟨_, rfl⟩

theorem decode_arcEntry_instr (h : decode p .arcEntry bs = .instr i) : ∃ size kind, i = entryInstr size kind := by
  rcases bs with _ | ⟨a, _ | ⟨b, _ | ⟨c, _ | ⟨d, _ | ⟨e, _ | ⟨f, _ | ⟨g, _ | ⟨k, rest⟩⟩⟩⟩⟩⟩⟩⟩ <;> cases h
  exact ⟨_, _, rfl⟩

theorem decode_command_instr (h : decode p .command bs = .instr i) : i.ctx = .command := by
  rcases bs with _ | ⟨code, rest⟩
  · cases h
  · simp only [decode, decodeCommand] at h
    split at h <;> cases h
    exact Machine.commandOf_ctx (by assumption)

end

end Sys2Proof

namespace Sys2Proof.Machine

/-! ## One token -/

/-- What a flag byte, a codeword or a token that goes on does: it moves the input cursor on over bytes that are there,
extends the output within `n`, and writes the decoders' registers; the ring cursor moves by as much as the output
(R96, R97). -/
structure TokenEffect (s t : State) : Prop where
  frame : t = { s with ip := t.ip, out := t.out, lz := t.lz, sl := t.sl, rl := t.rl }
  ip_lt : s.ip < t.ip
  ip_le : t.ip ≤ s.inp.length
  op_le : t.op ≤ s.n.toNat
  out : ∃ bs, t.out = s.out ++ bs
  ring : Memory.wf s.lz.ring = true → Memory.wf t.lz.ring = true
  cursor : s.engine = .lzssDec → t.lz.r = s.lz.r + BitVec.ofNat 10 (t.op - s.op)

section
variable {s t : State}

/-- A decoder's token leaves the LZSS encoder alone. -/
theorem TokenEffect.le (h : TokenEffect s t) : t.le = s.le := by rw [h.frame]

/-- A flag taken before the token makes no difference to what is said of it. -/
theorem TokenEffect.of_lzTake (h : TokenEffect (lzTake s) t) : TokenEffect s t :=
  ⟨h.frame, h.ip_lt, h.ip_le, h.op_le, h.out, h.ring, h.cursor⟩

/-- A flag taken before the token makes no difference to what is said of it. -/
theorem TokenEffect.of_slTake (h : TokenEffect (slTake s) t) : TokenEffect s t :=
  ⟨h.frame, h.ip_lt, h.ip_le, h.op_le, h.out, h.ring, h.cursor⟩

theorem lzFlag_effect {f : Byte} (hin : s.ip + 1 ≤ s.inp.length) (ho : s.op < s.n.toNat)
    (h : exec (.lzFlag f) s = .next t) : TokenEffect s t := by
  cases h
  exact
    { frame := rfl, ip_lt := Nat.lt_succ_self _, ip_le := hin, op_le := ho.le, out := ⟨[], by simp⟩
      ring := id, cursor := fun _ => by simp [State.op] }

theorem lzLit_effect {c : Byte} (hin : s.ip + 1 ≤ s.inp.length) (ho : s.op < s.n.toNat)
    (h : exec (.lzLit c) s = .next t) : TokenEffect s t := by
  have hx : exec (.lzLit c) s = _ := if_pos ho
  rw [hx] at h
  cases h
  exact
    { frame := rfl, ip_lt := Nat.lt_succ_self _, ip_le := hin, op_le := by simpa [State.op] using ho
      out := ⟨[c], rfl⟩, ring := Mem.write_wf _ _ _, cursor := fun _ => by simp [State.op] }

theorem lzRef_effect {off : BitVec 10} {lraw : BitVec 6} (hin : s.ip + 2 ≤ s.inp.length)
    (h : exec (.lzRef off lraw) s = .next t) : (∃ k, t = raise k s) ∨ TokenEffect s t := by
  simp only [exec, execLzRef] at h
  split at h
  · cases h
    exact .inl ⟨_, rfl⟩
  · rename_i hroom
    rw [overruns_iff, not_lt] at hroom
    cases h
    set u := lzRefOperands off lraw s
    set m := u.lz.len.toNat
    have hip : (lzCopy m u).ip = s.ip + 2 := by rw [lzCopy_frame]; rfl
    obtain ⟨bs, hout, -⟩ := lzCopy_out_prefix m u
    refine .inr
      { frame := by rw [lzCopy_frame]; rfl, ip_lt := by omega, ip_le := by omega
        op_le := by rw [lzCopy_op]; exact hroom
        out := ⟨bs, hout⟩, ring := lzCopy_ring_wf m u, cursor := fun _ => ?_ }
    rw [lzCopy_r, lzCopy_op, show u.op + m - s.op = m from Nat.add_sub_cancel_left ..]
    rfl

theorem slCw_effect {w : Word} (he : s.engine = .slideDec) (hin : s.ip + 4 ≤ s.inp.length) (ho : s.op < s.n.toNat)
    (h : exec (.slCw w) s = .next t) : TokenEffect s t := by
  cases h
  exact
    { frame := rfl, ip_lt := Nat.lt_add_of_pos_right (by omega), ip_le := hin, op_le := ho.le
      out := ⟨[], by simp⟩
      ring := id, cursor := fun hlz => by simp [he] at hlz }

theorem slLit_effect {c : Byte} (he : s.engine = .slideDec) (hin : s.ip + 1 ≤ s.inp.length) (ho : s.op < s.n.toNat)
    (h : exec (.slLit c) s = .next t) : TokenEffect s t := by
  have hx : exec (.slLit c) s = _ := if_pos ho
  rw [hx] at h
  cases h
  exact
    { frame := rfl, ip_lt := Nat.lt_succ_self _, ip_le := hin, op_le := by simpa [State.op] using ho
      out := ⟨[c], rfl⟩, ring := id, cursor := fun hlz => by simp [he] at hlz }

/-- Both Slide references: `u` is `s` with the reference's operands in the registers. -/
theorem slideCopy_effect {u : State} {m : Nat} (he : s.engine = .slideDec)
    (hu : u = { s with ip := s.ip + m, sl := u.sl }) (hm : 0 < m) (hin : s.ip + m ≤ s.inp.length)
    (h : slideCopy u = .next t) :
    (∃ k, t = raise k s) ∨ TokenEffect s t := by
  rcases slideCopy_cases u with ⟨-, e⟩ | ⟨hroom, e⟩ <;> rw [e] at h <;> cases h
  · refine .inl ⟨.corruptDataError, ?_⟩
    rw [hu]
    rfl
  · have hf := slCopy_frame u.sl.len.toNat u
    have hop := slCopy_op u.sl.len.toNat u
    have hn : u.n = s.n := by rw [hu]
    have hout : u.out = s.out := by rw [hu]
    obtain ⟨bs, hbs, -⟩ := slCopy_out_prefix u.sl.len.toNat u
    generalize slCopy u.sl.len.toNat u = t at hf hop hbs
    have hfs : t = { s with ip := s.ip + m, out := t.out, sl := t.sl } := by rw [hf, hu]
    have hip : t.ip = s.ip + m := by rw [hfs]
    exact .inr
      { frame := by rw [hfs], ip_lt := by omega, ip_le := by omega
        op_le := by rw [hop, ← hn]; exact hroom
        out := ⟨bs, by rw [hbs, hout]⟩, ring := by rw [hfs]; exact id, cursor := fun hlz => by simp [he] at hlz }

theorem rlCopy_effect {k : BitVec 7} (he : s.engine = .rleDec) (hin : s.ip + 1 ≤ s.inp.length)
    (h : exec (.rlCopy k) s = .next t) : (∃ k, t = raise k s) ∨ TokenEffect s t := by
  simp only [exec, execRlCopy] at h
  split at h
  · cases h
    exact .inl ⟨_, rfl⟩
  · rename_i hroom
    rw [overruns_iff, not_lt] at hroom
    cases h
    rcases rlCopyLoop_cases k.toNat { s with
        ip := s.ip + 1, rl := { s.rl with c := (1 : BitVec 1) ++ k, k := k, j := 0 } } with
      ⟨hend, e⟩ | ⟨-, -, e⟩ <;> rw [e]
    · refine .inr
        { frame := rfl, ip_lt := ?_, ip_le := ?_, op_le := ?_, out := ⟨_, rfl⟩, ring := id
          cursor := fun hlz => by simp [he] at hlz }
      all_goals simp only [State.op, List.length_append, List.length_take, List.length_drop] at hroom hend ⊢
      all_goals omega
    · exact .inl ⟨_, rfl⟩

theorem rlFill_effect {k : BitVec 7} {v : Byte} (he : s.engine = .rleDec) (hin : s.ip + 2 ≤ s.inp.length)
    (h : exec (.rlFill k v) s = .next t) : (∃ k, t = raise k s) ∨ TokenEffect s t := by
  simp only [exec, execRlFill] at h
  split at h
  · cases h
    exact .inl ⟨_, rfl⟩
  · rename_i hroom
    rw [overruns_iff, not_lt] at hroom
    cases h
    rw [rlFillLoop_eq]
    refine .inr
      { frame := rfl, ip_lt := Nat.lt_add_of_pos_right (by omega), ip_le := hin, op_le := ?_
        out := ⟨_, rfl⟩, ring := id
        cursor := fun hlz => by simp [he] at hlz }
    simpa [State.op] using hroom

/-! ## A step of a decoder's loop -/

/-- What a step does with what its fetch has decoded: the missing byte's fault, or the instruction. -/
theorem step_runDecoded_next {d : Decoded} {u : State} (hr : s.resetPending = false) (hf : fetch s = runDecoded d u)
    (hstep : step s = .next t) : t = raise .truncatedInputError u ∨ ∃ i, d = .instr i ∧ exec i u = .next t := by
  cases d with
  | instr i => exact .inr ⟨i, rfl, by rwa [step_of_fetch_run hr hf] at hstep⟩
  | truncated =>
    rw [step_of_fetch_auto hr hf] at hstep
    cases hstep
    exact .inl rfl
  | unknownCommand code =>
    rw [step_of_fetch_auto hr hf] at hstep
    cases hstep

/-- A step of a decoder's loop faults, runs a token, or returns the output where it is complete (R94, R106, R119). -/
theorem decoderLoop_next (hr : s.resetPending = false)
    (he : s.engine = .lzssDec ∨ s.engine = .slideDec ∨ s.engine = .rleDec) (hstep : step s = .next t) :
    (∃ k, t = raise k s) ∨ (¬ s.op < s.n.toNat ∧ codecReturn s.out s = .next t) ∨ TokenEffect s t := by
  have hin {m : Nat} (h0 : 0 < m) (h : m ≤ (inputAtCursor s).length) : s.ip + m ≤ s.inp.length := by
    rw [inputAtCursor, List.length_drop] at h
    omega
  by_cases ho : s.op < s.n.toNat
  swap
  · rw [step_of_fetch_auto hr (fetch_decoderEnd ho he)] at hstep
    exact .inr (.inl ⟨ho, hstep⟩)
  rw [or_left_comm]
  right
  rcases he with he | he | he
  · by_cases hf : s.lz.flags = 1
    · rcases step_runDecoded_next hr (fetch_lzFlag he ho hf) hstep with rfl | ⟨i, hd, hx⟩
      · exact .inl ⟨_, rfl⟩
      obtain ⟨⟨f, rfl⟩, hl⟩ := decode_lzFlag_instr hd
      exact .inr (lzFlag_effect (hin (by omega) hl) ho hx)
    · rcases step_runDecoded_next hr (fetch_lzToken he ho hf) hstep with rfl | ⟨i, hd, hx⟩
      · exact .inl ⟨_, rfl⟩
      rcases decode_lzToken_instr hd with ⟨⟨c, rfl⟩, hl⟩ | ⟨⟨off, lraw, rfl⟩, hl⟩
      · exact .inr (lzLit_effect (s := lzTake s) (hin (by omega) hl) ho hx).of_lzTake
      · exact (lzRef_effect (s := lzTake s) (hin (by omega) hl) hx).imp_right .of_lzTake
  · by_cases hf : s.sl.nb = 0
    · rcases step_runDecoded_next hr (fetch_slCodeword he ho hf) hstep with rfl | ⟨i, hd, hx⟩
      · exact .inl ⟨_, rfl⟩
      obtain ⟨⟨w, rfl⟩, hl⟩ := decode_slCodeword_instr hd
      exact .inr (slCw_effect he (hin (by omega) hl) ho hx)
    · rcases step_runDecoded_next hr (fetch_slToken he ho hf) hstep with rfl | ⟨i, hd, hx⟩
      · exact .inl ⟨_, rfl⟩
      rcases decode_slToken_instr hd with ⟨⟨c, rfl⟩, hl⟩ | ⟨⟨n, d, rfl⟩, hl⟩ | ⟨⟨d, e, rfl⟩, hl⟩
      · exact .inr (slLit_effect (s := slTake s) he (hin (by omega) hl) ho hx).of_slTake
      · exact (slideCopy_effect (s := slTake s) (u := slRef2Operands n d (slTake s)) he rfl (by omega)
          (hin (by omega) hl) hx).imp_right .of_slTake
      · exact (slideCopy_effect (s := slTake s) (u := slRef3Operands d e (slTake s)) he rfl (by omega)
          (hin (by omega) hl) hx).imp_right .of_slTake
  · rcases step_runDecoded_next hr (fetch_rlToken he ho) hstep with rfl | ⟨i, hd, hx⟩
    · exact .inl ⟨_, rfl⟩
    rcases decode_rlToken_instr hd with ⟨⟨k, rfl⟩, hl⟩ | ⟨⟨k, v, rfl⟩, hl⟩
    · exact rlCopy_effect he (hin (by omega) hl) hx
    · exact rlFill_effect he (hin (by omega) hl) hx

/-- A codec's return leaves its engine: the command ends, or the container's loop goes on (R176). -/
theorem codecReturn_engine {b : Bytes} (h : codecReturn b s = .next t) : t.engine = .idle ∨ t.engine = .arcEntries := by
  rcases codecReturn_next h with ⟨-, rfl⟩ | ⟨-, h⟩ | ⟨-, h⟩
  · exact .inl rfl
  · obtain ⟨e, -, ⟨-, rfl⟩ | ⟨-, rfl⟩ | ⟨-, rfl⟩ | ⟨-, rfl⟩⟩ := decodeReturn_next h
    · exact .inl rfl
    · exact .inl rfl
    · exact .inr rfl
    · exact .inr rfl
  · cases h
    exact .inr rfl

end

/-- Settles O29: of what a step of a decoder's loop can do, only a token stays in it. -/
theorem decoderStepsConsumeInput : Obligations.DecoderStepsConsumeInput := by
  intro s t hr he hstep hstay
  rcases decoderLoop_next hr he hstep with ⟨k, rfl⟩ | ⟨-, h⟩ | h
  · simp [← hstay] at he
  · rcases codecReturn_engine h with h | h <;> simp [← hstay, h] at he
  · have hinp : t.inp = s.inp := by rw [h.frame]
    have hn : t.n = s.n := by rw [h.frame]
    exact ⟨h.ip_lt, h.ip_le, hinp, hn, h.op_le, h.out⟩

end Sys2Proof.Machine
end

section
/-! Once, everything a step can do to what the invariants speak of, and the invariants that every step keeps. -/

namespace Sys2Proof.Machine

/-! ## What an entry header and a command can do -/

/-- The entries are as R35 and R38 have them. -/
def soundEntries (es : List Entry) : Prop := ∀ e ∈ es, entryWf e = true

/-- The payloads a save has gathered are within the limit (R14). -/
def shortPayloads (ds : List Bytes) : Prop := ∀ d ∈ ds, d.length < Config.bufferLimit

/-- What an entry header of size `size` does where it does not stop the model: a load takes an `Unloaded` entry in, a
decode returns `size` bytes at once or starts a decoder for as many, a save's encode returns at once or starts an
encoder. -/
inductive EntryEffect (size : Word) (s : State) : State → Prop
  | faults (k : FaultKind) : EntryEffect size s (raise k s)
  | loads (e : Entry) (hd : e.data = none) (hst : e.st = .unloaded) :
      EntryEffect size s { s with arc := { s.arc with work := s.arc.work ++ [e], i := s.arc.i + 1 } }
  | decodes {b : Bytes} {t : State} (hb : b.length = size.toNat) (h : decodeReturn b s = .next t) : EntryEffect size s t
  | decoderStarts {raw : Bytes} {t : State} (ht : s.task.isDecode = true)
      (h : t = startLzssDec raw size s ∨ t = startSlideDec raw size s ∨ t = startRleDec raw size s) :
      EntryEffect size s t
  | encodes {b : Bytes} {t : State} (ht : s.task = .saveEncode) (h : encodeReturn b s = .next t) : EntryEffect size s t
  | encoderStarts {d : Bytes} {t : State} (ht : s.task = .saveEncode)
      (h : t = startLzssEnc d s ∨ t = startSlideEnc d s) :
      EntryEffect size s t

/-- What a command does where it is not refused: it faults, starts a codec or a loop of the container, or ends with some
store, whose entries are sound where those of the old store are. -/
inductive CommandEffect (s : State) : State → Prop
  | faults (k : FaultKind) : CommandEffect s (raise k s)
  | decoderStarts {inp : Bytes} {n : Word} {t : State}
      (h : t = startLzssDec inp n { s with task := .host } ∨ t = startSlideDec inp n { s with task := .host } ∨
        t = startRleDec inp n { s with task := .host }) : CommandEffect s t
  | encoderStarts {inp : Bytes} {t : State}
      (h : t = startLzssEnc inp { s with task := .host } ∨ t = startSlideEnc inp { s with task := .host }) :
      CommandEffect s t
  | loadStarts (task : Task) :
      CommandEffect s { s with engine := .arcIndex, task := task, inp := s.operands.inp, arc := {} }
  | loopStarts (task : Task) (i : Nat) : CommandEffect s (startEntries task i s)
  | ends (p : Payload) (st : List Entry) (h : soundEntries s.store → soundEntries st) :
      CommandEffect s (finish p { s with store := st })

/-! ### Entry headers -/

section
variable {s t : State} {size : Word}

theorem entryPass_effect {k : Kind} {dec enc : Bytes → Answer}
    (hd : ∀ b u, s.task.isDecode = true → dec b = .next u → EntryEffect size s u)
    (he : ∀ d u, s.task = .saveEncode → enc d = .next u → EntryEffect size s u)
    (h : entryPass s (loadEntry k size s) dec enc = .next t) : EntryEffect size s t := by
  rcases entryPass_next h with ⟨-, h⟩ | ⟨ht, e, -, h⟩ | ⟨ht, d, -, h⟩
  · rcases loadEntry_next h with ⟨k, rfl⟩ | ⟨e, -, -, hd, hst, rfl⟩
    · exact .faults k
    · exact .loads e hd hst
  · exact hd _ _ ht h
  · exact he _ _ ht h

theorem unsupported_effect (h : unsupported s = .next t) : EntryEffect size s t := by
  cases h
  exact .faults _

theorem flideEntry_effect {k : Kind} (h : flideEntry k size s = .next t) : EntryEffect size s t := by
  refine entryPass_effect (fun raw u ht hu => ?_) (fun d u ht hu => ?_) h <;> split at hu
  · cases hu
    exact .decoderStarts ht (.inr (.inl rfl))
  · exact unsupported_effect hu
  · cases hu
    exact .encoderStarts ht (.inr rfl)
  · exact unsupported_effect hu

/-- Everything an entry header can do (R125, R129, R134). -/
theorem exec_entryInstr_effect {kind : Kind} (h : exec (entryInstr size kind) s = .next t) : EntryEffect size s t := by
  cases kind <;> simp only [entryInstr, exec] at h
  case none =>
    refine entryPass_effect (fun raw u ht hu => ?_) (fun d u ht hu => .encodes ht hu) h
    split at hu
    · cases hu
      exact .faults _
    · exact .decodes (List.length_take_of_le (by omega)) hu
  case lzss =>
    refine entryPass_effect (fun raw u ht hu => ?_) (fun d u ht hu => ?_) h <;> cases hu
    · exact .decoderStarts ht (.inl rfl)
    · exact .encoderStarts ht (.inl rfl)
  case slide =>
    refine entryPass_effect (fun raw u ht hu => ?_) (fun d u ht hu => ?_) h <;> cases hu
    · exact .decoderStarts ht (.inr (.inl rfl))
    · exact .encoderStarts ht (.inr rfl)
  case flideVariantA => exact flideEntry_effect h
  case flideVariantB => exact flideEntry_effect h
  case rle =>
    refine entryPass_effect (fun raw u ht hu => ?_) (fun d u ht hu => unsupported_effect hu) h
    cases hu
    exact .decoderStarts ht (.inr (.inr rfl))
  case inflate =>
    refine entryPass_effect (fun raw u ht hu => ?_) (fun d u ht hu => ?_) h <;> split at hu
    · split at hu
      · exact .decodes (by assumption) hu
      · cases hu
        exact .faults _
    · cases hu
      exact .faults _
    · exact .encodes ht hu
    · cases hu
      exact .faults _
  case unknown tag =>
    exact entryPass_effect (fun raw u ht hu => unsupported_effect hu) (fun d u ht hu => unsupported_effect hu) h

end

/-! ### Entries -/

/-- An entry that has the data `d`, as long as its size says, and is not `Unloaded` is sound (R35, R38). -/
theorem entryWf_of_data {e : Entry} {d : Bytes} (hd : e.data = some d) (hst : e.st ≠ .unloaded)
    (hlen : d.length = e.size.toNat) : entryWf e = true := by
  cases hs : e.st
  case unloaded => exact absurd hs hst
  all_goals simp [entryWf, hs, hd, hlen]

/-- An `Unloaded` entry without data is sound (R38). -/
theorem entryWf_of_unloaded {e : Entry} (hd : e.data = none) (hst : e.st = .unloaded) : entryWf e = true := by
  simp [entryWf, hd, hst]

/-- The data of a sound entry is as long as its size says, so within the limit. -/
theorem length_lt_of_entryWf {e : Entry} {d : Bytes} (h : entryWf e = true) (hd : e.data = some d) :
    d.length < Config.bufferLimit := by
  have hlen : d.length = e.size.toNat := by
    cases hs : e.st
    case unloaded => simp [entryWf, hs, hd] at h
    all_goals simpa [entryWf, hs, hd] using h
  rw [hlen]
  exact e.size.isLt

/-- A length within the limit is what its 32-bit size says. -/
theorem toNat_ofNat_length {d : Bytes} (h : d.length < Config.bufferLimit) :
    (BitVec.ofNat 32 d.length).toNat = d.length := by
  rw [BitVec.toNat_ofNat, Nat.mod_eq_of_lt h]

/-- Names are no part of what makes an entry sound. -/
theorem inferNames_sound (f : Option Name) {es : List Entry} (h : soundEntries es) :
    soundEntries (inferNames f es) := by
  intro e he
  obtain ⟨j, hj, rfl⟩ := List.mem_mapIdx.mp he
  exact h es[j] (List.getElem_mem hj)

theorem append_sound {es : List Entry} {e : Entry} (h : soundEntries es) (he : entryWf e = true) :
    soundEntries (es ++ [e]) := by
  intro x hx
  rcases List.mem_append.mp hx with hx | hx
  · exact h x hx
  · rw [List.mem_singleton.mp hx]
    exact he

theorem set_sound {es : List Entry} {i : Nat} {e : Entry} (h : soundEntries es) (he : entryWf e = true) :
    soundEntries (es.set i e) := by
  intro x hx
  rcases List.mem_or_eq_of_mem_set hx with hx | rfl
  · exact h x hx
  · exact he

/-- What a save commits is sound: every payload is as long as the size stored with it (R135). -/
theorem savedEntries_sound (es : List Entry) {ds : List Bytes} (cs : List Bytes) (h : shortPayloads ds) :
    soundEntries (savedEntries es ds cs) := by
  intro x hx
  obtain ⟨i, hi, rfl⟩ := List.mem_iff_getElem.mp hx
  simp only [savedEntries, List.getElem_zipWith, List.getElem_zip]
  exact entryWf_of_data rfl (by simp [savedEntry]) (toNat_ofNat_length (h _ (List.getElem_mem _))).symm

/-! ### Commands -/

/-- Everything a command can do. -/
theorem exec_command_effect {i : Instr} {s t : State} (hi : i.ctx = .command) (h : exec i s = .next t) :
    CommandEffect s t := by
  cases i <;> simp only [Instr.ctx, reduceCtorEq] at hi
  case lzssDec =>
    obtain ⟨-, h⟩ := withinLimit_next.mp h
    cases h
    exact .decoderStarts (.inl rfl)
  case lzssEnc =>
    obtain ⟨-, h⟩ := withinLimit_next.mp h
    cases h
    exact .encoderStarts (.inl rfl)
  case slideDec =>
    obtain ⟨-, h⟩ := withinLimit_next.mp h
    cases h
    exact .decoderStarts (.inr (.inl rfl))
  case slideEnc =>
    obtain ⟨-, h⟩ := withinLimit_next.mp h
    split at h <;> cases h
    exact .encoderStarts (.inr rfl)
  case rleDec =>
    obtain ⟨-, h⟩ := withinLimit_next.mp h
    cases h
    exact .decoderStarts (.inr (.inr rfl))
  case rleEnc =>
    obtain ⟨-, h⟩ := withinLimit_next.mp h
    cases h
    exact .faults _
  case arcLoad | arcUnpack =>
    obtain ⟨-, h⟩ := withinLimit_next.mp h
    cases h
    exact .loadStarts _
  case arcDecode | arcRead =>
    simp only [exec, execArcDecode, execArcRead] at h
    split at h
    · cases h
    · split at h <;> cases h
      · exact .loopStarts _ _
      · exact .ends _ s.store id
  case arcSave =>
    simp only [exec, execArcSave] at h
    split at h <;> cases h
    · exact .loopStarts _ _
    · exact .faults _
  case arcAdd =>
    obtain ⟨hlen, h⟩ := withinLimit_next.mp h
    cases h
    refine .ends _ _ fun hs => inferNames_sound _ (append_sound hs ?_)
    exact entryWf_of_data rfl (by simp) (toNat_ofNat_length hlen).symm
  case arcDel =>
    simp only [exec, execArcDel] at h
    split at h <;> cases h
    exact .ends _ _ fun hs => inferNames_sound _ fun e he => hs e (List.mem_of_mem_eraseIdx he)
  case arcReplace =>
    simp only [exec, execArcReplace] at h
    split at h
    · cases h
    · obtain ⟨hlen, h⟩ := withinLimit_next.mp h
      cases h
      refine .ends _ _ fun hs => set_sound hs ?_
      exact entryWf_of_data rfl (by simp) (toNat_ofNat_length hlen).symm
  case arc2Load => cases h

/-! ## What a step can do -/

/-- Everything a step can do, as far as the invariants below need it. -/
inductive StepEffect (s : State) : State → Prop
  | resets : StepEffect s (resetEvent s)
  | idles : StepEffect s s
  | faults (k : FaultKind) : StepEffect s (raise k s)
  | takesCommand {q : Request} {rest : List Request} {t : State} (he : s.engine = .idle)
      (h : CommandEffect (present q rest s) t) : StepEffect s t
  | skipsHeader (he : s.engine = .slideHdr) : StepEffect s { s with ip := 4, engine := .slideDec }
  | runsToken {t : State} (he : s.engine = .lzssDec ∨ s.engine = .slideDec ∨ s.engine = .rleDec)
      (h : TokenEffect s t) : StepEffect s t
  | decoderEnds {t : State} (he : s.engine = .lzssDec ∨ s.engine = .slideDec ∨ s.engine = .rleDec)
      (ho : ¬ s.op < s.n.toNat) (h : codecReturn s.out s = .next t) : StepEffect s t
  | readsIndex (count : Word) (offsets : List Word) :
      StepEffect s { s with
        engine := .arcEntries, arc := { s.arc with count := count, offsets := offsets, i := 0, work := [] } }
  | meetsHeader {size : Word} {t : State} (he : s.engine = .arcEntries) (ht : s.task = .load ∨ s.task = .loadUnpack)
      (h : EntryEffect size s t) : StepEffect s t
  | meetsEntry {e : Entry} {t : State} (he : s.engine = .arcEntries) (hw : s.arc.work[s.arc.i]? = some e)
      (h : EntryEffect e.size s t) : StepEffect s t
  | loopGoesOn (task : Task) (arc : Arc) (he : s.engine = .arcEntries)
      (hw : soundEntries s.arc.work → soundEntries arc.work)
      (hd : soundEntries s.arc.work → shortPayloads s.arc.d → shortPayloads arc.d) :
      StepEffect s { s with task := task, arc := arc }
  | loopEnds (p : Payload) (st : List Entry)
      (h : soundEntries s.arc.work → shortPayloads s.arc.d → soundEntries st) :
      StepEffect s (finish p { s with store := st })
  | encodes (eng : Engine) (ip : Nat) (out : Bytes) (le : LzEnc) (se : SlEnc) (he : s.engine.isEncoder = true)
      (heng : eng.isEncoder = true) (hle : s.le.canonical → le.canonical) :
      StepEffect s { s with engine := eng, ip := ip, out := out, le := le, se := se }
  | encoderEnds {b : Bytes} {t : State} (ip : Nat) (le : LzEnc) (he : s.engine.isEncoder = true)
      (hle : s.le.canonical → le.canonical) (h : codecReturn b { s with ip := ip, le := le } = .next t) : StepEffect s t

section
variable {s t : State}

theorem primeLzssEnc_effect (he : s.engine.isEncoder = true) (h : primeLzssEnc s = .next t) : StepEffect s t := by
  unfold primeLzssEnc at h
  split at h
  · have hf := lzFill_frame Config.lzMaxMatch s
    have hc := lzFill_canonical Config.lzMaxMatch s
    generalize lzFill Config.lzMaxMatch s = u at h hf hc
    simp only at h
    split at h
    · rw [hf] at h
      exact .encoderEnds u.ip u.le he hc h
    · injection h with h
      rw [← h, hf]
      exact .encodes .lzssEnc u.ip s.out (lzInsertFirst u.le) s.se he rfl fun hs => lzInsertFirst_canonical _ (hc hs)
  · exact .encoderEnds s.ip s.le he id h

theorem stepLzssEnc_effect (he : s.engine = .lzssEnc) (h : stepLzssEnc s = .next t) : StepEffect s t := by
  have hs : s.engine.isEncoder = true := by rw [he]; rfl
  unfold stepLzssEnc at h
  split at h
  · exact .encoderEnds s.ip s.le hs id h
  · cases h
    rw [lzRound_frame]
    exact .encodes s.engine _ _ _ s.se hs hs (lzRound_canonical s)

theorem stepSlideEnc_effect (he : s.engine = .slideEnc) (h : stepSlideEnc s = .next t) : StepEffect s t := by
  have hs : s.engine.isEncoder = true := by rw [he]; rfl
  unfold stepSlideEnc at h
  split at h
  · split at h
    · cases h
      rw [slRound_frame]
      exact .encodes s.engine s.ip _ s.le _ hs hs id
    · exact .encoderEnds s.ip s.le hs id h
  · exact .encoderEnds s.ip s.le hs id h

theorem saveEnd_effect (h : saveEnd s = .next t) : StepEffect s t := by
  obtain ⟨-, h⟩ := withinLimit_next.mp h
  cases h
  exact .loopEnds _ _ fun _ hd => savedEntries_sound _ _ hd

/-- A save takes the data of an entry that has it as the entry's payload (R135). -/
theorem payload_short {ds : List Bytes} {es : List Entry} {i : Nat} {e : Entry} {d : Bytes} (he : es[i]? = some e)
    (hd : e.data = some d) (hs : soundEntries es) (h : shortPayloads ds) : shortPayloads (ds ++ [d]) := by
  intro x hx
  rcases List.mem_append.mp hx with hx | hx
  · exact h x hx
  · rw [List.mem_singleton.mp hx]
    exact length_lt_of_entryWf (hs e (List.mem_of_getElem? he)) hd

/-- What a fetched instruction does, outside the decoders' loops. -/
theorem fetch_run_effect {i : Instr} {u : State} (hl : s.engine ≠ .lzssDec ∧ s.engine ≠ .slideDec ∧ s.engine ≠ .rleDec)
    (hf : fetch s = .run i u) (hx : exec i u = .next t) : StepEffect s t := by
  rcases fetch_run hf with ⟨he, q, rest, -, rfl, hd⟩ | ⟨he, -⟩ | ⟨he, rfl, rfl⟩ | ⟨he, -⟩ | ⟨he, -⟩ | ⟨-, rfl, hd⟩ |
    ⟨he, rfl, ⟨ht, off, -, hd⟩ | ⟨-, e, hw, rfl⟩⟩
  · exact .takesCommand he (exec_command_effect (decode_command_instr hd) hx)
  · exact absurd he hl.1
  · cases hx
    exact .skipsHeader he
  · exact absurd he hl.2.1
  · exact absurd he hl.2.2
  · obtain ⟨count, rfl⟩ := decode_arcIndex_instr hd
    simp only [exec, execArcIndex] at hx
    split at hx <;> cases hx
    · exact .faults _
    · exact .readsIndex count _
  · obtain ⟨size, kind, rfl⟩ := decode_arcEntry_instr hd
    exact .meetsHeader he ht (exec_entryInstr_effect hx)
  · exact .meetsEntry he hw (exec_entryInstr_effect hx)

/-- What a step without an instruction does, outside the decoders' loops. -/
theorem fetch_auto_effect (hl : s.engine ≠ .lzssDec ∧ s.engine ≠ .slideDec ∧ s.engine ≠ .rleDec)
    (hf : fetch s = .auto (.next t)) : StepEffect s t := by
  rcases fetch_auto hf with ⟨-, -, rfl⟩ | ⟨-, rfl⟩ | ⟨he, -⟩ | ⟨he, h⟩ | ⟨he, h⟩ | ⟨he, h⟩ | ⟨-, -, rfl⟩ |
    ⟨he, -, rfl⟩ | ⟨-, -, -, rfl⟩ | ⟨he, -, rfl⟩ | ⟨-, -, -, h⟩ | ⟨he, -, e, d, hw, -, hd, rfl⟩
  · exact .idles
  · exact .faults _
  · obtain ⟨h1, h2, h3⟩ := hl
    rcases he with he | he | he
    · exact absurd he h1
    · exact absurd he h2
    · exact absurd he h3
  · exact primeLzssEnc_effect (by rw [he]; rfl) h
  · exact stepLzssEnc_effect he h
  · exact stepSlideEnc_effect he h
  · exact .loopEnds _ _ fun hs _ => inferNames_sound _ hs
  · exact .loopGoesOn _ _ he (inferNames_sound _) fun _ hd => hd
  · exact .loopEnds _ _ fun hs _ => inferNames_sound _ hs
  · exact .loopGoesOn s.task { s.arc with i := s.arc.i + 1 } he id fun _ hd => hd
  · exact saveEnd_effect h
  · exact .loopGoesOn .saveEncode { s.arc with d := s.arc.d ++ [d] } he id (payload_short hw hd)

/-- Everything a step can do. -/
theorem step_effect (h : step s = .next t) : StepEffect s t := by
  by_cases hl : s.engine = .lzssDec ∨ s.engine = .slideDec ∨ s.engine = .rleDec
  · cases hr : s.resetPending with
    | true =>
      rw [step_of_resetPending hr] at h
      cases h
      exact .resets
    | false =>
      rcases decoderLoop_next hr hl h with ⟨k, rfl⟩ | ⟨ho, h⟩ | h
      · exact .faults k
      · exact .decoderEnds hl ho h
      · exact .runsToken hl h
  · rw [not_or, not_or] at hl
    rcases step_next h with ⟨-, rfl⟩ | ⟨-, ⟨i, u, hf, hx⟩ | hf⟩
    · exact .resets
    · exact fetch_run_effect hl hf hx
    · exact fetch_auto_effect hl hf

/-- What the return of a codec does to the registers of the codecs: it drops them or leaves them. -/
theorem codecReturn_registers {b : Bytes} (h : codecReturn b s = .next t) :
    (t.lz = {} ∧ t.le = {}) ∨ (t.lz = s.lz ∧ t.le = s.le) := by
  rcases codecReturn_next h with ⟨-, rfl⟩ | ⟨-, h⟩ | ⟨-, h⟩
  · exact .inl ⟨rfl, rfl⟩
  · obtain ⟨e, -, ⟨-, rfl⟩ | ⟨-, rfl⟩ | ⟨-, rfl⟩ | ⟨-, rfl⟩⟩ := decodeReturn_next h
    · exact .inl ⟨rfl, rfl⟩
    · exact .inl ⟨rfl, rfl⟩
    · exact .inr ⟨rfl, rfl⟩
    · exact .inr ⟨rfl, rfl⟩
  · cases h
    exact .inr ⟨rfl, rfl⟩

end

end Sys2Proof.Machine
end

section
/-! The invariants that every step keeps, each from what a step can do. -/

open Sys2Proof.Claims

namespace Sys2Proof.Machine

/-! ## Canonical form -/

section
variable {s t : State}

/-- The form speaks of the ring and the LZSS encoder alone. -/
theorem memoriesCanonical_of_same (hlz : t.lz = s.lz) (hle : t.le = s.le) (h : memoriesCanonical s) :
    memoriesCanonical t := by
  simpa only [memoriesCanonical, hlz, hle] using h

/-- Dropped registers are in the form. -/
theorem memoriesCanonical_of_dropped (hlz : t.lz = {}) (hle : t.le = {}) : memoriesCanonical t := by
  rw [memoriesCanonical_iff, hlz, hle]
  exact ⟨rfl, rfl, rfl, rfl, rfl, rfl⟩

theorem decoderStart_canonical {inp : Bytes} {n : Word} (h : memoriesCanonical s)
    (ht : t = startLzssDec inp n s ∨ t = startSlideDec inp n s ∨ t = startRleDec inp n s) : memoriesCanonical t := by
  rcases ht with rfl | rfl | rfl
  · exact ⟨rfl, h.2⟩
  · exact memoriesCanonical_of_same rfl rfl h
  · exact memoriesCanonical_of_same rfl rfl h

theorem encoderStart_canonical {inp : Bytes} (h : memoriesCanonical s)
    (ht : t = startLzssEnc inp s ∨ t = startSlideEnc inp s) : memoriesCanonical t := by
  rcases ht with rfl | rfl
  · exact ⟨h.1, rfl, rfl, rfl, rfl, rfl⟩
  · exact memoriesCanonical_of_same rfl rfl h

theorem raise_canonical (k : FaultKind) : memoriesCanonical (raise k s) :=
  memoriesCanonical_of_dropped rfl rfl

theorem finish_canonical (p : Payload) : memoriesCanonical (finish p s) :=
  memoriesCanonical_of_dropped rfl rfl

theorem codecReturn_canonical {b : Bytes} (h : memoriesCanonical s) (hx : codecReturn b s = .next t) :
    memoriesCanonical t := by
  rcases codecReturn_registers hx with ⟨hlz, hle⟩ | ⟨hlz, hle⟩
  · exact memoriesCanonical_of_dropped hlz hle
  · exact memoriesCanonical_of_same hlz hle h

theorem entryEffect_canonical {size : Word} (h : memoriesCanonical s) (hx : EntryEffect size s t) :
    memoriesCanonical t := by
  cases hx with
  | faults k => exact raise_canonical k
  | loads e hd hst => exact memoriesCanonical_of_same rfl rfl h
  | decodes hb hr =>
    obtain ⟨e, -, ⟨-, rfl⟩ | ⟨-, rfl⟩ | ⟨-, rfl⟩ | ⟨-, rfl⟩⟩ := decodeReturn_next hr
    · exact finish_canonical _
    · exact finish_canonical _
    · exact memoriesCanonical_of_same rfl rfl h
    · exact memoriesCanonical_of_same rfl rfl h
  | decoderStarts ht hst => exact decoderStart_canonical h hst
  | encodes ht hr =>
    cases hr
    exact memoriesCanonical_of_same rfl rfl h
  | encoderStarts ht hst => exact encoderStart_canonical h hst

theorem commandEffect_canonical (h : memoriesCanonical s) (hx : CommandEffect s t) : memoriesCanonical t := by
  cases hx with
  | faults k => exact raise_canonical k
  | decoderStarts hst => exact decoderStart_canonical (s := { s with task := .host }) h hst
  | encoderStarts hst => exact encoderStart_canonical (s := { s with task := .host }) h hst
  | loadStarts task => exact memoriesCanonical_of_same rfl rfl h
  | loopStarts task i => exact memoriesCanonical_of_same rfl rfl h
  | ends p st hst => exact finish_canonical p

end

/-- Settles O55: the decoder's tokens write the ring, the encoder's rounds its arrays, each in their canonical form; all
other steps leave both or start afresh. -/
theorem stepsKeepMemoriesCanonical : Obligations.StepsKeepMemoriesCanonical := by
  intro s t h hstep
  cases step_effect hstep with
  | resets => exact memoriesCanonical_of_dropped rfl rfl
  | idles => exact h
  | faults k => exact raise_canonical k
  | takesCommand he hx => exact commandEffect_canonical (s := present _ _ s) h hx
  | skipsHeader he => exact memoriesCanonical_of_same rfl rfl h
  | runsToken he hx =>
    rw [memoriesCanonical_iff] at h ⊢
    exact ⟨hx.ring h.1, by rw [hx.le]; exact h.2⟩
  | decoderEnds he ho hx => exact codecReturn_canonical h hx
  | readsIndex count offsets => exact memoriesCanonical_of_same rfl rfl h
  | meetsHeader he ht hx => exact entryEffect_canonical h hx
  | meetsEntry he hw hx => exact entryEffect_canonical h hx
  | loopGoesOn task arc he hw hd => exact memoriesCanonical_of_same rfl rfl h
  | loopEnds p st hst => exact finish_canonical p
  | encodes eng ip out le se he heng hle =>
    rw [memoriesCanonical_iff] at h ⊢
    exact ⟨h.1, hle h.2⟩
  | encoderEnds ip le he hle hx =>
    refine codecReturn_canonical ?_ hx
    rw [memoriesCanonical_iff] at h ⊢
    exact ⟨h.1, hle h.2⟩

/-! ## The ring cursor -/

section
variable {s t : State}

theorem ringFollowsOutput_of_ne (h : t.engine ≠ .lzssDec) : ringFollowsOutput t := fun he => absurd he h

theorem decoderStart_ringFollowsOutput {inp : Bytes} {n : Word}
    (ht : t = startLzssDec inp n s ∨ t = startSlideDec inp n s ∨ t = startRleDec inp n s) : ringFollowsOutput t := by
  rcases ht with rfl | rfl | rfl
  · exact fun _ => rfl
  · exact ringFollowsOutput_of_ne nofun
  · exact ringFollowsOutput_of_ne nofun

theorem encoderStart_ringFollowsOutput {inp : Bytes} (ht : t = startLzssEnc inp s ∨ t = startSlideEnc inp s) :
    ringFollowsOutput t := by
  rcases ht with rfl | rfl <;> exact ringFollowsOutput_of_ne nofun

theorem codecReturn_ringFollowsOutput {b : Bytes} (hx : codecReturn b s = .next t) : ringFollowsOutput t := by
  refine ringFollowsOutput_of_ne ?_
  rcases codecReturn_engine hx with h | h <;> rw [h] <;> nofun

theorem entryEffect_ringFollowsOutput {size : Word} (he : s.engine = .arcEntries) (hx : EntryEffect size s t) :
    ringFollowsOutput t := by
  cases hx with
  | faults k => exact ringFollowsOutput_of_ne nofun
  | loads e hd hst => exact ringFollowsOutput_of_ne (by rw [he]; nofun)
  | decodes hb hr =>
    obtain ⟨e, -, ⟨-, rfl⟩ | ⟨-, rfl⟩ | ⟨-, rfl⟩ | ⟨-, rfl⟩⟩ := decodeReturn_next hr <;>
      exact ringFollowsOutput_of_ne nofun
  | decoderStarts ht hst => exact decoderStart_ringFollowsOutput hst
  | encodes ht hr =>
    cases hr
    exact ringFollowsOutput_of_ne nofun
  | encoderStarts ht hst => exact encoderStart_ringFollowsOutput hst

theorem commandEffect_ringFollowsOutput (hx : CommandEffect s t) : ringFollowsOutput t := by
  cases hx with
  | faults k => exact ringFollowsOutput_of_ne nofun
  | decoderStarts hst => exact decoderStart_ringFollowsOutput hst
  | encoderStarts hst => exact encoderStart_ringFollowsOutput hst
  | loadStarts task => exact ringFollowsOutput_of_ne nofun
  | loopStarts task i => exact ringFollowsOutput_of_ne nofun
  | ends p st hst => exact ringFollowsOutput_of_ne nofun

/-- A token moves the ring cursor and the output on together (R96, R97). -/
theorem tokenEffect_ringFollowsOutput (h : ringFollowsOutput s) (hx : TokenEffect s t) : ringFollowsOutput t := by
  intro he
  have hes : s.engine = .lzssDec := by rw [hx.frame] at he; exact he
  obtain ⟨bs, hout⟩ := hx.out
  have hop : t.op = s.op + bs.length := by simp [State.op, hout]
  rw [hx.cursor hes, BitVec.toNat_add, BitVec.toNat_ofNat, h hes, hop]
  omega

end

/-- Settles O56: only a start and a token leave the block in the LZSS decoder's loop. -/
theorem ringCursorFollowsTheOutput : Obligations.RingCursorFollowsTheOutput := by
  refine ⟨fun _ _ _ => rfl, fun c s => ?put, fun s t h hstep => ?step⟩
  case put => exact BitVec.toNat_add ..
  case step =>
    cases step_effect hstep with
    | resets => exact ringFollowsOutput_of_ne nofun
    | idles => exact h
    | faults k => exact ringFollowsOutput_of_ne nofun
    | takesCommand he hx => exact commandEffect_ringFollowsOutput hx
    | skipsHeader he => exact ringFollowsOutput_of_ne nofun
    | runsToken he hx => exact tokenEffect_ringFollowsOutput h hx
    | decoderEnds he ho hx => exact codecReturn_ringFollowsOutput hx
    | readsIndex count offsets => exact ringFollowsOutput_of_ne nofun
    | meetsHeader he ht hx => exact entryEffect_ringFollowsOutput he hx
    | meetsEntry he hw hx => exact entryEffect_ringFollowsOutput he hx
    | loopGoesOn task arc he hw hd => exact ringFollowsOutput_of_ne (by rw [he]; nofun)
    | loopEnds p st hst => exact ringFollowsOutput_of_ne nofun
    | encodes eng ip out le se he heng hle =>
      refine ringFollowsOutput_of_ne fun hlz => ?_
      rw [show eng = .lzssDec from hlz] at heng
      cases heng
    | encoderEnds ip le he hle hx => exact codecReturn_ringFollowsOutput hx

/-! ## Sound entries -/

section
variable {s t : State}

/-- The command has ended with a sound store. -/
theorem entriesSound_of_idle (hst : soundEntries t.store) (he : t.engine = .idle) (ha : t.arc = {}) :
    entriesSound t := by
  refine ⟨hst, ?_, ?_, ?_, ?_, ?_⟩
  · rw [ha]
    nofun
  · rw [ha]
    nofun
  all_goals
    rw [he]
    nofun

/-- Outside the codecs, only the entries and the payloads are spoken of. -/
theorem entriesSound_of_loop (hst : soundEntries t.store) (hw : soundEntries t.arc.work) (hd : shortPayloads t.arc.d)
    (he : t.engine = .arcIndex ∨ t.engine = .arcEntries) : entriesSound t := by
  refine ⟨hst, hw, hd, ?_, ?_, ?_⟩
  all_goals rcases he with he | he <;> rw [he] <;> nofun

theorem raise_sound (k : FaultKind) (h : soundEntries s.store) : entriesSound (raise k s) :=
  entriesSound_of_idle h rfl rfl

theorem finish_sound (p : Payload) {st : List Entry} (h : soundEntries st) :
    entriesSound (finish p { s with store := st }) := entriesSound_of_idle h rfl rfl

/-- A decoder starts with no output, and in a container's decode with the entry's size. -/
theorem decoderStart_sound {inp : Bytes} {n : Word} (h : entriesSound s)
    (hn : s.task.isDecode = true → (s.arc.work[s.arc.i]?).map Entry.size = some n)
    (ht : t = startLzssDec inp n s ∨ t = startSlideDec inp n s ∨ t = startRleDec inp n s) : entriesSound t := by
  obtain ⟨hst, hw, hd, -⟩ := h
  rcases ht with rfl | rfl | rfl <;> exact ⟨hst, hw, hd, fun _ => Nat.zero_le _, fun _ => hn, nofun⟩

/-- An encoder starts for the host or for a save. -/
theorem encoderStart_sound {inp : Bytes} (h : entriesSound s) (htask : s.task.isDecode = false)
    (ht : t = startLzssEnc inp s ∨ t = startSlideEnc inp s) : entriesSound t := by
  obtain ⟨hst, hw, hd, -⟩ := h
  rcases ht with rfl | rfl <;> exact ⟨hst, hw, hd, nofun, nofun, fun _ => htask⟩

/-- A decode returns as many bytes as the entry's size says. -/
theorem decodeReturn_sound {b : Bytes} (hst : soundEntries s.store) (hw : soundEntries s.arc.work)
    (hd : shortPayloads s.arc.d) (hb : ∀ e, s.arc.work[s.arc.i]? = some e → b.length = e.size.toNat)
    (h : decodeReturn b s = .next t) : entriesSound t := by
  obtain ⟨e, he, ht⟩ := decodeReturn_next h
  have hset : soundEntries (s.arc.work.set s.arc.i (decodedEntry b e)) :=
    set_sound hw (entryWf_of_data rfl (by simp [decodedEntry]) (hb e he))
  rcases ht with ⟨-, rfl⟩ | ⟨-, rfl⟩ | ⟨-, rfl⟩ | ⟨-, rfl⟩
  · exact finish_sound _ hset
  · exact finish_sound _ hset
  · exact entriesSound_of_loop hst hset hd (.inr rfl)
  · refine entriesSound_of_loop hst hw (fun x hx => ?_) (.inr rfl)
    rcases List.mem_append.mp hx with hx | hx
    · exact hd x hx
    · rw [List.mem_singleton.mp hx, hb e he]
      exact e.size.isLt

/-- A codec that works for the host, for a save, or makes the bytes of the entry's size, returns to a sound state. -/
theorem codecReturn_sound {b : Bytes} (hst : soundEntries s.store) (hw : soundEntries s.arc.work)
    (hd : shortPayloads s.arc.d)
    (hb : s.task.isDecode = true → ∀ e, s.arc.work[s.arc.i]? = some e → b.length = e.size.toNat)
    (h : codecReturn b s = .next t) : entriesSound t := by
  rcases codecReturn_next h with ⟨-, rfl⟩ | ⟨ht, h⟩ | ⟨-, h⟩
  · exact finish_sound (st := s.store) _ hst
  · exact decodeReturn_sound hst hw hd (hb ht) h
  · cases h
    exact entriesSound_of_loop hst hw hd (.inr rfl)

theorem entryEffect_sound {size : Word} (h : entriesSound s) (he : s.engine = .arcEntries)
    (hsize : s.task.isDecode = true → (s.arc.work[s.arc.i]?).map Entry.size = some size) (hx : EntryEffect size s t) :
    entriesSound t := by
  have ⟨hst, hw, hd, _⟩ := h
  cases hx with
  | faults k => exact raise_sound k hst
  | loads e hdata hunl =>
    exact entriesSound_of_loop hst (append_sound hw (entryWf_of_unloaded hdata hunl)) hd (.inr he)
  | decodes hb hr =>
    refine decodeReturn_sound hst hw hd (fun e hwe => ?_) hr
    have htask : s.task.isDecode = true := by
      obtain ⟨-, -, ⟨ht, -⟩ | ⟨ht, -⟩ | ⟨ht, -⟩ | ⟨ht, -⟩⟩ := decodeReturn_next hr <;> rw [ht] <;> rfl
    have hes : e.size = size := by simpa [hwe] using hsize htask
    rw [hb, hes]
  | decoderStarts ht hstart => exact decoderStart_sound h hsize hstart
  | encodes ht hr =>
    cases hr
    exact entriesSound_of_loop hst hw hd (.inr rfl)
  | encoderStarts ht hstart => exact encoderStart_sound h (by rw [ht]; rfl) hstart

theorem commandEffect_sound (h : entriesSound s) (he : s.engine = .idle) (hx : CommandEffect s t) : entriesSound t := by
  have ⟨hst, hw, hd, _⟩ := h
  have hhost : entriesSound { s with task := .host } := by
    refine ⟨hst, hw, hd, ?_, ?_, ?_⟩
    all_goals
      simp only [he]
      nofun
  cases hx with
  | faults k => exact raise_sound k hst
  | decoderStarts hstart => exact decoderStart_sound hhost nofun hstart
  | encoderStarts hstart => exact encoderStart_sound hhost rfl hstart
  | loadStarts task => exact entriesSound_of_loop hst nofun nofun (.inl rfl)
  | loopStarts task i => exact entriesSound_of_loop hst hst nofun (.inr rfl)
  | ends p st hstore => exact finish_sound p (hstore hst)

end

/-- No engine is both a decoder and an encoder. -/
theorem Engine.not_isDecoder_of_isEncoder : ∀ {e : Engine}, e.isEncoder = true → e.isDecoder ≠ true
  | .lzssEncPrime, _ | .lzssEnc, _ | .slideEnc, _ => nofun

/-- Settles O59: what a decoder returns has the size of its entry, what a save commits and what a command stores carries
its own length, and a load takes in `Unloaded` entries. -/
theorem entriesStaySound : Obligations.EntriesStaySound := by
  intro s t h hstep
  have ⟨hst, hw, hd, hop, hsize, henc⟩ := h
  cases step_effect hstep with
  | resets => exact entriesSound_of_idle nofun rfl rfl
  | idles => exact h
  | faults k => exact raise_sound k hst
  | takesCommand he hx => exact commandEffect_sound (s := present _ _ s) h he hx
  | skipsHeader he =>
    exact ⟨hst, hw, hd, fun _ => hop (by rw [he]; rfl), fun _ => hsize (by rw [he]; rfl), nofun⟩
  | runsToken he hx =>
    have hdec : s.engine.isDecoder = true := by rcases he with he | he | he <;> rw [he] <;> rfl
    rw [hx.frame]
    exact ⟨hst, hw, hd, fun _ => hx.op_le, fun _ => hsize hdec, henc⟩
  | decoderEnds he ho hx =>
    have hdec : s.engine.isDecoder = true := by rcases he with he | he | he <;> rw [he] <;> rfl
    refine codecReturn_sound hst hw hd (fun htask e hwe => ?_) hx
    have hn : e.size = s.n := by simpa [hwe] using hsize hdec htask
    rw [hn]
    exact le_antisymm (hop hdec) (not_lt.mp ho)
  | readsIndex count offsets => exact entriesSound_of_loop hst nofun hd (.inr rfl)
  | meetsHeader he ht hx =>
    refine entryEffect_sound h he (fun htask => ?_) hx
    rcases ht with ht | ht <;> rw [ht] at htask <;> cases htask
  | meetsEntry he hwe hx => exact entryEffect_sound h he (fun _ => by rw [hwe]; rfl) hx
  | loopGoesOn task arc he hw' hd' => exact entriesSound_of_loop hst (hw' hw) (hd' hw hd) (.inr he)
  | loopEnds p st hst' => exact finish_sound p (hst' hw hd)
  | encodes eng ip out le se he heng hle =>
    have hdec : eng.isDecoder ≠ true := Engine.not_isDecoder_of_isEncoder heng
    exact ⟨hst, hw, hd, fun hx => absurd hx hdec, fun hx => absurd hx hdec, fun _ => henc he⟩
  | encoderEnds ip le he hle hx =>
    refine codecReturn_sound (s := { s with ip := ip, le := le }) hst hw hd (fun htask => ?_) hx
    rw [show s.task.isDecode = true from htask] at henc
    cases henc he

end Sys2Proof.Machine
end

section
/-! Nothing but names depends on names (R143): running on the state without its entries' names, and then dropping names,
comes to the same as running on the state itself and then dropping names. -/

open Sys2Proof.Claims

namespace Sys2Proof.Machine

/-! ## Dropping names -/

/-- An answer without the names of the next state. -/
def forgetNames : Answer → Answer
  | .next t => .next (eraseNames t)
  | .fault f => .fault f
  | .refused r => .refused r

section
variable {a : Answer}

theorem forgetNames_eq_next {u : State} : forgetNames a = .next u ↔ ∃ t, a = .next t ∧ eraseNames t = u := by
  cases a <;> simp [forgetNames]

theorem forgetNames_eq_fault {f : Fault} : forgetNames a = .fault f ↔ a = .fault f := by
  cases a <;> simp [forgetNames]

theorem forgetNames_eq_refused {r : Refusal} : forgetNames a = .refused r ↔ a = .refused r := by
  cases a <;> simp [forgetNames]

end

/-- The operation does to the state without names what it does to the state. -/
def KeepsNamesApart (f : State → State) : Prop := ∀ s, f (eraseNames s) = eraseNames (f s)

/-- The answer is, but for names, the same for the state without names. -/
def NamesBlind (A : State → Answer) : Prop := ∀ s, forgetNames (A (eraseNames s)) = forgetNames (A s)

@[simp] theorem dropNames_nil : dropNames [] = [] := rfl

@[simp] theorem dropNames_dropNames (es : List Entry) : dropNames (dropNames es) = dropNames es := by
  simp [dropNames, Function.comp_def]

theorem dropNames_length (es : List Entry) : (dropNames es).length = es.length := List.length_map _

theorem dropNames_getElem? (es : List Entry) (i : Nat) :
    (dropNames es)[i]? = es[i]?.map (fun e => { e with name := [] }) := List.getElem?_map ..

theorem dropNames_append (es fs : List Entry) : dropNames (es ++ fs) = dropNames es ++ dropNames fs := List.map_append

theorem dropNames_set (es : List Entry) (i : Nat) (e : Entry) :
    dropNames (es.set i e) = (dropNames es).set i { e with name := [] } := List.map_set ..

theorem dropNames_eraseIdx (es : List Entry) (i : Nat) : dropNames (es.eraseIdx i) = (dropNames es).eraseIdx i :=
  (List.eraseIdx_map ..).symm

/-- An inference changes names alone (R37). -/
theorem dropNames_inferNames (f : Option Name) (es : List Entry) : dropNames (inferNames f es) = dropNames es := by
  refine List.ext_getElem? fun i => ?_
  simp [dropNames, inferNames, Function.comp_def]

@[simp] theorem eraseResultNames_eraseResultNames (r : CommandResult) :
    eraseResultNames (eraseResultNames r) = eraseResultNames r := by
  rcases r with (_ | b | x | xs) | k <;> simp [eraseResultNames, Function.comp_def]

@[simp] theorem eraseNames_eraseNames (s : State) : eraseNames (eraseNames s) = eraseNames s := by
  simp [eraseNames, Function.comp_def]

/-- The entry a container command stands at. -/
theorem eraseNames_workedOn (s : State) :
    (eraseNames s).arc.work[(eraseNames s).arc.i]? = s.arc.work[s.arc.i]?.map (fun e => { e with name := [] }) :=
  dropNames_getElem? ..

theorem raise_eraseNames (k : FaultKind) : KeepsNamesApart (raise k) := fun _ => rfl

/-- Two ends of a command are the same but for names when their stores and results are. -/
theorem eraseNames_finish {p q : Payload} {st st' : List Entry} {s : State}
    (hp : eraseResultNames (.ok p) = eraseResultNames (.ok q)) (hst : dropNames st = dropNames st') :
    eraseNames (finish p { eraseNames s with store := st }) = eraseNames (finish q { s with store := st' }) := by
  simp [eraseNames, finish, dropScratch, hp, hst]

theorem NamesBlind.of_keeps {A : State → Answer} (h : ∀ s, A (eraseNames s) = forgetNames (A s)) : NamesBlind A := by
  intro s
  rw [h s]
  cases A s <;> simp [forgetNames]

/-! ## The loops of the tokens and the rounds of the encoders -/

theorem lzCopy_eraseNames (m : Nat) : KeepsNamesApart (lzCopy m) := by
  induction m with
  | zero => exact fun _ => rfl
  | succ m ih => exact fun s => ih (lzCopyByte s)

theorem slCopy_eraseNames (m : Nat) : KeepsNamesApart (slCopy m) := by
  induction m with
  | zero => exact fun _ => rfl
  | succ m ih => exact fun s => ih (slCopyByte s)

theorem rlFillLoop_eraseNames (m : Nat) : KeepsNamesApart (rlFillLoop m) := by
  induction m with
  | zero => exact fun _ => rfl
  | succ m ih => exact fun s => ih (emit s.rl.v { s with rl := { s.rl with j := s.rl.j + 1 } })

theorem rlCopyLoop_eraseNames (m : Nat) : KeepsNamesApart (rlCopyLoop m) := by
  induction m with
  | zero => exact fun _ => rfl
  | succ m ih =>
    intro s
    have hb : inputByte (eraseNames s) = inputByte s := rfl
    simp only [rlCopyLoop, hb]
    cases inputByte s with
    | none => rfl
    | some v => exact ih (emit v { s with ip := s.ip + 1, rl := { s.rl with v := v, j := s.rl.j + 1 } })

theorem lzFill_eraseNames (m : Nat) : KeepsNamesApart (lzFill m) := by
  induction m with
  | zero => exact fun _ => rfl
  | succ m ih =>
    intro s
    have hb : inputByte (eraseNames s) = inputByte s := rfl
    simp only [lzFill, hb]
    cases inputByte s with
    | none => rfl
    | some c =>
      exact ih { s with
        ip := s.ip + 1
        le := { s.le with text := Mem.write s.le.text (s.le.r.toNat + s.le.len.toNat) c, len := s.le.len + 1 } }

theorem lzAdvance_eraseNames : KeepsNamesApart lzAdvance := by
  intro s
  have hb : inputByte (eraseNames s) = inputByte s := rfl
  simp only [lzAdvance, hb]
  cases inputByte s <;> rfl

theorem lzAdvanceBy_eraseNames (m : Nat) : KeepsNamesApart (lzAdvanceBy m) := by
  induction m with
  | zero => exact fun _ => rfl
  | succ m ih =>
    intro s
    rw [lzAdvanceBy, lzAdvance_eraseNames, ih]
    rfl

theorem lzPutMask_eraseNames : KeepsNamesApart lzPutMask := by
  intro s
  simp only [lzPutMask, apply_ite eraseNames]
  rfl

theorem lzRound_eraseNames : KeepsNamesApart lzRound := by
  intro s
  have ht : { eraseNames s with le := lzPutToken s.params.pair s.le } =
    eraseNames { s with le := lzPutToken s.params.pair s.le } := rfl
  change lzAdvanceBy _ (lzPutMask { eraseNames s with le := lzPutToken s.params.pair s.le }) = _
  rw [ht, lzPutMask_eraseNames, lzAdvanceBy_eraseNames]
  rfl

theorem slRound_eraseNames : KeepsNamesApart slRound := by
  intro s
  simp only [slRound, apply_ite eraseNames]
  rfl

/-! ## The return of a codec -/

theorem decodeReturn_blind (b : Bytes) : NamesBlind (decodeReturn b) := by
  intro s
  have hset (e : Entry) : dropNames ((dropNames s.arc.work).set s.arc.i (decodedEntry b { e with name := [] })) =
      dropNames (s.arc.work.set s.arc.i (decodedEntry b e)) := by
    simp only [dropNames_set, dropNames_dropNames, decodedEntry]
  have ht : (eraseNames s).task = s.task := rfl
  simp only [decodeReturn, eraseNames_workedOn, ht]
  cases s.arc.work[s.arc.i]? with
  | none => rfl
  | some e =>
    cases s.task with
    | decode => exact congrArg Host.Outcome.next (eraseNames_finish (s := s) rfl (hset e))
    | read => exact congrArg Host.Outcome.next (eraseNames_finish (s := s) rfl (hset e))
    | unpack =>
      simp only [Option.map_some, forgetNames]
      simp [eraseNames, hset, Function.comp_def]
    | saveDecode => simp [forgetNames, eraseNames, Function.comp_def]
    | host | load | loadUnpack | saveEncode => rfl

theorem encodeReturn_blind (b : Bytes) : NamesBlind (encodeReturn b) := NamesBlind.of_keeps fun _ => rfl

theorem codecReturn_blind (b : Bytes) : NamesBlind (codecReturn b) := by
  intro s
  have ht : (eraseNames s).task = s.task := rfl
  simp only [codecReturn, ht]
  cases s.task with
  | host => exact congrArg Host.Outcome.next (eraseNames_finish (s := s) rfl (dropNames_dropNames s.store))
  | decode | read | unpack | saveDecode => exact decodeReturn_blind b s
  | saveEncode => exact encodeReturn_blind b s
  | load | loadUnpack => rfl

/-! ## Instructions -/

theorem forgetNames_ite {c : Prop} [Decidable c] {a b a' b' : Answer} (ha : forgetNames a = forgetNames a')
    (hb : forgetNames b = forgetNames b') : forgetNames (if c then a else b) = forgetNames (if c then a' else b') := by
  split
  · exact ha
  · exact hb

theorem forgetNames_withinLimit {b : Bytes} {k k' : Answer} (h : forgetNames k = forgetNames k') :
    forgetNames (withinLimit b k) = forgetNames (withinLimit b k') := forgetNames_ite h rfl

theorem forgetNames_next {s t : State} (h : eraseNames s = eraseNames t) :
    forgetNames (.next s) = forgetNames (.next t) := congrArg Host.Outcome.next h

/-- A state made from `s` by an operation that keeps names apart. -/
theorem forgetNames_keeps {f : State → State} (h : KeepsNamesApart f) (s : State) :
    forgetNames (.next (f (eraseNames s))) = forgetNames (.next (f s)) :=
  forgetNames_next (by rw [h, eraseNames_eraseNames])

theorem raise_blind (k : FaultKind) : NamesBlind (fun s => .next (raise k s)) := forgetNames_keeps (raise_eraseNames k)

theorem loadEntry_blind (k : Kind) (size : Word) : NamesBlind (loadEntry k size) := by
  intro s
  have ho : (eraseNames s).arc.offsets[(eraseNames s).arc.i]? = s.arc.offsets[s.arc.i]? := rfl
  simp only [loadEntry, ho]
  cases s.arc.offsets[s.arc.i]? with
  | none => rfl
  | some off =>
    refine forgetNames_ite (raise_blind _ s) (forgetNames_ite (raise_blind _ s) (forgetNames_next ?_))
    simp [eraseNames, dropNames_append, Function.comp_def]
    rfl

/-- An entry header reads the raw bytes of the entry worked on, or the payload of a save, and no name. -/
theorem entryPass_eraseNames {s : State} {load load' : Answer} {dec dec' enc enc' : Bytes → Answer}
    (hl : forgetNames load = forgetNames load') (hd : ∀ b, forgetNames (dec b) = forgetNames (dec' b))
    (he : ∀ d, forgetNames (enc d) = forgetNames (enc' d)) :
    forgetNames (entryPass (eraseNames s) load dec enc) = forgetNames (entryPass s load' dec' enc') := by
  have ht : (eraseNames s).task = s.task := rfl
  have hp : (eraseNames s).arc.d[(eraseNames s).arc.i]? = s.arc.d[s.arc.i]? := rfl
  simp only [entryPass, ht, eraseNames_workedOn, hp]
  cases s.task with
  | host => rfl
  | load | loadUnpack => exact hl
  | decode | read | unpack | saveDecode =>
    cases s.arc.work[s.arc.i]? with
    | none => rfl
    | some e => exact hd e.raw
  | saveEncode =>
    cases s.arc.d[s.arc.i]? with
    | none => rfl
    | some d => exact he d

theorem flideEntry_blind (k : Kind) (size : Word) : NamesBlind (flideEntry k size) := fun s =>
  entryPass_eraseNames (loadEntry_blind k size s)
    (fun raw => forgetNames_ite (forgetNames_keeps (f := startSlideDec raw size) (fun _ => rfl) s) (raise_blind _ s))
    (fun d => forgetNames_ite (forgetNames_keeps (f := startSlideEnc d) (fun _ => rfl) s) (raise_blind _ s))

theorem exec_entryInstr_blind (size : Word) (kind : Kind) : NamesBlind (exec (entryInstr size kind)) := by
  intro s
  cases kind with
  | none =>
    simp only [entryInstr, exec, execEntryNone]
    refine entryPass_eraseNames (loadEntry_blind _ _ s) (fun raw => ?_) (fun d => encodeReturn_blind d s)
    exact forgetNames_ite (raise_blind _ s) (decodeReturn_blind _ s)
  | lzss =>
    exact entryPass_eraseNames (loadEntry_blind _ _ s)
      (fun raw => forgetNames_keeps (f := startLzssDec raw size) (fun _ => rfl) s)
      (fun d => forgetNames_keeps (f := startLzssEnc d) (fun _ => rfl) s)
  | slide =>
    exact entryPass_eraseNames (loadEntry_blind _ _ s)
      (fun raw => forgetNames_keeps (f := startSlideDec raw size) (fun _ => rfl) s)
      (fun d => forgetNames_keeps (f := startSlideEnc d) (fun _ => rfl) s)
  | flideVariantA | flideVariantB => exact flideEntry_blind _ size s
  | rle =>
    exact entryPass_eraseNames (loadEntry_blind _ _ s)
      (fun raw => forgetNames_keeps (f := startRleDec raw size) (fun _ => rfl) s) (fun d => raise_blind _ s)
  | inflate =>
    simp only [entryInstr, exec, execEntryInflate]
    refine entryPass_eraseNames (loadEntry_blind _ _ s) (fun raw => ?_) (fun d => ?_)
    · cases Config.zDecode raw size with
      | ok d => exact forgetNames_ite (decodeReturn_blind d s) (raise_blind _ s)
      | fault k => exact raise_blind k s
    · cases Config.zEncode d with
      | ok c => exact encodeReturn_blind c s
      | fault k => exact raise_blind k s
  | unknown tag =>
    exact entryPass_eraseNames (loadEntry_blind _ _ s) (fun raw => raise_blind _ s) (fun d => raise_blind _ s)

/-- The check for room before a run of `len` bytes (R97, R112, R120, R121). -/
theorem roomCheck_blind {f : State → State} (hf : KeepsNamesApart f) (len : Nat) :
    NamesBlind fun u => if overruns u len then .next (raise .corruptDataError u) else .next (f u) := fun u =>
  forgetNames_ite (raise_blind _ u) (forgetNames_keeps hf u)

theorem slideCopy_blind : NamesBlind slideCopy := fun s => roomCheck_blind (slCopy_eraseNames _) s.sl.len.toNat s

theorem execArcIndex_eraseNames (count : Word) (s : State) :
    execArcIndex count (eraseNames s) = forgetNames (execArcIndex count s) := by
  have hi : (eraseNames s).inp = s.inp := rfl
  simp only [execArcIndex, hi]
  cases readOffsets s.inp count.toNat 4 <;> rfl

/-- Outside the store no name is read; the names of the store go to an inference alone. -/
theorem exec_command_blind {i : Instr} (hi : i.ctx = .command) : NamesBlind (exec i) := by
  intro s
  have hs : (eraseNames s).store[(eraseNames s).operands.index]? =
      s.store[s.operands.index]?.map (fun e => { e with name := [] }) := dropNames_getElem? ..
  cases i <;> simp only [Instr.ctx, reduceCtorEq] at hi
  case lzssDec =>
    exact forgetNames_withinLimit (forgetNames_keeps
      (f := fun s => startLzssDec s.operands.inp s.operands.n { s with task := .host }) (fun _ => rfl) s)
  case lzssEnc =>
    exact forgetNames_withinLimit (forgetNames_keeps
      (f := fun s => startLzssEnc s.operands.inp { s with task := .host }) (fun _ => rfl) s)
  case slideDec =>
    exact forgetNames_withinLimit (forgetNames_keeps
      (f := fun s => startSlideDec s.operands.inp s.operands.n { s with task := .host }) (fun _ => rfl) s)
  case slideEnc =>
    exact forgetNames_withinLimit (forgetNames_ite (forgetNames_keeps
      (f := fun s => startSlideEnc s.operands.inp { s with task := .host }) (fun _ => rfl) s) rfl)
  case rleDec =>
    exact forgetNames_withinLimit (forgetNames_keeps
      (f := fun s => startRleDec s.operands.inp s.operands.n { s with task := .host }) (fun _ => rfl) s)
  case rleEnc => exact forgetNames_withinLimit (raise_blind _ s)
  case arcLoad =>
    exact forgetNames_withinLimit (forgetNames_keeps
      (f := fun s => { s with engine := .arcIndex, task := .load, inp := s.operands.inp, arc := {} }) (fun _ => rfl) s)
  case arcUnpack =>
    exact forgetNames_withinLimit (forgetNames_keeps
      (f := fun s => { s with engine := .arcIndex, task := .loadUnpack, inp := s.operands.inp, arc := {} })
      (fun _ => rfl) s)
  case arcDecode =>
    simp only [exec, execArcDecode, hs]
    cases s.store[s.operands.index]? with
    | none => rfl
    | some e =>
      exact forgetNames_ite
        (forgetNames_keeps (f := fun s => startEntries .decode s.operands.index s) (fun _ => rfl) s)
        (forgetNames_next (eraseNames_finish rfl (dropNames_dropNames s.store)))
  case arcRead =>
    simp only [exec, execArcRead, hs]
    cases s.store[s.operands.index]? with
    | none => rfl
    | some e =>
      exact forgetNames_ite
        (forgetNames_keeps (f := fun s => startEntries .read s.operands.index s) (fun _ => rfl) s)
        (forgetNames_next (eraseNames_finish rfl (dropNames_dropNames s.store)))
  case arcSave =>
    have hall : (eraseNames s).store.all (fun e => hasEncoder (eraseNames s).params e.kind) =
        s.store.all (fun e => hasEncoder s.params e.kind) := List.all_map
    simp only [exec, execArcSave, hall]
    exact forgetNames_ite (forgetNames_keeps (f := startEntries .saveDecode 0) (fun _ => rfl) s) (raise_blind _ s)
  case arcAdd =>
    refine forgetNames_withinLimit (forgetNames_next (eraseNames_finish rfl ?_))
    simp only [dropNames_inferNames, dropNames_append]
    exact congrArg (· ++ _) (dropNames_dropNames s.store)
  case arcDel =>
    have hlen : (eraseNames s).store.length = s.store.length := dropNames_length _
    simp only [exec, execArcDel, hlen]
    refine forgetNames_ite (forgetNames_next (eraseNames_finish rfl ?_)) rfl
    simp only [dropNames_inferNames, dropNames_eraseIdx]
    exact congrArg (List.eraseIdx · _) (dropNames_dropNames s.store)
  case arcReplace =>
    simp only [exec, execArcReplace, hs]
    cases s.store[s.operands.index]? with
    | none => rfl
    | some e =>
      refine forgetNames_withinLimit (forgetNames_next (eraseNames_finish rfl ?_))
      simp only [dropNames_set]
      exact congrArg (List.set · _ _) (dropNames_dropNames s.store)
  case arc2Load => rfl

/-- No instruction reads a name, but for what an inference is given. -/
theorem exec_blind (i : Instr) : NamesBlind (exec i) := by
  cases i
  case lzFlag f => exact .of_keeps fun _ => rfl
  case lzLit c =>
    exact fun s => forgetNames_ite (forgetNames_keeps
      (f := fun s => ringPut c (emit c { s with ip := s.ip + 1, lz := { s.lz with c := c } })) (fun _ => rfl) s) rfl
  case lzRef off lraw =>
    exact fun s => roomCheck_blind (lzCopy_eraseNames _) (lzRefOperands off lraw s).lz.len.toNat
      (lzRefOperands off lraw s)
  case slHdr u => exact .of_keeps fun _ => rfl
  case slCw f => exact .of_keeps fun _ => rfl
  case slLit c =>
    exact fun s => forgetNames_ite (forgetNames_keeps
      (f := fun s => emit c { s with ip := s.ip + 1, sl := { s.sl with c := c } }) (fun _ => rfl) s) rfl
  case slRef2 n d => exact fun s => slideCopy_blind (slRef2Operands n d s)
  case slRef3 d e => exact fun s => slideCopy_blind (slRef3Operands d e s)
  case rlCopy k =>
    exact fun s => roomCheck_blind (rlCopyLoop_eraseNames _) k.toNat
      { s with ip := s.ip + 1, rl := { s.rl with c := (1 : BitVec 1) ++ k, k := k, j := 0 } }
  case rlFill k v =>
    exact fun s => roomCheck_blind (rlFillLoop_eraseNames _) k.toNat
      { s with ip := s.ip + 2, rl := { s.rl with c := (0 : BitVec 1) ++ k, k := k, v := v, j := 0 } }
  case arcIndex count => exact .of_keeps (execArcIndex_eraseNames count)
  case entryNone size => exact exec_entryInstr_blind size .none
  case entryLzss size => exact exec_entryInstr_blind size .lzss
  case entrySlide size => exact exec_entryInstr_blind size .slide
  case entryFlideA size => exact exec_entryInstr_blind size .flideVariantA
  case entryFlideB size => exact exec_entryInstr_blind size .flideVariantB
  case entryRle size => exact exec_entryInstr_blind size .rle
  case entryInflate size => exact exec_entryInstr_blind size .inflate
  case entryUnknown size tag => exact exec_entryInstr_blind size (.unknown tag)
  all_goals exact exec_command_blind rfl

/-! ## Steps -/

/-- The state without names is met by the same instruction, or by an answer that is the same but for names. -/
def SameButNames : Fetched → Fetched → Prop
  | .run i u, .run j v => i = j ∧ eraseNames u = eraseNames v
  | .auto a, .auto b => forgetNames a = forgetNames b
  | _, _ => False

theorem runDecoded_blind (d : Decoded) (u : State) : SameButNames (runDecoded d (eraseNames u)) (runDecoded d u) := by
  cases d with
  | instr i => exact ⟨rfl, eraseNames_eraseNames u⟩
  | truncated => exact raise_blind _ u
  | unknownCommand code => rfl

theorem sameButNames_ite {c : Prop} [Decidable c] {a b a' b' : Fetched} (ha : SameButNames a a')
    (hb : SameButNames b b') : SameButNames (if c then a else b) (if c then a' else b') := by
  split
  · exact ha
  · exact hb

theorem primeLzssEnc_blind : NamesBlind primeLzssEnc := by
  intro s
  have hp : (eraseNames s).params = s.params := rfl
  simp only [primeLzssEnc, hp]
  cases s.params.lzssEncRef with
  | reference =>
    have hle (t : State) : (eraseNames t).le = t.le := rfl
    simp only [lzFill_eraseNames _ s, hle]
    generalize lzFill Config.lzMaxMatch s = t
    generalize lzInsertFirst t.le = e
    exact forgetNames_ite (codecReturn_blind [] t)
      (forgetNames_keeps (f := fun t => { t with engine := .lzssEnc, le := e }) (fun _ => rfl) t)
  | other => exact codecReturn_blind _ s

theorem stepLzssEnc_blind : NamesBlind stepLzssEnc := fun s =>
  forgetNames_ite (codecReturn_blind _ s) (forgetNames_keeps lzRound_eraseNames s)

theorem stepSlideEnc_blind : NamesBlind stepSlideEnc := by
  intro s
  have hp : (eraseNames s).params = s.params := rfl
  simp only [stepSlideEnc, hp]
  cases s.params.slideEncRef with
  | reference => exact forgetNames_ite (forgetNames_keeps slRound_eraseNames s) (codecReturn_blind _ s)
  | other => exact codecReturn_blind _ s

theorem fetchHeader_blind {s done done' : State} (h : eraseNames done = eraseNames done') :
    SameButNames (fetchHeader (eraseNames s) done) (fetchHeader s done') := by
  have ho : (eraseNames s).arc.offsets[(eraseNames s).arc.i]? = s.arc.offsets[s.arc.i]? := rfl
  simp only [fetchHeader, ho]
  refine sameButNames_ite ?_ (forgetNames_next h)
  cases s.arc.offsets[s.arc.i]? with
  | none => rfl
  | some off => exact runDecoded_blind _ s

theorem loadEnd_eraseNames (s : State) : eraseNames (loadEnd (eraseNames s)) = eraseNames (loadEnd s) :=
  eraseNames_finish rfl (by simp only [dropNames_inferNames]; exact dropNames_dropNames s.arc.work)

theorem unpackBegin_eraseNames (s : State) : eraseNames (unpackBegin (eraseNames s)) = eraseNames (unpackBegin s) := by
  simp [unpackBegin, eraseNames, dropNames_inferNames, Function.comp_def]

/-- The tuples of `ARC.UNPACK` are, but for names, a function of the entries without names. -/
theorem eraseResultNames_items (es : List Entry) :
    eraseResultNames (.ok (.items (entryItems es))) = .ok (.items (entryItems (dropNames es))) := by
  simp [eraseResultNames, entryItems, dropNames, Function.comp_def]

theorem unpackEnd_eraseNames (s : State) : eraseNames (unpackEnd (eraseNames s)) = eraseNames (unpackEnd s) := by
  have h : dropNames (inferNames s.operands.fname (eraseNames s).arc.work) =
      dropNames (inferNames s.operands.fname s.arc.work) := by
    simp only [dropNames_inferNames]
    exact dropNames_dropNames s.arc.work
  refine eraseNames_finish (s := s) ?_ h
  rw [eraseResultNames_items, eraseResultNames_items]
  exact congrArg (fun es => CommandResult.ok (.items (entryItems es))) h

theorem dropNames_savedEntries (es : List Entry) (d c : List Bytes) :
    dropNames (savedEntries (dropNames es) d c) = dropNames (savedEntries es d c) := by
  simp [savedEntries, dropNames, List.map_zipWith, List.zipWith_map_left, savedEntry]

theorem saveEnd_blind : NamesBlind saveEnd := by
  intro s
  have hl : layout s.params (eraseNames s).arc.work s.arc.d s.arc.c = layout s.params s.arc.work s.arc.d s.arc.c := by
    simp [layout, eraseNames, dropNames, Function.comp_def]
  have hb : layout (eraseNames s).params (eraseNames s).arc.work (eraseNames s).arc.d (eraseNames s).arc.c = _ := hl
  simp only [saveEnd, hb]
  exact forgetNames_withinLimit (forgetNames_next (eraseNames_finish rfl (dropNames_savedEntries ..)))

theorem fetchEntries_blind (s : State) : SameButNames (fetchEntries (eraseNames s)) (fetchEntries s) := by
  have ht : (eraseNames s).task = s.task := rfl
  have hrun (e : Entry) : SameButNames (.run (storedEntryInstr { e with name := [] }) (eraseNames s))
      (.run (storedEntryInstr e) s) := ⟨rfl, eraseNames_eraseNames s⟩
  simp only [fetchEntries, ht, eraseNames_workedOn]
  cases s.task with
  | host => rfl
  | load => exact fetchHeader_blind (loadEnd_eraseNames s)
  | loadUnpack => exact fetchHeader_blind (unpackBegin_eraseNames s)
  | decode | read | saveEncode =>
    cases s.arc.work[s.arc.i]? with
    | none => rfl
    | some e => exact hrun e
  | unpack =>
    cases s.arc.work[s.arc.i]? with
    | none => exact forgetNames_next (unpackEnd_eraseNames s)
    | some e =>
      exact sameButNames_ite (hrun e) (forgetNames_keeps
        (f := fun s => { s with task := .unpack, arc := { s.arc with i := s.arc.i + 1 } }) (fun _ => rfl) s)
  | saveDecode =>
    cases s.arc.work[s.arc.i]? with
    | none => exact saveEnd_blind s
    | some e =>
      refine sameButNames_ite (hrun e) ?_
      simp only
      cases e.data with
      | none => rfl
      | some d =>
        exact forgetNames_keeps
          (f := fun s => { s with task := .saveEncode, arc := { s.arc with d := s.arc.d ++ [d] } }) (fun _ => rfl) s

theorem fetch_blind (s : State) : SameButNames (fetch (eraseNames s)) (fetch s) := by
  have he : (eraseNames s).engine = s.engine := rfl
  simp only [fetch, he]
  cases s.engine with
  | idle =>
    have hq : (eraseNames s).requests = s.requests := rfl
    simp only [fetchCommand, hq]
    cases s.requests with
    | nil => exact forgetNames_next (eraseNames_eraseNames s)
    | cons q rest => exact runDecoded_blind _ (present q rest s)
  | lzssDec =>
    exact sameButNames_ite (sameButNames_ite (runDecoded_blind _ s) (runDecoded_blind _ (lzTake s)))
      (codecReturn_blind _ s)
  | slideHdr => exact runDecoded_blind _ s
  | slideDec =>
    exact sameButNames_ite (sameButNames_ite (runDecoded_blind _ s) (runDecoded_blind _ (slTake s)))
      (codecReturn_blind _ s)
  | rleDec => exact sameButNames_ite (runDecoded_blind _ s) (codecReturn_blind _ s)
  | lzssEncPrime => exact primeLzssEnc_blind s
  | lzssEnc => exact stepLzssEnc_blind s
  | slideEnc => exact stepSlideEnc_blind s
  | arcIndex => exact runDecoded_blind _ s
  | arcEntries => exact fetchEntries_blind s

/-- A step is, but for names, the same for the state without names. -/
theorem step_blind : NamesBlind step := by
  intro s
  have hr : (eraseNames s).resetPending = s.resetPending := rfl
  have hf := fetch_blind s
  simp only [step, hr]
  refine forgetNames_ite rfl ?_
  cases h : fetch s with
  | run i u =>
    cases h' : fetch (eraseNames s) <;> rw [h, h'] at hf
    case run j v =>
      obtain ⟨rfl, huv⟩ := hf
      simp only
      rw [← exec_blind j v, huv, exec_blind j u]
    case auto a => exact hf.elim
  | auto a =>
    cases h' : fetch (eraseNames s) <;> rw [h, h'] at hf
    case run j v => exact hf.elim
    case auto b => exact hf

/-- Settles O60: the two steps' answers are the same but for names, so of the same kind. -/
theorem namesChangeNothingElse : Obligations.NamesChangeNothingElse := by
  intro s
  have hb := step_blind s
  refine ⟨fun t h => ?_, fun f h => ?_, fun r h => ?_⟩ <;> rw [h] at hb
  · exact forgetNames_eq_next.mp hb
  · exact forgetNames_eq_fault.mp hb
  · exact forgetNames_eq_refused.mp hb

end Sys2Proof.Machine
end

section
/-! The reference LZSS encoder, part by part (R103 to R105): an insertion, a deletion, an advance, the token put out and
the mask. -/

open Sys2Proof.Claims

namespace Sys2Proof.Machine

/-! ## Insertion -/

/-- The string at the match and the string at `r` are the same from the second byte to the match's last. -/
def MatchAgrees (e : LzEnc) (r : Nat) : Prop :=
  ∀ j, 1 ≤ j → j < e.matchLength.toNat → e.textAt (e.matchPosition.toNat + j) = e.textAt (r + j)

/-- Where child links name positions or nothing. -/
def LinksInRange (e : LzEnc) : Prop := ∀ a, e.lsonAt a ≤ 1024 ∧ e.rsonAt a ≤ 1024

theorem sameButLinks.matchAgrees {e e' : LzEnc} {r : Nat} (h : sameButLinks e e') (hm : MatchAgrees e r) :
    MatchAgrees e' r := by
  unfold sameButLinks at h
  rw [h]
  exact hm

/-- The descent of an insertion answers a string that is the same as far as the match is long. -/
theorem insertFrom_matchAgrees (r fuel : Nat) (cmp : Int) (p : Nat) (e : LzEnc) (hl : LinksInRange e)
    (hm : MatchAgrees e r) : MatchAgrees (insertFrom r fuel cmp p e) r := by
  induction fuel generalizing cmp p e with
  | zero => exact hm
  | succ fuel ih =>
    unfold insertFrom
    simp only
    have hq : (if 0 ≤ cmp then e.rsonAt p else e.lsonAt p) ≤ 1024 := by
      split
      · exact (hl p).2
      · exact (hl p).1
    generalize (if 0 ≤ cmp then e.rsonAt p else e.lsonAt p) = q at hq ⊢
    obtain ⟨-, hfound, hsame⟩ := firstDifference_spec e r q (Config.lzMaxMatch - 1) 1
    generalize firstDifference e r q (Config.lzMaxMatch - 1) 1 = found at hfound hsame ⊢
    split
    · split <;> exact hm
    · rename_i hnil
      have hlt : q < 1024 := lt_of_le_of_ne hq hnil
      have hnew : MatchAgrees
          { e with matchPosition := BitVec.ofNat 10 q, matchLength := BitVec.ofNat 7 found.1 } r := by
        have hfound : found.1 ≤ 66 := hfound
        intro j h1 hj
        simp only [BitVec.toNat_ofNat] at hj ⊢
        rw [Nat.mod_eq_of_lt (by omega)] at hj
        rw [Nat.mod_eq_of_lt hlt]
        exact hsame j h1 hj
      split
      · split
        · exact (replaceNode_same ..).matchAgrees hnew
        · exact ih _ _ _ hl hnew
      · exact ih _ _ _ hl hm

/-- What the descent of `InsertNode(r)` starts from: `r` without children, no match yet. -/
def insertStart (r : Nat) (e : LzEnc) : LzEnc := { (e.setRson r nilIndex).setLson r nilIndex with matchLength := 0 }

theorem insertNode_eq (r : Nat) (e : LzEnc) :
    insertNode r e = insertFrom r treeFuel 1 (1025 + (e.textAt r).toNat) (insertStart r e) := rfl

section
variable {r : Nat} {e : LzEnc}

theorem insertStart_lsonAt (hw : Links.wf e.lson = true) (a : Nat) :
    (insertStart r e).lsonAt a = if a = r then 1024 else e.lsonAt a :=
  Links.read_write_toNat _ _ _ _ hw (by decide)

theorem insertStart_rsonAt (hw : Links.wf e.rson = true) (a : Nat) :
    (insertStart r e).rsonAt a = if a = r then 1024 else e.rsonAt a :=
  Links.read_write_toNat _ _ _ _ hw (by decide)

theorem insertStart_linksInRange (hl : Links.wf e.lson = true) (hr : Links.wf e.rson = true) (h : LinksInRange e) :
    LinksInRange (insertStart r e) := by
  intro a
  rw [insertStart_lsonAt hl, insertStart_rsonAt hr]
  obtain ⟨h1, h2⟩ := h a
  split <;> omega

theorem insertNode_matchLength_le : (insertNode r e).matchLength.toNat ≤ 66 :=
  (insertFrom_keeps _ _ _ _ (insertStart r e) (Nat.zero_le _)).2.1

/-- The string at the match and the string at `r` are the same from the second byte to the match's last. -/
theorem insertNode_match (hl : Links.wf e.lson = true) (hr : Links.wf e.rson = true) (h : LinksInRange e) :
    ∀ j, 1 ≤ j → j < (insertNode r e).matchLength.toNat →
      e.textAt ((insertNode r e).matchPosition.toNat + j) = e.textAt (r + j) := by
  have hm : MatchAgrees (insertNode r e) r :=
    insertFrom_matchAgrees _ _ _ _ _ (insertStart_linksInRange hl hr h) fun _ _ hj => absurd hj (Nat.not_lt_zero _)
  rwa [MatchAgrees, (insertNode_same r e).textAt] at hm

/-- The root of the tree of a byte is no position. -/
theorem insertStart_root (hr : r < 1024) (hw : Links.wf e.rson = true) (b : Byte) :
    (insertStart r e).rsonAt (1025 + b.toNat) = e.rsonAt (1025 + b.toNat) := by
  rw [insertStart_rsonAt hw, if_neg (by omega)]

/-- In an empty tree the new string is the root's child, and there is no match (R105). -/
theorem insertNode_of_empty (hr : r < 1024) (hwr : Links.wf e.rson = true) (hwd : Links.wf e.dad = true)
    (hroot : e.rsonAt (1025 + (e.textAt r).toNat) = 1024) :
    (insertNode r e).matchLength = 0 ∧ (insertNode r e).rsonAt (1025 + (e.textAt r).toNat) = r ∧
      (insertNode r e).dadAt r = 1025 + (e.textAt r).toNat := by
  have hb := (e.textAt r).isLt
  have hins : insertNode r e = ((insertStart r e).setRson (1025 + (e.textAt r).toNat) r).setDad r
      (1025 + (e.textAt r).toNat) := by
    rw [insertNode_eq, show treeFuel = 1025 + 1 from rfl, insertFrom]
    simp only [insertStart_root hr hwr, hroot]
    rfl
  have hw : Links.wf (insertStart r e).rson = true := Links.write_wf _ _ _ hwr
  rw [hins]
  exact ⟨rfl, (Links.read_write_toNat _ _ _ _ hw (by omega)).trans (if_pos rfl),
    (Links.read_write_toNat _ _ _ _ hwd (by omega)).trans (if_pos rfl)⟩

/-- A node whose string differs from that at `r` is not `r`, so the start of the descent does not touch its links. -/
theorem goesOnTo_insertStart (hwl : Links.wf e.lson = true) (hwr : Links.wf e.rson = true) {x y : Nat}
    (h : goesOnTo e r x y) : goesOnTo (insertStart r e) r x y := by
  obtain ⟨d, h1, h66, hsame, hdiff, hy⟩ := h
  have hx : x ≠ r := fun hxr => hdiff (by rw [hxr])
  refine ⟨d, h1, h66, hsame, hdiff, ?_⟩
  rw [insertStart_rsonAt hwr, insertStart_lsonAt hwl, if_neg hx, if_neg hx]
  exact hy

/-- The nodes met on the way down are positions. -/
theorem descends_lt (hl : LinksInRange e) {q : Nat → Nat} {k : Nat} (h : descends e r q k) :
    ∀ i, i ≤ k → q i < 1024 := by
  obtain ⟨hroot, hnil, hgo⟩ := h
  intro i hi
  refine lt_of_le_of_ne ?_ (hnil i hi)
  cases i with
  | zero =>
    rw [hroot]
    exact (hl _).2
  | succ i =>
    obtain ⟨d, -, -, -, -, hq⟩ := hgo i hi
    rw [hq]
    split
    · exact (hl _).2
    · exact (hl _).1

/-- What an insertion does at the nodes its descent meets (R105). -/
theorem insertNode_descends (hr : r < 1024) (hwl : Links.wf e.lson = true) (hwr : Links.wf e.rson = true)
    (hwd : Links.wf e.dad = true) (hl : LinksInRange e) {q : Nat → Nat} {k : Nat} (hk : k < 1025)
    (h : descends e r q k) :
    (∀ n, 1 ≤ n → n ≤ 66 → (∀ j, 1 ≤ j → j < n → e.textAt (q k + j) = e.textAt (r + j)) →
      n ≤ (insertNode r e).matchLength.toNat) ∧
    ((∀ j, 1 ≤ j → j < (insertNode r e).matchLength.toNat → e.textAt (q k + j) = e.textAt (r + j)) →
      (∀ i, i < k → ∃ j, 1 ≤ j ∧ j < (insertNode r e).matchLength.toNat ∧ e.textAt (q i + j) ≠ e.textAt (r + j)) →
      (insertNode r e).matchPosition.toNat = q k) ∧
    (goesOnTo e r (q k) 1024 → (insertNode r e).dadAt r = q k ∧ goesOnTo (insertNode r e) r (q k) r) ∧
    ((∀ j, 1 ≤ j → j < 66 → e.textAt (q k + j) = e.textAt (r + j)) → (insertNode r e).dadAt (q k) = 1024) := by
  have hlt := descends_lt hl h
  obtain ⟨hroot, -, hgo⟩ := h
  rw [← insertStart_root hr hwr] at hroot
  obtain ⟨hlong, hfirst, hhung, hleaves⟩ := insertFrom_descends hr treeFuel 1 (1025 + (e.textAt r).toNat)
    (insertStart r e) (Links.write_wf _ _ _ hwl) (Links.write_wf _ _ _ hwr) hwd (Nat.zero_le _) q k
    (Nat.succ_lt_succ hk) hroot hlt fun i hi => goesOnTo_insertStart hwl hwr (hgo i hi)
  have hpos : 0 < (insertNode r e).matchLength.toNat := hlong 1 le_rfl (by omega) fun j h1 h2 => by omega
  exact ⟨hlong, hfirst hpos, fun hgo => hhung (goesOnTo_insertStart hwl hwr hgo), hleaves (Nat.zero_lt_succ 65)⟩

end

/-! ## Deletion -/

theorem successor_dad_wf (p : Nat) {e : LzEnc} (h : Links.wf e.dad = true) : Links.wf (successor p e).2.dad = true := by
  unfold successor
  simp only
  split
  · exact h
  · split
    · exact h
    · split
      · exact Links.write_wf _ _ _ h
      · exact Links.write_wf _ _ _ (Links.write_wf _ _ _ (Links.write_wf _ _ _ h))

/-- A deleted position is in no tree (R105). -/
theorem deleteNode_dadAt (p : Nat) {e : LzEnc} (h : Links.wf e.dad = true) : (deleteNode p e).dadAt p = 1024 := by
  unfold deleteNode
  split
  · assumption
  · have hdad := Links.write_wf (successor p e).2.dad (successor p e).1 (BitVec.ofNat 11 ((successor p e).2.dadAt p))
      (successor_dad_wf p h)
    have hset : ∀ u : LzEnc, Links.wf u.dad = true → (u.setDad p nilIndex).dadAt p = 1024 := fun u hu =>
      (Links.read_write_toNat _ _ _ _ hu (by decide)).trans (if_pos rfl)
    simp only
    apply hset
    split <;> exact hdad

theorem deleteNode_of_free {p : Nat} {e : LzEnc} (h : e.dadAt p = 1024) : deleteNode p e = e := if_pos h

/-! ## Advance -/

/-- The end of an advance: `E` is what is there before the insertion, `x` what is there after it. -/
theorem insertUnlessEmpty_eq {D E x : LzEnc} (hE : E = { D with text := E.text, s := E.s, r := E.r, len := E.len })
    (hx : x = if E.len = 0 then E else insertNode E.r.toNat E) :
    x = if x.len = 0 then { D with text := x.text, s := x.s, r := x.r, len := x.len }
      else insertNode x.r.toNat { D with text := x.text, s := x.s, r := x.r, len := x.len } := by
  have hsame : sameButTrees E x := by
    rw [hx]
    split
    · rfl
    · exact insertNode_same _ _
  obtain ⟨hs, hr, hl, ht, -⟩ := hsame.fields
  rw [hs, hr, hl, ht, ← hE]
  exact hx

/-- An advance deletes at `s` and, while the lookahead is not empty, inserts at the new `r` (R104). -/
theorem lzAdvance_trees {s : State} (hlen : s.le.len ≠ 0) :
    ∃ t u, lzAdvance s = t ∧
      u = { deleteNode s.le.s.toNat s.le with text := t.le.text, s := t.le.s, r := t.le.r, len := t.le.len } ∧
      t.le = if t.le.len = 0 then u else insertNode t.le.r.toNat u := by
  refine ⟨_, _, rfl, rfl, ?_⟩
  have hD : (deleteNode s.le.s.toNat s.le).len ≠ 0 := by
    obtain ⟨-, -, hsame, -⟩ := (deleteNode_same s.le.s.toNat s.le).trees.fields
    rwa [hsame]
  unfold lzAdvance
  generalize deleteNode s.le.s.toNat s.le = D at hD ⊢
  simp only
  cases inputByte s with
  | some c =>
    simp only
    generalize (if D.s.toNat < Config.lzMaxMatch - 1 then _ else _ : Mem) = text
    exact insertUnlessEmpty_eq (E := { D with text := text, s := D.s + 1, r := D.r + 1 }) rfl (if_neg hD).symm
  | none => exact insertUnlessEmpty_eq (E := { D with s := D.s + 1, r := D.r + 1, len := D.len - 1 }) rfl rfl

/-! ## Tokens -/

/-- A coded match is 3 to 66 bytes long and within the lookahead; anything else is a literal (R104). -/
theorem lzTokenLength_range {e : LzEnc} (h : e.matchLength.toNat ≤ 66) :
    lzTokenLength e = 1 ∨
      (3 ≤ (lzTokenLength e).toNat ∧ (lzTokenLength e).toNat ≤ 66 ∧ (lzTokenLength e).toNat ≤ e.len.toNat) := by
  unfold lzTokenLength
  simp only [Config.lzThreshold]
  split_ifs
  · exact .inl rfl
  · exact .inr (by omega)
  · exact .inl rfl
  · exact .inr (by omega)

section
variable {p : Params} {e : LzEnc}

/-- A literal of a round sets its flag in `code_buf[0]` and stores `text[r]` (R104). -/
theorem lzPutToken_literal (hw : Memory.wf e.codeBuf = true) (h1 : 1 ≤ e.codeBufPtr.toNat)
    (h15 : e.codeBufPtr.toNat ≤ 15) (hm : lzTokenLength e = 1) :
    (lzPutToken p.pair e).codeBufPtr.toNat = e.codeBufPtr.toNat + 1 ∧
      Mem.read (lzPutToken p.pair e).codeBuf 0 = Mem.read e.codeBuf 0 ||| e.mask ∧
      Mem.read (lzPutToken p.pair e).codeBuf e.codeBufPtr.toNat = e.textAt e.r.toNat ∧
      ∀ a, a ≠ 0 → a ≠ e.codeBufPtr.toNat →
        Mem.read (lzPutToken p.pair e).codeBuf a = Mem.read e.codeBuf a := by
  have hlt : (lzTokenLength e).toNat < Config.lzThreshold := by
    rw [hm]
    decide
  have hone : (1 : BitVec 5).toNat = 1 := rfl
  simp only [lzPutToken, if_pos hlt]
  refine ⟨?_, ?_, ?_, fun a h0 hp => ?_⟩
  · rw [BitVec.toNat_add, hone]
    omega
  · rw [Mem.read_write_ne _ _ (by omega), Mem.read_write_self _ _ _ hw]
  · exact Mem.read_write_self _ _ _ (Mem.write_wf _ _ _ hw)
  · rw [Mem.read_write_ne _ _ hp, Mem.read_write_ne _ _ h0]

/-- A match of a round stores the bytes of its `LZ.REF` (R70, R104). -/
theorem lzPutToken_pair (hw : Memory.wf e.codeBuf = true) (h66 : e.matchLength.toNat ≤ 66)
    (h15 : e.codeBufPtr.toNat ≤ 15) (hm : 3 ≤ (lzTokenLength e).toNat) :
    (lzPutToken p.pair e).codeBufPtr.toNat = e.codeBufPtr.toNat + 2 ∧
      (∃ lraw : BitVec 6, lraw.toNat + 3 = (lzTokenLength e).toNat ∧
        [Mem.read (lzPutToken p.pair e).codeBuf e.codeBufPtr.toNat,
          Mem.read (lzPutToken p.pair e).codeBuf (e.codeBufPtr.toNat + 1)] = encode p (.lzRef e.matchPosition lraw)) ∧
      ∀ a, a ≠ e.codeBufPtr.toNat → a ≠ e.codeBufPtr.toNat + 1 →
        Mem.read (lzPutToken p.pair e).codeBuf a = Mem.read e.codeBuf a := by
  have hle : (lzTokenLength e).toNat ≤ 66 := by
    rcases lzTokenLength_range h66 with h | ⟨-, h, -⟩
    · rw [h]
      decide
    · exact h
  have hlt : ¬ (lzTokenLength e).toNat < Config.lzThreshold := not_lt.mpr hm
  have htwo : (2 : BitVec 5).toNat = 2 := rfl
  have hthree : (3 : BitVec 7).toNat = 3 := rfl
  simp only [lzPutToken, if_neg hlt]
  refine ⟨?_, ⟨(lzTokenLength e - 3).setWidth 6, ?_, ?_⟩, fun a h0 hp => ?_⟩
  · rw [BitVec.toNat_add, htwo]
    omega
  · rw [BitVec.toNat_setWidth, BitVec.toNat_sub, hthree]
    omega
  · rw [Mem.read_write_self _ _ _ (Mem.write_wf _ _ _ hw), Mem.read_write_ne _ _ (by omega),
      Mem.read_write_self _ _ _ hw]
    rfl
  · rw [Mem.read_write_ne _ _ hp, Mem.read_write_ne _ _ h0]

end

/-- Before the eighth token only the mask moves on (R104). -/
theorem lzPutMask_moves {s : State} {i : Nat} (hi : i < 7) (hm : s.le.mask = (1 : Byte) <<< i) :
    lzPutMask s = { s with le := { s.le with mask := (1 : Byte) <<< (i + 1) } } := by
  have hne : ¬ (1 : Byte) <<< (i + 1) = 0 := by
    interval_cases i <;> decide
  simp only [lzPutMask, hm, ← BitVec.shiftLeft_add, if_neg hne]

/-- After the eighth token the gathered bytes go to the output (R104). -/
theorem lzPutMask_flushes {s : State} (hm : s.le.mask = 0x80) :
    lzPutMask s = { s with
      out := s.out ++ codeBytes s.le
      le := { s.le with codeBuf := Mem.write s.le.codeBuf 0 0, codeBufPtr := 1, mask := 1 } } := by
  have h0 : (0x80 : Byte) <<< 1 = 0 := rfl
  simp only [lzPutMask, hm, h0, if_pos]

end Sys2Proof.Machine
end

section
/-! The first step and a round of the reference LZSS encoder (R104), and the statement on the encoder. -/

open Sys2Proof.Claims

namespace Sys2Proof.Machine

/-! ## The first step -/

/-- An input byte that is there. -/
theorem some_getD_of_lt {inp : Bytes} {i : Nat} (h : i < inp.length) : some (inp.getD i 0) = inp[i]? := by
  rw [List.getD_eq_getElem _ _ h, List.getElem?_eq_getElem h]

theorem readByte_text (s : State) (a : Nat) :
    s.readByte .text a = if a < 1089 then some (Mem.read s.le.text a) else none := rfl

theorem step_lzssEncPrime {s : State} (hr : s.resetPending = false) (he : s.engine = .lzssEncPrime)
    (hp : s.params.lzssEncRef = .reference) (hlen : (lzFill Config.lzMaxMatch s).le.len ≠ 0) :
    step s = .next { lzFill Config.lzMaxMatch s with
      engine := .lzssEnc, le := lzInsertFirst (lzFill Config.lzMaxMatch s).le } := by
  refine step_of_fetch_auto hr ?_
  simp only [fetch, he, primeLzssEnc, hp, if_neg hlen]

/-- The first insertions write the trees and the match alone. -/
theorem lzInsertFirst_frame (e : LzEnc) : lzInsertFirst e = { e with
    lson := (lzInsertFirst e).lson, rson := (lzInsertFirst e).rson, dad := (lzInsertFirst e).dad
    matchPosition := (lzInsertFirst e).matchPosition, matchLength := (lzInsertFirst e).matchLength } :=
  lzInsertFirst_same e

/-- The first step on a non-empty input puts up to 66 bytes into `text` and inserts the first strings (R104). -/
theorem step_primes {s : State} (hr : s.resetPending = false) (he : s.engine = .lzssEncPrime)
    (hp : s.params.lzssEncRef = .reference) (hinp : s.inp ≠ []) (hip : s.ip = 0) (hlen : s.le.len = 0)
    (h958 : s.le.r = 958) (hw : Memory.wf s.le.text = true) :
    ∃ t, step s = .next t ∧ t.engine = .lzssEnc ∧ t.ip = min 66 s.inp.length ∧ t.le.len.toNat = min 66 s.inp.length ∧
      (∀ j, j < min 66 s.inp.length → t.readByte .text (958 + j) = s.inp[j]?) ∧
      (∀ a, (∀ j, j < min 66 s.inp.length → a ≠ 958 + j) → t.readByte .text a = s.readByte .text a) ∧
      t.le = lzInsertFirst { s.le with text := t.le.text, len := t.le.len } ∧
      t = { s with
        engine := t.engine, ip := t.ip
        le := { s.le with
          text := t.le.text, len := t.le.len, lson := t.le.lson, rson := t.le.rson, dad := t.le.dad,
          matchPosition := t.le.matchPosition, matchLength := t.le.matchLength } } := by
  have hlen0 : s.le.len.toNat = 0 := by rw [hlen]; rfl
  have hr0 : s.le.r.toNat = 958 := by rw [h958]; rfl
  have hpos : 0 < s.inp.length := List.length_pos_iff.mpr hinp
  have hstep := step_lzssEncPrime hr he hp
  obtain ⟨fip, flen, -, ftext, fframe⟩ := lzFill_spec 66 s hw (by omega) (by omega)
  generalize hF : lzFill 66 s = F at fip flen ftext fframe hstep
  rw [hip, Nat.zero_add] at fip
  rw [fip, hlen0, hip, Nat.zero_add, Nat.sub_zero] at flen
  rw [hr0, hlen0, flen] at ftext
  have hne : F.le.len ≠ 0 := fun h => by
    rw [h] at flen
    change 0 = _ at flen
    omega
  have hle : F.le = { s.le with text := F.le.text, len := F.le.len } := by rw [fframe]
  have hI := lzInsertFirst_frame F.le
  obtain ⟨-, -, hl, ht, -⟩ := (lzInsertFirst_same F.le).fields
  have hfirst : lzInsertFirst F.le =
      lzInsertFirst { s.le with text := (lzInsertFirst F.le).text, len := (lzInsertFirst F.le).len } := by
    rw [hl, ht, ← hle]
  generalize lzInsertFirst F.le = I at hstep hI hl ht hfirst
  refine ⟨_, hstep hne, rfl, fip, ?len, ?filled, ?others, hfirst, ?frame⟩
  case len => rw [← flen, ← hl]
  case filled =>
    intro j hj
    have hidx : s.ip + (958 + j - (958 + 0)) = j := by omega
    rw [readByte_text, if_pos (by omega), ht, ftext, if_pos (by omega), hidx, some_getD_of_lt (by omega)]
  case others =>
    intro a ha
    have hread : Mem.read F.le.text a = Mem.read s.le.text a := by
      rw [ftext, if_neg]
      exact fun h => ha (a - 958) (by omega) (by omega)
    rw [readByte_text, readByte_text, ht, hread]
  case frame =>
    have hIs : I = { s.le with
        text := I.text, len := I.len, lson := I.lson, rson := I.rson, dad := I.dad
        matchPosition := I.matchPosition, matchLength := I.matchLength } := by
      conv_lhs => rw [hI, hle]
      rw [hl, ht]
    simp only [← hIs]
    rw [fframe]

/-! ## A round -/

theorem step_lzssEnc {s : State} (hr : s.resetPending = false) (he : s.engine = .lzssEnc) (hlen : s.le.len ≠ 0) :
    step s = .next (lzRound s) := by
  refine step_of_fetch_auto hr ?_
  simp only [fetch, he, stepLzssEnc, if_neg hlen]

/-- A round puts its token out, moves the mask on, and advances by the coded length. -/
theorem lzRound_eq (s : State) :
    lzRound s = lzAdvanceBy (lzTokenLength s.le).toNat (lzPutMask { s with le := lzPutToken s.params.pair s.le }) := by
  rw [lzRound, lzPutToken_frame]

/-- Putting the token out leaves the input, `text` and the cursors. -/
theorem tokenPut_frame (s : State) : ∃ u, lzPutMask { s with le := lzPutToken s.params.pair s.le } = u ∧ u.inp = s.inp ∧
    u.ip = s.ip ∧ u.le.text = s.le.text ∧ u.le.len = s.le.len ∧ u.le.s = s.le.s ∧ u.le.r = s.le.r ∧
    u = { s with out := u.out, le := u.le } := by
  refine ⟨_, rfl, ?_⟩
  have hle := lzPutMask_le { s with le := lzPutToken s.params.pair s.le }
  have hf := lzPutMask_frame { s with le := lzPutToken s.params.pair s.le }
  generalize lzPutMask { s with le := lzPutToken s.params.pair s.le } = u at hle hf ⊢
  rw [lzPutToken_frame] at hle
  exact ⟨by rw [hf], by rw [hf], by rw [hle], by rw [hle], by rw [hle], by rw [hle], hf⟩

/-- A round with a lookahead puts its token out and takes the next input bytes in (R104). -/
theorem step_rounds {s : State} (hr : s.resetPending = false) (he : s.engine = .lzssEnc) (hlen : s.le.len ≠ 0)
    (hw : Memory.wf s.le.text = true) {m j : Nat} (hm : m = (lzTokenLength s.le).toNat)
    (hj : j = min m (s.inp.length - s.ip)) :
    ∃ t, step s = .next t ∧ t.ip = s.ip + j ∧ t.le.len.toNat + (m - j) = s.le.len.toNat ∧
      t.le.s.toNat = (s.le.s.toNat + m) % 1024 ∧ t.le.r.toNat = (s.le.r.toNat + m) % 1024 ∧
      (∀ i, i < j → t.readByte .text ((s.le.s.toNat + i) % 1024) = s.inp[s.ip + i]? ∧
        ((s.le.s.toNat + i) % 1024 < 65 → t.readByte .text ((s.le.s.toNat + i) % 1024 + 1024) = s.inp[s.ip + i]?)) ∧
      (∀ a, (∀ i, i < j → a ≠ (s.le.s.toNat + i) % 1024 ∧ a ≠ (s.le.s.toNat + i) % 1024 + 1024) →
        t.readByte .text a = s.readByte .text a) ∧
      (∃ u, lzPutMask { s with le := lzPutToken s.params.pair s.le } = u ∧ t.out = u.out ∧ t.le.codeBuf = u.le.codeBuf ∧
        t.le.codeBufPtr = u.le.codeBufPtr ∧ t.le.mask = u.le.mask ∧ t = lzAdvanceBy m u) ∧
      t = { s with ip := t.ip, out := t.out, le := t.le } := by
  have hlen0 : s.le.len.toNat ≠ 0 := fun h => hlen (BitVec.eq_of_toNat_eq h)
  obtain ⟨-, hmle, -⟩ := lzTokenLength_cases hlen0
  obtain ⟨u, hu, uinp, uip, utext, ulen, us, ur, uframe⟩ := tokenPut_frame s
  have h128 := s.le.len.isLt
  obtain ⟨hip, hlen', hs, hrr, hbuf, hptr, hmask, htaken, hkept⟩ :=
    lzAdvanceBy_spec m u (by rw [utext]; exact hw) (by rw [ulen, hm]; exact hmle) (by omega)
  have hf := lzAdvanceBy_frame m u
  have hout : (lzAdvanceBy m u).out = u.out := by rw [hf]
  rw [uinp, uip, ← hj] at hip hlen' htaken hkept
  rw [ulen] at hlen'
  rw [us] at hs htaken hkept
  rw [ur] at hrr
  refine ⟨lzAdvanceBy m u, ?step, hip, hlen', hs, hrr, ?taken, ?kept, ⟨u, hu, hout, hbuf, hptr, hmask, rfl⟩, ?frame⟩
  case step => rw [step_lzssEnc hr he hlen, lzRound_eq, hu, hm]
  case taken =>
    intro i hi
    obtain ⟨h1, h2⟩ := htaken i hi
    have hthere : some (s.inp.getD (s.ip + i) 0) = s.inp[s.ip + i]? := some_getD_of_lt (by omega)
    refine ⟨?_, fun h65 => ?_⟩
    · rw [readByte_text, if_pos (by omega), h1, hthere]
    · rw [readByte_text, if_pos (by omega), h2 h65, hthere]
  case kept =>
    intro a ha
    rw [readByte_text, readByte_text]
    split
    · rw [hkept a (by assumption) ha, utext]
    · rfl
  case frame =>
    generalize lzAdvanceBy m u = t at hf hout ⊢
    conv_lhs => rw [hf, uframe]
    rw [hout]

/-- Settles O35, part by part. -/
theorem lzEncoderCodesLengthsThreeToSixtySix : Obligations.LzEncoderCodesLengthsThreeToSixtySix := by
  refine ⟨?agrees, ?insertion, ?deletion, ?advance, ?length, ?token, ?mask, ?first, ?round⟩
  case agrees => exact fun r e => ⟨insertNode_matchLength_le, insertNode_match⟩
  case insertion =>
    intro r e hr hwl hwr hwd hl
    exact ⟨_, rfl, insertNode_of_empty hr hwr hwd, fun q k hk => insertNode_descends hr hwl hwr hwd hl hk⟩
  case deletion => exact fun p e hw => ⟨deleteNode_dadAt p hw, deleteNode_of_free⟩
  case advance => exact fun s => lzAdvance_trees
  case length => exact fun e => lzTokenLength_range
  case token =>
    intro p e hw h66 h1 h15
    refine ⟨_, rfl, by rw [lzPutToken_frame], lzPutToken_literal hw h1 h15, lzPutToken_pair hw h66 h15, ?_⟩
    rw [lzPutToken_frame]
  case mask =>
    intro s
    refine ⟨fun i => lzPutMask_moves, fun hm hw => ⟨_, lzPutMask_flushes hm, rfl, rfl, rfl, ?_, rfl⟩⟩
    exact Mem.read_write_self _ _ _ hw
  case first => exact fun s => step_primes
  case round => exact fun s hr he hlen hw m j hm hj => step_rounds hr he hlen hw hm hj

end Sys2Proof.Machine
end

section
/-! The encoder and the decoder undo each other (30_encoding.md): the bits of the short fields, the tags, and the
statements on words of the encoding. -/

namespace Sys2Proof

/-! ## Tags -/

/-- The tag of a kind is read back as that kind: `TAG` is injective, and an unknown tag is none of its values (R13, R36,
R86). -/
theorem kindOf_tagOf {t : Tags} (ht : t.wf = true) {kind : Kind}
    (hk : ∀ w, kind = .unknown w → t.toList.contains w = false) : kindOf t (tagOf t kind) = kind := by
  have hn : t.toList.Nodup := of_decide_eq_true ht
  simp only [Tags.toList, List.nodup_cons, List.mem_cons, List.not_mem_nil, or_false, not_or] at hn
  cases kind
  case unknown w => exact kindOf_unknown t w (hk w rfl)
  all_goals grind [kindOf, tagOf]

/-- A tag read as unknown is the tag of no kind (R86). -/
theorem not_mem_tags_of_kindOf {t : Tags} {w w' : Word} (h : kindOf t w = .unknown w') :
    t.toList.contains w' = false := by
  unfold kindOf at h
  split_ifs at h
  cases h
  simp_all [Tags.toList]

/-! ## Entry headers -/

theorem decode_entryHeader (p : Params) (size tag : Word) (rest : Bytes) :
    decode p .arcEntry (entryHeader size tag ++ rest) = .instr (entryInstr size (kindOf p.tags tag)) := by
  simp [decode, decodeArcEntry, entryHeader, beBytes, be32_beBytes]

theorem encode_entryInstr (p : Params) (size : Word) (kind : Kind) :
    encode p (entryInstr size kind) = entryHeader size (tagOf p.tags kind) := by
  cases kind <;> rfl

@[simp] theorem entryInstr_ctx (size : Word) (kind : Kind) : (entryInstr size kind).ctx = .arcEntry := by
  cases kind <;> rfl

@[simp] theorem entryInstr_length (size : Word) (kind : Kind) : (entryInstr size kind).length = 8 := by
  cases kind <;> rfl

/-- An entry header is well-formed as soon as its tag, where it is unknown, is no kind's. -/
theorem entryInstr_wf {p : Params} {size : Word} {kind : Kind}
    (h : ∀ w, kind = .unknown w → p.tags.toList.contains w = false) : (entryInstr size kind).wf p = true := by
  cases kind
  case unknown w => simpa [entryInstr, Instr.wf] using h w rfl
  all_goals rfl

/-- The bytes of an entry header are read back, for every kind. -/
theorem decode_entryInstr {p : Params} (ht : p.tags.wf = true) {kind : Kind} (size : Word) (rest : Bytes)
    (hk : ∀ w, kind = .unknown w → p.tags.toList.contains w = false) :
    decode p .arcEntry (encode p (entryInstr size kind) ++ rest) = .instr (entryInstr size kind) := by
  rw [encode_entryInstr, decode_entryHeader, kindOf_tagOf ht hk]

/-! ## Short fields -/

/-- A byte is its bit 7 and then its lower seven bits. -/
theorem byte_eq_flag_append (c : Byte) (b : BitVec 1) (h : c.extractLsb' 7 1 = b) : b ++ c.extractLsb' 0 7 = c := by
  rw [← h]
  exact BitVec.extractLsb'_append_extractLsb'

/-- Bit 7 as a word of its own. -/
theorem extractLsb'_seven (c : Byte) : c.extractLsb' 7 1 = if c.getLsbD 7 then 1 else 0 := by
  revert c
  decide

/-- The nibbles of a byte, put together again. -/
theorem nibbles_append (b : Byte) : (b.extractLsb' 4 4 ++ b.extractLsb' 0 4 : Byte) = b :=
  BitVec.extractLsb'_append_extractLsb'

/-- A distance field, cut into its upper nibble and its lower byte, put together again (R76). -/
theorem distance_append (d : BitVec 12) : d.extractLsb' 8 4 ++ d.extractLsb' 0 8 = d :=
  BitVec.extractLsb'_append_extractLsb'

theorem decode_slRef2 (p : Params) {n : BitVec 4} (hn : n ≠ 0) (d : BitVec 12) (rest : Bytes) :
    decode p (.slToken false) (encode p (.slRef2 n d) ++ rest) = .instr (.slRef2 n d) := by
  simp only [decode, encode, List.cons_append, List.nil_append, decodeSlRef, BitVec.extractLsb'_append_eq_left,
    BitVec.extractLsb'_append_eq_right, distance_append, if_neg hn]

theorem decode_slRef3 (p : Params) (d : BitVec 12) (e : Byte) (rest : Bytes) :
    decode p (.slToken false) (encode p (.slRef3 d e) ++ rest) = .instr (.slRef3 d e) := by
  simp only [decode, encode, List.cons_append, List.nil_append, decodeSlRef, BitVec.extractLsb'_append_eq_left,
    BitVec.extractLsb'_append_eq_right, distance_append, if_true]

theorem decode_rlCopy (p : Params) (k : BitVec 7) (rest : Bytes) :
    decode p .rlToken (encode p (.rlCopy k) ++ rest) = .instr (.rlCopy k) := by
  have hbit : ((1 : BitVec 1) ++ k : Byte).getLsbD 7 = true := by
    rw [BitVec.getLsbD_append]
    rfl
  simp only [decode, encode, List.cons_append, decodeRl, BitVec.extractLsb'_append_eq_right, hbit, if_true]

theorem decode_rlFill (p : Params) (k : BitVec 7) (v : Byte) (rest : Bytes) :
    decode p .rlToken (encode p (.rlFill k v) ++ rest) = .instr (.rlFill k v) := by
  have hbit : ((0 : BitVec 1) ++ k : Byte).getLsbD 7 = false := by
    rw [BitVec.getLsbD_append]
    rfl
  simp only [decode, encode, List.cons_append, decodeRl, BitVec.extractLsb'_append_eq_right, hbit, if_false,
    Bool.false_eq_true]

/-- The two bytes of a pair hold what was read from them: the converse of `pair_read` (R70). -/
theorem pair_write (l : PairLayout) (h : l.wf = true) (b1 b2 : Byte) :
    [pairByte1 l (pairOffset l b1 b2) (pairLength l b1 b2), pairByte2 l (pairOffset l b1 b2) (pairLength l b1 b2)] =
      [b1, b2] := by
  have hword : pairWord l (pairOffset l b1 b2) (pairLength l b1 b2) = b1 ++ b2 := by
    rw [← l.store_arrange h (b1 ++ b2), pairWord]
    congr 1
    unfold pairOffset pairLength
    generalize l.arrange (b1 ++ b2) = w
    apply BitVec.eq_of_getLsbD_eq
    intro i hi
    simp only [BitVec.getLsbD_append]
    interval_cases i <;> simp
  rw [pairByte1, pairByte2, hword, BitVec.extractLsb'_append_eq_left, BitVec.extractLsb'_append_eq_right]

/-! ## The round trip -/

/-- Settles O1. -/
theorem decodeReadsWhatEncodeWrites : Obligations.DecodeReadsWhatEncodeWrites := by
  intro p i rest hp hi
  simp only [Params.wf, Bool.and_eq_true] at hp
  obtain ⟨⟨htags, hpair⟩, -⟩ := hp
  cases i
  case lzRef off lraw =>
    obtain ⟨hoff, hlen⟩ := pair_read p.pair hpair off lraw
    simp [Instr.ctx, encode, decode, decodeLzRef, hoff, hlen]
  case slHdr u => simp [Instr.ctx, encode, decode, headerWord, beBytes, be32_beBytes]
  case slCw f => simp [Instr.ctx, encode, decode, decodeSlCw, beBytes, be32_beBytes]
  case slRef2 n d => exact decode_slRef2 p (of_decide_eq_true hi) d rest
  case slRef3 d e => exact decode_slRef3 p d e rest
  case rlCopy k => exact decode_rlCopy p k rest
  case rlFill k v => exact decode_rlFill p k v rest
  case arcIndex count => simp [Instr.ctx, encode, decode, decodeArcIndex, beBytes, be32_beBytes]
  case entryNone size => exact decode_entryInstr htags (kind := .none) size rest nofun
  case entryLzss size => exact decode_entryInstr htags (kind := .lzss) size rest nofun
  case entrySlide size => exact decode_entryInstr htags (kind := .slide) size rest nofun
  case entryFlideA size => exact decode_entryInstr htags (kind := .flideVariantA) size rest nofun
  case entryFlideB size => exact decode_entryInstr htags (kind := .flideVariantB) size rest nofun
  case entryRle size => exact decode_entryInstr htags (kind := .rle) size rest nofun
  case entryInflate size => exact decode_entryInstr htags (kind := .inflate) size rest nofun
  case entryUnknown size tag =>
    have htag : p.tags.toList.contains tag = false := by simpa [Instr.wf] using hi
    exact decode_entryInstr htags (kind := .unknown tag) size rest (by rintro w ⟨⟩; exact htag)
  all_goals rfl

/-! ## The way back -/

/-- Each command of R92's table encodes as its code, one byte. -/
theorem commandTable_encode (p : Params) :
    ∀ row ∈ commandTable, encode p row.2 = [row.1] ∧ row.2.wf p = true ∧ row.2.length = 1 := by
  simp [commandTable, encode, Instr.wf, Instr.length]

/-- A code has the command that encodes as it (R92). -/
theorem encode_of_commandOf (p : Params) {code : Byte} {i : Instr} (h : commandOf code = some i) :
    encode p i = [code] ∧ i.wf p = true ∧ i.length = 1 := by
  simp only [commandOf, Option.map_eq_some_iff] at h
  obtain ⟨row, hfind, rfl⟩ := h
  obtain rfl : row.1 = code := by simpa using List.find?_some hfind
  exact commandTable_encode p row (List.mem_of_find?_eq_some hfind)

/-- The upper nibble of a byte and its lower nibble with the next byte are the fields of a reference (R76). -/
theorem encode_slRef_fields (b1 b2 : Byte) :
    [b1.extractLsb' 4 4 ++ (b1.extractLsb' 0 4 ++ b2).extractLsb' 8 4, (b1.extractLsb' 0 4 ++ b2).extractLsb' 0 8] =
      [b1, b2] := by
  rw [BitVec.extractLsb'_append_eq_left, BitVec.extractLsb'_append_eq_right, nibbles_append]

/-- `SL.REF2` and `SL.REF3` come from the bytes they encode as, the one with a nibble that is not 0 (R76, R77). -/
theorem decodeSlRef_instr {bs : Bytes} {i : Instr} (p : Params) (h : decodeSlRef bs = .instr i) :
    i.ctx = .slToken false ∧ i.wf p = true ∧ encode p i = bs.take i.length := by
  rcases bs with _ | ⟨b1, _ | ⟨b2, rest⟩⟩
  · cases h
  · cases h
  · simp only [decodeSlRef] at h
    split at h
    · rename_i hnib
      split at h <;> cases h
      refine ⟨rfl, rfl, ?_⟩
      have hfields := encode_slRef_fields b1 b2
      rw [hnib] at hfields
      simpa [encode, Instr.length] using hfields
    · rename_i hnib
      cases h
      exact ⟨rfl, decide_eq_true hnib, encode_slRef_fields b1 b2⟩

/-- `RL.COPY` and `RL.FILL` come from the bytes they encode as (R81, R82). -/
theorem decodeRl_instr {bs : Bytes} {i : Instr} (p : Params) (h : decodeRl bs = .instr i) :
    i.ctx = .rlToken ∧ i.wf p = true ∧ encode p i = bs.take i.length := by
  rcases bs with _ | ⟨c, rest⟩
  · cases h
  · simp only [decodeRl] at h
    split at h
    · rename_i hbit
      cases h
      refine ⟨rfl, rfl, ?_⟩
      simp only [encode, Instr.length, List.take_succ_cons, List.take_zero]
      rw [byte_eq_flag_append c 1 (by rw [extractLsb'_seven, if_pos hbit])]
    · rename_i hbit
      split at h <;> cases h
      refine ⟨rfl, rfl, ?_⟩
      simp only [encode, Instr.length, List.take_succ_cons, List.take_zero]
      rw [byte_eq_flag_append c 0 (by rw [extractLsb'_seven, if_neg hbit])]

/-- An entry header of any kind comes from the bytes it encodes as (R85, R86). -/
theorem decodeArcEntry_instr {bs : Bytes} {i : Instr} (p : Params) (h : decodeArcEntry p.tags bs = .instr i) :
    i.ctx = .arcEntry ∧ i.wf p = true ∧ encode p i = bs.take i.length := by
  rcases bs with _ | ⟨a, _ | ⟨b, _ | ⟨c, _ | ⟨d, _ | ⟨e, _ | ⟨f, _ | ⟨g, _ | ⟨k, rest⟩⟩⟩⟩⟩⟩⟩⟩ <;> cases h
  refine ⟨entryInstr_ctx _ _, entryInstr_wf fun w hw => ?_, ?_⟩
  · exact not_mem_tags_of_kindOf hw
  · rw [encode_entryInstr, tagOf_kindOf, entryHeader, beBytes_be32, beBytes_be32, entryInstr_length]
    rfl

/-- Settles O2. -/
theorem encodeWritesWhatDecodeRead : Obligations.EncodeWritesWhatDecodeRead := by
  intro p c bs i h
  cases c
  case command =>
    refine ⟨decode_command_instr h, ?_⟩
    rcases bs with _ | ⟨code, rest⟩
    · cases h
    · simp only [decode, decodeCommand] at h
      split at h <;> cases h
      rename_i hcode
      obtain ⟨henc, hwf, hlen⟩ := encode_of_commandOf p hcode
      exact ⟨hwf, fun _ _ => by rw [henc, hlen]; rfl⟩
  case lzFlag =>
    rcases bs with _ | ⟨f, rest⟩ <;> cases h
    exact ⟨rfl, rfl, fun _ _ => rfl⟩
  case lzToken flag =>
    cases flag
    case true =>
      rcases bs with _ | ⟨b, rest⟩ <;> cases h
      exact ⟨rfl, rfl, fun _ _ => rfl⟩
    case false =>
      rcases bs with _ | ⟨b1, _ | ⟨b2, rest⟩⟩ <;> cases h
      exact ⟨rfl, rfl, fun hpair _ => pair_write p.pair hpair b1 b2⟩
  case slHeader =>
    cases h
    exact ⟨rfl, rfl, fun _ hc => absurd rfl hc⟩
  case slCodeword =>
    rcases bs with _ | ⟨a, _ | ⟨b, _ | ⟨c, _ | ⟨d, rest⟩⟩⟩⟩ <;> cases h
    exact ⟨rfl, rfl, fun _ _ => beBytes_be32 a b c d⟩
  case slToken flag =>
    cases flag
    case true =>
      rcases bs with _ | ⟨b, rest⟩ <;> cases h
      exact ⟨rfl, rfl, fun _ _ => rfl⟩
    case false =>
      obtain ⟨hctx, hwf, henc⟩ := decodeSlRef_instr p h
      exact ⟨hctx, hwf, fun _ _ => henc⟩
  case rlToken =>
    obtain ⟨hctx, hwf, henc⟩ := decodeRl_instr p h
    exact ⟨hctx, hwf, fun _ _ => henc⟩
  case arcIndex =>
    rcases bs with _ | ⟨a, _ | ⟨b, _ | ⟨c, _ | ⟨d, rest⟩⟩⟩⟩ <;> cases h
    exact ⟨rfl, rfl, fun _ _ => beBytes_be32 a b c d⟩
  case arcEntry =>
    obtain ⟨hctx, hwf, henc⟩ := decodeArcEntry_instr p h
    exact ⟨hctx, hwf, fun _ _ => henc⟩

/-! ## Lengths and words of the encoding -/

/-- Only the command port answers an unknown code (R71, R79, R83, R92). -/
theorem decode_ne_unknownCommand {p : Params} {c : Ctx} {bs : Bytes} {code : Byte} (hc : c ≠ .command) :
    decode p c bs ≠ .unknownCommand code := by
  fun_cases decode p c bs
  case case1 => exact absurd rfl hc
  case case2 => fun_cases decodeLzFlag bs <;> nofun
  case case3 => fun_cases decodeLzLit bs <;> nofun
  case case4 => fun_cases decodeLzRef p.pair bs <;> nofun
  case case5 => exact nofun
  case case6 => fun_cases decodeSlCw bs <;> nofun
  case case7 => fun_cases decodeSlLit bs <;> nofun
  case case8 => fun_cases decodeSlRef bs <;> nofun
  case case9 => fun_cases decodeRl bs <;> nofun
  case case10 => fun_cases decodeArcIndex bs <;> nofun
  case case11 => fun_cases decodeArcEntry p.tags bs <;> nofun

/-- Settles O3: each context runs out of bytes where its lemma says. -/
theorem tokenLengthIsToldByFlagAndFirstByte : Obligations.TokenLengthIsToldByFlagAndFirstByte := fun _ _ =>
  ⟨decode_lzFlag_truncated_iff, decode_lzToken_true_truncated_iff, decode_lzToken_false_truncated_iff,
   decode_slCodeword_truncated_iff, decode_slToken_true_truncated_iff, decode_slToken_false_truncated_iff,
   decode_rlToken_truncated_iff, fun _ hc _ => decode_ne_unknownCommand hc⟩

/-- Settles O4. -/
theorem specWordsDecodeToTheirInstructions : Obligations.SpecWordsDecodeToTheirInstructions := by
  unfold Obligations.SpecWordsDecodeToTheirInstructions
  decide

end Sys2Proof
end

section
/-! The container's index, its entry headers and its layout (43_container.md R125, R126, R129, R134, R136). -/

namespace Sys2Proof.Machine

/-! ## Words of a buffer -/

/-- A word at an address is missing where fewer than four bytes are left (R17, R56). -/
theorem inputWord_eq_none_iff {inp : Bytes} {a : Nat} : inputWord inp a = none ↔ inp.length < a + 4 := by
  have hlen : (inp.drop a).length = inp.length - a := List.length_drop
  unfold inputWord
  generalize inp.drop a = bs at hlen ⊢
  rcases bs with _ | ⟨b0, _ | ⟨b1, _ | ⟨b2, _ | ⟨b3, rest⟩⟩⟩⟩ <;>
    simp only [List.length_cons, List.length_nil] at hlen <;> simp <;> omega

/-- The word after `front` is read back (R16). -/
theorem inputWord_append_beBytes (front : Bytes) (w : Word) (back : Bytes) :
    inputWord (front ++ (beBytes w ++ back)) front.length = some w := by
  rw [inputWord, List.drop_left]
  simp [beBytes, be32_beBytes]

/-- The offsets are the words at `a`, `a + 4`, …; or one of them is missing (R125). -/
theorem readOffsets_cases (inp : Bytes) (m a : Nat) :
    ((m = 0 ∨ a + 4 * m ≤ inp.length) ∧ ∃ ws, readOffsets inp m a = some ws ∧ ws.length = m ∧
      ∀ i, i < m → ws[i]? = inputWord inp (a + 4 * i)) ∨
    (m ≠ 0 ∧ inp.length < a + 4 * m ∧ readOffsets inp m a = none) := by
  induction m generalizing a with
  | zero => exact .inl ⟨.inl rfl, [], rfl, rfl, nofun⟩
  | succ m ih =>
    cases hw : inputWord inp a with
    | none =>
      have hshort := inputWord_eq_none_iff.mp hw
      exact .inr ⟨by omega, by omega, by simp [readOffsets, hw]⟩
    | some w =>
      have hfits : a + 4 ≤ inp.length := by
        by_contra h
        rw [inputWord_eq_none_iff.mpr (by omega)] at hw
        cases hw
      rcases ih (a + 4) with ⟨hend, ws, hws, hlen, hget⟩ | ⟨hm, hend, hws⟩
      · refine .inl ⟨by omega, w :: ws, by simp [readOffsets, hw, hws], by simp [hlen], fun i hi => ?_⟩
        cases i with
        | zero => exact hw.symm
        | succ i => rw [List.getElem?_cons_succ, hget i (by omega), show a + 4 + 4 * i = a + 4 * (i + 1) by omega]
      · exact .inr ⟨by omega, by omega, by simp [readOffsets, hw, hws]⟩

/-- Words laid out one after the other are read back as offsets. -/
theorem readOffsets_append_flatMap (front : Bytes) (ws : List Word) (back : Bytes) :
    readOffsets (front ++ (ws.flatMap beBytes ++ back)) ws.length front.length = some ws := by
  induction ws generalizing front with
  | nil => rfl
  | cons w ws ih =>
    have hrest := ih (front ++ beBytes w)
    rw [List.length_append, beBytes_length] at hrest
    simp only [List.flatMap_cons, List.append_assoc, List.length_cons] at hrest ⊢
    simp only [readOffsets, inputWord_append_beBytes, hrest, Option.map_some]

/-! ## The index and the entry headers -/

/-- Settles O36. -/
theorem arcIndexReadsTheOffsets : Obligations.ArcIndexReadsTheOffsets := by
  intro s count
  have hzero : count.toNat = 0 ↔ count = 0 := by rw [← BitVec.toNat_inj]; rfl
  rcases readOffsets_cases s.inp count.toNat 4 with ⟨hfits, ws, hws, hlen, hget⟩ | ⟨hne, hshort, hnone⟩
  · have hexec : exec (.arcIndex count) s = .next { s with
        engine := .arcEntries, arc := { s.arc with count := count, offsets := ws, i := 0, work := [] } } := by
      simp only [exec, execArcIndex, hws]
    refine ⟨fun hc hlt => ?_, fun _ => ⟨_, hexec, rfl, rfl, hlen, hget, rfl, rfl, rfl⟩⟩
    have := mt hzero.mp hc
    omega
  · refine ⟨fun _ _ => by simp only [exec, execArcIndex, hnone], fun h => ?_⟩
    have := mt hzero.mpr hne
    rcases h with h | h
    · exact absurd h this
    · omega

section
variable {s : State} {load : Answer} {dec enc : Bytes → Answer}

theorem entryPass_of_load (ht : s.task = .load ∨ s.task = .loadUnpack) : entryPass s load dec enc = load := by
  rcases ht with ht | ht <;> simp only [entryPass, ht]

/-- A decode runs `DecodeBy` on the raw bytes of the entry it stands at (R129). -/
theorem entryPass_of_isDecode {e : Entry} (ht : s.task.isDecode = true) (he : s.arc.work[s.arc.i]? = some e) :
    entryPass s load dec enc = dec e.raw := by
  cases htask : s.task <;> simp only [htask, Task.isDecode, Bool.false_eq_true] at ht <;>
    simp only [entryPass, htask, he]

/-- A load takes in the header of every kind (R125). -/
theorem exec_entryInstr_of_load (ht : s.task = .load ∨ s.task = .loadUnpack) (size : Word) (kind : Kind) :
    exec (entryInstr size kind) s = loadEntry kind size s := by
  cases kind <;>
    simp only [entryInstr, exec, execEntryNone, execEntryLzss, execEntrySlide, execEntryFlideA, execEntryFlideB,
      flideEntry, execEntryRle, execEntryInflate, execEntryUnknown, entryPass_of_load ht]

end

/-- The end of the entry a load stands at: the next offset, or the buffer's end (R84). -/
theorem entryEnd_eq (s : State) : entryEnd s = ((s.arc.offsets[s.arc.i + 1]?).map BitVec.toNat).getD s.inp.length := by
  unfold entryEnd
  cases s.arc.offsets[s.arc.i + 1]? <;> rfl

/-- Settles O37. -/
theorem entryHeadersAreTakenIn : Obligations.EntryHeadersAreTakenIn := by
  rintro s kind size off ht hoff stop rfl
  rw [← entryEnd_eq, exec_entryInstr_of_load ht]
  refine ⟨fun hlong => ?_, fun hin hshort => ?_, fun hin hfits => ?_⟩
  · simp only [loadEntry, hoff, if_pos hlong]
  · simp only [loadEntry, hoff, if_neg (Nat.not_lt.mpr hin), if_pos hshort]
  · simp only [loadEntry, hoff, if_neg (Nat.not_lt.mpr hin), if_neg (Nat.not_lt.mpr hfits), inputSlice]

/-- Settles O41. -/
theorem kindsWithoutACodecFault : Obligations.KindsWithoutACodecFault := by
  intro s size tag
  refine ⟨fun e ht he => ⟨?_, fun hp => ?_⟩, fun d ht hd => ⟨?_, ?_, fun hp => ?_⟩⟩
  · rw [exec, execEntryUnknown, entryPass_of_isDecode ht he, unsupported]
  · have hflide (kind : Kind) : flideEntry kind size s = .next (raise .unsupportedCompressionType s) := by
      rw [flideEntry, entryPass_of_isDecode ht he, hp]
      rfl
    exact ⟨hflide _, hflide _⟩
  · rw [exec, execEntryUnknown, entryPass_of_saveEncode ht hd, unsupported]
  · rw [exec, execEntryRle, entryPass_of_saveEncode ht hd, unsupported]
  · have hflide (kind : Kind) : flideEntry kind size s = .next (raise .unsupportedCompressionType s) := by
      rw [flideEntry, entryPass_of_saveEncode ht hd, hp]
      rfl
    exact ⟨hflide _, hflide _⟩

/-! ## The layout of a save -/

section
variable {align : Nat}

theorem le_alignUp (align x : Nat) : x ≤ alignUp align x := Nat.le_add_right _ _

/-- `Up(x)` is a multiple of `ENTRY_ALIGN` (R136). -/
theorem alignUp_mod (h : 0 < align) (x : Nat) : alignUp align x % align = 0 := by
  have hlt := Nat.mod_lt x h
  rw [alignUp, Nat.add_mod_mod, show x + (align - x % align) = align * (x / align + 1) by
    rw [Nat.mul_add]; have := Nat.div_add_mod x align; omega]
  exact Nat.mul_mod_right _ _

/-- `Up(x)` is less than `ENTRY_ALIGN` above `x` (R136). -/
theorem alignUp_sub_lt (h : 0 < align) (x : Nat) : alignUp align x - x < align := by
  rw [alignUp, Nat.add_sub_cancel_left]
  exact Nat.mod_lt _ h

end

/-- Where an entry of a layout stands in the buffer `B`: after `front`, at the address `off`, its header, its coded bytes and
fewer than `ENTRY_ALIGN` zeros, which end at `stop` (R136). -/
def EntryLaidOut (p : Params) (B : Bytes) (x : Kind × Bytes × Bytes) (off stop : Nat) : Prop :=
  ∃ (front back : Bytes) (z : Nat),
    B = front ++ (entryHeader (BitVec.ofNat 32 x.2.1.length) (tagOf p.tags x.1) ++
      (x.2.2 ++ (List.replicate z 0 ++ back))) ∧
    front.length = off ∧ off % p.entryAlign = 0 ∧ z < p.entryAlign ∧ stop = off + 8 + x.2.2.length + z

/-- The coded payloads of a layout's entries. -/
abbrev codedPayloads (xs : List (Kind × Bytes × Bytes)) : List Bytes := xs.map (fun x => x.2.2)

/-- A body begins with fewer than `ENTRY_ALIGN` zeros, up to its first entry's offset or, without an entry, its end
(R136). -/
theorem layoutBody_pads {p : Params} (hp : 0 < p.entryAlign) (a : Nat) (xs : List (Kind × Bytes × Bytes)) :
    ∃ (z : Nat) (back : Bytes), layoutBody p a xs = List.replicate z 0 ++ back ∧ z < p.entryAlign ∧
      ((layoutOffsets p.entryAlign a (codedPayloads xs))[0]?).getD (a + (layoutBody p a xs).length) = a + z := by
  cases xs with
  | nil => exact ⟨0, [], rfl, hp, rfl⟩
  | cons x xs =>
    refine ⟨alignUp p.entryAlign a - a, _, by rw [layoutBody, List.append_assoc, List.append_assoc],
      alignUp_sub_lt hp a, ?_⟩
    exact (Nat.add_sub_cancel' (le_alignUp _ _)).symm

/-- Every entry of a body laid out from the end of `front` on stands at its offset, and ends at the next one's or at the
end of the body (R136). -/
theorem layoutBody_laidOut {p : Params} (hp : 0 < p.entryAlign) (xs : List (Kind × Bytes × Bytes)) (front : Bytes)
    {j off : Nat} {x : Kind × Bytes × Bytes} (hx : xs[j]? = some x)
    (hoff : (layoutOffsets p.entryAlign front.length (codedPayloads xs))[j]? = some off) :
    EntryLaidOut p (front ++ layoutBody p front.length xs) x off
      (((layoutOffsets p.entryAlign front.length (codedPayloads xs))[j + 1]?).getD
        (front ++ layoutBody p front.length xs).length) := by
  induction xs generalizing front j with
  | nil => simp at hx
  | cons y ys ih =>
    obtain ⟨kind, d, c⟩ := y
    have hup := le_alignUp p.entryAlign front.length
    set pad : Bytes := List.replicate (alignUp p.entryAlign front.length - front.length) 0 with hpad
    set header := entryHeader (BitVec.ofNat 32 d.length) (tagOf p.tags kind) with hheader
    have hpadlen : (front ++ pad).length = alignUp p.entryAlign front.length := by
      rw [List.length_append, hpad, List.length_replicate]
      omega
    have hnext : (front ++ pad ++ header ++ c).length = alignUp p.entryAlign front.length + 8 + c.length := by
      rw [List.length_append, List.length_append, hpadlen]
      rfl
    have hbody : front ++ layoutBody p front.length ((kind, d, c) :: ys) =
        (front ++ pad ++ header ++ c) ++ layoutBody p (front ++ pad ++ header ++ c).length ys := by
      rw [hnext]
      simp only [layoutBody, List.append_assoc, hpad, hheader]
    have hoffs : layoutOffsets p.entryAlign front.length (codedPayloads ((kind, d, c) :: ys)) =
        alignUp p.entryAlign front.length ::
          layoutOffsets p.entryAlign (front ++ pad ++ header ++ c).length (codedPayloads ys) := by
      rw [hnext]
      rfl
    rw [hoffs] at hoff ⊢
    rw [hbody]
    cases j with
    | succ j => exact ih (front ++ pad ++ header ++ c) hx hoff
    | zero =>
      cases hx
      cases hoff
      obtain ⟨z, back, hback, hz, hstop⟩ := layoutBody_pads hp (front ++ pad ++ header ++ c).length ys
      refine ⟨front ++ pad, back, z, ?_, hpadlen, alignUp_mod hp _, hz, ?_⟩
      · rw [hback]
        simp only [List.append_assoc, hheader]
      · rw [← List.length_append] at hstop
        rw [List.getElem?_cons_succ, hstop, hnext]

theorem layoutOffsets_length (align a : Nat) (cs : List Bytes) : (layoutOffsets align a cs).length = cs.length := by
  induction cs generalizing a with
  | nil => rfl
  | cons c cs ih => rw [layoutOffsets, List.length_cons, ih, List.length_cons]

section
variable {p : Params} {B : Bytes} {x : Kind × Bytes × Bytes} {off stop : Nat}

/-- An entry that is laid out ends inside the buffer. -/
theorem EntryLaidOut.stop_le (h : EntryLaidOut p B x off stop) : off + 8 ≤ stop ∧ stop ≤ B.length := by
  obtain ⟨front, back, z, rfl, rfl, -, -, rfl⟩ := h
  simp only [List.length_append, entryHeader_length, List.length_replicate]
  omega

theorem EntryLaidOut.aligned (h : EntryLaidOut p B x off stop) : off % p.entryAlign = 0 := by
  obtain ⟨front, back, z, -, -, hmod, -⟩ := h
  exact hmod

/-- At the offset stands the payload's size (R85). -/
theorem EntryLaidOut.size (h : EntryLaidOut p B x off stop) :
    inputWord B off = some (BitVec.ofNat 32 x.2.1.length) := by
  obtain ⟨front, back, z, rfl, rfl, -⟩ := h
  rw [entryHeader, List.append_assoc]
  exact inputWord_append_beBytes _ _ _

/-- After the size stands the kind's tag (R85). -/
theorem EntryLaidOut.tag (h : EntryLaidOut p B x off stop) : inputWord B (off + 4) = some (tagOf p.tags x.1) := by
  obtain ⟨front, back, z, rfl, rfl, -⟩ := h
  have hread := inputWord_append_beBytes (front ++ beBytes (BitVec.ofNat 32 x.2.1.length)) (tagOf p.tags x.1)
    (x.2.2 ++ (List.replicate z 0 ++ back))
  rw [List.length_append, beBytes_length] at hread
  simpa only [entryHeader, List.append_assoc] using hread

/-- Up to its end stand the coded bytes and the zeros after them (R136). -/
theorem EntryLaidOut.raw (h : EntryLaidOut p B x off stop) :
    ∃ z, z < p.entryAlign ∧ inputSlice B (off + 8) stop = x.2.2 ++ List.replicate z 0 := by
  obtain ⟨front, back, z, rfl, rfl, -, hz, rfl⟩ := h
  refine ⟨z, hz, ?_⟩
  generalize hheader : entryHeader (BitVec.ofNat 32 x.2.1.length) (tagOf p.tags x.1) = header
  have hlen : (front ++ header).length = front.length + 8 := by rw [List.length_append, ← hheader, entryHeader_length]
  have hraw : (x.2.2 ++ List.replicate z (0 : Byte)).length =
      front.length + 8 + x.2.2.length + z - (front.length + 8) := by
    rw [List.length_append, List.length_replicate]
    omega
  rw [inputSlice, ← List.append_assoc front, ← hlen, List.drop_left, hlen, ← List.append_assoc, ← hraw, List.take_left]

end

theorem flatMap_beBytes_length (ws : List Word) : (ws.flatMap beBytes).length = 4 * ws.length := by
  induction ws with
  | nil => rfl
  | cons w ws ih =>
    rw [List.flatMap_cons, List.length_append, ih, beBytes_length, List.length_cons]
    omega

/-- A layout is its count, its offsets and its body, which begins after them (R136). -/
theorem layout_eq (p : Params) {es : List Entry} {ds cs : List Bytes} (hc : cs.length = es.length) :
    ∃ front : Bytes, front.length = 4 + 4 * es.length ∧
      front = beBytes (BitVec.ofNat 32 es.length) ++
        ((layoutOffsets p.entryAlign (4 + 4 * es.length) cs).map (BitVec.ofNat 32)).flatMap beBytes ∧
      layout p es ds cs = front ++ layoutBody p front.length ((es.map Entry.kind).zip (ds.zip cs)) := by
  have hlen : ((beBytes (BitVec.ofNat 32 es.length)) ++
      ((layoutOffsets p.entryAlign (4 + 4 * es.length) cs).map (BitVec.ofNat 32)).flatMap beBytes).length =
      4 + 4 * es.length := by
    rw [List.length_append, beBytes_length, flatMap_beBytes_length, List.length_map, layoutOffsets_length, hc]
  refine ⟨_, hlen, rfl, ?_⟩
  rw [hlen, layout, List.flatMap_map]

/-- Settles O49: every entry is laid out between its offset and the next one's. -/
theorem savedContainerLoadsAgain : Obligations.SavedContainerLoadsAgain := by
  intro p es ds cs hp hd hc hlimit
  obtain ⟨front, hfront, hindex, hlayout⟩ := layout_eq p (ds := ds) hc
  have hcoded : codedPayloads ((es.map Entry.kind).zip (ds.zip cs)) = cs := by
    calc codedPayloads ((es.map Entry.kind).zip (ds.zip cs))
        = (((es.map Entry.kind).zip (ds.zip cs)).map Prod.snd).map Prod.snd := List.map_map.symm
      _ = (ds.zip cs).map Prod.snd := by rw [List.map_snd_zip (by simp [hd, hc])]
      _ = cs := List.map_snd_zip (by omega)
  set offsets := layoutOffsets p.entryAlign (4 + 4 * es.length) cs with hoffsets
  have hcount : offsets.length = es.length := by rw [hoffsets, layoutOffsets_length, hc]
  generalize hxs : (es.map Entry.kind).zip (ds.zip cs) = xs at hlayout hcoded
  generalize hB : layout p es ds cs = B at hlimit hlayout ⊢
  refine ⟨?_, offsets.map (BitVec.ofNat 32), ?_, by rw [List.length_map, hcount], ?_⟩
  · rw [hlayout, hindex, List.append_assoc]
    exact inputWord_append_beBytes [] _ _
  · have hread := readOffsets_append_flatMap (beBytes (BitVec.ofNat 32 es.length)) (offsets.map (BitVec.ofNat 32))
      (layoutBody p front.length xs)
    rw [List.length_map, hcount, ← List.append_assoc, ← hindex] at hread
    rw [hlayout]
    exact hread
  · intro j e dj cj off he hdj hcj hoff
    rw [List.getElem?_map, Option.map_eq_some_iff] at hoff
    obtain ⟨o, ho, rfl⟩ := hoff
    have hx : xs[j]? = some (e.kind, dj, cj) := by
      rw [← hxs]
      simp [List.getElem?_zip_eq_some, he, hdj, hcj]
    have hentry := layoutBody_laidOut hp xs front hx (by rw [hcoded, hfront]; exact ho)
    rw [hcoded, hfront, ← hoffsets, ← hfront, ← hlayout] at hentry
    obtain ⟨hle, hstop⟩ := hentry.stop_le
    have hoff : (BitVec.ofNat 32 o).toNat = o := by
      rw [BitVec.toNat_ofNat]
      exact Nat.mod_eq_of_lt (by omega)
    rw [hoff]
    refine ⟨hentry.aligned, hentry.size, hentry.tag, ?_⟩
    rintro stop rfl
    have hend : (((offsets.map (BitVec.ofNat 32))[j + 1]?).map BitVec.toNat).getD B.length =
        (offsets[j + 1]?).getD B.length := by
      rw [List.getElem?_map]
      cases hnext : offsets[j + 1]? with
      | none => rfl
      | some o' =>
        rw [hnext] at hstop
        exact Nat.mod_eq_of_lt (lt_of_le_of_lt hstop hlimit)
    rw [hend]
    exact ⟨hle, hstop, hentry.raw⟩

end Sys2Proof.Machine
end

section
/-! The Slide decoder gives back what a run of tokens stands for (41_slide.md R106 to R113, R115, R118). -/

namespace Sys2Proof.Machine

/-! ## The match search -/

/-- The input's bytes from `place` on are the same as those from `pos` on, for `len` bytes, in the window and within the
longest match (R10, R118). -/
structure IsMatch (raw : Bytes) (pos len place : Nat) : Prop where
  before : place < pos
  window : pos ≤ place + 4096
  cap : len ≤ 273
  inside : pos + len ≤ raw.length
  same : ∀ j, j < len → raw[place + j]? = raw[pos + j]?

theorem commonLength_le (m : Nat) (x y : Bytes) : commonLength m x y ≤ m := by
  fun_induction commonLength m x y <;> omega

theorem commonLength_same (m : Nat) (x y : Bytes) : ∀ j, j < commonLength m x y → x[j]? = y[j]? := by
  fun_induction commonLength m x y
  case case1 m a x y ih =>
    intro j hj
    cases j with
    | zero => rfl
    | succ j => exact ih j (by omega)
  all_goals exact nofun

theorem mem_candidates {tie : SlideTie} {pos place : Nat} (h : place ∈ candidates tie pos) :
    place < pos ∧ pos ≤ place + 4096 := by
  cases tie <;> simp only [candidates, Config.slWindow, List.mem_map, List.mem_range] at h <;>
    obtain ⟨t, ht, rfl⟩ := h <;> omega

/-- What the search answers is a match, unless it is nothing (R118). -/
theorem longest_isMatch {tie : SlideTie} {raw : Bytes} {pos : Nat} (h : 0 < (longest tie raw pos).1) :
    IsMatch raw pos (longest tie raw pos).1 (longest tie raw pos).2 := by
  revert h
  unfold longest
  split
  · exact fun h => absurd h (lt_irrefl 0)
  · refine List.foldlRecOn (motive := fun best : Nat × Nat => 0 < best.1 → IsMatch raw pos best.1 best.2) _ _
      (fun h => absurd h (lt_irrefl 0)) fun best ih place hplace => ?_
    obtain ⟨hbefore, hwindow⟩ := mem_candidates hplace
    have hle := commonLength_le (min Config.slMaxMatch (raw.length - pos)) (raw.drop place) (raw.drop pos)
    have hsame := commonLength_same (min Config.slMaxMatch (raw.length - pos)) (raw.drop place) (raw.drop pos)
    simp only [Config.slMaxMatch, List.getElem?_drop] at hle hsame ⊢
    split
    · exact fun _ => ⟨hbefore, hwindow, by dsimp only; omega, by dsimp only; omega, hsame⟩
    · exact ih

/-! ## Tokens that stand for input bytes -/

/-- A copy of `len` bytes from `dist` back gives the input's bytes from `pos` on (R112, R115(e)). -/
def slCopies (raw : Bytes) (pos dist len : Nat) : Prop :=
  dist ≤ pos ∧ pos + len ≤ raw.length ∧ ∀ j, j < len → raw[pos - dist + j]? = raw[pos + j]?

/-- The Slide token stands for the input bytes from `pos` on. -/
def slCodes (raw : Bytes) (pos : Nat) : Instr → Prop
  | .slLit c => raw[pos]? = some c
  | .slRef2 n d => n ≠ 0 ∧ slCopies raw pos (d.toNat + 1) (n.toNat + 2)
  | .slRef3 d e => slCopies raw pos (d.toNat + 1) (e.toNat + 18)
  | _ => False

/-- The Slide tokens stand for the input bytes from `pos` to `stop`. -/
def slCodesAll (raw : Bytes) : Nat → List Instr → Nat → Prop
  | pos, [], stop => stop = pos
  | pos, i :: is, stop => slCodes raw pos i ∧ slCodesAll raw (pos + slProduces i) is stop

section
variable {raw : Bytes} {pos mid stop : Nat} {i : Instr} {is js : List Instr}

/-- Two runs of tokens are one run of all of them. -/
theorem slCodesAll_append :
    slCodesAll raw pos (is ++ js) stop ↔ ∃ mid, slCodesAll raw pos is mid ∧ slCodesAll raw mid js stop := by
  induction is generalizing pos with
  | nil => simp [slCodesAll]
  | cons i is ih => simp [slCodesAll, ih, and_assoc]

theorem slCodes_isSlToken (h : slCodes raw pos i) : isSlToken i = true := by
  cases i <;> simp_all [slCodes, isSlToken]

/-- A token stands for at least one byte, all of them there. -/
theorem slCodes_produces (h : slCodes raw pos i) : 1 ≤ slProduces i ∧ pos + slProduces i ≤ raw.length := by
  cases i <;> simp only [slCodes] at h <;> simp only [slProduces]
  case slLit c =>
    obtain ⟨hlt, -⟩ := List.getElem?_eq_some_iff.mp h
    omega
  case slRef2 n d =>
    obtain ⟨-, -, hlen, -⟩ := h
    omega
  case slRef3 d e =>
    obtain ⟨-, hlen, -⟩ := h
    omega

theorem slCodesAll_isSlToken (h : slCodesAll raw pos is stop) : ∀ i ∈ is, isSlToken i = true := by
  induction is generalizing pos with
  | nil => nofun
  | cons i is ih =>
    rintro j (_ | ⟨_, hj⟩)
    · exact slCodes_isSlToken h.1
    · exact ih h.2 j hj

theorem slCodesAll_le (hpos : pos ≤ raw.length) (h : slCodesAll raw pos is stop) : stop ≤ raw.length := by
  induction is generalizing pos with
  | nil =>
    cases h
    exact hpos
  | cons i is ih => exact ih (slCodes_produces h.1).2 h.2

/-- No token of the run reaches before the output's start (R115(e)). -/
theorem slCodesAll_refsInside (h : slCodesAll raw pos is stop) : refsInside pos is := by
  induction is generalizing pos with
  | nil => trivial
  | cons i is ih =>
    refine ⟨?_, ih h.2⟩
    have hi := h.1
    cases i <;> simp only [slCodes] at hi
    case slLit c => trivial
    case slRef2 n d => exact hi.2.1
    case slRef3 d e => exact hi.1

end

/-- A match of 3 to 273 bytes has a token, whose bytes the encoder writes (R76, R77, R117). -/
theorem IsMatch.token (p : Params) {raw : Bytes} {pos len place : Nat} (h : IsMatch raw pos len place) (h3 : 3 ≤ len) :
    ∃ i, slCodes raw pos i ∧ isLiteral i = false ∧ slProduces i = len ∧
      slRefBytes len (pos - place - 1) = encode p i := by
  obtain ⟨hbefore, hwindow, hcap, hinside, hsame⟩ := h
  have hdist : (BitVec.ofNat 12 (pos - place - 1)).toNat = pos - place - 1 := by
    rw [BitVec.toNat_ofNat]
    omega
  have hcopies : slCopies raw pos ((BitVec.ofNat 12 (pos - place - 1)).toNat + 1) len := by
    rw [hdist, show pos - place - 1 + 1 = pos - place by omega]
    exact ⟨by omega, hinside, fun j hj => by rw [Nat.sub_sub_self hbefore.le, hsame j hj]⟩
  rcases Nat.lt_or_ge len 18 with h18 | h18
  · obtain ⟨n, rfl, hbytes⟩ := slRefBytes_short p (d := pos - place - 1) (by omega) h3 h18
    refine ⟨.slRef2 n _, ⟨?_, hcopies⟩, rfl, rfl, hbytes⟩
    rintro rfl
    exact absurd h3 (by decide)
  · obtain ⟨e, rfl, hbytes⟩ := slRefBytes_long p (d := pos - place - 1) (by omega) h18 hcap
    exact ⟨.slRef3 _ e, hcopies, rfl, rfl, hbytes⟩

/-! ## Groups -/

/-- The flags of a group's tokens, the last one lowest (R74). -/
def slGroupFlags (ts : List Instr) : Word := (BitVec.ofBoolListBE (ts.map isLiteral)).setWidth 32

/-- The codeword of a group: its flags, the first one in bit 31 (R74). -/
def slGroupCodeword (ts : List Instr) : Word := slGroupFlags ts <<< (32 - ts.length)

theorem slGroupBytes_eq (p : Params) (ts : List Instr) :
    slGroupBytes p ts = beBytes (slGroupCodeword ts) ++ ts.flatMap (encode p) := rfl

theorem slGroupFlags_getLsbD (ts : List Instr) {j : Nat} (hj : j < 32) :
    (slGroupFlags ts).getLsbD j = (decide (j < ts.length) && (ts.map isLiteral).getD (ts.length - 1 - j) false) := by
  rw [slGroupFlags, BitVec.getLsbD_setWidth, BitVec.getLsbD_ofBoolListBE]
  simp [hj]

/-- One more token moves the flags up and adds its own (R117). -/
theorem slGroupFlags_concat (ts : List Instr) (i : Instr) :
    slGroupFlags (ts ++ [i]) = (slGroupFlags ts <<< 1) ||| (if isLiteral i then 1 else 0) := by
  apply BitVec.eq_of_getLsbD_eq
  intro j hj
  rw [BitVec.getLsbD_or, BitVec.getLsbD_shiftLeft, slGroupFlags_getLsbD _ hj, slGroupFlags_getLsbD _ (by omega)]
  cases j with
  | zero => cases h : isLiteral i <;> simp [h, -BitVec.getLsbD_eq_getElem]
  | succ j =>
    have hzero : (if isLiteral i then 1 else 0 : Word).getLsbD (j + 1) = false := by
      split <;> simp [-BitVec.getLsbD_eq_getElem]
    rw [hzero]
    by_cases hlt : j < ts.length
    · have hidx : ts.length - (j + 1) = ts.length - 1 - j := by omega
      simp [hj, hlt, hidx, List.getElem?_append_left, show ts.length - 1 - j < ts.length by omega]
    · simp [hlt]

/-- Bit `31 - j` of the codeword is the flag of token `j` (R74). -/
theorem slGroupCodeword_flag {ts : List Instr} (h32 : ts.length ≤ 32) {j : Nat} (hj : j < ts.length) :
    (slGroupCodeword ts <<< j).getLsbD 31 = (ts.map isLiteral).getD j false := by
  have hidx : ts.length - 1 - (31 - j - (32 - ts.length)) = j := by omega
  have hlow : ¬ 31 - j < 32 - ts.length := by omega
  have hin : 31 - j - (32 - ts.length) < ts.length := by omega
  have hle : ¬ 31 < j := by omega
  rw [slGroupCodeword, BitVec.getLsbD_shiftLeft, BitVec.getLsbD_shiftLeft, slGroupFlags_getLsbD _ (by omega), hidx]
  simp [hlow, hin, hle, show 31 - j < 32 by omega]

end Sys2Proof.Machine
end

section
/-! The Slide decoder on a stream of groups, and on a stream with bytes after it (41_slide.md R106 to R113, R115). -/

open Sys2Proof.Claims

namespace Sys2Proof.Machine

/-! ## Decoding tokens -/

/-- The Slide decoder with the first `pos` bytes of `raw` put out and the bytes `rest` still to be read, the last of them at
`total`. -/
structure SlDecoderAt (p : Params) (raw : Bytes) (total : Nat) (rest : Bytes) (s : State) (pos : Nat) : Prop where
  running : s.resetPending = false
  engine : s.engine = .slideDec
  params : s.params = p
  n : s.n.toNat = raw.length
  out : s.out = raw.take pos
  pos_le : pos ≤ raw.length
  input : s.inp.drop s.ip = rest
  ip : s.ip + rest.length = total

section
variable {p : Params} {raw : Bytes} {total : Nat} {rest : Bytes} {s : State} {pos : Nat}

theorem SlDecoderAt.op (D : SlDecoderAt p raw total rest s pos) : s.op = pos := by
  rw [State.op, D.out, List.length_take, Nat.min_eq_left D.pos_le]

/-- Bytes are read and the decoder's registers written. -/
theorem SlDecoderAt.consume {bs : Bytes} {x : SlDec} (D : SlDecoderAt p raw total (bs ++ rest) s pos) :
    SlDecoderAt p raw total rest { s with ip := s.ip + bs.length, sl := x } pos := by
  have hip := D.ip
  rw [List.length_append] at hip
  refine ⟨D.running, D.engine, D.params, D.n, D.out, D.pos_le, ?_, by dsimp only; omega⟩
  change s.inp.drop (s.ip + bs.length) = rest
  rw [← List.drop_drop, D.input, List.drop_left]

/-- The decoder's registers are written. -/
theorem SlDecoderAt.registers (D : SlDecoderAt p raw total rest s pos) (x : SlDec) :
    SlDecoderAt p raw total rest { s with sl := x } pos :=
  ⟨D.running, D.engine, D.params, D.n, D.out, D.pos_le, D.input, D.ip⟩

/-- The next byte is put out. -/
theorem SlDecoderAt.put {c : Byte} (D : SlDecoderAt p raw total rest s pos) (hc : raw[pos]? = some c) :
    SlDecoderAt p raw total rest (emit c s) (pos + 1) := by
  obtain ⟨hlt, -⟩ := List.getElem?_eq_some_iff.mp hc
  refine ⟨D.running, D.engine, D.params, D.n, ?_, hlt, D.input, D.ip⟩
  rw [emit_out, D.out, List.take_add_one, hc]
  rfl

/-- The copy loop puts out the bytes that the copy stands for (R112). -/
theorem SlDecoderAt.copy (m : Nat) (D : SlDecoderAt p raw total rest s pos) (hd : 1 ≤ s.sl.dist.toNat)
    (h : slCopies raw pos s.sl.dist.toNat m) : SlDecoderAt p raw total rest (slCopy m s) (pos + m) := by
  induction m generalizing s pos with
  | zero => exact D
  | succ m ih =>
    obtain ⟨hback, hlen, hsame⟩ := h
    have hc : raw[pos]? = some (outBack s s.sl.dist.toNat) := by
      rw [outBack, D.op, if_neg (Nat.not_lt.mpr hback), D.out, some_getD_of_lt (by rw [List.length_take]; omega),
        List.getElem?_take_of_lt (by omega)]
      exact (hsame 0 (by omega)).symm
    have D1 : SlDecoderAt p raw total rest (slCopyByte s) (pos + 1) := (D.registers _).put hc
    rw [slCopy_succ, show pos + (m + 1) = pos + 1 + m by omega]
    refine ih D1 hd ⟨by change s.sl.dist.toNat ≤ _; omega, by omega, fun j hj => ?_⟩
    change raw[pos + 1 - s.sl.dist.toNat + j]? = _
    rw [show pos + 1 - s.sl.dist.toNat + j = pos - s.sl.dist.toNat + (j + 1) by omega, hsame (j + 1) (by omega)]
    congr 1
    omega

/-- `SlideCopy` with the operands of a reference that stands for the next bytes puts them out (R112). -/
theorem SlDecoderAt.slideCopy {d len : Nat} (D : SlDecoderAt p raw total rest s pos) (hdist : s.sl.dist.toNat = d + 1)
    (hlen : s.sl.len.toNat = len) (h : slCopies raw pos (d + 1) len) :
    ∃ t, slideCopy s = .next t ∧ SlDecoderAt p raw total rest t (pos + len) ∧ t.sl.cw = s.sl.cw ∧ t.sl.nb = s.sl.nb := by
  have hop := D.op
  have hn := D.n
  have hroom : pos + len ≤ raw.length := h.2.1
  rcases slideCopy_cases s with ⟨hover, -⟩ | ⟨-, hcopy⟩
  · omega
  · rw [hlen] at hcopy
    exact ⟨_, hcopy, D.copy _ (by omega) (hdist ▸ h), by rw [slCopy_frame], by rw [slCopy_frame]⟩

/-- A token that stands for the next bytes is decoded from its encoding. -/
theorem decode_slCodes {i : Instr} (h : slCodes raw pos i) (rest : Bytes) :
    decode p (.slToken (isLiteral i)) (encode p i ++ rest) = .instr i := by
  cases i <;> simp only [slCodes] at h
  case slLit c => rfl
  case slRef2 n d => exact decode_slRef2 p h.1 d rest
  case slRef3 d e => exact decode_slRef3 p d e rest

/-- A distance field as the register holds it (R78). -/
theorem slDist_toNat (d : BitVec 12) : (d.setWidth 13 + 1 : BitVec 13).toNat = d.toNat + 1 := by
  have hone : (1 : BitVec 13).toNat = 1 := rfl
  rw [BitVec.toNat_add, BitVec.toNat_setWidth, hone]
  omega

/-- Run on what is behind its bytes, a token puts out the bytes it stands for (R109 to R111). -/
theorem SlDecoderAt.exec {i : Instr} (D : SlDecoderAt p raw total (encode p i ++ rest) s pos) (h : slCodes raw pos i) :
    ∃ t, exec i s = .next t ∧ SlDecoderAt p raw total rest t (pos + slProduces i) ∧ t.sl.cw = s.sl.cw ∧
      t.sl.nb = s.sl.nb := by
  have hop := D.op
  have hn := D.n
  cases i <;> simp only [slCodes] at h
  case slLit c =>
    have hlt : s.op < s.n.toNat := by
      obtain ⟨hlt, -⟩ := List.getElem?_eq_some_iff.mp h
      omega
    exact ⟨_, if_pos hlt, D.consume.put h, rfl, rfl⟩
  case slRef2 n d =>
    have hlen : (n.setWidth 9 + 2 : BitVec 9).toNat = n.toNat + 2 := by
      have htwo : (2 : BitVec 9).toNat = 2 := rfl
      rw [BitVec.toNat_add, BitVec.toNat_setWidth, htwo]
      omega
    have D1 : SlDecoderAt p raw total rest (slRef2Operands n d s) pos := D.consume
    exact D1.slideCopy (slDist_toNat d) hlen h.2
  case slRef3 d e =>
    have hlen : (e.setWidth 9 + 18 : BitVec 9).toNat = e.toNat + 18 := by
      have h18 : (18 : BitVec 9).toNat = 18 := rfl
      rw [BitVec.toNat_add, BitVec.toNat_setWidth, h18]
      omega
    have D1 : SlDecoderAt p raw total rest (slRef3Operands d e s) pos := D.consume
    exact D1.slideCopy (slDist_toNat d) hlen h

/-- A step on a token that stands for the next bytes takes its flag and puts them out (R106). -/
theorem SlDecoderAt.token {i : Instr} (D : SlDecoderAt p raw total (encode p i ++ rest) s pos) (h : slCodes raw pos i)
    (hnb : s.sl.nb ≠ 0) (hflag : s.sl.cw.getLsbD 31 = isLiteral i) :
    ∃ t, step s = .next t ∧ SlDecoderAt p raw total rest t (pos + slProduces i) ∧ t.sl.cw = s.sl.cw <<< 1 ∧
      t.sl.nb = s.sl.nb - 1 := by
  obtain ⟨hone, hle⟩ := slCodes_produces h
  have hdec : decode s.params (.slToken (slFlag s)) (inputAtCursor s) = .instr i := by
    rw [slFlag, hflag, inputAtCursor, D.input, D.params]
    exact decode_slCodes h rest
  have hfetch := fetch_slToken D.engine (by rw [D.op, D.n]; omega) hnb
  rw [step_of_decoded D.running hfetch hdec]
  exact SlDecoderAt.exec (s := slTake s) (D.registers _) h

/-- The tokens of a group that are left, with as many flags (R106). -/
theorem SlDecoderAt.tokens (is : List Instr) {stop : Nat}
    (D : SlDecoderAt p raw total (is.flatMap (encode p) ++ rest) s pos) (h : slCodesAll raw pos is stop)
    (hnb : is.length ≤ s.sl.nb.toNat)
    (hflags : ∀ j, j < is.length → (s.sl.cw <<< j).getLsbD 31 = (is.map isLiteral).getD j false) :
    ∃ t, reaches s t ∧ SlDecoderAt p raw total rest t stop ∧ t.sl.nb.toNat = s.sl.nb.toNat - is.length := by
  induction is generalizing s pos with
  | nil =>
    cases h
    exact ⟨s, reaches_refl s, D, rfl⟩
  | cons i is ih =>
    rw [List.length_cons] at hnb hflags
    have hone : (1 : BitVec 6).toNat = 1 := rfl
    have hlt := s.sl.nb.isLt
    rw [List.flatMap_cons, List.append_assoc] at D
    obtain ⟨t, hstep, D1, hcw, hnb1⟩ := D.token h.1 (fun h0 => by rw [h0] at hnb; exact absurd hnb (by simp))
      (by simpa [-BitVec.getLsbD_eq_getElem] using hflags 0 (by omega))
    have hnb2 : t.sl.nb.toNat = s.sl.nb.toNat - 1 := by
      rw [hnb1, BitVec.toNat_sub, hone]
      omega
    obtain ⟨u, hreach, D2, hnb3⟩ := ih D1 h.2 (by omega) fun j hj => by
      rw [hcw, ← BitVec.shiftLeft_add, Nat.add_comm 1 j, hflags (j + 1) (by omega)]
      rfl
    exact ⟨u, reaches_step hstep hreach, D2, by rw [hnb3, hnb2, List.length_cons]; omega⟩

theorem decode_slCw (w : Word) (rest : Bytes) : decode p .slCodeword (beBytes w ++ rest) = .instr (.slCw w) := by
  simp [decode, decodeSlCw, beBytes, be32_beBytes]

/-- A group: its codeword, then its tokens (R106, R108). -/
theorem SlDecoderAt.group {g : List Instr} {stop : Nat} (D : SlDecoderAt p raw total (slGroupBytes p g ++ rest) s pos)
    (hg : 1 ≤ g.length ∧ g.length ≤ 32) (h : slCodesAll raw pos g stop) (hnb : s.sl.nb = 0) :
    ∃ t, reaches s t ∧ SlDecoderAt p raw total rest t stop ∧ t.sl.nb.toNat = 32 - g.length := by
  have hlt : pos < raw.length := by
    cases g with
    | nil => simp at hg
    | cons i is =>
      obtain ⟨hone, hle⟩ := slCodes_produces h.1
      omega
  rw [slGroupBytes_eq, List.append_assoc] at D
  have hfetch := fetch_slCodeword D.engine (by rw [D.op, D.n]; exact hlt) hnb
  have hdec : decode s.params .slCodeword (inputAtCursor s) = .instr (.slCw (slGroupCodeword g)) := by
    rw [inputAtCursor, D.input, D.params, decode_slCw]
  have hstep : step s = .next (slReload (slGroupCodeword g) { s with ip := s.ip + 4 }) :=
    step_of_decoded D.running hfetch hdec
  have D1 : SlDecoderAt p raw total (g.flatMap (encode p) ++ rest)
      (slReload (slGroupCodeword g) { s with ip := s.ip + 4 }) pos := D.consume
  obtain ⟨t, hreach, D2, hnb2⟩ := D1.tokens g h hg.2 fun j hj => slGroupCodeword_flag hg.2 hj
  exact ⟨t, reaches_step hstep hreach, D2, hnb2⟩

/-- A sequence of groups (R106). -/
theorem SlDecoderAt.groups (gs : List (List Instr)) {stop : Nat}
    (D : SlDecoderAt p raw total (gs.flatMap (slGroupBytes p) ++ rest) s pos) (hgs : groupsFull 32 gs)
    (h : slCodesAll raw pos gs.flatten stop) (hnb : s.sl.nb = 0) :
    ∃ t, reaches s t ∧ SlDecoderAt p raw total rest t stop := by
  induction gs generalizing s pos with
  | nil =>
    cases h
    exact ⟨s, reaches_refl s, D⟩
  | cons g gs ih =>
    obtain ⟨hsizes, hfull⟩ := hgs
    rw [List.flatten_cons, slCodesAll_append] at h
    obtain ⟨mid, hg, hrest⟩ := h
    rw [List.flatMap_cons, List.append_assoc] at D
    obtain ⟨t, hreach, D1, hnb1⟩ := D.group (hsizes g (by simp)) hg hnb
    cases gs with
    | nil =>
      cases hrest
      exact ⟨t, hreach, D1⟩
    | cons g2 gs =>
      have h32 : g.length = 32 := hfull g (by simp)
      rw [h32] at hnb1
      obtain ⟨u, hreach2, D2⟩ := ih D1
        ⟨fun x hx => hsizes x (List.mem_cons_of_mem _ hx),
          fun x hx => hfull x (by rw [List.dropLast_cons_of_ne_nil (by simp)]; exact List.mem_cons_of_mem _ hx)⟩
        hrest (BitVec.eq_of_toNat_eq hnb1)
      exact ⟨u, reaches_trans hreach hreach2, D2⟩

end

/-- A stream of groups whose tokens stand for the whole input (R115). -/
def slStream (p : Params) (raw : Bytes) (gs : List (List Instr)) : Bytes :=
  beBytes (BitVec.ofNat 32 raw.length) ++ gs.flatMap (slGroupBytes p)

/-- Groups of tokens that stand for the whole input are a member of `EncSlide(raw)` (R115). -/
theorem encSlide_of_codes (p : Params) {raw : Bytes} {gs : List (List Instr)} (hlen : raw.length < 2 ^ 32)
    (hgs : groupsFull 32 gs) (h : slCodesAll raw 0 gs.flatten raw.length) : encSlide p raw (slStream p raw gs) := by
  refine ⟨⟨gs, rfl, hgs, fun g hg => ?_, slCodesAll_refsInside h⟩, ?_, fun hraw => ?_⟩
  · exact List.all_eq_true.mpr fun i hi => slCodesAll_isSlToken h i (List.mem_flatten.mpr ⟨g, hg, hi⟩)
  · have hn : (BitVec.ofNat 32 raw.length).toNat = raw.length := toNat_ofNat_length hlen
    have D : SlDecoderAt p raw (slStream p raw gs).length (gs.flatMap (slGroupBytes p) ++ [])
        { startSlideDec (slStream p raw gs) (BitVec.ofNat 32 raw.length) { params := p } with engine := .slideDec } 0 := by
      refine ⟨rfl, rfl, rfl, hn, rfl, Nat.zero_le _, ?_, ?_⟩
      · rw [List.append_nil]
        rfl
      · rw [List.append_nil, slStream, List.length_append]
        rfl
    obtain ⟨t, ⟨k, hrun⟩, D1⟩ := D.groups gs hgs h rfl
    exact ⟨k, t, hrun, D1.engine, by rw [D1.out, List.take_length], by rw [D1.op, D1.n], D1.ip⟩
  · subst hraw
    cases gs with
    | nil => rfl
    | cons g gs =>
      have hg := (hgs.1 g (by simp)).1
      cases g with
      | nil => simp at hg
      | cons i is =>
        obtain ⟨hone, hle⟩ := slCodes_produces h.1
        exact absurd hle (by simp; omega)

end Sys2Proof.Machine
end

section
/-! The Slide decoder gives back every member of `EncSlide(raw)`, whatever bytes follow it and whatever the host holds
besides (41_slide.md R113, R115(d)). -/

open Sys2Proof.Claims

namespace Sys2Proof

/-- Bytes after those an instruction is decoded from make no difference; the Slide header reads what is there (R107). -/
theorem decode_append {p : Params} {c : Ctx} {bs : Bytes} {i : Instr} (more : Bytes) (hc : c ≠ .slHeader)
    (h : decode p c bs = .instr i) : decode p c (bs ++ more) = .instr i := by
  revert h
  fun_cases decode p c bs
  case case1 => fun_cases decodeCommand bs <;> simp_all [decode, decodeCommand]
  case case2 => fun_cases decodeLzFlag bs <;> simp_all [decode, decodeLzFlag]
  case case3 => fun_cases decodeLzLit bs <;> simp_all [decode, decodeLzLit]
  case case4 => fun_cases decodeLzRef p.pair bs <;> simp_all [decode, decodeLzRef]
  case case5 => exact absurd rfl hc
  case case6 => fun_cases decodeSlCw bs <;> simp_all [decode, decodeSlCw]
  case case7 => fun_cases decodeSlLit bs <;> simp_all [decode, decodeSlLit]
  case case8 =>
    rcases bs with _ | ⟨b1, _ | ⟨b2, rest⟩⟩
    · exact nofun
    · exact nofun
    · by_cases hnib : b1.extractLsb' 4 4 = 0#4
      · cases rest <;> simp [decode, decodeSlRef, hnib]
      · simp [decode, decodeSlRef, hnib]
  case case9 => fun_cases decodeRl bs <;> simp_all [decode, decodeRl, -BitVec.getLsbD_eq_getElem]
  case case10 => fun_cases decodeArcIndex bs <;> simp_all [decode, decodeArcIndex]
  case case11 => fun_cases decodeArcEntry p.tags bs <;> simp_all [decode, decodeArcEntry]

end Sys2Proof

namespace Sys2Proof.Machine

/-! ## A decoder in another machine -/

/-- The Slide decoder of `s` running in `v`, with the bytes `more` after its input. -/
def slRunningIn (v : State) (more : Bytes) (s : State) : State :=
  { v with engine := s.engine, inp := s.inp ++ more, out := s.out, n := s.n, ip := s.ip, sl := s.sl }

/-- A Slide decoder at work for the host, with no command to come. -/
structure SlDecoding (p : Params) (s : State) : Prop where
  params : s.params = p
  running : s.resetPending = false
  engine : s.engine = .slideDec
  task : s.task = .host
  requests : s.requests = []

section
variable {v s t : State} {more : Bytes}

theorem slCopy_slRunningIn (m : Nat) (s : State) : slCopy m (slRunningIn v more s) = slRunningIn v more (slCopy m s) := by
  induction m generalizing s with
  | zero => rfl
  | succ m ih => exact ih (slCopyByte s)

/-- `SlideCopy` without a fault is the same in another machine. -/
theorem slideCopy_slRunningIn (h : slideCopy s = .next t) (ht : t.engine ≠ .idle) :
    slideCopy (slRunningIn v more s) = .next (slRunningIn v more t) := by
  rcases slideCopy_cases s with ⟨-, hs⟩ | ⟨hroom, hs⟩ <;> rw [hs] at h <;> cases h
  · exact absurd rfl ht
  · rcases slideCopy_cases (slRunningIn v more s) with ⟨hover, -⟩ | ⟨-, hr⟩
    · exact absurd (lt_of_lt_of_le hover hroom) (lt_irrefl _)
    · rw [hr]
      exact congrArg _ (slCopy_slRunningIn _ s)

/-- A codeword or token without a fault is the same in another machine. -/
theorem exec_slRunningIn {i : Instr} (hi : i.ctx = .slCodeword ∨ ∃ flag, i.ctx = .slToken flag)
    (h : exec i s = .next t) (ht : t.engine ≠ .idle) :
    exec i (slRunningIn v more s) = .next (slRunningIn v more t) := by
  cases i
  case slCw w =>
    cases h
    rfl
  case slLit b =>
    simp only [exec, execSlLit] at h
    split at h <;> cases h
    exact if_pos (by assumption)
  case slRef2 n d => exact slideCopy_slRunningIn h ht
  case slRef3 d e => exact slideCopy_slRunningIn h ht
  all_goals simp [Instr.ctx] at hi

/-- A codeword or token has at least a byte. -/
theorem decode_slide_nil {p : Params} {c : Ctx} (hc : c = .slCodeword ∨ ∃ flag, c = .slToken flag) :
    decode p c [] = .truncated := by
  rcases hc with rfl | ⟨flag, rfl⟩
  · rfl
  · exact decode_slToken_nil flag

/-- A fetched codeword or token that does not end the command is the same in another machine. -/
theorem step_slRunningIn_of_fetch {c : Ctx} {u : State} (hc : c = .slCodeword ∨ ∃ flag, c = .slToken flag)
    (hr : s.resetPending = false) (hv : v.resetPending = false) (hp : s.params = v.params)
    (hf : fetch s = runDecoded (decode s.params c (inputAtCursor s)) u)
    (hf' : fetch (slRunningIn v more s) =
      runDecoded (decode v.params c (inputAtCursor (slRunningIn v more s))) (slRunningIn v more u))
    (hstep : step s = .next t) (ht : t.engine ≠ .idle) :
    step (slRunningIn v more s) = .next (slRunningIn v more t) := by
  rcases step_runDecoded_next hr hf hstep with rfl | ⟨i, hd, hx⟩
  · exact absurd rfl ht
  · have hctx : i.ctx = c := (encodeWritesWhatDecodeRead _ _ _ _ hd).1
    have hin : s.ip ≤ s.inp.length := by
      by_contra h
      rw [inputAtCursor, List.drop_eq_nil_of_le (by omega), decode_slide_nil hc] at hd
      cases hd
    have hcursor : inputAtCursor (slRunningIn v more s) = inputAtCursor s ++ more := List.drop_append_of_le_length hin
    have hne : c ≠ .slHeader := by rcases hc with rfl | ⟨flag, rfl⟩ <;> exact nofun
    rw [hp] at hd
    rw [step_of_decoded (s := slRunningIn v more s) hv hf' (hcursor ▸ decode_append more hne hd)]
    exact exec_slRunningIn (hctx ▸ hc) hx ht

/-- A step that stays in the Slide decoder's loop is the same in another machine. -/
theorem step_slRunningIn (S : SlDecoding v.params s) (hv : v.resetPending = false) (hstep : step s = .next t)
    (ht : t.engine = .slideDec) : step (slRunningIn v more s) = .next (slRunningIn v more t) := by
  have hidle : t.engine ≠ .idle := by rw [ht]; exact nofun
  by_cases ho : s.op < s.n.toNat
  · by_cases hnb : s.sl.nb = 0
    · exact step_slRunningIn_of_fetch (.inl rfl) S.running hv S.params (fetch_slCodeword S.engine ho hnb)
        (fetch_slCodeword (s := slRunningIn v more s) S.engine ho hnb) hstep hidle
    · exact step_slRunningIn_of_fetch (.inr ⟨_, rfl⟩) S.running hv S.params (fetch_slToken S.engine ho hnb)
        (fetch_slToken (s := slRunningIn v more s) S.engine ho hnb) hstep hidle
  · rw [step_of_fetch_auto S.running (fetch_decoderEnd ho (.inr (.inl S.engine)))] at hstep
    rcases codecReturn_engine hstep with h | h <;> rw [ht] at h <;> cases h

/-- A step of the decoder stays in its loop, or leaves the block idle with nothing to do. -/
theorem SlDecoding.step {p : Params} (S : SlDecoding p s) (hstep : step s = .next t) :
    SlDecoding p t ∨ (t.resetPending = false ∧ t.engine = .idle ∧ t.requests = []) := by
  rcases decoderLoop_next S.running (.inr (.inl S.engine)) hstep with ⟨k, rfl⟩ | ⟨-, hret⟩ | htok
  · exact .inr ⟨S.running, rfl, S.requests⟩
  · rw [codecReturn_of_host S.task] at hret
    cases hret
    exact .inr ⟨S.running, rfl, S.requests⟩
  · rw [htok.frame]
    exact .inl ⟨S.params, S.running, S.engine, S.task, S.requests⟩

/-- An idle block without a request stays as it is (R161). -/
theorem run_idle (k : Nat) (hr : s.resetPending = false) (he : s.engine = .idle) (hq : s.requests = []) :
    Host.Core.run Sys2Proof.core k s = .next s := by
  induction k with
  | zero => rfl
  | succ k ih =>
    have hstep : step s = .next s := step_of_fetch_auto hr (by simp [fetch, he, fetchCommand, hq])
    have hcore : Host.Core.step Sys2Proof.core s = .next s := hstep
    simp only [Host.Core.run, hcore]
    exact ih

/-- A run of the Slide decoder that comes to stand in its loop is the same in another machine. -/
theorem run_slRunningIn (k : Nat) (S : SlDecoding v.params s) (hv : v.resetPending = false)
    (hrun : Host.Core.run Sys2Proof.core k s = .next t) (ht : t.engine = .slideDec) :
    reaches (slRunningIn v more s) (slRunningIn v more t) := by
  induction k generalizing s with
  | zero =>
    cases hrun
    exact reaches_refl _
  | succ k ih =>
    simp only [Host.Core.run] at hrun
    split at hrun
    · rename_i u hstep
      rcases S.step hstep with S' | ⟨hr, he, hq⟩
      · exact reaches_step (step_slRunningIn S hv hstep S'.engine) (ih S' hrun)
      · rw [run_idle k hr he hq] at hrun
        cases hrun
        rw [he] at ht
        cases ht
    · cases hrun
    · cases hrun

end

/-- `SLIDE.DEC` gives `raw` back from every member of `EncSlide(raw)`, whatever bytes follow (R115(d), R142(a)). -/
theorem slideDec_of_encSlide {s : State} {raw c more : Bytes} (hr : s.resetPending = false)
    (hc : encSlide s.params raw c) (hlen : (c ++ more).length < 2 ^ 32) :
    ∃ (u : State) (k : Nat) (t : State),
      exec .slideDec (withOperands s (c ++ more) (BitVec.ofNat 32 raw.length)) = .next u ∧
      Host.Core.run Sys2Proof.core k u = .next t ∧ endedWith s t s.store 0 (.ok (.bytes raw)) := by
  obtain ⟨-, ⟨k, t, hrun, hengine, hout, hop, -⟩, -⟩ := hc
  set n := BitVec.ofNat 32 raw.length
  set start : State := { startSlideDec c n { params := s.params } with engine := .slideDec }
  set u : State := startSlideDec (c ++ more) n { withOperands s (c ++ more) n with task := .host }
  have hheader : step u = .next (slRunningIn u more start) :=
    step_of_fetch_run (s := u) hr (fetch_slHeader rfl)
  have hloop : reaches (slRunningIn u more start) (slRunningIn u more t) :=
    run_slRunningIn k (s := start) ⟨rfl, rfl, rfl, rfl, rfl⟩ hr hrun hengine
  have hend : step (slRunningIn u more t) = .next (finish (.bytes raw) (slRunningIn u more t)) := by
    have hnot : ¬ (slRunningIn u more t).op < (slRunningIn u more t).n.toNat := hop.symm.not_gt
    rw [step_of_fetch_auto (s := slRunningIn u more t) hr (fetch_decoderEnd hnot (.inr (.inl hengine))), ← hout]
    exact codecReturn_of_host rfl
  obtain ⟨m, hm⟩ := reaches_step hheader (reaches_trans hloop (reaches_step hend (reaches_refl _)))
  exact ⟨u, m, _, withinLimit_of_lt hlen, hm, rfl⟩

end Sys2Proof.Machine
end

section
/-! The reference Slide encoder: what a round codes, the run to the end of its loop, and the statement on the Slide codec
(41_slide.md R114 to R118). -/

open Sys2Proof.Claims

namespace Sys2Proof.Machine

/-! ## The choice of a round -/

/-- Everything a round can choose: the kept pair, a literal, perhaps with a pair kept for the next round, or the longest
match here (R117). -/
theorem slChoose_cases (tie : SlideTie) (raw : Bytes) (e : SlEnc) :
    (∃ m, e.deferred = some m ∧ slChoose tie raw e = (m, none)) ∨
    (e.deferred = none ∧ ((longest tie raw e.pos).1 < 3 ∧
      slChoose tie raw e = ((1, (longest tie raw e.pos).2), none) ∨
    3 ≤ (longest tie raw e.pos).1 ∧ (longest tie raw e.pos).1 + 2 ≤ (longest tie raw (e.pos + 1)).1 ∧
      slChoose tie raw e = ((1, (longest tie raw e.pos).2), some (longest tie raw (e.pos + 1))) ∨
    3 ≤ (longest tie raw e.pos).1 ∧ (longest tie raw (e.pos + 1)).1 < (longest tie raw e.pos).1 + 2 ∧
      slChoose tie raw e = (longest tie raw e.pos, none))) := by
  unfold slChoose
  cases e.deferred with
  | some m => exact .inl ⟨m, rfl, rfl⟩
  | none =>
    refine .inr ⟨rfl, ?_⟩
    simp only
    split_ifs with h3 hnext
    · exact .inl ⟨h3, rfl⟩
    · exact .inr (.inl ⟨by omega, hnext, rfl⟩)
    · exact .inr (.inr ⟨by omega, by omega, rfl⟩)

/-- The pair that `slChosen` gives is the one the round chooses, but for the position beside a literal. -/
theorem slChoose_of_slChosen {s : State} {len place : Nat} {kept : Option (Nat × Nat)} (h : slChosen s len place kept) :
    ∃ place', slChoose s.params.slideTie s.inp s.se = ((len, place'), kept) ∧ (len ≠ 1 → place' = place) := by
  rcases h with ⟨hd, rfl⟩ | ⟨hd, h3, rfl, rfl⟩ | ⟨hd, h3, hnext, rfl, rfl⟩ | ⟨hd, h3, hnext, hhere, rfl⟩ <;>
    simp only [slChoose, hd]
  · exact ⟨place, rfl, fun _ => rfl⟩
  · exact ⟨_, if_pos h3, fun h => absurd rfl h⟩
  · exact ⟨_, (if_neg (Nat.not_lt.mpr h3)).trans (if_pos hnext), fun h => absurd rfl h⟩
  · refine ⟨place, ?_, fun _ => rfl⟩
    rw [if_neg (Nat.not_lt.mpr h3), if_neg (Nat.not_le.mpr hnext), hhere]

section
variable {tie : SlideTie} {raw : Bytes} {e : SlEnc} {len place : Nat} {kept : Option (Nat × Nat)}

theorem slPutToken_literal (h : slChoose tie raw e = ((1, place), kept)) :
    slPutToken tie raw e = { e with
      cw := (e.cw <<< 1) ||| 1, nb := e.nb + 1, buf := e.buf ++ [raw.getD e.pos 0], pos := e.pos + 1, deferred := kept } := by
  simp only [slPutToken, h, if_true]

theorem slPutToken_pair (h : slChoose tie raw e = ((len, place), kept)) (hlen : len ≠ 1) :
    slPutToken tie raw e = { e with
      cw := e.cw <<< 1, nb := e.nb + 1, buf := e.buf ++ slRefBytes len (e.pos - place - 1), pos := e.pos + len
      deferred := kept } := by
  simp only [slPutToken, h, if_neg hlen]

end

/-! ## A round -/

section
variable {s : State}

theorem step_slideEnc (hr : s.resetPending = false) (he : s.engine = .slideEnc) (hp : s.params.slideEncRef = .reference)
    (hpos : s.se.pos < s.inp.length) : step s = .next (slRound s) := by
  refine step_of_fetch_auto hr ?_
  simp only [fetch, he, stepSlideEnc, hp, if_pos hpos]

/-- The thirty-second token sends the codeword and the gathered bytes out (R117). -/
theorem slRound_flushes {e : SlEnc} (he : slPutToken s.params.slideTie s.inp s.se = e) (hnb : e.nb = 32) :
    slRound s = { s with out := s.out ++ beBytes e.cw ++ e.buf, se := { e with cw := 0, nb := 0, buf := [] } } := by
  simp only [slRound, he, if_pos hnb]

theorem slRound_gathers {e : SlEnc} (he : slPutToken s.params.slideTie s.inp s.se = e) (hnb : e.nb ≠ 32) :
    slRound s = { s with se := e } := by
  simp only [slRound, he, if_neg hnb]

/-- A count of tokens below 63, and one more. -/
theorem tokenCount_succ {n : BitVec 6} (h : n.toNat < 63) : (n + 1).toNat = n.toNat + 1 := by
  have hone : (1 : BitVec 6).toNat = 1 := rfl
  rw [BitVec.toNat_add, hone]
  omega

/-- What a round does with the codeword `w` and the bytes `b` of its token (R117). -/
theorem slRound_spec {w : Word} {b : Bytes} {pos : Nat} {kept : Option (Nat × Nat)}
    (he : slPutToken s.params.slideTie s.inp s.se =
      { s.se with cw := w, nb := s.se.nb + 1, buf := s.se.buf ++ b, pos := pos, deferred := kept }) :
    (slRound s).se.pos = pos ∧ (slRound s).se.deferred = kept ∧
    (s.se.nb.toNat + 1 = 32 →
      (slRound s).out = s.out ++ beBytes w ++ s.se.buf ++ b ∧ (slRound s).se.cw = 0 ∧ (slRound s).se.nb = 0 ∧
        (slRound s).se.buf = []) ∧
    (s.se.nb.toNat + 1 < 32 →
      (slRound s).out = s.out ∧ (slRound s).se.cw = w ∧ (slRound s).se.nb.toNat = s.se.nb.toNat + 1 ∧
        (slRound s).se.buf = s.se.buf ++ b) := by
  by_cases hnb : s.se.nb + 1 = 32
  · rw [slRound_flushes he hnb]
    refine ⟨rfl, rfl, fun _ => ⟨by simp only [List.append_assoc], rfl, rfl, rfl⟩, fun h => ?_⟩
    have hcount := tokenCount_succ (n := s.se.nb) (by omega)
    rw [hnb] at hcount
    exact absurd h (by rw [← hcount]; decide)
  · rw [slRound_gathers he hnb]
    refine ⟨rfl, rfl, fun h => ?_, fun h => ⟨rfl, rfl, tokenCount_succ (by omega), rfl⟩⟩
    refine absurd (BitVec.eq_of_toNat_eq ?_) hnb
    rw [tokenCount_succ (by omega), h]
    rfl

end

/-- The step at the input's end (R117). -/
theorem step_slideEnc_end {s : State} (hr : s.resetPending = false) (he : s.engine = .slideEnc)
    (hp : s.params.slideEncRef = .reference) (ht : s.task = .host) (hend : s.inp.length ≤ s.se.pos) :
    step s = .next (finish (.bytes (slEncoded s)) s) :=
  (step_of_encoderReturns hr (.inr (.inr (.inr (.inl ⟨he, hp, hend, rfl⟩))))).trans (codecReturn_of_host ht)

/-! ## The run of the reference encoder -/

/-- A pair that a round may have kept is a match of at least 3 bytes (R117). -/
def KeptIsMatch (raw : Bytes) (pos : Nat) (kept : Option (Nat × Nat)) : Prop :=
  ∀ m, kept = some m → 3 ≤ m.1 ∧ IsMatch raw pos m.1 m.2

/-- The round of the encoder `e` puts out the token `i`, which stands for the next bytes, and keeps `kept`, a match behind
them (R117). -/
def PutsToken (p : Params) (tie : SlideTie) (raw : Bytes) (e : SlEnc) (i : Instr) (kept : Option (Nat × Nat)) : Prop :=
  slCodes raw e.pos i ∧ KeptIsMatch raw (e.pos + slProduces i) kept ∧
  slPutToken tie raw e = { e with
    cw := (e.cw <<< 1) ||| (if isLiteral i then 1 else 0), nb := e.nb + 1, buf := e.buf ++ encode p i
    pos := e.pos + slProduces i, deferred := kept }

section
variable {p : Params} {tie : SlideTie} {raw : Bytes} {e : SlEnc}

/-- A match of at least 3 bytes, chosen, is put out as a reference. -/
theorem putsToken_of_isMatch {m : Nat × Nat} (hchoose : slChoose tie raw e = (m, none)) (h3 : 3 ≤ m.1)
    (hmatch : IsMatch raw e.pos m.1 m.2) : ∃ i, PutsToken p tie raw e i none := by
  obtain ⟨i, hcodes, hflag, hlen, hbytes⟩ := hmatch.token p h3
  refine ⟨i, hcodes, nofun, ?_⟩
  rw [slPutToken_pair hchoose (by omega), hbytes, hlen, hflag]
  simp

/-- Whatever a round chooses, it puts out a token that stands for the next bytes. -/
theorem exists_putsToken (p : Params) (hpos : e.pos < raw.length) (hkept : KeptIsMatch raw e.pos e.deferred) :
    ∃ i kept, PutsToken p tie raw e i kept := by
  have hliteral : slCodes raw e.pos (.slLit (raw.getD e.pos 0)) := (some_getD_of_lt hpos).symm
  rcases slChoose_cases tie raw e with ⟨m, hd, hchoose⟩ | ⟨-, ⟨-, hchoose⟩ | ⟨h3, hnext, hchoose⟩ | ⟨h3, -, hchoose⟩⟩
  · obtain ⟨h3, hmatch⟩ := hkept m hd
    obtain ⟨i, hput⟩ := putsToken_of_isMatch hchoose h3 hmatch
    exact ⟨i, none, hput⟩
  · exact ⟨_, none, hliteral, nofun, slPutToken_literal hchoose⟩
  · refine ⟨_, _, hliteral, ?_, slPutToken_literal hchoose⟩
    rintro m ⟨⟩
    exact ⟨by omega, longest_isMatch (pos := e.pos + 1) (by omega)⟩
  · obtain ⟨i, hput⟩ := putsToken_of_isMatch hchoose h3 (longest_isMatch (by omega))
    exact ⟨i, none, hput⟩

end

/-- One more group goes to the stream's end: its codeword, then its tokens. -/
theorem slStream_concat (p : Params) (raw : Bytes) (gs : List (List Instr)) (g : List Instr) :
    slStream p raw (gs ++ [g]) = slStream p raw gs ++ beBytes (slGroupCodeword g) ++ g.flatMap (encode p) := by
  simp only [slStream, List.flatMap_append, List.flatMap_singleton, slGroupBytes_eq, List.append_assoc]

/-- The reference encoder between two rounds (R117): `gs` are the groups put out, `g` the tokens gathered since. -/
structure SlEncoderAt (raw : Bytes) (s : State) (gs : List (List Instr)) (g : List Instr) : Prop where
  inp : s.inp = raw
  full : ∀ x ∈ gs, x.length = 32
  gathered : g.length < 32
  out : s.out = slStream s.params raw gs
  nb : s.se.nb.toNat = g.length
  cw : s.se.cw = slGroupFlags g
  buf : s.se.buf = g.flatMap (encode s.params)
  codes : slCodesAll raw 0 (gs.flatten ++ g) s.se.pos
  kept : KeptIsMatch raw s.se.pos s.se.deferred

section
variable {raw : Bytes} {s : State} {gs : List (List Instr)} {g : List Instr}

/-- A round puts one more token to those that stand for the input. -/
theorem SlEncoderAt.round (E : SlEncoderAt raw s gs g) (hpos : s.se.pos < raw.length) :
    ∃ gs' g', SlEncoderAt raw (slRound s) gs' g' ∧ s.se.pos < (slRound s).se.pos := by
  obtain ⟨i, kept, hcodes, hkept, hput⟩ := exists_putsToken s.params (tie := s.params.slideTie) hpos E.kept
  have hinp : (slRound s).inp = raw := by rw [slRound_frame, E.inp]
  have hparams : (slRound s).params = s.params := by rw [slRound_frame]
  rw [← E.inp] at hput
  obtain ⟨hp, hd, hflush, hgather⟩ := slRound_spec hput
  have hcw : (s.se.cw <<< 1) ||| (if isLiteral i then 1 else 0) = slGroupFlags (g ++ [i]) := by
    rw [E.cw, slGroupFlags_concat]
  have hbuf : s.se.buf ++ encode s.params i = (g ++ [i]).flatMap (encode s.params) := by
    rw [E.buf, List.flatMap_append, List.flatMap_singleton]
  have hall : slCodesAll raw 0 (gs.flatten ++ (g ++ [i])) (slRound s).se.pos := by
    rw [hp, ← List.append_assoc, slCodesAll_append]
    exact ⟨_, E.codes, hcodes, rfl⟩
  have hmore : s.se.pos < (slRound s).se.pos := by
    have := (slCodes_produces hcodes).1
    omega
  have hnb := E.nb
  have hlt := E.gathered
  rw [← hd, ← hp] at hkept
  by_cases h32 : s.se.nb.toNat + 1 = 32
  · obtain ⟨hout, hcw0, hnb0, hbuf0⟩ := hflush h32
    refine ⟨gs ++ [g ++ [i]], [], ⟨hinp, fun x hx => ?_, by decide, ?_, by rw [hnb0]; rfl, hcw0, hbuf0, ?_, hkept⟩, hmore⟩
    · rcases List.mem_append.mp hx with hx | hx
      · exact E.full x hx
      · rw [List.mem_singleton.mp hx, List.length_append, List.length_singleton]
        omega
    · have hword : slGroupCodeword (g ++ [i]) = slGroupFlags (g ++ [i]) := by
        rw [slGroupCodeword, List.length_append, List.length_singleton, ← hnb, h32]
        exact BitVec.shiftLeft_zero _
      rw [hout, hparams, E.out, hcw, List.append_assoc, hbuf, slStream_concat, hword]
    · rwa [List.flatten_append, List.flatten_singleton, List.append_nil]
  · obtain ⟨hout, hcw1, hnb1, hbuf1⟩ := hgather (by omega)
    exact ⟨gs, g ++ [i], ⟨hinp, E.full, by rw [List.length_append, List.length_singleton]; omega,
      by rw [hout, hparams, E.out], by rw [hnb1, hnb, List.length_append, List.length_singleton], hcw1.trans hcw,
      by rw [hbuf1, hparams, hbuf], hall, hkept⟩, hmore⟩

/-- From any of its rounds the encoder comes to the end of its input (R117). -/
theorem SlEncoderAt.ends (E : SlEncoderAt raw s gs g) (hr : s.resetPending = false) (he : s.engine = .slideEnc)
    (hp : s.params.slideEncRef = .reference) :
    ∃ t gs' g', reaches s t ∧ SlEncoderAt raw t gs' g' ∧ raw.length ≤ t.se.pos ∧ t = { s with out := t.out, se := t.se } := by
  induction hleft : raw.length - s.se.pos using Nat.strong_induction_on generalizing s gs g with
  | _ left ih =>
    rcases Nat.lt_or_ge s.se.pos raw.length with hpos | hpos
    · obtain ⟨gs1, g1, E1, hmore⟩ := E.round hpos
      have hstep := step_slideEnc hr he hp (by rw [E.inp]; exact hpos)
      have hframe := slRound_frame s
      generalize slRound s = u at E1 hmore hstep hframe
      obtain ⟨t, gs', g', hreach, E', hend, ht⟩ := ih (raw.length - u.se.pos) (by omega) E1 (by rw [hframe]; exact hr)
        (by rw [hframe]; exact he) (by rw [hframe]; exact hp) rfl
      exact ⟨t, gs', g', reaches_step hstep hreach, E', hend, by rw [ht, hframe]⟩
    · exact ⟨s, gs, g, reaches_refl s, E, hpos, rfl⟩

/-- What the encoder returns at its input's end is groups of tokens that stand for all of it (R115, R117). -/
theorem SlEncoderAt.encoded (E : SlEncoderAt raw s gs g) (hend : raw.length ≤ s.se.pos) :
    ∃ gs', slEncoded s = slStream s.params raw gs' ∧ groupsFull 32 gs' ∧ slCodesAll raw 0 gs'.flatten raw.length := by
  have hcodes := E.codes
  rw [le_antisymm (slCodesAll_le (Nat.zero_le _) hcodes) hend] at hcodes
  have hzero : s.se.nb = 0 ↔ g = [] := by
    rw [← BitVec.toNat_inj, E.nb]
    exact List.length_eq_zero_iff
  have hfull := E.full
  have hlt := E.gathered
  by_cases hg : g = []
  · refine ⟨gs, ?_, ⟨fun x hx => ?_, fun x hx => hfull x (List.dropLast_subset _ hx)⟩, by simpa [hg] using hcodes⟩
    · rw [slEncoded, if_pos (hzero.mpr hg), E.out]
    · have := hfull x hx
      omega
  · have hpos : 0 < g.length := List.length_pos_iff.mpr hg
    refine ⟨gs ++ [g], ?_, ⟨fun x hx => ?_, fun x hx => ?_⟩, by simpa using hcodes⟩
    · rw [slEncoded, if_neg (mt hzero.mp hg), E.out, E.buf, E.cw, E.nb, slStream_concat, slGroupCodeword]
    · rcases List.mem_append.mp hx with hx | hx
      · have := hfull x hx
        omega
      · rw [List.mem_singleton.mp hx]
        omega
    · rw [List.dropLast_concat] at hx
      exact hfull x hx

end

/-- The reference encoder, started on an input, ends with a member of `EncSlide(raw)` (R114, R115, R117). -/
theorem slideEnc_reference {s : State} {raw : Bytes} (hr : s.resetPending = false)
    (hp : s.params.slideEncRef = .reference) (hlen : raw.length < 2 ^ 32) :
    ∃ b : Bytes, (∃ u k t, exec .slideEnc (withOperands s raw (BitVec.ofNat 32 raw.length)) = .next u ∧
      Host.Core.run Sys2Proof.core k u = .next t ∧ endedWith s t s.store 0 (.ok (.bytes b))) ∧ encSlide s.params raw b := by
  set u := startSlideEnc raw { withOperands s raw (BitVec.ofNat 32 raw.length) with task := .host }
  have E : SlEncoderAt raw u [] [] :=
    ⟨rfl, nofun, by decide, (List.append_nil _).symm, rfl, rfl, rfl, rfl, nofun⟩
  obtain ⟨t, gs, g, hreach, E', hend, ht⟩ := E.ends hr rfl hp
  obtain ⟨gs', hb, hgs, hcodes⟩ := E'.encoded hend
  have hpar : t.params = s.params := by rw [ht]; rfl
  have hstep : step t = .next (finish (.bytes (slEncoded t)) t) :=
    step_slideEnc_end (by rw [ht]; exact hr) (by rw [ht]; rfl) (by rw [hpar]; exact hp) (by rw [ht]; rfl)
      (by rw [E'.inp]; exact hend)
  obtain ⟨k, hk⟩ := reaches_trans hreach (reaches_step hstep (reaches_refl _))
  refine ⟨slEncoded t, ⟨u, k, _, exec_slideEnc_withOperands s hlen, hk, ?_⟩, ?_⟩
  · generalize slEncoded t = b
    rw [ht]
    rfl
  · rw [hb, hpar]
    exact encSlide_of_codes s.params hlen hgs hcodes

/-- Another encoder function answers at once (R13, R114). -/
theorem slideEnc_other {s : State} {raw : Bytes} (hr : s.resetPending = false) (hp : s.params.slideEncRef = .other)
    (hlen : raw.length < 2 ^ 32) :
    ∃ (u : State) (k : Nat) (t : State) (b : Bytes),
      exec .slideEnc (withOperands s raw (BitVec.ofNat 32 raw.length)) = .next u ∧
      Host.Core.run Sys2Proof.core k u = .next t ∧ endedWith s t s.store 0 (.ok (.bytes b)) ∧
      (EncodersAdmissible s.params → encSlide s.params raw b) := by
  set u := startSlideEnc raw { withOperands s raw (BitVec.ofNat 32 raw.length) with task := .host }
  have hstep : step u = .next (finish (.bytes (Config.slideEncOther raw)) u) :=
    (step_of_encoderReturns (s := u) hr (.inr (.inr (.inr (.inr ⟨rfl, hp, rfl⟩))))).trans (codecReturn_of_host rfl)
  obtain ⟨k, hk⟩ := reaches_step hstep (reaches_refl _)
  exact ⟨u, k, _, _, exec_slideEnc_withOperands s hlen, hk, rfl, fun h => (h raw hlen).2⟩

/-- Settles O33. -/
theorem slideDecodesWhatItEncodes : Obligations.SlideDecodesWhatItEncodes := by
  refine ⟨?reference, ?other, ?member, ?round, ?last⟩
  case reference =>
    intro s raw hr hp hlen
    obtain ⟨b, hrun, hmember⟩ := slideEnc_reference hr hp hlen
    exact ⟨b, hrun, hmember, fun more hmore => slideDec_of_encSlide hr hmember hmore⟩
  case other => exact fun s raw hr hp hlen => slideEnc_other hr hp hlen
  case member => exact fun s raw c more hr hc hlen => slideDec_of_encSlide hr hc hlen
  case round =>
    intro s hr he hp hpos L P kept hc
    obtain ⟨place, hchoose, hplace⟩ := slChoose_of_slChosen hc
    have hstep := step_slideEnc hr he hp hpos
    have hdist (hlt : P < s.se.pos) (hwindow : s.se.pos ≤ P + 4096) :
        (BitVec.ofNat 12 (s.se.pos - P - 1)).toNat = s.se.pos - P - 1 := by
      rw [BitVec.toNat_ofNat]
      omega
    by_cases hL : L = 1
    · subst hL
      obtain ⟨hpos', hkept, hflush, hgather⟩ := slRound_spec (slPutToken_literal hchoose)
      refine ⟨slRound s, _, _, hstep, hpos', hkept, fun _ => ⟨rfl, _, (some_getD_of_lt hpos).symm, rfl⟩,
        fun h => absurd rfl h, fun hlt hwindow => ?_, hflush, hgather, slRound_frame s⟩
      exact ⟨_, hdist hlt hwindow, fun h => absurd h (by decide), fun h => absurd h (by decide)⟩
    · obtain ⟨hpos', hkept, hflush, hgather⟩ := slRound_spec (slPutToken_pair hchoose hL)
      refine ⟨slRound s, _, _, hstep, hpos', hkept, fun h => absurd h hL, fun _ => rfl, fun hlt hwindow => ?_, hflush,
        hgather, slRound_frame s⟩
      rw [hplace hL]
      exact ⟨_, hdist hlt hwindow, fun h3 h18 => slRefBytes_short s.params (by omega) h3 h18,
        fun h18 h273 => slRefBytes_long s.params (by omega) h18 h273⟩
  case last => exact fun s hr he hp ht hend _ => ⟨_, step_slideEnc_end hr he hp ht hend, rfl⟩

end Sys2Proof.Machine
end

section
/-! The LZSS decoder's instructions (40_lzss.md R95 to R97), and the tokens that would pass `n`. -/

open Sys2Proof.Claims

namespace Sys2Proof

/-! ## The default layout of the pair (R70) -/

/-- No rearrangement. -/
theorem PairLayout.arrange_default (w : BitVec 16) : PairLayout.default.arrange w = w := by
  apply BitVec.eq_of_getLsbD_eq
  intro j hj
  have hperm : ∀ j, (h : j < 16) → PairLayout.default.perm[j]'h = j := by decide
  rw [PairLayout.getLsbD_arrange PairLayout.default w j hj hj, hperm]

/-- `off` at the default `LZSS_PAIR`. -/
theorem pairOffset_default (b1 b2 : Byte) :
    (pairOffset PairLayout.default b1 b2).toNat = b1.toNat ||| ((b2.toNat &&& 0xC0) <<< 2) := by
  have hmask : b2.toNat &&& 0xC0 ≤ 0xC0 := Nat.and_le_right
  have h1 := b1.isLt
  have h2 := b2.isLt
  have h10 (b : Byte) : (b.setWidth 10).toNat = b.toNat := by
    rw [BitVec.toNat_setWidth, Nat.mod_eq_of_lt (by omega)]
  have hC0 : (0xC0 : BitVec 10).toNat = 0xC0 := rfl
  rw [pairOffset, PairLayout.arrange_default, BitVec.extractLsb'_append_eq_left, BitVec.extractLsb'_append_eq_right]
  rw [BitVec.toNat_or, BitVec.toNat_shiftLeft, BitVec.toNat_and, h10, h10, hC0, Nat.mod_eq_of_lt]
  rw [Nat.shiftLeft_eq]
  omega

/-- `lraw` at the default `LZSS_PAIR`. -/
theorem pairLength_default (b1 b2 : Byte) :
    (pairLength PairLayout.default b1 b2).toNat = b2.toNat &&& 0x3F := by
  have hmask : b2.toNat &&& 0x3F ≤ 0x3F := Nat.and_le_right
  have h3F : (0x3F : Byte).toNat = 0x3F := rfl
  rw [pairLength, PairLayout.arrange_default, BitVec.extractLsb'_append_eq_right]
  rw [BitVec.toNat_setWidth, BitVec.toNat_and, h3F, Nat.mod_eq_of_lt (by omega)]

end Sys2Proof

namespace Sys2Proof.Machine

/-! ## The length registers -/

/-- `L` of an `LZ.REF`, as its register holds it. -/
theorem lzLen_toNat (lraw : BitVec 6) : (lraw.setWidth 7 + 3 : BitVec 7).toNat = lraw.toNat + 3 := by
  have hthree : (3 : BitVec 7).toNat = 3 := rfl
  rw [BitVec.toNat_add, BitVec.toNat_setWidth, hthree]
  omega

/-- `L` of an `SL.REF2`, as its register holds it. -/
theorem slRef2Len_toNat (n : BitVec 4) : (n.setWidth 9 + 2 : BitVec 9).toNat = n.toNat + 2 := by
  have htwo : (2 : BitVec 9).toNat = 2 := rfl
  rw [BitVec.toNat_add, BitVec.toNat_setWidth, htwo]
  omega

/-- `L` of an `SL.REF3`, as its register holds it. -/
theorem slRef3Len_toNat (e : Byte) : (e.setWidth 9 + 18 : BitVec 9).toNat = e.toNat + 18 := by
  have h18 : (18 : BitVec 9).toNat = 18 := rfl
  rw [BitVec.toNat_add, BitVec.toNat_setWidth, h18]
  omega

/-! ## Tokens that would pass `n` -/

section
variable {s : State}

/-- Everything `LZ.REF` can do: fault before any byte, or copy (R97). -/
theorem execLzRef_cases (off : BitVec 10) (lraw : BitVec 6) (s : State) :
    (s.n.toNat < s.op + (lraw.toNat + 3) ∧ exec (.lzRef off lraw) s = .next (raise .corruptDataError s)) ∨
    (s.op + (lraw.toNat + 3) ≤ s.n.toNat ∧
      exec (.lzRef off lraw) s = .next (lzCopy (lraw.toNat + 3) (lzRefOperands off lraw s))) := by
  have hlen : (lzRefOperands off lraw s).lz.len.toNat = lraw.toNat + 3 := lzLen_toNat lraw
  simp only [exec, execLzRef, hlen]
  by_cases h : s.n.toNat < s.op + (lraw.toNat + 3)
  · exact .inl ⟨h, if_pos ((overruns_iff _ _).mpr h)⟩
  · exact .inr ⟨not_lt.mp h, if_neg fun e => h ((overruns_iff _ _).mp e)⟩

/-- A Slide reference without room faults; `u` is `s` with the reference's operands in the registers (R112). -/
theorem slideCopy_of_overrun {u : State} {len : Nat} (hu : dropScratch u = dropScratch s) (hlen : u.sl.len.toNat = len)
    (h : u.n.toNat < u.op + len) : slideCopy u = .next (raise .corruptDataError s) := by
  subst hlen
  rcases slideCopy_cases u with ⟨-, e⟩ | ⟨hroom, -⟩
  · rw [e, raise, hu, raise]
  · omega

end

/-- Settles O12: each token checks its room before its loop. -/
theorem tokensNeedRoom : Obligations.TokensNeedRoom := by
  intro s
  refine ⟨fun off lraw h => ?lzRef, fun n d h => ?slRef2, fun d e h => ?slRef3, fun k h => ?rlCopy,
    fun k v h => ?rlFill, fun c h => ⟨if_neg (not_lt.mpr h), if_neg (not_lt.mpr h)⟩⟩
  case lzRef =>
    rcases execLzRef_cases off lraw s with ⟨-, e⟩ | ⟨hroom, -⟩
    · exact e
    · omega
  case slRef2 => exact slideCopy_of_overrun (u := slRef2Operands n d s) rfl (slRef2Len_toNat n) h
  case slRef3 => exact slideCopy_of_overrun (u := slRef3Operands d e s) rfl (slRef3Len_toNat e) h
  case rlCopy => exact if_pos ((overruns_iff _ _).mpr h)
  case rlFill => exact if_pos ((overruns_iff _ _).mpr h)

/-! ## `LZ.FLAG` -/

section
variable {s : State} {b : Byte}

/-- The input from a byte that is there. -/
theorem inputAtCursor_eq_cons (h : s.inp[s.ip]? = some b) : ∃ rest, inputAtCursor s = b :: rest := by
  obtain ⟨hlt, rfl⟩ := List.getElem?_eq_some_iff.mp h
  exact ⟨_, List.drop_eq_getElem_cons hlt⟩

end

/-- Settles O13. -/
theorem lzFlagFetchesAFlagByte : Obligations.LzFlagFetchesAFlagByte := by
  refine fun s => ⟨fun _ => rfl, fun hr he ho hf => ⟨fun hend => ?_, fun b hb => ?_⟩⟩
  · obtain ⟨hfault, -⟩ := stepFaultsWhereTheInputEnds s hr
    exact hfault he ho hf hend
  · obtain ⟨rest, hin⟩ := inputAtCursor_eq_cons hb
    exact step_of_decoded hr (fetch_lzFlag he ho hf) (by rw [hin]; rfl)

/-! ## `LZ.LIT` -/

section
variable {s : State} {a : Nat}

/-- A byte of the ring (R48). -/
theorem readByte_ring : s.readByte .ring a = if a < 1024 then some (Mem.read s.lz.ring a) else none := rfl

/-- A state with the same byte in its ring. -/
theorem readByte_ring_congr {t : State} (h : Mem.read t.lz.ring a = Mem.read s.lz.ring a) :
    t.readByte .ring a = s.readByte .ring a := by
  rw [readByte_ring, readByte_ring, h]

theorem readByte_ring_of_lt (h : a < 1024) : s.readByte .ring a = some (Mem.read s.lz.ring a) := if_pos h

/-- The ring's cursor moves on by one and wraps (R25). -/
theorem lzCursor_succ (r : BitVec 10) : (r + 1).toNat = (r.toNat + 1) % 1024 := BitVec.toNat_add ..

end

/-- Settles O15. -/
theorem lzLitGoesToOutputAndRing : Obligations.LzLitGoesToOutputAndRing := by
  refine fun s ho => ⟨fun c => ?effect, fun hr he hf hflag => ⟨fun hend => ?missing, fun c hc => ?fetched⟩⟩
  case effect =>
    exact ⟨_, if_pos ho, rfl, rfl, lzCursor_succ _,
      fun hw => (readByte_ring_of_lt s.lz.r.isLt).trans (congrArg some (Mem.read_write_self _ _ _ hw)),
      fun a ha => readByte_ring_congr (Mem.read_write_ne _ _ ha), rfl⟩
  case missing =>
    obtain ⟨-, hfault, -⟩ := stepFaultsWhereTheInputEnds s hr
    exact hfault he ho hf hend
  case fetched =>
    obtain ⟨rest, hin⟩ := inputAtCursor_eq_cons hc
    have hflag' : lzFlag s = true := hflag
    exact step_of_decoded hr (fetch_lzToken he ho hf) (by rw [hflag', hin]; rfl)

/-! ## `LZ.REF` -/

/-- Where the rounds of a copy of the bytes `bs` have brought `s`: the bytes stand in the output, and in the ring from
the cursor on (R97). -/
structure LzCopied (s t : State) (bs : Bytes) : Prop where
  out : t.out = s.out ++ bs
  wf : Memory.wf t.lz.ring = true
  off : t.lz.off = s.lz.off
  k : t.lz.k.toNat = s.lz.k.toNat + bs.length
  r : t.lz.r.toNat = (s.lz.r.toNat + bs.length) % 1024
  written : ∀ j, j < bs.length → t.readByte .ring ((s.lz.r.toNat + j) % 1024) = bs[j]?
  kept : ∀ a, (∀ j, j < bs.length → a ≠ (s.lz.r.toNat + j) % 1024) → t.readByte .ring a = s.readByte .ring a

/-- Byte `k` of a copy is the ring's byte `k` places from the offset on, or the byte that this copy has written there
before (R97). -/
def lzCopyReads (s : State) (bs : Bytes) (k : Nat) : Prop :=
  ((∀ j, j < k → (s.lz.r.toNat + j) % 1024 ≠ (s.lz.off.toNat + s.lz.k.toNat + k) % 1024) →
    bs[k]? = s.readByte .ring ((s.lz.off.toNat + s.lz.k.toNat + k) % 1024)) ∧
  ∀ j, j < k → (s.lz.r.toNat + j) % 1024 = (s.lz.off.toNat + s.lz.k.toNat + k) % 1024 → bs[k]? = bs[j]?

section
variable {s t : State} {bs : Bytes}

/-- The rounds of the copy loop, the last one apart. -/
theorem lzCopy_concat (m : Nat) (s : State) : lzCopy (m + 1) s = lzCopyByte (lzCopy m s) := by
  induction m generalizing s with
  | zero => rfl
  | succ m ih => rw [lzCopy_succ, ih, ← lzCopy_succ]

/-- The byte a round reads is of the ring. -/
theorem readByte_ring_mod (a : Nat) : s.readByte .ring (a % 1024) = some (ringAt s a) :=
  readByte_ring_of_lt (Nat.mod_lt _ (by decide))

/-- One round more. -/
theorem LzCopied.byte (C : LzCopied s t bs) (hk : s.lz.k.toNat + bs.length < 127) :
    LzCopied s (lzCopyByte t) (bs ++ [ringAt t (t.lz.off.toNat + t.lz.k.toNat)]) := by
  set c := ringAt t (t.lz.off.toNat + t.lz.k.toNat)
  have hr := C.r
  have hring : (lzCopyByte t).lz.ring = Mem.write t.lz.ring t.lz.r.toNat c := rfl
  have hother {a : Nat} (ha : a ≠ (s.lz.r.toNat + bs.length) % 1024) :
      (lzCopyByte t).readByte .ring a = t.readByte .ring a :=
    readByte_ring_congr (Mem.read_write_ne _ _ (hr ▸ ha))
  have hone : (1 : BitVec 7).toNat = 1 := rfl
  have hlength : (bs ++ [c]).length = bs.length + 1 := List.length_append
  refine ⟨?out, Mem.write_wf _ _ _ C.wf, C.off, ?k, ?r, fun j hj => ?written, fun a ha => ?kept⟩
  case out => rw [← List.append_assoc, ← C.out]; rfl
  case k =>
    change (t.lz.k + 1).toNat = _
    rw [BitVec.toNat_add, C.k, hone, hlength]
    omega
  case r =>
    change (t.lz.r + 1).toNat = _
    rw [lzCursor_succ, hr, hlength]
    omega
  case written =>
    rw [hlength] at hj
    rcases Nat.lt_succ_iff_lt_or_eq.mp hj with hj | rfl
    · rw [List.getElem?_append_left hj, ← C.written j hj, hother (by omega)]
    · rw [List.getElem?_concat_length, ← hr, readByte_ring_of_lt t.lz.r.isLt, hring, Mem.read_write_self _ _ _ C.wf]
  case kept =>
    rw [hlength] at ha
    rw [hother (ha _ (Nat.lt_succ_self _)), C.kept a fun j hj => ha j (by omega)]

/-- The byte of the next round is the ring's old byte, or one of those copied before. -/
theorem LzCopied.reads_next (C : LzCopied s t bs) :
    lzCopyReads s (bs ++ [ringAt t (t.lz.off.toNat + t.lz.k.toNat)]) bs.length := by
  have hnext : (bs ++ [ringAt t (t.lz.off.toNat + t.lz.k.toNat)])[bs.length]? =
      t.readByte .ring ((s.lz.off.toNat + s.lz.k.toNat + bs.length) % 1024) := by
    rw [List.getElem?_concat_length, readByte_ring_mod, C.off, C.k, Nat.add_assoc]
  rw [lzCopyReads, hnext]
  refine ⟨fun hnew => C.kept _ fun j hj => (hnew j hj).symm, fun j hj hold => ?_⟩
  rw [← hold, C.written j hj, List.getElem?_append_left hj]

/-- Bytes copied later make no difference to what a byte was read from. -/
theorem lzCopyReads.concat {k : Nat} {c : Byte} (h : lzCopyReads s bs k) (hk : k < bs.length) :
    lzCopyReads s (bs ++ [c]) k := by
  obtain ⟨hnew, hold⟩ := h
  rw [lzCopyReads, List.getElem?_append_left hk]
  refine ⟨hnew, fun j hj e => ?_⟩
  rw [List.getElem?_append_left (hj.trans hk)]
  exact hold j hj e

/-- The copy loop, as long as its counter does not wrap (R97). -/
theorem lzCopy_copied (m : Nat) (hw : Memory.wf s.lz.ring = true) (hm : s.lz.k.toNat + m < 128) :
    ∃ bs : Bytes, bs.length = m ∧ LzCopied s (lzCopy m s) bs ∧ ∀ k, k < m → lzCopyReads s bs k := by
  induction m with
  | zero =>
    refine ⟨[], rfl, ⟨(List.append_nil _).symm, hw, rfl, rfl, ?_, nofun, fun _ _ => rfl⟩, nofun⟩
    exact (Nat.mod_eq_of_lt s.lz.r.isLt).symm
  | succ m ih =>
    obtain ⟨bs, rfl, C, hreads⟩ := ih (by omega)
    rw [lzCopy_concat]
    refine ⟨_, List.length_append, C.byte (by omega), fun k hk => ?_⟩
    rcases Nat.lt_succ_iff_lt_or_eq.mp hk with hk | rfl
    · exact (hreads k hk).concat hk
    · exact C.reads_next

end

/-- Settles O16. -/
theorem lzRefCopiesFromTheRing : Obligations.LzRefCopiesFromTheRing := by
  refine ⟨fun s hr he ho hf hflag => ⟨fun hend => ?missing, fun b1 b2 rest hin hpair => ?fetched⟩,
    fun s off lraw => ⟨fun hover => ?overrun, fun hroom hw => ?copied⟩⟩
  case missing =>
    obtain ⟨-, -, hfault, -⟩ := stepFaultsWhereTheInputEnds s hr
    exact hfault he ho hf hflag hend
  case fetched =>
    have hflag' : lzFlag s = false := hflag
    have hin' : inputAtCursor s = b1 :: b2 :: rest := hin
    have hdec : decode s.params (.lzToken (lzFlag s)) (inputAtCursor s) =
        .instr (.lzRef (pairOffset PairLayout.default b1 b2) (pairLength PairLayout.default b1 b2)) := by
      rw [hflag', hin', ← hpair]
      rfl
    exact ⟨_, _, step_of_decoded hr (fetch_lzToken he ho hf) hdec, pairOffset_default b1 b2, pairLength_default b1 b2⟩
  case overrun =>
    obtain ⟨hlzRef, -⟩ := tokensNeedRoom s
    exact hlzRef off lraw hover
  case copied =>
    rcases execLzRef_cases off lraw s with ⟨hover, -⟩ | ⟨-, hexec⟩
    · omega
    obtain ⟨bs, hlen, C, hreads⟩ := lzCopy_copied (s := lzRefOperands off lraw s) (lraw.toNat + 3) hw
      (by change 0 + _ < _; have := lraw.isLt; omega)
    have hframe := lzCopy_frame (lraw.toNat + 3) (lzRefOperands off lraw s)
    have hr := C.r
    rw [hlen] at hr
    generalize lzCopy (lraw.toNat + 3) (lzRefOperands off lraw s) = t at hexec C hframe hr
    refine ⟨t, bs, hexec, hlen, C.out, by rw [hframe]; rfl, hr, fun k hlt => (hreads k hlt).1,
      fun k j hlt => (hreads k hlt).2 j, ?_, ?_, ?_⟩
    · rw [← hlen]
      exact C.written
    · rw [← hlen]
      exact C.kept
    · rw [lzTokenFrame, hframe]
      rfl

end Sys2Proof.Machine
end

section
/-! The decoders' loops: every step that stays in one is the same in another machine and with bytes after the input, and
the loop comes to its end (40_lzss.md R98, R99; 41_slide.md R113; 42_rle.md R122; 44_common.md R173). -/

open Sys2Proof.Claims

namespace Sys2Proof

/-- What is fetched in a decoder's loop: a flag byte, a codeword or a token. -/
def Ctx.inLoop : Ctx → Bool
  | .lzFlag | .lzToken _ | .slCodeword | .slToken _ | .rlToken => true
  | .command | .slHeader | .arcIndex | .arcEntry => false

section
variable {p : Params} {c : Ctx}

/-- Nothing fetched in a decoder's loop is without bytes. -/
theorem decode_inLoop_nil (hc : c.inLoop = true) : decode p c [] = .truncated := by
  cases c
  case lzToken flag => exact decode_lzToken_nil flag
  case slToken flag => exact decode_slToken_nil flag
  case lzFlag | slCodeword | rlToken => rfl
  all_goals cases hc

/-- Only the command port knows codes without a meaning (R92). -/
theorem decode_inLoop_ne_unknown {bs : Bytes} {code : Byte} (hc : c.inLoop = true) :
    decode p c bs ≠ .unknownCommand code := by
  fun_cases decode p c bs
  case case2 => fun_cases decodeLzFlag bs <;> nofun
  case case3 => fun_cases decodeLzLit bs <;> nofun
  case case4 => fun_cases decodeLzRef p.pair bs <;> nofun
  case case6 => fun_cases decodeSlCw bs <;> nofun
  case case7 => fun_cases decodeSlLit bs <;> nofun
  case case8 => fun_cases decodeSlRef bs <;> nofun
  case case9 => fun_cases decodeRl bs <;> nofun
  all_goals cases hc

end

end Sys2Proof

namespace Sys2Proof.Machine

/-! ## A step in a decoder's loop -/

section
variable {s t : State}

/-- What a decoder's loop fetches with output still wanted, and the state the instruction runs in, which has the same
room (R94, R106, R119). -/
theorem fetch_inLoop (he : s.engine = .lzssDec ∨ s.engine = .slideDec ∨ s.engine = .rleDec) (ho : s.op < s.n.toNat) :
    ∃ (c : Ctx) (u : State), c.inLoop = true ∧ u.op < u.n.toNat ∧
      fetch s = runDecoded (decode s.params c (inputAtCursor s)) u := by
  rcases he with he | he | he
  · by_cases hf : s.lz.flags = 1
    · exact ⟨_, s, rfl, ho, fetch_lzFlag he ho hf⟩
    · exact ⟨_, lzTake s, rfl, ho, fetch_lzToken he ho hf⟩
  · by_cases hf : s.sl.nb = 0
    · exact ⟨_, s, rfl, ho, fetch_slCodeword he ho hf⟩
    · exact ⟨_, slTake s, rfl, ho, fetch_slToken he ho hf⟩
  · exact ⟨_, s, rfl, ho, fetch_rlToken he ho⟩

/-- A step stays in a decoder's loop only while output is still wanted. -/
theorem output_wanted_of_stays (hr : s.resetPending = false)
    (he : s.engine = .lzssDec ∨ s.engine = .slideDec ∨ s.engine = .rleDec) (hstep : step s = .next t)
    (hstay : t.engine = s.engine) : s.op < s.n.toNat := by
  by_contra ho
  rw [step_of_fetch_auto hr (fetch_decoderEnd ho he)] at hstep
  rcases codecReturn_engine hstep with h | h <;> simp [← hstay, h] at he

end

/-! ## A decoder in another machine -/

/-- The LZSS decoder of `s` running in `v`, with the bytes `more` after its input. -/
def lzRunningIn (v : State) (more : Bytes) (s : State) : State :=
  { v with engine := s.engine, inp := s.inp ++ more, out := s.out, n := s.n, ip := s.ip, lz := s.lz }

/-- The RLE decoder of `s` running in `v`, with the bytes `more` after its input. -/
def rlRunningIn (v : State) (more : Bytes) (s : State) : State :=
  { v with engine := s.engine, inp := s.inp ++ more, out := s.out, n := s.n, ip := s.ip, rl := s.rl }

section
variable {v s t : State} {more : Bytes}

theorem lzCopy_lzRunningIn (m : Nat) (s : State) :
    lzCopy m (lzRunningIn v more s) = lzRunningIn v more (lzCopy m s) := by
  induction m generalizing s with
  | zero => rfl
  | succ m ih => exact ih (lzCopyByte s)

/-- A flag byte or token of the LZSS decoder, without a fault, is the same in another machine. -/
theorem exec_lzRunningIn {i : Instr} (hi : i.ctx = .lzFlag ∨ ∃ flag, i.ctx = .lzToken flag) (hp : s.params = v.params)
    (h : exec i s = .next t) (ht : t.engine ≠ .idle) :
    exec i (lzRunningIn v more s) = .next (lzRunningIn v more t) := by
  cases i
  case lzFlag f =>
    cases h
    rfl
  case lzLit c =>
    simp only [exec, execLzLit] at h
    split at h <;> cases h
    exact if_pos (by assumption)
  case lzRef off lraw =>
    have hops : lzRefOperands off lraw (lzRunningIn v more s) = lzRunningIn v more (lzRefOperands off lraw s) := by
      simp only [lzRefOperands, lzRunningIn, hp]
    rcases execLzRef_cases off lraw s with ⟨-, e⟩ | ⟨hroom, e⟩ <;> rw [e] at h <;> cases h
    · exact absurd rfl ht
    rcases execLzRef_cases off lraw (lzRunningIn v more s) with ⟨hover, -⟩ | ⟨-, e'⟩
    · exact absurd (lt_of_lt_of_le hover hroom) (lt_irrefl _)
    · rw [e', hops, lzCopy_lzRunningIn]
  all_goals simp [Instr.ctx] at hi

theorem rlFillLoop_rlRunningIn (m : Nat) (s : State) :
    rlFillLoop m (rlRunningIn v more s) = rlRunningIn v more (rlFillLoop m s) := by
  induction m generalizing s with
  | zero => rfl
  | succ m ih => exact ih (emit s.rl.v { s with rl := { s.rl with j := s.rl.j + 1 } })

/-- Literals that are there are the same with bytes after them. -/
theorem rlCopyLoop_rlRunningIn (m : Nat) {s : State} (h : (rlCopyLoop m s).engine ≠ .idle) :
    rlCopyLoop m (rlRunningIn v more s) = rlRunningIn v more (rlCopyLoop m s) := by
  induction m generalizing s with
  | zero => rfl
  | succ m ih =>
    rw [rlCopyLoop] at h
    cases hb : inputByte s with
    | none =>
      rw [hb] at h
      exact absurd rfl h
    | some b =>
      rw [hb] at h
      have hb' : inputByte (rlRunningIn v more s) = some b := by
        obtain ⟨hlt, hget⟩ := List.getElem?_eq_some_iff.mp hb
        change (s.inp ++ more)[s.ip]? = some b
        rw [List.getElem?_append_left hlt, List.getElem?_eq_getElem hlt, hget]
      simp only [rlCopyLoop, hb, hb']
      exact ih h

/-- An RLE token without a fault is the same in another machine. -/
theorem exec_rlRunningIn {i : Instr} (hi : i.ctx = .rlToken) (h : exec i s = .next t) (ht : t.engine ≠ .idle) :
    exec i (rlRunningIn v more s) = .next (rlRunningIn v more t) := by
  cases i
  case rlCopy k =>
    simp only [exec, execRlCopy] at h
    split at h <;> cases h
    · exact absurd rfl ht
    · exact (if_neg (by assumption)).trans (congrArg _ (rlCopyLoop_rlRunningIn _ ht))
  case rlFill k b =>
    simp only [exec, execRlFill] at h
    split at h <;> cases h
    · exact absurd rfl ht
    · exact (if_neg (by assumption)).trans (congrArg _ (rlFillLoop_rlRunningIn _
        { s with ip := s.ip + 2, rl := { s.rl with c := (0 : BitVec 1) ++ k, k := k, v := b, j := 0 } }))
  all_goals cases hi

/-- A step in a decoder's loop that does not end the command is the same where `g` has put the decoder, if its
instruction is. -/
theorem step_moved_of_fetch {g : State → State} {c : Ctx} {u : State} (hc : c.inLoop = true)
    (hr : s.resetPending = false) (hgr : (g s).resetPending = false) (hgp : (g s).params = s.params)
    (hcursor : s.ip ≤ s.inp.length → inputAtCursor (g s) = inputAtCursor s ++ more)
    (hf : fetch s = runDecoded (decode s.params c (inputAtCursor s)) u)
    (hgf : fetch (g s) = runDecoded (decode (g s).params c (inputAtCursor (g s))) (g u))
    (hexec : ∀ i, i.ctx = c → exec i u = .next t → exec i (g u) = .next (g t))
    (hstep : step s = .next t) (ht : t.engine ≠ .idle) : step (g s) = .next (g t) := by
  rcases step_runDecoded_next hr hf hstep with rfl | ⟨i, hd, hx⟩
  · exact absurd rfl ht
  have hin : s.ip ≤ s.inp.length := by
    by_contra h
    rw [inputAtCursor, List.drop_eq_nil_of_le (by omega), decode_inLoop_nil hc] at hd
    cases hd
  have hne : c ≠ .slHeader := by
    rintro rfl
    cases hc
  rw [step_of_decoded hgr hgf (by rw [hcursor hin, hgp]; exact decode_append more hne hd)]
  exact hexec i (encodeWritesWhatDecodeRead _ _ _ _ hd).1 hx

/-- A step that stays in the LZSS decoder's loop is the same in another machine. -/
theorem step_lzRunningIn (hr : s.resetPending = false) (hv : v.resetPending = false) (hp : s.params = v.params)
    (he : s.engine = .lzssDec) (ho : s.op < s.n.toNat) (hstep : step s = .next t) (ht : t.engine ≠ .idle) :
    step (lzRunningIn v more s) = .next (lzRunningIn v more t) := by
  by_cases hf : s.lz.flags = 1
  · exact step_moved_of_fetch rfl hr hv hp.symm List.drop_append_of_le_length (fetch_lzFlag he ho hf)
      (fetch_lzFlag (s := lzRunningIn v more s) he ho hf)
      (fun i hi hx => exec_lzRunningIn (.inl hi) hp hx ht) hstep ht
  · exact step_moved_of_fetch rfl hr hv hp.symm List.drop_append_of_le_length (fetch_lzToken he ho hf)
      (fetch_lzToken (s := lzRunningIn v more s) he ho hf)
      (fun i hi hx => exec_lzRunningIn (s := lzTake s) (.inr ⟨_, hi⟩) hp hx ht) hstep ht

/-- A step that stays in the RLE decoder's loop is the same in another machine. -/
theorem step_rlRunningIn (hr : s.resetPending = false) (hv : v.resetPending = false) (hp : s.params = v.params)
    (he : s.engine = .rleDec) (ho : s.op < s.n.toNat) (hstep : step s = .next t) (ht : t.engine ≠ .idle) :
    step (rlRunningIn v more s) = .next (rlRunningIn v more t) :=
  step_moved_of_fetch rfl hr hv hp.symm List.drop_append_of_le_length (fetch_rlToken he ho)
    (fetch_rlToken (s := rlRunningIn v more s) he ho) (fun _ hi hx => exec_rlRunningIn hi hx ht) hstep ht

/-- A decoder put back into its own machine with bytes after its input: where no step can tell the two machines apart,
the bytes after the input have no effect. -/
theorem step_append_of_moved {g : Bytes → State → State} (hs : ∀ more, g more s = { s with inp := s.inp ++ more })
    (ht : ∀ more, g more t = { g [] t with inp := t.inp ++ more }) (hstep : step s = .next t)
    (hg : ∀ more, step (g more s) = .next (g more t)) (more : Bytes) :
    step { s with inp := s.inp ++ more } = .next { t with inp := t.inp ++ more } := by
  have hself : t = g [] t := by
    have h := hg []
    rw [hs, List.append_nil, hstep] at h
    injection h
  rw [← hs, hg, ht, ← hself]

end

/-- Settles O31: with bytes after its input a decoder's own machine is another machine for it. -/
theorem trailingInputIsIgnored : Obligations.TrailingInputIsIgnored := by
  intro s t more hr he hstep hstay
  have ho := output_wanted_of_stays hr he hstep hstay
  have hidle : t.engine ≠ .idle := fun h => by simp [← hstay, h] at he
  rcases he with he | he | he
  · exact step_append_of_moved (g := lzRunningIn s) (fun _ => rfl) (fun _ => rfl) hstep
      (fun _ => step_lzRunningIn hr hr rfl he ho hstep hidle) more
  · refine step_append_of_moved (g := slRunningIn s) (fun _ => rfl) (fun _ => rfl) hstep (fun more => ?_) more
    by_cases hf : s.sl.nb = 0
    · exact step_slRunningIn_of_fetch (.inl rfl) hr hr rfl (fetch_slCodeword he ho hf)
        (fetch_slCodeword (s := slRunningIn s more s) he ho hf) hstep hidle
    · exact step_slRunningIn_of_fetch (.inr ⟨_, rfl⟩) hr hr rfl (fetch_slToken he ho hf)
        (fetch_slToken (s := slRunningIn s more s) he ho hf) hstep hidle
  · exact step_append_of_moved (g := rlRunningIn s) (fun _ => rfl) (fun _ => rfl) hstep
      (fun _ => step_rlRunningIn hr hr rfl he ho hstep hidle) more

/-! ## The end of a decoder's loop -/

section
variable {s t : State}

/-- What a decoder's loop fetches does not stop the machine where output is wanted. -/
theorem exec_inLoop_next {i : Instr} (hi : i.ctx.inLoop = true) (ho : s.op < s.n.toNat) : ∃ t, exec i s = .next t := by
  have hslide (u : State) : ∃ t, slideCopy u = .next t := by
    rcases slideCopy_cases u with ⟨-, e⟩ | ⟨-, e⟩ <;> exact ⟨_, e⟩
  cases i
  case lzFlag f => exact ⟨_, rfl⟩
  case lzLit c => exact ⟨_, if_pos ho⟩
  case lzRef off lraw =>
    rcases execLzRef_cases off lraw s with ⟨-, e⟩ | ⟨-, e⟩ <;> exact ⟨_, e⟩
  case slCw w => exact ⟨_, rfl⟩
  case slLit c => exact ⟨_, if_pos ho⟩
  case slRef2 n d => exact hslide _
  case slRef3 d e => exact hslide _
  case rlCopy k =>
    simp only [exec, execRlCopy]
    split <;> exact ⟨_, rfl⟩
  case rlFill k b =>
    simp only [exec, execRlFill]
    split <;> exact ⟨_, rfl⟩
  all_goals cases hi

/-- A decoder that works for the host never stops the machine. -/
theorem decoderLoop_steps (hr : s.resetPending = false) (ht : s.task = .host)
    (he : s.engine = .lzssDec ∨ s.engine = .slideDec ∨ s.engine = .rleDec) : ∃ t, step s = .next t := by
  by_cases ho : s.op < s.n.toNat
  · obtain ⟨c, u, hc, huo, hf⟩ := fetch_inLoop he ho
    cases hd : decode s.params c (inputAtCursor s) with
    | instr i =>
      have hctx : i.ctx = c := (encodeWritesWhatDecodeRead _ _ _ _ hd).1
      rw [step_of_decoded hr hf hd]
      exact exec_inLoop_next (hctx ▸ hc) huo
    | truncated => exact ⟨_, step_of_fetch_auto hr (by rw [hf, hd]; rfl)⟩
    | unknownCommand code => exact absurd hd (decode_inLoop_ne_unknown hc)
  · exact ⟨_, (step_of_fetch_auto hr (fetch_decoderEnd ho he)).trans (codecReturn_of_host ht)⟩

theorem run_succ_of_step {k : Nat} (h : step s = .next t) :
    Host.Core.run Sys2Proof.core (k + 1) s = Host.Core.run Sys2Proof.core k t := by
  have hcore : Host.Core.step Sys2Proof.core s = .next t := h
  simp only [Host.Core.run, hcore]

/-- A decoder's step for the host leaves the block idle, or consumes input and stays in the loop (R98). -/
theorem decoderLoop_next_host (hr : s.resetPending = false) (ht : s.task = .host)
    (he : s.engine = .lzssDec ∨ s.engine = .slideDec ∨ s.engine = .rleDec) (hstep : step s = .next t) :
    (dropScratch t = t ∧ t.resetPending = false ∧ t.requests = s.requests) ∨ TokenEffect s t := by
  rcases decoderLoop_next hr he hstep with ⟨k, rfl⟩ | ⟨-, h⟩ | h
  · exact .inl ⟨rfl, hr, rfl⟩
  · rw [codecReturn_of_host ht] at h
    cases h
    exact .inl ⟨rfl, hr, rfl⟩
  · exact .inr h

end

/-- Settles O30, by induction on the input left: a step that stays in the loop consumes some of it. -/
theorem decodersTerminate : Obligations.DecodersTerminate := by
  intro s hr ht _ he
  induction hleft : s.inp.length - s.ip using Nat.strong_induction_on generalizing s with
  | _ left ih =>
    obtain ⟨t, hstep⟩ := decoderLoop_steps hr ht he
    rcases decoderLoop_next_host hr ht he hstep with ⟨hidle, -, -⟩ | htok
    · exact ⟨1, t, by omega, run_succ_of_step hstep, by rw [← hidle]; rfl⟩
    · have hlt := htok.ip_lt
      have hle := htok.ip_le
      have hop := htok.op_le
      have hframe := htok.frame
      have hinp : t.inp = s.inp := by rw [hframe]
      have hn : t.n = s.n := by rw [hframe]
      obtain ⟨k, u, hk, hrun, hu⟩ := ih (t.inp.length - t.ip) (by rw [hinp]; omega) t (by rw [hframe]; exact hr)
        (by rw [hframe]; exact ht) (by rw [hn]; exact hop) (by rw [hframe]; exact he) rfl
      exact ⟨k + 1, u, by rw [hinp] at hk; omega, (run_succ_of_step hstep).trans hrun, hu⟩

/-! ## The LZSS decoder's run in another machine -/

/-- An LZSS decoder at work for the host, with no command to come. -/
structure LzDecoding (p : Params) (s : State) : Prop where
  params : s.params = p
  running : s.resetPending = false
  engine : s.engine = .lzssDec
  task : s.task = .host
  requests : s.requests = []

section
variable {v s t : State} {more : Bytes}

/-- A token leaves the decoder at work. -/
theorem LzDecoding.token {p : Params} (D : LzDecoding p s) (h : TokenEffect s t) : LzDecoding p t := by
  rw [h.frame]
  exact ⟨D.params, D.running, D.engine, D.task, D.requests⟩

/-- A run of the LZSS decoder that comes to stand in its loop is the same in another machine. -/
theorem run_lzRunningIn (k : Nat) (D : LzDecoding v.params s) (hv : v.resetPending = false)
    (hrun : Host.Core.run Sys2Proof.core k s = .next t) (ht : t.engine ≠ .idle) :
    reaches (lzRunningIn v more s) (lzRunningIn v more t) := by
  have he : s.engine = .lzssDec ∨ s.engine = .slideDec ∨ s.engine = .rleDec := .inl D.engine
  induction k generalizing s with
  | zero =>
    cases hrun
    exact reaches_refl _
  | succ k ih =>
    obtain ⟨u, hstep⟩ := decoderLoop_steps D.running D.task he
    rw [run_succ_of_step hstep] at hrun
    rcases decoderLoop_next_host D.running D.task he hstep with ⟨hidle, hr, hq⟩ | htok
    · have hengine : u.engine = .idle := by rw [← hidle]; rfl
      rw [run_idle k hr hengine (hq.trans D.requests)] at hrun
      cases hrun
      exact absurd hengine ht
    · have D' := D.token htok
      have hstay := D'.engine.trans D.engine.symm
      have ho := output_wanted_of_stays D.running he hstep hstay
      have hu : u.engine ≠ .idle := by rw [D'.engine]; nofun
      exact reaches_step (step_lzRunningIn D.running hv D.params D.engine ho hstep hu) (ih D' hrun (.inl D'.engine))

end

/-- `LZSS.DEC` gives `raw` back from every member of `EncLZSS(raw)`, whatever bytes follow (R99, R102(c), R142(a)). -/
theorem lzssDec_of_encLzss {s : State} {raw c more : Bytes} (hr : s.resetPending = false)
    (hc : encLzss s.params raw c) (hlen : (c ++ more).length < 2 ^ 32) :
    ∃ (u : State) (k : Nat) (t : State),
      exec .lzssDec (withOperands s (c ++ more) (BitVec.ofNat 32 raw.length)) = .next u ∧
      Host.Core.run Sys2Proof.core k u = .next t ∧ endedWith s t s.store 0 (.ok (.bytes raw)) := by
  obtain ⟨-, ⟨k, t, hrun, hengine, hout, hop, -⟩, -⟩ := hc
  set n := BitVec.ofNat 32 raw.length
  set u : State := startLzssDec (c ++ more) n { withOperands s (c ++ more) n with task := .host }
  have hloop : reaches u (lzRunningIn u more t) :=
    run_lzRunningIn k (v := u) (s := startLzssDec c n { params := s.params }) ⟨rfl, rfl, rfl, rfl, rfl⟩ hr hrun
      (by rw [hengine]; nofun)
  have hend : step (lzRunningIn u more t) = .next (finish (.bytes raw) (lzRunningIn u more t)) := by
    have hnot : ¬ (lzRunningIn u more t).op < (lzRunningIn u more t).n.toNat := hop.symm.not_gt
    rw [step_of_fetch_auto (s := lzRunningIn u more t) hr (fetch_decoderEnd hnot (.inl hengine)), ← hout]
    exact codecReturn_of_host rfl
  obtain ⟨m, hm⟩ := reaches_trans hloop (reaches_step hend (reaches_refl _))
  exact ⟨u, m, _, withinLimit_of_lt hlen, hm, rfl⟩

end Sys2Proof.Machine
end

section
/-! The encoders come to their end, and what `LZSS.ENC` returns is a member of `EncLZSS(raw)` (40_lzss.md R101, R102,
R104; 41_slide.md R117; 44_common.md R173). -/

open Sys2Proof.Claims

namespace Sys2Proof.Machine

/-! ## A loop that comes to its end -/

/-- Where every state of `P` that is not `done` steps into `P` with less left, a run from `P` comes to a state that is
`done`. -/
theorem reaches_done {P done : State → Prop} (left : State → Nat)
    (hstep : ∀ s, P s → ¬ done s → ∃ t, step s = .next t ∧ P t ∧ left t < left s) {s : State} (hs : P s) :
    ∃ t, reaches s t ∧ P t ∧ done t := by
  induction hleft : left s using Nat.strong_induction_on generalizing s with
  | _ n ih =>
    by_cases hdone : done s
    · exact ⟨s, reaches_refl s, hs, hdone⟩
    · obtain ⟨u, hu, hPu, hlt⟩ := hstep s hs hdone
      obtain ⟨t, hreach, ht⟩ := ih (left u) (hleft ▸ hlt) hPu rfl
      exact ⟨t, reaches_step hu hreach, ht⟩

/-! ## The rounds of the LZSS encoder -/

/-- How many bytes the encoder has still to code: those not read, and the lookahead. -/
def lzLeft (s : State) : Nat := s.inp.length - s.ip + s.le.len.toNat

section
variable {s : State}

/-- Moving one position on reads a byte, or shrinks the lookahead at the input's end (R104). -/
theorem lzAdvance_lookahead (s : State) :
    (s.ip < s.inp.length ∧ (lzAdvance s).ip = s.ip + 1 ∧ (lzAdvance s).le.len = s.le.len) ∨
    (s.inp.length ≤ s.ip ∧ (lzAdvance s).ip = s.ip ∧ (lzAdvance s).le.len = s.le.len - 1) := by
  obtain ⟨-, -, hlen, -⟩ := (deleteNode_same s.le.s.toNat s.le).trees.fields
  unfold lzAdvance
  generalize deleteNode s.le.s.toNat s.le = D at hlen ⊢
  have hinsert (r : Nat) (e : LzEnc) : (insertNode r e).len = e.len := by
    obtain ⟨-, -, h, -⟩ := (insertNode_same r e).fields
    exact h
  cases hb : inputByte s with
  | some c =>
    obtain ⟨hlt, -⟩ := List.getElem?_eq_some_iff.mp hb
    exact .inl ⟨hlt, rfl, (hinsert _ _).trans hlen⟩
  | none =>
    refine .inr ⟨List.getElem?_eq_none_iff.mp hb, rfl, ?_⟩
    rw [← hlen]
    simp only
    split
    · rfl
    · exact hinsert _ _

theorem lzAdvance_left (h : s.le.len.toNat ≠ 0) :
    lzLeft (lzAdvance s) + 1 = lzLeft s ∧ s.le.len.toNat ≤ (lzAdvance s).le.len.toNat + 1 := by
  have hinp : (lzAdvance s).inp = s.inp := by rw [lzAdvance_frame]
  have hone : (1 : BitVec 7).toNat = 1 := rfl
  have hlt := s.le.len.isLt
  rw [lzLeft, lzLeft, hinp]
  rcases lzAdvance_lookahead s with ⟨hmore, hip, hlen⟩ | ⟨hend, hip, hlen⟩ <;> rw [hip, hlen]
  · omega
  · rw [BitVec.toNat_sub, hone]
    omega

/-- Moving on within the lookahead codes as many bytes. -/
theorem lzAdvanceBy_left (m : Nat) {s : State} (h : m ≤ s.le.len.toNat) : lzLeft (lzAdvanceBy m s) + m = lzLeft s := by
  induction m generalizing s with
  | zero => rfl
  | succ m ih =>
    obtain ⟨hleft, hlen⟩ := lzAdvance_left (s := s) (by omega)
    have hrest := ih (s := lzAdvance s) (by omega)
    rw [lzAdvanceBy]
    omega

/-- A round codes at least a byte (R104). -/
theorem lzRound_left (h : s.le.len ≠ 0) : lzLeft (lzRound s) < lzLeft s := by
  have h0 : s.le.len.toNat ≠ 0 := fun e => h (BitVec.eq_of_toNat_eq e)
  obtain ⟨hpos, hle, -⟩ := lzTokenLength_cases h0
  obtain ⟨u, hu, hinp, hip, -, hlen, -⟩ := tokenPut_frame s
  have hleft := lzAdvanceBy_left (lzTokenLength s.le).toNat (s := u) (by rw [hlen]; exact hle)
  have hsame : lzLeft u = lzLeft s := by rw [lzLeft, lzLeft, hinp, hip, hlen]
  rw [lzRound_eq, hu]
  omega

/-- The rounds come to an empty lookahead; what every round keeps holds there. -/
theorem lzssEnc_rounds {P : State → Prop} (hkeep : ∀ u, P u → u.le.len ≠ 0 → P (lzRound u))
    (hr : s.resetPending = false) (he : s.engine = .lzssEnc) (hs : P s) :
    ∃ t, reaches s t ∧ P t ∧ t.le.len = 0 ∧ t = { s with ip := t.ip, out := t.out, le := t.le } := by
  have hstep (u : State) (hu : P u ∧ u = { s with ip := u.ip, out := u.out, le := u.le }) (hlen : ¬ u.le.len = 0) :
      ∃ t, step u = .next t ∧ (P t ∧ t = { s with ip := t.ip, out := t.out, le := t.le }) ∧ lzLeft t < lzLeft u := by
    obtain ⟨hP, hframe⟩ := hu
    have hround := lzRound_frame u
    refine ⟨lzRound u, step_lzssEnc (by rw [hframe]; exact hr) (by rw [hframe]; exact he) hlen, ⟨hkeep u hP hlen, ?_⟩,
      lzRound_left hlen⟩
    generalize lzRound u = t at hround ⊢
    rw [hround, hframe]
  obtain ⟨t, hreach, ⟨hP, hframe⟩, hdone⟩ := reaches_done lzLeft hstep ⟨hs, rfl⟩
  exact ⟨t, hreach, hP, hdone, hframe⟩

end

/-! ## The rounds of the Slide encoder -/

/-- How much the encoder has still to do: two for each byte not coded, as a round may keep a pair and code one byte, and
one for a kept pair, which may be empty in a state that no round leads to. -/
def slLeft (s : State) : Nat := 2 * (s.inp.length - s.se.pos) + if s.se.deferred.isSome then 1 else 0

section
variable {s : State}

/-- A round moves past what it chooses, and keeps the pair it defers (R117). -/
theorem slRound_advances (s : State) :
    (slRound s).se.pos = s.se.pos + (slChoose s.params.slideTie s.inp s.se).1.1 ∧
      (slRound s).se.deferred = (slChoose s.params.slideTie s.inp s.se).2 := by
  obtain ⟨⟨⟨len, place⟩, kept⟩, hchoose⟩ : ∃ c, slChoose s.params.slideTie s.inp s.se = c := ⟨_, rfl⟩
  rw [hchoose]
  by_cases hlen : len = 1
  · subst hlen
    obtain ⟨hpos, hkept, -⟩ := slRound_spec (slPutToken_literal hchoose)
    exact ⟨hpos, hkept⟩
  · obtain ⟨hpos, hkept, -⟩ := slRound_spec (slPutToken_pair hchoose hlen)
    exact ⟨hpos, hkept⟩

/-- A round uses a kept pair up, or codes at least a byte (R117). -/
theorem slRound_left (h : s.se.pos < s.inp.length) : slLeft (slRound s) < slLeft s := by
  obtain ⟨hpos, hkept⟩ := slRound_advances s
  have hinp : (slRound s).inp = s.inp := by rw [slRound_frame]
  rw [slLeft, slLeft, hinp, hpos, hkept]
  rcases slChoose_cases s.params.slideTie s.inp s.se with
    ⟨m, hd, hc⟩ | ⟨hd, ⟨-, hc⟩ | ⟨-, -, hc⟩ | ⟨h3, -, hc⟩⟩ <;>
    simp only [hc, hd, Option.isSome_some, Option.isSome_none, Bool.false_eq_true, if_true, if_false] <;> omega

/-- The rounds come to the input's end. -/
theorem slideEnc_rounds (hr : s.resetPending = false) (he : s.engine = .slideEnc)
    (hp : s.params.slideEncRef = .reference) :
    ∃ t, reaches s t ∧ t.inp.length ≤ t.se.pos ∧ t = { s with out := t.out, se := t.se } := by
  have hstep (u : State) (hframe : u = { s with out := u.out, se := u.se }) (hpos : ¬ u.inp.length ≤ u.se.pos) :
      ∃ t, step u = .next t ∧ t = { s with out := t.out, se := t.se } ∧ slLeft t < slLeft u := by
    have hround := slRound_frame u
    refine ⟨slRound u, step_slideEnc (by rw [hframe]; exact hr) (by rw [hframe]; exact he) (by rw [hframe]; exact hp)
      (not_le.mp hpos), ?_, slRound_left (not_le.mp hpos)⟩
    generalize slRound u = t at hround ⊢
    rw [hround, hframe]
  obtain ⟨t, hreach, hframe, hdone⟩ := reaches_done slLeft hstep (s := s) rfl
  exact ⟨t, hreach, hdone, hframe⟩

end

/-! ## The end of an encoder's command -/

/-- From `s` the command runs to its end with `Ok(b)`, the store as before. -/
def encoderEnds (s : State) (b : Bytes) : Prop := ∃ t, reaches s t ∧ endedWith s t s.store 0 (.ok (.bytes b))

section
variable {s u : State} {b : Bytes}

/-- What is done to the scratch registers on the way is dropped at the end. -/
theorem encoderEnds_of_reaches (h : reaches s u) (hu : dropScratch u = dropScratch s) (he : encoderEnds u b) :
    encoderEnds s b := by
  obtain ⟨t, ht, hend⟩ := he
  have hstore : (dropScratch u).store = (dropScratch s).store := congrArg _ hu
  rw [dropScratch_store, dropScratch_store] at hstore
  refine ⟨t, reaches_trans h ht, ?_⟩
  rw [endedWith, hu, hstore] at hend
  exact hend

/-- An encoder at its end returns its bytes to the host (R101, R104, R114, R117). -/
theorem encoderEnds_of_encoderReturns (hr : s.resetPending = false) (ht : s.task = .host) (h : encoderReturns s b) :
    encoderEnds s b :=
  ⟨_, reaches_step ((step_of_encoderReturns hr h).trans (codecReturn_of_host ht)) (reaches_refl _), rfl⟩

/-- `LZSS.ENC` in its loop runs to its end, and returns the bytes of a state that has what every round keeps (R104). -/
theorem lzssEnc_ends {P : State → Prop} (hkeep : ∀ u, P u → u.le.len ≠ 0 → P (lzRound u)) (hr : s.resetPending = false)
    (he : s.engine = .lzssEnc) (ht : s.task = .host) (hs : P s) :
    ∃ t, encoderEnds s (lzEncoded t) ∧ P t ∧ t.le.len = 0 ∧ t = { s with ip := t.ip, out := t.out, le := t.le } := by
  obtain ⟨t, hreach, hP, hlen, hframe⟩ := lzssEnc_rounds hkeep hr he hs
  refine ⟨t, encoderEnds_of_reaches hreach (by rw [hframe]; rfl) ?_, hP, hlen, hframe⟩
  exact encoderEnds_of_encoderReturns (by rw [hframe]; exact hr) (by rw [hframe]; exact ht)
    (.inr (.inr (.inl ⟨by rw [hframe]; exact he, hlen, rfl⟩)))

/-- The first step of the reference encoder on an input that fills no lookahead returns no bytes (R104). -/
theorem encoderEnds_of_noLookahead (hr : s.resetPending = false) (he : s.engine = .lzssEncPrime) (ht : s.task = .host)
    (hp : s.params.lzssEncRef = .reference) (hlen : (lzFill Config.lzMaxMatch s).le.len = 0) : encoderEnds s [] := by
  have hframe := lzFill_frame Config.lzMaxMatch s
  have hstep : step s = codecReturn [] (lzFill Config.lzMaxMatch s) :=
    step_of_fetch_auto hr (by simp only [fetch, he, primeLzssEnc, hp, if_pos hlen])
  generalize lzFill Config.lzMaxMatch s = t at hframe hstep
  rw [codecReturn_of_host (by rw [hframe]; exact ht)] at hstep
  exact ⟨_, reaches_step hstep (reaches_refl _), by rw [hframe]; rfl⟩

/-- `LZSS.ENC` before its first token runs to its end. -/
theorem lzssEncPrime_ends (hr : s.resetPending = false) (he : s.engine = .lzssEncPrime) (ht : s.task = .host) :
    ∃ b, encoderEnds s b := by
  cases hp : s.params.lzssEncRef with
  | other => exact ⟨_, encoderEnds_of_encoderReturns hr ht (.inr (.inl ⟨he, hp, rfl⟩))⟩
  | reference =>
    by_cases hlen : (lzFill Config.lzMaxMatch s).le.len = 0
    · exact ⟨[], encoderEnds_of_noLookahead hr he ht hp hlen⟩
    · have hstep := step_lzssEncPrime hr he hp hlen
      have hframe := lzFill_frame Config.lzMaxMatch s
      generalize lzFill Config.lzMaxMatch s = t at hstep hframe
      set u : State := { t with engine := .lzssEnc, le := lzInsertFirst t.le } with hu
      obtain ⟨v, hends, -⟩ := lzssEnc_ends (P := fun _ => True) (s := u) (fun _ _ _ => trivial)
        (by rw [hu, hframe]; exact hr) rfl (by rw [hu, hframe]; exact ht) trivial
      exact ⟨_, encoderEnds_of_reaches (reaches_step hstep (reaches_refl u)) (by rw [hu, hframe]; rfl) hends⟩

/-- `SLIDE.ENC` runs to its end. -/
theorem slideEnc_ends (hr : s.resetPending = false) (he : s.engine = .slideEnc) (ht : s.task = .host) :
    ∃ b, encoderEnds s b := by
  cases hp : s.params.slideEncRef with
  | other => exact ⟨_, encoderEnds_of_encoderReturns hr ht (.inr (.inr (.inr (.inr ⟨he, hp, rfl⟩))))⟩
  | reference =>
    obtain ⟨t, hreach, hend, hframe⟩ := slideEnc_rounds hr he hp
    refine ⟨slEncoded t, encoderEnds_of_reaches hreach (by rw [hframe]; rfl) ?_⟩
    exact encoderEnds_of_encoderReturns (by rw [hframe]; exact hr) (by rw [hframe]; exact ht)
      (.inr (.inr (.inr (.inl ⟨by rw [hframe]; exact he, by rw [hframe]; exact hp, hend, rfl⟩))))

end

/-! ## What `LZSS.ENC` returns -/

/-- The state that `LZSS.ENC` starts in on the operand `raw`. -/
abbrev lzssEncStart (s : State) (raw : Bytes) : State :=
  startLzssEnc raw { withOperands s raw 0 with task := .host }

section
variable {s : State} {raw : Bytes}

/-- The lookahead is filled with up to 66 bytes of the input (R104). -/
theorem lzssEncStart_fills (s : State) (raw : Bytes) :
    (lzFill Config.lzMaxMatch (lzssEncStart s raw)).le.len.toNat = min 66 raw.length ∧
      ∃ text len ip, lzFill Config.lzMaxMatch (lzssEncStart s raw) =
        { lzssEncStart s raw with ip := ip, le := { LzEnc.start with text := text, len := len } } := by
  obtain ⟨hip, hlen, -, -, hframe⟩ :=
    lzFill_spec Config.lzMaxMatch (lzssEncStart s raw) rfl (Nat.zero_le _)
      (show 0 + 66 < 128 by decide)
  refine ⟨?_, _, _, _, hframe⟩
  rw [hlen, hip]
  change 0 + (min (0 + 66) raw.length - 0) = _
  omega

/-- Before its first token the encoder has gathered none (R104). -/
theorem lzssEncStart_gathered (s : State) (raw : Bytes) :
    tokensGathered { lzFill Config.lzMaxMatch (lzssEncStart s raw) with
      engine := .lzssEnc, le := lzInsertFirst (lzFill Config.lzMaxMatch (lzssEncStart s raw)).le } 0 := by
  obtain ⟨-, text, len, ip, hframe⟩ := lzssEncStart_fills s raw
  rw [hframe]
  obtain ⟨-, -, -, -, hbuf, hptr, hmask⟩ := (lzInsertFirst_same { LzEnc.start with text := text, len := len }).fields
  refine ⟨[], [], nofun, by decide, rfl, hmask, ?_, rfl⟩
  simp only [codeBytes, hbuf, hptr]
  rfl

/-- The reference `LZSS.ENC` returns groups of tokens that stand for its input (R102, R104). -/
theorem lzssEnc_reference (hr : s.resetPending = false) (hp : s.params.lzssEncRef = .reference) (hne : raw ≠ []) :
    ∃ gs : List (List Instr), encoderEnds (lzssEncStart s raw) (gs.flatMap (lzGroupBytes s.params)) ∧
      groupsFull 8 gs ∧ lzCodesAll raw 0 gs.flatten raw.length := by
  obtain ⟨hlen, text, len, ip, hframe⟩ := lzssEncStart_fills s raw
  have hpos : 0 < raw.length := List.length_pos_iff.mpr hne
  have hnot : (lzFill Config.lzMaxMatch (lzssEncStart s raw)).le.len ≠ 0 := fun h => by
    rw [h] at hlen
    change 0 = _ at hlen
    omega
  have hstep := step_lzssEncPrime (s := lzssEncStart s raw) hr rfl hp hnot
  obtain ⟨hready, -⟩ := lzPrime_ready (lzssEncStart s raw) rfl rfl
  have hgathered := lzssEncStart_gathered s raw
  generalize lzFill Config.lzMaxMatch (lzssEncStart s raw) = t at hframe hstep hready hgathered
  set u : State := { t with engine := .lzssEnc, le := lzInsertFirst t.le } with hu
  obtain ⟨v, hends, ⟨pos, hR, hG⟩, hend, hv⟩ := lzssEnc_ends (s := u)
    (P := fun u => ∃ pos, encoderReady u pos ∧ tokensGathered u pos)
    (fun w ⟨pos, hR, hG⟩ hl => ⟨_, lzRound_codes hR hG fun h => hl (BitVec.eq_of_toNat_eq h)⟩)
    (by rw [hu, hframe]; exact hr) rfl (by rw [hu, hframe]; rfl) ⟨0, hready, hgathered⟩
  have hparams : v.params = s.params := by rw [hv, hu, hframe]; rfl
  have hinp : v.inp = raw := by rw [hv, hu, hframe]; rfl
  obtain ⟨gs, hbytes, hgs, hcodes⟩ := lzEncoded_codes hR hG (by rw [hend]; rfl)
  rw [hparams] at hbytes
  rw [hinp] at hcodes
  rw [hbytes] at hends
  exact ⟨gs, encoderEnds_of_reaches (reaches_step hstep (reaches_refl u)) (by rw [hu, hframe]; rfl) hends, hgs, hcodes⟩

/-- Groups of tokens that stand for the input are a member of `EncLZSS(raw)` (R102). -/
theorem encLzss_of_codes {p : Params} {gs : List (List Instr)} (hlen : raw.length < 2 ^ 32) (hgs : groupsFull 8 gs)
    (hcodes : lzCodesAll raw 0 gs.flatten raw.length) (hne : raw ≠ []) :
    lzGroups p (gs.flatMap (lzGroupBytes p)) ∧
      (p.pair.wf = true → encLzss p raw (gs.flatMap (lzGroupBytes p))) := by
  have hgroups : lzGroups p (gs.flatMap (lzGroupBytes p)) :=
    ⟨gs, rfl, hgs, fun g hg => List.all_eq_true.mpr fun i hi =>
      lzCodesAll_isLzToken hcodes i (List.mem_flatten.mpr ⟨g, hg, hi⟩)⟩
  exact ⟨hgroups, fun hpair => ⟨hgroups, lzCodes_decodesTo hpair hlen hgs hcodes, fun h => absurd h hne⟩⟩

/-- No bytes are a member of `EncLZSS` of no bytes (R102(d)). -/
theorem encLzss_nil (p : Params) : encLzss p [] [] :=
  ⟨⟨[], rfl, ⟨nofun, nofun⟩, nofun⟩, ⟨0, _, rfl, rfl, rfl, rfl, rfl⟩, fun _ => rfl⟩

/-- `LZSS.ENC` on any input shorter than 2^32 bytes ends with a member of `EncLZSS(raw)` (R101, R102). -/
theorem lzssEnc_returns_member (hr : s.resetPending = false) (hlen : raw.length < 2 ^ 32) :
    ∃ b, encoderEnds (lzssEncStart s raw) b ∧
      (s.params.lzssEncRef = .reference →
        lzGroups s.params b ∧ (raw = [] → b = []) ∧ (s.params.pair.wf = true → encLzss s.params raw b)) ∧
      (s.params.lzssEncRef = .other → EncodersAdmissible s.params → encLzss s.params raw b) := by
  cases hp : s.params.lzssEncRef with
  | other =>
    exact ⟨Config.lzssEncOther raw,
      encoderEnds_of_encoderReturns (s := lzssEncStart s raw) hr rfl (.inr (.inl ⟨rfl, hp, rfl⟩)), nofun,
      fun _ hadm => (hadm raw hlen).1⟩
  | reference =>
    by_cases hne : raw = []
    · subst hne
      obtain ⟨hgroups, -⟩ := encLzss_nil s.params
      have hnone := BitVec.eq_of_toNat_eq (y := 0) (lzssEncStart_fills s []).1
      exact ⟨[], encoderEnds_of_noLookahead (s := lzssEncStart s []) hr rfl rfl hp hnone,
        fun _ => ⟨hgroups, fun _ => rfl, fun _ => encLzss_nil s.params⟩, nofun⟩
    · obtain ⟨gs, hends, hgs, hcodes⟩ := lzssEnc_reference hr hp hne
      obtain ⟨hgroups, hmember⟩ := encLzss_of_codes (p := s.params) hlen hgs hcodes hne
      exact ⟨_, hends, fun _ => ⟨hgroups, fun h => absurd h hne, hmember⟩, nofun⟩

end

/-- Settles O32: each encoder's loop has less left after every round, and the reference LZSS encoder's rounds keep what
makes its groups stand for the input. -/
theorem encodersEndWithOk : Obligations.EncodersEndWithOk := by
  refine ⟨fun s hr ht he => ?ends, fun s raw hr hlen => ?member, fun s raw c more hr hc hlen => ?decoded⟩
  case ends =>
    have hends : ∃ b, encoderEnds s b := by
      rcases he with he | he | he
      · exact lzssEncPrime_ends hr he ht
      · obtain ⟨t, hends, -⟩ := lzssEnc_ends (P := fun _ => True) (fun _ _ _ => trivial) hr he ht trivial
        exact ⟨_, hends⟩
      · exact slideEnc_ends hr he ht
    obtain ⟨b, t, ⟨k, hrun⟩, hend⟩ := hends
    exact ⟨k, t, b, hrun, hend⟩
  case member =>
    obtain ⟨b, ⟨t, ⟨k, hrun⟩, hend⟩, hmember⟩ := lzssEnc_returns_member hr hlen
    exact ⟨lzssEncStart s raw, k, t, b, withinLimit_of_lt hlen, hrun, hend, hmember⟩
  case decoded => exact lzssDec_of_encLzss hr hc hlen

end Sys2Proof.Machine
end

section
/-! The Slide decoder's instructions: the header, a codeword, a literal, and the references back into the output
(41_slide.md R107 to R112). -/

open Sys2Proof.Claims

namespace Sys2Proof

/-! ## The fields of a reference (R76 to R78) -/

/-- The upper nibble of a byte. -/
theorem upperNibble_toNat (b : Byte) : (b.extractLsb' 4 4).toNat = (b.toNat &&& 0xF0) >>> 4 := by
  rw [BitVec.extractLsb'_toNat, Nat.shiftRight_and_distrib]
  exact (Nat.and_two_pow_sub_one_eq_mod _ 4).symm

theorem upperNibble_eq_zero_iff (b : Byte) : b.extractLsb' 4 4 = 0 ↔ (b.toNat &&& 0xF0) >>> 4 = 0 := by
  rw [← upperNibble_toNat]
  exact BitVec.toNat_inj.symm

/-- The distance field: the lower nibble of the first byte, then the second byte. -/
theorem distanceField_toNat (b1 b2 : Byte) :
    (b1.extractLsb' 0 4 ++ b2 : BitVec 12).toNat = ((b1.toNat &&& 0x0F) <<< 8) ||| b2.toNat := by
  rw [BitVec.toNat_append, BitVec.extractLsb'_toNat, Nat.shiftRight_zero]
  exact congrArg (fun nib => nib <<< 8 ||| b2.toNat) (Nat.and_two_pow_sub_one_eq_mod _ 4).symm

section
variable {p : Params} {b1 : Byte}

/-- A length nibble that is not 0 makes an `SL.REF2` (R76). -/
theorem decode_slRef_of_nibble_ne (h : b1.extractLsb' 4 4 ≠ 0) (b2 : Byte) (rest : Bytes) :
    decode p (.slToken false) (b1 :: b2 :: rest) =
      .instr (.slRef2 (b1.extractLsb' 4 4) (b1.extractLsb' 0 4 ++ b2)) := if_neg h

/-- A nibble of 0 makes an `SL.REF3`, with a third byte (R77). -/
theorem decode_slRef_of_nibble_eq (h : b1.extractLsb' 4 4 = 0) (b2 b3 : Byte) (more : Bytes) :
    decode p (.slToken false) (b1 :: b2 :: b3 :: more) = .instr (.slRef3 (b1.extractLsb' 0 4 ++ b2) b3) := if_pos h

end

end Sys2Proof

namespace Sys2Proof.Machine

/-! ## `SL.HDR`, `SL.CW` and `SL.LIT` -/

/-- Settles O17. -/
theorem slHdrIsSkipped : Obligations.SlHdrIsSkipped :=
  fun _ _ => ⟨rfl, fun hr he => step_of_fetch_run hr (fetch_slHeader he)⟩

/-- Settles O18. -/
theorem slCwFetchesACodeword : Obligations.SlCwFetchesACodeword := by
  refine fun s => ⟨fun _ => rfl, fun hr he ho hnb => ⟨fun hend => ?missing, fun a b c d rest hin => ?fetched⟩⟩
  case missing =>
    obtain ⟨-, -, -, hfault, -⟩ := stepFaultsWhereTheInputEnds s hr
    exact hfault he ho hnb hend
  case fetched =>
    have hin' : inputAtCursor s = a :: b :: c :: d :: rest := hin
    exact step_of_decoded hr (fetch_slCodeword he ho hnb) (by rw [hin']; rfl)

/-- Settles O20. -/
theorem slLitGoesToTheOutput : Obligations.SlLitGoesToTheOutput := by
  refine fun s ho => ⟨fun c => ?effect, fun hr he hnb hflag => ⟨fun hend => ?missing, fun c hc => ?fetched⟩⟩
  case effect => exact ⟨_, if_pos ho, rfl, rfl, fun _ => rfl, rfl⟩
  case missing =>
    obtain ⟨-, -, -, -, hfault, -⟩ := stepFaultsWhereTheInputEnds s hr
    exact hfault he ho hnb hend
  case fetched =>
    obtain ⟨rest, hin⟩ := inputAtCursor_eq_cons hc
    have hflag' : slFlag s = true := hflag
    exact step_of_decoded hr (fetch_slToken he ho hnb) (by rw [hflag', hin]; rfl)

/-! ## `SlideCopy` -/

section
variable {s t u : State} {dist len : Nat}

/-- The byte a round reads is that of the output, or `0x00` before its start (R112). -/
theorem some_outBack (hd : 1 ≤ dist) :
    some (outBack s dist) = if s.out.length < dist then some 0 else s.out[s.out.length - dist]? := by
  rw [outBack, State.op]
  split
  · rfl
  · exact some_getD_of_lt (by omega)

/-- A round before a copy: the byte it reads is still there in the end, for no later round writes before the output's
end. -/
theorem slideCopied_of_slCopyByte (hd : 1 ≤ s.sl.dist.toNat)
    (h : slideCopied (slCopyByte s) t s.sl.dist.toNat len) : slideCopied s t s.sl.dist.toNat (len + 1) := by
  set c := outBack s s.sl.dist.toNat with hc
  have hround : (slCopyByte s).out = s.out ++ [c] := rfl
  obtain ⟨hlength, hprefix, hreads⟩ := h
  rw [hround] at hlength hprefix hreads
  simp only [List.length_append, List.length_singleton] at hlength hprefix hreads
  obtain ⟨rest, hout⟩ : ∃ rest, t.out = s.out ++ (c :: rest) :=
    ⟨_, by rw [List.append_cons, ← hprefix, List.take_append_drop]⟩
  refine ⟨by omega, by rw [hout, List.take_left], fun k hk => ?_⟩
  cases k with
  | zero =>
    have hlast : t.out[s.out.length]? = some c := by rw [hout, List.getElem?_append_right le_rfl, Nat.sub_self]; rfl
    rw [Nat.add_zero, hlast, hc, some_outBack hd]
    refine ite_congr rfl (fun _ => rfl) fun hback => ?_
    rw [hout, List.getElem?_append_left (by omega)]
  | succ k =>
    rw [show s.out.length + (k + 1) = s.out.length + 1 + k by omega]
    exact hreads k (by omega)

/-- The copy loop (R112). -/
theorem slCopy_slideCopied (m : Nat) (hd : 1 ≤ s.sl.dist.toNat) : slideCopied s (slCopy m s) s.sl.dist.toNat m := by
  induction m generalizing s with
  | zero => exact ⟨rfl, List.take_length, nofun⟩
  | succ m ih => exact slideCopied_of_slCopyByte hd (ih (s := slCopyByte s) hd)

/-- Both references: `u` is `s` with the reference's operands in the registers (R110 to R112). -/
theorem slideCopy_readsBack (hu : slTokenFrame s u) (hout : u.out = s.out) (hdist : u.sl.dist.toNat = dist)
    (hlen : u.sl.len.toNat = len) (hd : 1 ≤ dist) (hroom : u.op + len ≤ u.n.toNat) :
    ∃ t, slideCopy u = .next t ∧ t.ip = u.ip ∧ slideCopied s t dist len ∧
      (∀ a, t.readByte .ring a = s.readByte .ring a) ∧ slTokenFrame s t := by
  subst hdist hlen
  rcases slideCopy_cases u with ⟨hover, -⟩ | ⟨-, hcopy⟩
  · omega
  have hcopied := slCopy_slideCopied u.sl.len.toNat hd
  have hframe := slCopy_frame u.sl.len.toNat u
  generalize slCopy u.sl.len.toNat u = t at hcopy hcopied hframe
  have hs : slTokenFrame s t := by rw [slTokenFrame, hframe, hu]
  refine ⟨t, hcopy, by rw [hframe], ?_, fun a => ?_, hs⟩
  · rwa [slideCopied, hout] at hcopied
  · rw [hs]
    rfl

end

/-! ## `SL.REF2` and `SL.REF3` -/

/-- Settles O21: a byte of the copy loop is read from the output as it is in the end, and both references run that loop. -/
theorem slideReferencesReadBackTheOutput : Obligations.SlideReferencesReadBackTheOutput := by
  refine ⟨fun s hr he ho hnb hflag => ?fetch, fun s => ⟨?overrun2, ?overrun3, ?copy2, ?copy3⟩⟩
  case fetch =>
    obtain ⟨-, -, -, -, -, hmissing, hthird, -⟩ := stepFaultsWhereTheInputEnds s hr
    refine ⟨hmissing he ho hnb hflag, fun b1 b2 rest hin => ?_⟩
    have hrun {i : Instr} (hdec : decode s.params (.slToken false) (b1 :: b2 :: rest) = .instr i) :
        step s = exec i (slTake s) := by
      have hflag' : slFlag s = false := hflag
      have hin' : inputAtCursor s = b1 :: b2 :: rest := hin
      exact step_of_decoded hr (fetch_slToken he ho hnb) (by rw [hflag', hin', hdec])
    have hzero := upperNibble_eq_zero_iff b1
    refine ⟨?third, ?ref3, ?ref2⟩
    case third =>
      rintro hnib rfl
      exact hthird he ho hnb hflag ⟨b1, b2, hin, hzero.mpr hnib⟩
    case ref3 =>
      rintro hnib b3 more rfl
      exact ⟨_, hrun (decode_slRef_of_nibble_eq (hzero.mpr hnib) b2 b3 more), distanceField_toNat b1 b2⟩
    case ref2 =>
      intro hnib
      exact ⟨_, _, hrun (decode_slRef_of_nibble_ne (hzero.not.mpr hnib) b2 rest), upperNibble_toNat b1,
        distanceField_toNat b1 b2⟩
  case overrun2 =>
    obtain ⟨-, hfault, -⟩ := tokensNeedRoom s
    exact hfault
  case overrun3 =>
    obtain ⟨-, -, hfault, -⟩ := tokensNeedRoom s
    exact hfault
  case copy2 =>
    exact fun n d hroom => slideCopy_readsBack (u := slRef2Operands n d s) rfl rfl (slDist_toNat d) (slRef2Len_toNat n)
      (Nat.succ_pos _) hroom
  case copy3 =>
    exact fun d e hroom => slideCopy_readsBack (u := slRef3Operands d e s) rfl rfl (slDist_toNat d) (slRef3Len_toNat e)
      (Nat.succ_pos _) hroom

end Sys2Proof.Machine
end

section
/-! The match search of the reference Slide encoder finds a longest match, and among the longest the one it tries first
(41_slide.md R118). -/

namespace Sys2Proof.Machine

/-! ## The candidates -/

/-- A common start is no longer than the one that is counted (R118). -/
theorem le_commonLength {m len : Nat} {x y : Bytes} (hm : len ≤ m) (hy : len ≤ y.length)
    (h : ∀ j, j < len → x[j]? = y[j]?) : len ≤ commonLength m x y := by
  induction len generalizing m x y with
  | zero => exact Nat.zero_le _
  | succ len ih =>
    obtain ⟨m, rfl⟩ : ∃ k, m = k + 1 := ⟨m - 1, by omega⟩
    obtain ⟨b, y, rfl⟩ := List.exists_cons_of_length_pos (Nat.zero_lt_of_lt hy)
    have hfirst := h 0 (Nat.succ_pos _)
    cases x with
    | nil => cases hfirst
    | cons a x =>
      cases hfirst
      rw [commonLength, if_pos rfl]
      exact Nat.succ_le_succ (ih (by omega) (by simpa using hy) fun j hj => h (j + 1) (Nat.succ_lt_succ hj))

/-- The window of 4096 positions, all of it (R118). -/
theorem mem_candidates_of_window {tie : SlideTie} {pos place : Nat} (hbefore : place < pos)
    (hwindow : pos ≤ place + 4096) : place ∈ candidates tie pos := by
  cases tie <;> simp only [candidates, Config.slWindow, List.mem_map, List.mem_range]
  case nearest => exact ⟨pos - 1 - place, by omega, by omega⟩
  case farthest => exact ⟨place - (pos - 4096), by omega, by omega⟩

/-- Of two places, `SLIDE_TIE` keeps `q` before `p` where their matches are equally long (R118). -/
def preferred (tie : SlideTie) (q p : Nat) : Prop := (tie = .nearest → p ≤ q) ∧ (tie = .farthest → q ≤ p)

theorem preferred_refl (tie : SlideTie) (p : Nat) : preferred tie p p := ⟨fun _ => le_rfl, fun _ => le_rfl⟩

/-- The places are tried in the order of preference (R118). -/
theorem candidates_pairwise (tie : SlideTie) (pos : Nat) : (candidates tie pos).Pairwise (preferred tie) := by
  have hrange := List.pairwise_lt_range (n := pos - (pos - Config.slWindow))
  cases tie
  case nearest => exact List.pairwise_map.mpr (hrange.imp fun hlt => ⟨fun _ => by omega, nofun⟩)
  case farthest => exact List.pairwise_map.mpr (hrange.imp fun hlt => ⟨nofun, fun _ => by omega⟩)

/-! ## The search -/

/-- How long a match the search finds at a place (R118). -/
def matchLengthAt (raw : Bytes) (pos place : Nat) : Nat :=
  commonLength (min Config.slMaxMatch (raw.length - pos)) (raw.drop place) (raw.drop pos)

/-- A strictly longer match replaces the best (R118). -/
def keepLonger (len : Nat → Nat) (best : Nat × Nat) (place : Nat) : Nat × Nat :=
  if best.1 < len place then (len place, place) else best

theorem longest_past_end {tie : SlideTie} {raw : Bytes} {pos : Nat} (h : raw.length ≤ pos) :
    longest tie raw pos = (0, 0) := if_pos h

theorem longest_eq_foldl (tie : SlideTie) {raw : Bytes} {pos : Nat} (h : pos < raw.length) :
    longest tie raw pos = (candidates tie pos).foldl (keepLonger (matchLengthAt raw pos)) (0, 0) :=
  if_neg (not_le.mpr h)

/-- Every match of the window counts for the place it is at. -/
theorem IsMatch.le_matchLengthAt {raw : Bytes} {pos len place : Nat} (M : IsMatch raw pos len place) :
    len ≤ matchLengthAt raw pos place := by
  obtain ⟨-, -, hcap, hinside, hsame⟩ := M
  refine le_commonLength (le_min hcap (by omega)) (by rw [List.length_drop]; omega) fun j hj => ?_
  rw [List.getElem?_drop, List.getElem?_drop, hsame j hj]

/-- The search has tried `places` and kept `best`: the longest match, and the place preferred among the longest. -/
structure IsBest (tie : SlideTie) (len : Nat → Nat) (places : List Nat) (best : Nat × Nat) : Prop where
  nothing : best.1 = 0 → best = (0, 0)
  tried : 0 < best.1 → best.2 ∈ places
  noLonger : ∀ p ∈ places, len p ≤ best.1
  first : ∀ p ∈ places, 0 < len p → len p = best.1 → preferred tie best.2 p

/-- One place more, to which every place before it is preferred. -/
theorem IsBest.concat {tie : SlideTie} {len : Nat → Nat} {places : List Nat} {best : Nat × Nat} {place : Nat}
    (B : IsBest tie len places best) (horder : ∀ q ∈ places, preferred tie q place) :
    IsBest tie len (places ++ [place]) (keepLonger len best place) := by
  obtain ⟨hnothing, htried, hlongest, hfirst⟩ := B
  rw [keepLonger]
  split
  case isTrue hlonger =>
    have hshorter (p) (hp : p ∈ places) : len p < len place := (hlongest p hp).trans_lt hlonger
    exact
      { nothing := fun h => absurd h (Nat.ne_zero_of_lt hlonger)
        tried := fun _ => List.mem_concat_self
        noLonger := List.forall_mem_append.mpr
          ⟨fun p hp => (hshorter p hp).le, List.forall_mem_singleton.mpr le_rfl⟩
        first := List.forall_mem_append.mpr
          ⟨fun p hp _ heq => absurd heq (hshorter p hp).ne,
            List.forall_mem_singleton.mpr fun _ _ => preferred_refl tie place⟩ }
  case isFalse hnot =>
    exact
      { nothing := hnothing
        tried := fun h => List.mem_append_left _ (htried h)
        noLonger := List.forall_mem_append.mpr ⟨hlongest, List.forall_mem_singleton.mpr (not_lt.mp hnot)⟩
        first := List.forall_mem_append.mpr
          ⟨hfirst, List.forall_mem_singleton.mpr fun hpos heq => horder _ (htried (heq ▸ hpos))⟩ }

/-- The search over places that are tried in the order of preference. -/
theorem foldl_keepLonger_isBest (tie : SlideTie) (len : Nat → Nat) {places : List Nat}
    (h : places.Pairwise (preferred tie)) : IsBest tie len places (places.foldl (keepLonger len) (0, 0)) := by
  induction places using List.reverseRecOn with
  | nil => exact ⟨fun _ => rfl, fun h => absurd h (lt_irrefl 0), nofun, nofun⟩
  | append_singleton places place ih =>
    obtain ⟨hplaces, -, horder⟩ := List.pairwise_append.mp h
    rw [List.foldl_concat]
    exact (ih hplaces).concat fun q hq => horder q hq place (List.mem_singleton_self place)

theorem longest_isBest (tie : SlideTie) {raw : Bytes} {pos : Nat} (h : pos < raw.length) :
    IsBest tie (matchLengthAt raw pos) (candidates tie pos) (longest tie raw pos) := by
  rw [longest_eq_foldl tie h]
  exact foldl_keepLonger_isBest tie _ (candidates_pairwise tie pos)

/-- No match of the window is longer, and of those as long the search answers the preferred one. -/
theorem IsMatch.le_longest {raw : Bytes} {pos len place : Nat} (M : IsMatch raw pos len place) (tie : SlideTie)
    (hpos : pos < raw.length) :
    len ≤ (longest tie raw pos).1 ∧
      (0 < len → len = (longest tie raw pos).1 → preferred tie (longest tie raw pos).2 place) := by
  have B := longest_isBest tie hpos
  have hplace : place ∈ candidates tie pos := mem_candidates_of_window M.before M.window
  have hlen := M.le_matchLengthAt
  have hle := B.noLonger place hplace
  exact ⟨hlen.trans hle, fun h0 heq => B.first place hplace (by omega) (by omega)⟩

theorem longest_le {raw : Bytes} {pos : Nat} (tie : SlideTie) (hpos : pos < raw.length) :
    (longest tie raw pos).1 ≤ 273 ∧ pos + (longest tie raw pos).1 ≤ raw.length := by
  rcases Nat.eq_zero_or_pos (longest tie raw pos).1 with h | h
  · omega
  · exact ⟨(longest_isMatch h).cap, (longest_isMatch h).inside⟩

/-- Settles O34: the search keeps the first of the longest matches, and tries the places in the order of preference. -/
theorem longestFindsALongestMatch : Obligations.LongestFindsALongestMatch := by
  intro tie raw pos
  refine ⟨longest_past_end, fun h => ?nothing, fun hpos => ?within⟩
  case nothing =>
    rcases lt_or_ge pos raw.length with hpos | hpos
    · exact (longest_isBest tie hpos).nothing h
    · exact longest_past_end hpos
  case within =>
    obtain ⟨hcap, hinside⟩ := longest_le tie hpos
    refine ⟨hcap, hinside, fun hfound => ?found, fun place len hbefore hwindow hcap hinside hsame => ?best⟩
    case found =>
      have M := longest_isMatch hfound
      exact ⟨M.before, M.window, M.same⟩
    case best =>
      have M : IsMatch raw pos len place := ⟨hbefore, hwindow, hcap, hinside, hsame⟩
      exact M.le_longest tie hpos

end Sys2Proof.Machine
end

section
/-! The RLE decoder's tokens, and `RLE.ENC` (42_rle.md R120 to R123). -/

open Sys2Proof.Claims

namespace Sys2Proof.Machine

/-! ## The registers of a token -/

/-- `s` past an `RL.COPY`'s control byte, with the operands in the registers (R120). -/
def rlCopyOperands (k : BitVec 7) (s : State) : State :=
  { s with ip := s.ip + 1, rl := { s.rl with c := (1 : BitVec 1) ++ k, k := k, j := 0 } }

/-- `s` past an `RL.FILL`'s two bytes, with the operands in the registers (R121). -/
def rlFillOperands (k : BitVec 7) (v : Byte) (s : State) : State :=
  { s with ip := s.ip + 2, rl := { s.rl with c := (0 : BitVec 1) ++ k, k := k, v := v, j := 0 } }

/-! ## Tokens that have their room -/

section
variable {s : State} {k : BitVec 7} (hroom : s.op + k.toNat ≤ s.n.toNat)
include hroom

theorem exec_rlCopy_of_room : exec (.rlCopy k) s = .next (rlCopyLoop k.toNat (rlCopyOperands k s)) :=
  if_neg fun h => not_lt.mpr hroom ((overruns_iff _ _).mp h)

theorem exec_rlFill_of_room (v : Byte) :
    exec (.rlFill k v) s = .next (rlFillLoop k.toNat (rlFillOperands k v s)) :=
  if_neg fun h => not_lt.mpr hroom ((overruns_iff _ _).mp h)

/-- Where a literal is missing, the loop faults, whatever it has copied before it (R120). -/
theorem exec_rlCopy_of_missing (hk : k ≠ 0) (hend : s.inp.length < s.ip + 1 + k.toNat) :
    exec (.rlCopy k) s = .next (raise .truncatedInputError s) := by
  have hk0 : k.toNat ≠ 0 := fun h => hk (BitVec.eq_of_toNat_eq h)
  rw [exec_rlCopy_of_room hroom]
  rcases rlCopyLoop_cases k.toNat (rlCopyOperands k s) with ⟨hall | hall, -⟩ | ⟨-, -, hfault⟩
  · exact absurd hall hk0
  · exact absurd hall (not_le.mpr hend)
  · rw [hfault]
    rfl

/-- With every literal there, or none asked for, the loop appends them (R120). -/
theorem exec_rlCopy_copies (hin : k = 0 ∨ s.ip + 1 + k.toNat ≤ s.inp.length) :
    ∃ t, exec (.rlCopy k) s = .next t ∧ t.out = s.out ++ (s.inp.drop (s.ip + 1)).take k.toNat ∧
      t.ip = s.ip + 1 + k.toNat ∧ (∀ a, t.readByte .ring a = s.readByte .ring a) ∧ rlTokenFrame s t := by
  refine ⟨_, exec_rlCopy_of_room hroom, ?_⟩
  rcases rlCopyLoop_cases k.toNat (rlCopyOperands k s) with ⟨-, hcopied⟩ | ⟨hk0, hend, -⟩
  · rw [hcopied]
    exact ⟨rfl, rfl, fun _ => rfl, rfl⟩
  · rcases hin with rfl | hin
    · exact absurd rfl hk0
    · exact absurd hin (not_le.mpr hend)

/-- The fill loop appends the value `k` times (R121). -/
theorem exec_rlFill_fills (v : Byte) :
    ∃ t, exec (.rlFill k v) s = .next t ∧ t.out = s.out ++ List.replicate k.toNat v ∧ t.ip = s.ip + 2 ∧
      (∀ a, t.readByte .ring a = s.readByte .ring a) ∧ rlTokenFrame s t := by
  refine ⟨_, exec_rlFill_of_room hroom v, ?_⟩
  rw [rlFillLoop_eq]
  exact ⟨rfl, rfl, fun _ => rfl, rfl⟩

end

/-! ## The fetch of a token -/

/-- A token of the loop is fetched by its encoding (R119). -/
theorem step_of_rlToken {s : State} {i : Instr} {rest : Bytes} (hr : s.resetPending = false) (he : s.engine = .rleDec)
    (ho : s.op < s.n.toNat) (hin : s.inp.drop s.ip = encode s.params i ++ rest)
    (hdec : decode s.params .rlToken (encode s.params i ++ rest) = .instr i) : step s = exec i s :=
  step_of_decoded hr (fetch_rlToken he ho) (by rw [inputAtCursor, hin, hdec])

/-! ## The statements -/

/-- Settles O22: `tokensNeedRoom` has the length check, and with room the copy loop meets a missing literal or ends. -/
theorem rlCopyTakesLiterals : Obligations.RlCopyTakesLiterals := by
  refine fun s k => ⟨?overrun, exec_rlCopy_of_missing, exec_rlCopy_copies, fun hr he ho rest hin => ?fetched⟩
  case overrun =>
    obtain ⟨-, -, -, hfault, -⟩ := tokensNeedRoom s
    exact hfault k
  case fetched => exact step_of_rlToken hr he ho hin (decode_rlCopy s.params k rest)

/-- Settles O23: `tokensNeedRoom` has the length check, with room the fill loop ends, and the fetch of a control byte
alone is out of bytes. -/
theorem rlFillRepeatsItsByte : Obligations.RlFillRepeatsItsByte := by
  refine fun s k => ⟨?overrun, fun v hroom => exec_rlFill_fills hroom v,
    fun hr he ho => ⟨fun hin => ?missing, fun v rest hin => ?fetched⟩⟩
  case overrun =>
    obtain ⟨-, -, -, -, hfault, -⟩ := tokensNeedRoom s
    exact hfault k
  case missing =>
    have hbit : ((0 : BitVec 1) ++ k : Byte).getLsbD 7 = false := by
      rw [BitVec.getLsbD_append]
      rfl
    obtain ⟨-, -, -, -, -, -, -, -, hfault, -⟩ := stepFaultsWhereTheInputEnds s hr
    exact hfault he ho ⟨_, hin, hbit⟩
  case fetched => exact step_of_rlToken hr he ho hin (decode_rlFill s.params k v rest)

/-- Settles O24: an input shorter than 2^32 bytes passes the limit check, and `raise` keeps the store. -/
theorem rleEncAlwaysFaults : Obligations.RleEncAlwaysFaults :=
  fun _ hlen => ⟨_, withinLimit_of_lt hlen, rfl⟩

end Sys2Proof.Machine
end

section
/-! The container commands (43_container.md R125 to R141): the loops over entries, the return of a decode, the checks of a
save, and what the commands leave in the store. -/

open Sys2Proof.Claims

namespace Sys2Proof.Machine

/-! ## Where a loop over entries does not meet a header -/

section
variable {s : State} (he : s.engine = .arcEntries)
include he

/-- R125: the end of a load. -/
theorem fetch_loadEnd (ht : s.task = .load) (hi : ¬ s.arc.i < s.arc.count.toNat) :
    fetch s = .auto (.next (loadEnd s)) := by
  simp only [fetch, he, fetchEntries, ht, fetchHeader, if_neg hi]

/-- R133: the end of the load that begins `ARC.UNPACK`. -/
theorem fetch_unpackBegin (ht : s.task = .loadUnpack) (hi : ¬ s.arc.i < s.arc.count.toNat) :
    fetch s = .auto (.next (unpackBegin s)) := by
  simp only [fetch, he, fetchEntries, ht, fetchHeader, if_neg hi]

/-- R133: an entry that has its data is passed over. -/
theorem fetch_unpackPass {e : Entry} (ht : s.task = .unpack) (hw : s.arc.work[s.arc.i]? = some e)
    (hst : e.st ≠ .unloaded) : fetch s = .auto (.next { s with arc := { s.arc with i := s.arc.i + 1 } }) := by
  simp only [fetch, he, fetchEntries, ht, hw, if_neg hst]

/-- R133: the last entry is done. -/
theorem fetch_unpackEnd (ht : s.task = .unpack) (hw : s.arc.work.length ≤ s.arc.i) :
    fetch s = .auto (.next (unpackEnd s)) := by
  simp only [fetch, he, fetchEntries, ht, List.getElem?_eq_none hw]

/-- R135: a save takes the data of an entry that has it. -/
theorem fetch_saveTake {e : Entry} {d : Bytes} (ht : s.task = .saveDecode) (hw : s.arc.work[s.arc.i]? = some e)
    (hst : e.st ≠ .unloaded) (hd : e.data = some d) :
    fetch s = .auto (.next { s with task := .saveEncode, arc := { s.arc with d := s.arc.d ++ [d] } }) := by
  simp only [fetch, he, fetchEntries, ht, hw, if_neg hst, hd]

/-- R135: every entry is coded. -/
theorem fetch_saveEnd (ht : s.task = .saveDecode) (hw : s.arc.work.length ≤ s.arc.i) :
    fetch s = .auto (saveEnd s) := by
  simp only [fetch, he, fetchEntries, ht, List.getElem?_eq_none hw]

end

/-! ## The return of a decode -/

/-- The passes that decode an entry (R128, R132, R133, R135). -/
theorem Task.isDecode_iff {task : Task} :
    task.isDecode = true ↔ task = .decode ∨ task = .read ∨ task = .unpack ∨ task = .saveDecode := by
  cases task <;> simp [Task.isDecode]

section
variable {s : State} {e : Entry} {b : Bytes}

/-- The return of a decode goes on as the pass that decodes says (R128, R132, R133, R135). -/
theorem decodeReturn_returns (ht : s.task.isDecode = true) (hw : s.arc.work[s.arc.i]? = some e) (b : Bytes) :
    ∃ t, decodeReturn b s = .next t ∧ decodeReturned s t e b := by
  simp only [decodeReturn, hw, decodeReturned]
  rcases Task.isDecode_iff.mp ht with ht | ht | ht | ht <;> rw [ht] <;> exact ⟨_, rfl, rfl⟩

/-- In `ARC.UNPACK` the decoded entry joins the copy, and the next one's turn comes (R133). -/
theorem decodeReturn_of_unpack (ht : s.task = .unpack) (hw : s.arc.work[s.arc.i]? = some e) :
    decodeReturn b s = .next { s with
      engine := .arcEntries
      arc := { s.arc with work := s.arc.work.set s.arc.i (decodedEntry b e), i := s.arc.i + 1 } } := by
  simp only [decodeReturn, hw, ht]

theorem codecReturn_of_isDecode (ht : s.task.isDecode = true) : codecReturn b s = decodeReturn b s := by
  rcases Task.isDecode_iff.mp ht with ht | ht | ht | ht <;> simp only [codecReturn, ht]

end

/-- Settles O45: the end of a decoder's loop is the return of its output (R176). -/
theorem decodedBytesAreCached : Obligations.DecodedBytesAreCached := by
  intro s e hr he ho ht hw
  rw [step_of_fetch_auto hr (fetch_decoderEnd ho he), codecReturn_of_isDecode ht]
  exact decodeReturn_returns ht hw s.out

/-! ## The entry headers in a decode -/

section
variable {s : State} {e : Entry} {size : Word} (ht : s.task.isDecode = true) (hw : s.arc.work[s.arc.i]? = some e)
include ht hw

theorem exec_entryLzss_of_isDecode : exec (.entryLzss size) s = .next (startLzssDec e.raw size s) := by
  rw [exec, execEntryLzss, entryPass_of_isDecode ht hw]

theorem exec_entrySlide_of_isDecode : exec (.entrySlide size) s = .next (startSlideDec e.raw size s) := by
  rw [exec, execEntrySlide, entryPass_of_isDecode ht hw]

theorem exec_entryRle_of_isDecode : exec (.entryRle size) s = .next (startRleDec e.raw size s) := by
  rw [exec, execEntryRle, entryPass_of_isDecode ht hw]

/-- Under `FLIDE_IS_SLIDE` the Flide variants decode as Slide does. -/
theorem flideEntry_of_isDecode {kind : Kind} (hp : s.params.flideIsSlide = true) :
    flideEntry kind size s = .next (startSlideDec e.raw size s) := by
  rw [flideEntry, entryPass_of_isDecode ht hw, if_pos hp]

theorem exec_entryNone_of_isDecode : exec (.entryNone size) s =
    if e.raw.length < size.toNat then .next (raise .truncatedInputError s)
    else decodeReturn (e.raw.take size.toNat) s := by
  rw [exec, execEntryNone, entryPass_of_isDecode ht hw]

theorem exec_entryInflate_of_ok {d : Bytes} (hz : Config.zDecode e.raw size = .ok d) : exec (.entryInflate size) s =
    if d.length = size.toNat then decodeReturn d s else .next (raise .corruptDataError s) := by
  simp only [exec, execEntryInflate, entryPass_of_isDecode ht hw, hz]

theorem exec_entryInflate_of_fault {k : FaultKind} (hz : Config.zDecode e.raw size = .fault k) :
    exec (.entryInflate size) s = .next (raise k s) := by
  simp only [exec, execEntryInflate, entryPass_of_isDecode ht hw, hz]

end

/-- Settles O40: the header's decode starts the decoder in the container command's own state. -/
theorem decodeDispatchRunsTheCodec : Obligations.DecodeDispatchRunsTheCodec := by
  intro s e size ht hw hlen
  refine ⟨?lzss, ?slide, ?rle⟩
  case lzss => exact ⟨_, withinLimit_of_lt hlen, exec_entryLzss_of_isDecode ht hw⟩
  case slide =>
    exact ⟨_, withinLimit_of_lt hlen, exec_entrySlide_of_isDecode ht hw,
      fun hp => ⟨flideEntry_of_isDecode ht hw hp, flideEntry_of_isDecode ht hw hp⟩⟩
  case rle => exact ⟨_, withinLimit_of_lt hlen, exec_entryRle_of_isDecode ht hw⟩

/-- Settles O42: the header checks the raw length, then its first bytes are what the decode returns. -/
theorem noneEntryDecodesToItsFirstBytes : Obligations.NoneEntryDecodesToItsFirstBytes := by
  intro s e size ht hw
  rw [exec_entryNone_of_isDecode ht hw]
  refine ⟨fun hshort => if_pos hshort, fun hfits => ?_⟩
  rw [if_neg (not_lt.mpr hfits)]
  exact decodeReturn_returns ht hw _

/-- Settles O43: each clause is one value the external function may return. -/
theorem inflateGoesToTheExternalFunctions : Obligations.InflateGoesToTheExternalFunctions := by
  refine fun s size => ⟨fun e ht hw => ⟨?decodeFault, ?otherLength, ?decoded⟩, fun d ht hd => ⟨?encodeFault, ?encoded⟩⟩
  case decodeFault => exact fun k hz => exec_entryInflate_of_fault ht hw hz
  case otherLength => exact fun d hz hlen => (exec_entryInflate_of_ok ht hw hz).trans (if_neg hlen)
  case decoded =>
    intro d hz hlen
    rw [exec_entryInflate_of_ok ht hw hz, if_pos hlen]
    exact decodeReturn_returns ht hw d
  case encodeFault =>
    intro k hz
    simp only [exec, execEntryInflate, entryPass_of_saveEncode ht hd, hz]
  case encoded =>
    intro c hz
    refine ⟨_, ?_, rfl⟩
    simp only [exec, execEntryInflate, entryPass_of_saveEncode ht hd, hz, encodeReturn]

/-! ## `ARC.LOAD` and `ARC.UNPACK` -/

/-- Settles O38: the buffer passes the limit check, and the end of the loop commits the copy. -/
theorem loadReplacesTheContainer : Obligations.LoadReplacesTheContainer := fun _ =>
  ⟨fun hlen => ⟨_, withinLimit_of_lt hlen, rfl, rfl, rfl, rfl⟩,
    fun hr he ht hi => ⟨_, step_of_fetch_auto hr (fetch_loadEnd he ht hi), rfl⟩⟩

/-- Settles O39: what the loop fetches at each kind of entry and after the last, and the return of a decoder into it. -/
theorem unpackLoadsThenDecodesEveryEntry : Obligations.UnpackLoadsThenDecodesEveryEntry := by
  refine fun s => ⟨?start, fun hr he => ⟨?loaded, ?unloaded, ?passed, ?ended⟩, ?decoderEnd⟩
  case start => exact fun hlen => ⟨_, withinLimit_of_lt hlen, rfl, rfl, rfl, rfl⟩
  case loaded => exact fun ht hi => step_of_fetch_auto hr (fetch_unpackBegin he ht hi)
  case unloaded =>
    exact fun e ht hw hst =>
      step_of_fetch_run hr (fetch_storedEntry he hw (.inr (.inr (.inr (.inl ⟨ht, hst⟩)))))
  case passed => exact fun e ht hw hst => step_of_fetch_auto hr (fetch_unpackPass he ht hw hst)
  case ended => exact fun ht hw => ⟨_, step_of_fetch_auto hr (fetch_unpackEnd he ht hw), rfl⟩
  case decoderEnd =>
    intro e hr he ht ho hw
    calc step s = codecReturn s.out s := step_of_fetch_auto hr (fetch_decoderEnd ho he)
      _ = decodeReturn s.out s := codecReturn_of_isDecode (Task.isDecode_iff.mpr (.inr (.inr (.inl ht))))
      _ = _ := decodeReturn_of_unpack ht hw

/-! ## `ARC.DECODE` and `ARC.READ` -/

/-- Settles O44: both commands branch on the state of the entry alone. -/
theorem decodeCommandsUseTheCache : Obligations.DecodeCommandsUseTheCache := by
  intro s e hentry
  refine ⟨fun hst => ⟨startEntries .decode s.operands.index s, startEntries .read s.operands.index s, ?_, rfl, ?_, rfl,
    rfl, rfl, rfl, rfl, rfl⟩, fun d hst hd => ⟨_, _, ?_, rfl, ?_, rfl⟩⟩
  · simp only [exec, execArcDecode, hentry, if_pos hst]
  · simp only [exec, execArcRead, hentry, if_pos hst]
  · simp only [exec, execArcDecode, hentry, if_neg hst]
    rfl
  · simp only [exec, execArcRead, hentry, if_neg hst, hd, Option.getD_some]
    rfl

/-! ## `ARC.SAVE` -/

/-- The kinds with an encoder (R134). -/
theorem hasEncoder_iff {p : Params} {kind : Kind} : hasEncoder p kind = true ↔
    kind ≠ .rle ∧ (∀ t, kind ≠ .unknown t) ∧
      (p.flideIsSlide = true ∨ (kind ≠ .flideVariantA ∧ kind ≠ .flideVariantB)) := by
  cases kind <;> simp [hasEncoder]

/-- Settles O46: pass 1 lets every kind pass but those that have no encoder. -/
theorem saveChecksTheKindsFirst : Obligations.SaveChecksTheKindsFirst := by
  refine fun s => ⟨?lacking, fun hkinds => ?encoded⟩
  case lacking =>
    rintro ⟨e, hmem, hkind⟩
    refine if_neg fun hall => ?_
    obtain ⟨hrle, hunknown, hflide⟩ := hasEncoder_iff.mp (List.all_eq_true.mp hall e hmem)
    rcases hkind with h | ⟨t, h⟩ | ⟨hp, h⟩
    · exact hrle h
    · exact hunknown t h
    · obtain ⟨hA, hB⟩ := hflide.resolve_left (by simp [hp])
      exact h.elim hA hB
  case encoded =>
    have hall : (s.store.all fun e => hasEncoder s.params e.kind) = true :=
      List.all_eq_true.mpr fun e hmem => hasEncoder_iff.mpr (hkinds e hmem)
    exact ⟨startEntries .saveDecode 0 s, if_pos hall, rfl, rfl, rfl, rfl, rfl, rfl, rfl⟩

section
variable {es : List Entry} {ds cs : List Bytes}

theorem savedEntries_length (hd : ds.length = es.length) (hc : cs.length = es.length) :
    (savedEntries es ds cs).length = es.length := by
  simp only [savedEntries, List.length_zipWith, List.length_zip, hd, hc, min_self]

/-- A save commits each entry with its own payload and coded bytes (R135). -/
theorem savedEntries_getElem? {j : Nat} {e : Entry} {d c : Bytes} (he : es[j]? = some e) (hd : ds[j]? = some d)
    (hc : cs[j]? = some c) : (savedEntries es ds cs)[j]? = some (savedEntry e d c) := by
  have hzip : (ds.zip cs)[j]? = some (d, c) := List.getElem?_zip_eq_some.mpr ⟨hd, hc⟩
  simp only [savedEntries, List.getElem?_zipWith, he, hzip]

end

/-- Settles O48: what pass 2 fetches at an entry, and its end, which commits the entries or meets the limit. -/
theorem saveCommitsEveryEntry : Obligations.SaveCommitsEveryEntry := by
  refine fun s hr he ht => ⟨fun e hw => ⟨fun hst => ?unloaded, fun d hst hd => ?taken⟩, fun hi hd hc => ?ended⟩
  case unloaded => exact step_of_fetch_run hr (fetch_storedEntry he hw (.inr (.inr (.inr (.inr ⟨ht, hst⟩)))))
  case taken => exact step_of_fetch_auto hr (fetch_saveTake he ht hw hst hd)
  case ended =>
    have hstep : step s = saveEnd s := step_of_fetch_auto hr (fetch_saveEnd he ht hi.ge)
    refine ⟨fun hshort => ⟨_, hstep.trans (withinLimit_of_lt hshort), rfl, savedEntries_length hd hc, ?entries⟩,
      fun hlong => hstep.trans (withinLimit_of_le hlong)⟩
    case entries => exact fun j e d x hej hdj hxj => savedEntries_getElem? hej hdj hxj

/-! ## `ARC.ADD` -/

/-- Whether a name ends with a suffix is told from the ends backwards. -/
theorem isSuffixOf_append (x base y : Name) :
    x.isSuffixOf (base ++ y) = x.reverse.isPrefixOf (y.reverse ++ base.reverse) := by
  rw [List.isSuffixOf, List.reverse_append]

theorem isSuffixOf_eq_false {x name : Name} (h : ∀ base, name ≠ base ++ x) : x.isSuffixOf name = false := by
  rw [Bool.eq_false_iff, ne_eq, List.isSuffixOf_iff_suffix]
  rintro ⟨base, hname⟩
  exact h base hname.symm

/-- Settles O50: of the five suffixes none ends another, so the order of the tests does not matter. -/
theorem addAppendsADecodedEntry : Obligations.AddAppendsADecodedEntry := by
  refine ⟨fun s hlen => ⟨_, withinLimit_of_lt hlen, rfl⟩, fun p base => ⟨?lz, ?s, ?fs, ?fsa, ?z, fun h => ?none⟩⟩
  case lz => simp [suffixKind, isSuffixOf_append]
  case s => simp [suffixKind, isSuffixOf_append]
  case fs =>
    have hkind : suffixKind p (base ++ ['.', 'f', 's']) = variantKind p.suffixFs := by
      simp [suffixKind, isSuffixOf_append]
    exact hkind
  case fsa =>
    have hkind : suffixKind p (base ++ ['.', 'f', 's', 'a']) = variantKind p.suffixFsa := by
      simp [suffixKind, isSuffixOf_append]
    exact hkind
  case z => simp [suffixKind, isSuffixOf_append]
  case none =>
    simp only [forall_and] at h
    obtain ⟨hlz, hs, hfs, hfsa, hz⟩ := h
    simp only [suffixKind, isSuffixOf_eq_false hlz, isSuffixOf_eq_false hs, isSuffixOf_eq_false hfs,
      isSuffixOf_eq_false hfsa, isSuffixOf_eq_false hz, Bool.false_eq_true, if_false]

/-! ## `ARC.DEL`, `ARC.REPLACE` and `ARC2.LOAD` -/

/-- Settles O51: erasing at an index leaves what stands before it and after it. -/
theorem delRemovesTheEntry : Obligations.DelRemovesTheEntry := by
  intro s hi
  rw [← List.eraseIdx_eq_take_drop_succ]
  exact ⟨_, if_pos hi, rfl⟩

/-- Settles O52: the store is written at the index alone. -/
theorem replaceSetsTheData : Obligations.ReplaceSetsTheData := by
  intro s e hlen hentry
  refine ⟨_, ?_, rfl⟩
  simp only [exec, execArcReplace, hentry, withinLimit_of_lt hlen]
  rfl

/-- Settles O53: the arm gives the refusal whatever the state is (R141). -/
theorem secondShapeIsRefused : Obligations.SecondShapeIsRefused := fun _ => rfl

end Sys2Proof.Machine
end

section
/-! What a step leaves in `STATUS` and in the result, and a step that ends a running command with a fault
(60_exceptions.md R145, R152, R153). -/

open Sys2Proof.Claims

namespace Sys2Proof.Machine

section
variable {s t u : State}

/-! ## `STATUS` and the result last returned -/

/-- The invariant looks at `STATUS` and the result alone. -/
theorem statusTellsResult_congr (hstatus : t.status = s.status) (hresult : t.result = s.result) :
    statusTellsResult t = statusTellsResult s := by
  unfold statusTellsResult
  rw [hstatus, hresult]

/-- Taking a fault sets `STATUS` to its code and hands the fault to the host (R145, R152). -/
theorem statusTellsResult_raise (k : FaultKind) : statusTellsResult (raise k s) = true := by
  simp [statusTellsResult]

/-- An `Ok` sets `STATUS` to 0 and hands its payload to the host (R39, R145). -/
theorem statusTellsResult_finish (p : Payload) : statusTellsResult (finish p s) = true := rfl

/-- The reset event clears `STATUS` and discards the result (R42, R163). -/
theorem statusTellsResult_resetEvent : statusTellsResult (resetEvent s) = true := rfl

/-- What comes of running something keeps the invariant: a command's end sets `STATUS` and the result together, anything
else writes neither. -/
theorem statusTellsResult_of_outcomeIs {goesOn : Prop} (hu : statusTellsResult u = true) (hout : outcomeIs u t goesOn) :
    statusTellsResult t = true := by
  obtain ⟨k, rfl⟩ | ⟨p, st, rfl⟩ | ⟨-, -, hstatus, hresult, -⟩ := hout
  · exact statusTellsResult_raise k
  · exact statusTellsResult_finish p
  · rw [statusTellsResult_congr hstatus hresult, hu]

/-! ## A fault of a running command -/

/-- Taking a fault depends on the persistent state and the port alone, so the state it is taken in may differ in scratch
state from the one the step began in (R152, R153). -/
theorem endedWith_raise (k : FaultKind) (hstore : u.store = s.store) (hparams : u.params = s.params)
    (hcmd : u.cmd = s.cmd) (hrequests : u.requests = s.requests) (hreset : u.resetPending = s.resetPending) :
    endedWith s (raise k u) s.store (faultCode k) (.fault k) := by
  simp only [endedWith, raise, dropScratch, hstore, hparams, hcmd, hrequests, hreset]

end

/-! ## The statements -/

/-- Settles O58, by `step_outcome`. -/
theorem statusFollowsTheResult : Obligations.StatusFollowsTheResult := by
  refine ⟨fun _ _ => ⟨rfl, rfl, rfl, rfl⟩, fun s t hs hstep => ?_⟩
  cases hr : s.resetPending with
  | true =>
    rw [step_of_resetPending hr] at hstep
    cases hstep
    exact statusTellsResult_resetEvent
  | false =>
    obtain ⟨-, -, rfl⟩ | ⟨u, -, hstatus, hresult, -, -, -, hout⟩ := step_outcome hstep hr
    · exact hs
    · exact statusTellsResult_of_outcomeIs ((statusTellsResult_congr hstatus hresult).trans hs) hout

/-- Settles O10: by `step_outcome` a running command's step that leaves the block idle with a fault for its result has taken
that fault, in a state that differs from the one before in scratch state at most. -/
theorem faultedCommandChangesNothing : Obligations.FaultedCommandChangesNothing := by
  intro s t k hr he hstep hidle hresult
  obtain ⟨hidle', -⟩ | ⟨u, hstore, -, -, hparams, hreset, hport, hout⟩ := step_outcome hstep hr
  · exact absurd hidle' he
  obtain ⟨hcmd, hrequests⟩ := hport he
  obtain ⟨k', rfl⟩ | ⟨p, st, rfl⟩ | ⟨hrun, -⟩ := hout
  · obtain rfl : k' = k := by simpa using hresult
    exact endedWith_raise k' hstore hparams hcmd hrequests hreset
  · simp at hresult
  · exact absurd hidle hrun

end Sys2Proof.Machine
end
